-- ==== Sys2Proof/Word.lean ====
section
/-! DEFINITION. The word types of the block (00_scope.md R8) and nothing else. -/

namespace Sys2Proof

/-- One byte of a memory or of the compressed stream. -/
abbrev Byte := BitVec 8

/-- A host register, a command word, a micro-operation word or a checksum (R8: "Host registers are 32 bits wide"). -/
abbrev Word := BitVec 32

/-- A 64-bit operand or result, exposed to the host as a LO/HI pair (R8). -/
abbrev DWord := BitVec 64

end Sys2Proof
end

