-- ==== Sys2Proof/Syntax.lean ====
section
/-! DEFINITION. The instructions: one constructor per row of spec/opcode_table.json. -/

namespace Sys2Proof

/-- Field M of a micro-operation word (30_encoding.md R129): 1 = DELIVER, 0 = DISCARD. -/
inductive Mode where
  | discard
  | deliver
  deriving DecidableEq, Repr, Inhabited

/-- The 16 host commands (30_encoding.md R121, R122, R127) and the 26 micro-operations and procedures (R129).
c is field A as a channel index, n is field A as a bit count, st is field Bs, m is field M. -/
inductive Instr where
  | nop
  | init
  | initR
  | getdata
  | seek
  | getinfoChannels
  | getinfoSampleRate
  | getinfoBitsPerSample
  | getinfoBlockAlign
  | getinfoTotalBlocks
  | getinfoCurrentBlock
  | getinfoCompressionLevel
  | getinfoHadErrors
  | getinfoFormatVersion
  | getinfoLegacyMode
  | release
  | uSrcSeek
  | uSrcRead
  | uSrcSize
  | uBrReset
  | uBrFetch
  | uBrReadbit
  | uBrReadbits (n : Nat)
  | uBrHeader
  | uBrSymbol
  | uPredReset (c : Nat)
  | uStageStep (c : Nat) (st : Nat)
  | uPredStep (c : Nat)
  | uUnprepare
  | uPack
  | uSilence
  | uCkUpdate
  | uRingReset
  | uRingWrite
  | uRingRead
  | uRingDrop
  | uRingSilenceTail
  | uStartFrame (m : Mode)
  | uDecodeBlock (m : Mode)
  | uEndFrame (m : Mode)
  | pDecodeFrame (m : Mode)
  | pPosition
  deriving DecidableEq, Repr

end Sys2Proof
end

