-- ==== Sys2Proof/WellFormed.lean ====
section
/-! DEFINITION. Which instructions an encoding of 30_encoding.md R129 can carry. -/

namespace Sys2Proof

/-- The instruction is a host command (30_encoding.md R121), not a micro-operation. -/
def Instr.isCommand : Instr → Bool
  | .nop | .init | .initR | .getdata | .seek | .getinfoChannels | .getinfoSampleRate | .getinfoBitsPerSample
  | .getinfoBlockAlign | .getinfoTotalBlocks | .getinfoCurrentBlock | .getinfoCompressionLevel | .getinfoHadErrors
  | .getinfoFormatVersion | .getinfoLegacyMode | .release => true
  | .uSrcSeek | .uSrcRead | .uSrcSize | .uBrReset | .uBrFetch | .uBrReadbit | .uBrReadbits _ | .uBrHeader | .uBrSymbol
  | .uPredReset _ | .uStageStep _ _ | .uPredStep _ | .uUnprepare | .uPack | .uSilence | .uCkUpdate | .uRingReset
  | .uRingWrite | .uRingRead | .uRingDrop | .uRingSilenceTail | .uStartFrame _ | .uDecodeBlock _ | .uEndFrame _
  | .pDecodeFrame _ | .pPosition => false

/-- Fields A and Bs are 8 bits wide (R129), and U_BR_READBITS reads 1 to 32 bits (R129, 41_bitreader.md R205). -/
def Instr.wf : Instr → Bool
  | .uBrReadbits n => decide (1 ≤ n ∧ n ≤ 32)
  | .uPredReset c => decide (c < 256)
  | .uStageStep c st => decide (c < 256 ∧ st < 256)
  | .uPredStep c => decide (c < 256)
  | .nop | .init | .initR | .getdata | .seek | .getinfoChannels | .getinfoSampleRate | .getinfoBitsPerSample
  | .getinfoBlockAlign | .getinfoTotalBlocks | .getinfoCurrentBlock | .getinfoCompressionLevel | .getinfoHadErrors
  | .getinfoFormatVersion | .getinfoLegacyMode | .release | .uSrcSeek | .uSrcRead | .uSrcSize | .uBrReset | .uBrFetch
  | .uBrReadbit | .uBrHeader | .uBrSymbol | .uUnprepare | .uPack | .uSilence | .uCkUpdate | .uRingReset | .uRingWrite
  | .uRingRead | .uRingDrop | .uRingSilenceTail | .uStartFrame _ | .uDecodeBlock _ | .uEndFrame _ | .pDecodeFrame _
  | .pPosition => true

end Sys2Proof
end

