-- ==== Sys2Proof/Decode.lean ====
section
/-! DEFINITION. The decoder, total on any bytes and rejecting by name, and the encoder, both written from the encoding
tables of 30_encoding.md (R120 to R123, R127, R129). Host commands and micro-operations are two word spaces, told apart by
their low byte in the opcode table (OPCODE 0x00 to 0x05, UCODE from 0x10); a write to CMD is decoded in the command space
alone, a micro-operation word in the other (log 21). -/

namespace Sys2Proof

/-- Why a word is no instruction. -/
inductive Reject where
  /-- Fewer than four bytes are left. -/
  | tooShort
  /-- RSVD ≠ 0 (R123). -/
  | rsvdNotZero
  /-- OPCODE 0x06 to 0xFF (R123). -/
  | reservedOpcode
  /-- A SUB bit that R122 says must be 0 is 1 (R123). -/
  | subNotZero
  /-- GETINFO with SUB 0x0A to 0xFF: well-formed, and BAD_PARAMETER at execution (R122, 46_host_commands.md R406). -/
  | reservedField
  /-- A UCODE that R129 does not list. -/
  | unknownUcode
  /-- Bits 31:25 of a micro-operation word are not 0 (R129). -/
  | uopBitsNotZero
  deriving DecidableEq, Repr

/-- GETINFO's field code (R127). -/
def decodeGetinfo (sub : Nat) : Except Reject Instr :=
  match sub with
  | 0x00 => .ok .getinfoChannels
  | 0x01 => .ok .getinfoSampleRate
  | 0x02 => .ok .getinfoBitsPerSample
  | 0x03 => .ok .getinfoBlockAlign
  | 0x04 => .ok .getinfoTotalBlocks
  | 0x05 => .ok .getinfoCurrentBlock
  | 0x06 => .ok .getinfoCompressionLevel
  | 0x07 => .ok .getinfoHadErrors
  | 0x08 => .ok .getinfoFormatVersion
  | 0x09 => .ok .getinfoLegacyMode
  | _ => .error .reservedField

/-- A command whose SUB must be 0 (R122). -/
def plainSub (sub : Nat) (i : Instr) : Except Reject Instr :=
  if sub = 0 then .ok i else .error .subNotZero

/-- A word written to CMD (R120 to R123): OPCODE 7:0, SUB 15:8, RSVD 31:16. -/
def decodeCmd (w : Word) : Except Reject Instr :=
  let opcode := w.toNat % 256
  let sub := w.toNat / 256 % 256
  let rsvd := w.toNat / 65536
  if rsvd ≠ 0 then .error .rsvdNotZero
  else match opcode with
    | 0x00 => plainSub sub .nop
    | 0x01 => if sub = 1 then .ok .initR else plainSub sub .init
    | 0x02 => plainSub sub .getdata
    | 0x03 => plainSub sub .seek
    | 0x04 => decodeGetinfo sub
    | 0x05 => plainSub sub .release
    | _ => .error .reservedOpcode

/-- Field M (R129). -/
def modeOf (m : Nat) : Mode := if m = 1 then .deliver else .discard

/-- A micro-operation word (R129): UCODE 7:0, A 15:8, Bs 23:16, M 24, zeros 31:25. Fields a micro-operation does not use
are not read (log 20). -/
def decodeUop (w : Word) : Except Reject Instr :=
  let ucode := w.toNat % 256
  let a := w.toNat / 256 % 256
  let bs := w.toNat / 65536 % 256
  let m := modeOf (w.toNat / 16777216 % 2)
  if w.toNat / 33554432 ≠ 0 then .error .uopBitsNotZero
  else match ucode with
    | 0x10 => .ok .uSrcSeek
    | 0x11 => .ok .uSrcRead
    | 0x12 => .ok .uSrcSize
    | 0x20 => .ok .uBrReset
    | 0x21 => .ok .uBrFetch
    | 0x22 => .ok .uBrReadbit
    | 0x23 => .ok (.uBrReadbits a)
    | 0x24 => .ok .uBrHeader
    | 0x25 => .ok .uBrSymbol
    | 0x30 => .ok (.uPredReset a)
    | 0x31 => .ok (.uStageStep a bs)
    | 0x32 => .ok (.uPredStep a)
    | 0x40 => .ok .uUnprepare
    | 0x41 => .ok .uPack
    | 0x42 => .ok .uSilence
    | 0x43 => .ok .uCkUpdate
    | 0x50 => .ok .uRingReset
    | 0x51 => .ok .uRingWrite
    | 0x52 => .ok .uRingRead
    | 0x53 => .ok .uRingDrop
    | 0x54 => .ok .uRingSilenceTail
    | 0x60 => .ok (.uStartFrame m)
    | 0x61 => .ok (.uDecodeBlock m)
    | 0x62 => .ok (.uEndFrame m)
    | 0x70 => .ok (.pDecodeFrame m)
    | 0x71 => .ok .pPosition
    | _ => .error .unknownUcode

/-- Both word spaces of the opcode table together. -/
def decodeWord (w : Word) : Except Reject Instr :=
  if w.toNat % 256 < 16 then decodeCmd w else decodeUop w

/-- The instruction at the head of a byte sequence, least significant byte first (20_memory.md R84), and the bytes after
it. Every instruction is four bytes long (R120, R129). -/
def decodeBytes : List Byte → Except Reject (Instr × List Byte)
  | b0 :: b1 :: b2 :: b3 :: rest =>
    match decodeWord (b3 ++ b2 ++ b1 ++ b0) with
    | .ok i => .ok (i, rest)
    | .error e => .error e
  | [] | [_] | [_, _] | [_, _, _] => .error .tooShort

/-- The four bytes of a word, least significant first (20_memory.md R84). -/
def wordBytes (w : Word) : List Byte :=
  [w.extractLsb' 0 8, w.extractLsb' 8 8, w.extractLsb' 16 8, w.extractLsb' 24 8]

/-- The word the opcode table numbers w, with every bit from nbits up 0. -/
def tableWord (nbits w : Nat) : Word := BitVec.ofNat 32 (w % 2 ^ nbits)

/-- What the decoder reads from the table's word w of nbits bits. -/
def decodeTableWord (nbits w : Nat) : Option Instr :=
  match decodeBytes (wordBytes (tableWord nbits w)) with
  | .ok (i, _) => some i
  | .error _ => none

/-- A command word (R120). -/
def cmdWord (opcode sub : Nat) : Word := BitVec.ofNat 32 (opcode + 256 * sub)

/-- A micro-operation word (R129). -/
def uopWord (ucode a bs m : Nat) : Word := BitVec.ofNat 32 (ucode + 256 * a + 65536 * bs + 16777216 * m)

/-- Field M of a mode (R129). -/
def modeBit : Mode → Nat
  | .discard => 0
  | .deliver => 1

/-- The word of a well-formed instruction (R121, R122, R127, R129). -/
def encode : Instr → Word
  | .nop => cmdWord 0x00 0
  | .init => cmdWord 0x01 0
  | .initR => cmdWord 0x01 1
  | .getdata => cmdWord 0x02 0
  | .seek => cmdWord 0x03 0
  | .getinfoChannels => cmdWord 0x04 0
  | .getinfoSampleRate => cmdWord 0x04 1
  | .getinfoBitsPerSample => cmdWord 0x04 2
  | .getinfoBlockAlign => cmdWord 0x04 3
  | .getinfoTotalBlocks => cmdWord 0x04 4
  | .getinfoCurrentBlock => cmdWord 0x04 5
  | .getinfoCompressionLevel => cmdWord 0x04 6
  | .getinfoHadErrors => cmdWord 0x04 7
  | .getinfoFormatVersion => cmdWord 0x04 8
  | .getinfoLegacyMode => cmdWord 0x04 9
  | .release => cmdWord 0x05 0
  | .uSrcSeek => uopWord 0x10 0 0 0
  | .uSrcRead => uopWord 0x11 0 0 0
  | .uSrcSize => uopWord 0x12 0 0 0
  | .uBrReset => uopWord 0x20 0 0 0
  | .uBrFetch => uopWord 0x21 0 0 0
  | .uBrReadbit => uopWord 0x22 0 0 0
  | .uBrReadbits n => uopWord 0x23 n 0 0
  | .uBrHeader => uopWord 0x24 0 0 0
  | .uBrSymbol => uopWord 0x25 0 0 0
  | .uPredReset c => uopWord 0x30 c 0 0
  | .uStageStep c st => uopWord 0x31 c st 0
  | .uPredStep c => uopWord 0x32 c 0 0
  | .uUnprepare => uopWord 0x40 0 0 0
  | .uPack => uopWord 0x41 0 0 0
  | .uSilence => uopWord 0x42 0 0 0
  | .uCkUpdate => uopWord 0x43 0 0 0
  | .uRingReset => uopWord 0x50 0 0 0
  | .uRingWrite => uopWord 0x51 0 0 0
  | .uRingRead => uopWord 0x52 0 0 0
  | .uRingDrop => uopWord 0x53 0 0 0
  | .uRingSilenceTail => uopWord 0x54 0 0 0
  | .uStartFrame m => uopWord 0x60 0 0 (modeBit m)
  | .uDecodeBlock m => uopWord 0x61 0 0 (modeBit m)
  | .uEndFrame m => uopWord 0x62 0 0 (modeBit m)
  | .pDecodeFrame m => uopWord 0x70 0 0 (modeBit m)
  | .pPosition => uopWord 0x71 0 0 0

/-- The bytes of an instruction in the order of ascending addresses. -/
def encodeBytes (i : Instr) : List Byte := wordBytes (encode i)

end Sys2Proof
end

