-- ==== Sys2Proof/Config.lean ====
section
/-! DEFINITION. What an implementation fixes (the parameters of 00_scope.md R7) and the values the spec leaves free.
Every parameter that is plain data is a field of `Params`, which State holds, so that a statement about every state is a
statement about every value of the parameters. The three parameters that are functions (WIRE_FORMAT, CHECKSUM, UNPREPARE)
are chosen by name: the instance the spec defines, or an external one given by an opaque constant (log 2). -/

namespace Sys2Proof

/-- BIT_ORDER: "MSB_FIRST_BYTES is the only value defined" (R7, 41_bitreader.md R202). -/
inductive BitOrder where
  | msbFirstBytes
  deriving DecidableEq, Repr, Inhabited

/-- WIRE_FORMAT (41_bitreader.md R206): TEST_RICE, or the format of `Config.extHeader` and `Config.extSymbol`. -/
inductive WireFormat where
  | testRice
  | external
  deriving DecidableEq, Repr, Inhabited

/-- CHECKSUM (43_reconstructor.md R297): CRC32, or the one of `Config.extCkUpdate` and its companions. -/
inductive Checksum where
  | crc32
  | external
  deriving DecidableEq, Repr, Inhabited

/-- UNPREPARE (43_reconstructor.md R291): MS_TRUNC, or the one of `Config.extUnprepare`. -/
inductive Unprepare where
  | msTrunc
  | external
  deriving DecidableEq, Repr, Inhabited

/-- One filter stage's configuration (42_predictor.md R251), with the manual's field names. -/
structure StageCfg where
  N : Nat
  k : Nat
  mu : Nat
  Wc : Nat
  Wh : Nat
  deriving DecidableEq, Repr, Inhabited

/-- The constraints of 42_predictor.md R251. -/
def StageCfg.wf (c : StageCfg) : Bool :=
  decide (1 ≤ c.N ∧ c.N ≤ 2 ^ 16 ∧ c.k ≤ 62 ∧ 2 ≤ c.Wc ∧ c.Wc ≤ 32 ∧ 2 ≤ c.Wh ∧ c.Wh ≤ 32)

/-- One row of the STAGES table (42_predictor.md R252). -/
structure StageRow where
  level : Nat
  legacy : Bool
  stages : List StageCfg
  deriving DecidableEq, Repr, Inhabited

/-- The parameters of 00_scope.md R7 that the model reads. IRQ_ROUTE and STEP_TIMING are "not modelled" and "untimed"
there (log 27). -/
structure Params where
  maxChannels : Nat
  ringFrames : Nat
  maxFrameBlocks : Nat
  outbufBytes : Nat
  seektabEntries : Nat
  fetchBytes : Nat
  resyncInterval : Nat
  wireFormat : WireFormat
  stages : List StageRow
  levels : List Nat
  minVersion : Nat
  maxVersion : Nat
  legacyVersion : Nat
  checksum : Checksum
  unprepare : Unprepare
  idValue : Word
  bitOrder : BitOrder
  apertureBase : DWord
  deriving DecidableEq, Repr, Inhabited

/-- STAGES(level, legacy) (42_predictor.md R252), read from the table. -/
def Params.stagesOf (p : Params) (level : Nat) (legacy : Bool) : List StageCfg :=
  match p.stages.find? (fun r => r.level == level && r.legacy == legacy) with
  | some r => r.stages
  | none => []

/-- The constraints of 00_scope.md R7 and of 42_predictor.md R251 and R252 ("maps each level in LEVELS and each legacy
flag to a stage list"). -/
def Params.wf (p : Params) : Bool :=
  decide (1 ≤ p.maxChannels ∧ 1 ≤ p.ringFrames ∧ 1 ≤ p.maxFrameBlocks ∧ 1 ≤ p.outbufBytes ∧ p.outbufBytes ≤ 2 ^ 24 ∧
    1 ≤ p.seektabEntries ∧ p.seektabEntries ≤ 2 ^ 17 ∧ 1 ≤ p.fetchBytes ∧ p.minVersion ≤ p.maxVersion) &&
  p.stages.all (fun r => r.stages.all StageCfg.wf) &&
  p.levels.all (fun l => [false, true].all fun g => p.stages.any fun r => r.level == l && r.legacy == g)

/-- The TEST profile (R7's TEST column, 42_predictor.md R252's TEST table). -/
def Params.test : Params where
  maxChannels := 2
  ringFrames := 1
  maxFrameBlocks := 256
  outbufBytes := 65536
  seektabEntries := 1024
  fetchBytes := 4
  resyncInterval := 0
  wireFormat := .testRice
  stages := [⟨1, false, []⟩, ⟨1, true, []⟩, ⟨2, false, [⟨2, 1, 1, 16, 16⟩]⟩, ⟨2, true, [⟨1, 0, 1, 16, 16⟩]⟩]
  levels := [1, 2]
  minVersion := 1
  maxVersion := 3
  legacyVersion := 2
  checksum := .crc32
  unprepare := .msTrunc
  idValue := 0x4D414331
  bitOrder := .msbFirstBytes
  apertureBase := 0

/-- The session configuration CFG (10_state.md R32), with the manual's field names. -/
structure SessionCfg where
  C : Nat
  sampleRate : Nat
  bps : Nat
  BA : Nat
  total : Nat
  B : Nat
  level : Nat
  version : Nat
  payOff : Nat
  payLen : Nat
  S : Nat
  F : Nat
  numFrames : Nat
  legacy : Bool
  stages : List StageCfg
  deriving DecidableEq, Repr, Inhabited

/-- A configuration with each field cut to the width of the register or offset it is read from (00_scope.md R8). Its stages are not held
to the constraints of 42_predictor.md R251 (log 36). -/
def SessionCfg.clip (c : SessionCfg) : SessionCfg :=
  { c with C := c.C % 2 ^ 32, sampleRate := c.sampleRate % 2 ^ 32, bps := c.bps % 2 ^ 32, BA := c.BA % 2 ^ 32,
           total := c.total % 2 ^ 64, B := c.B % 2 ^ 32, level := c.level % 2 ^ 32, version := c.version % 2 ^ 32,
           payOff := c.payOff % 2 ^ 64, payLen := c.payLen % 2 ^ 64, S := c.S % 2 ^ 64, F := c.F % 2 ^ 64,
           numFrames := c.numFrames % 2 ^ 64 }

/-- A frame header that decoded (41_bitreader.md R206: storedCk, special, ent). -/
structure HeaderOk where
  storedCk : Word
  silent : Bool
  ent : Nat
  deriving DecidableEq, Repr, Inhabited

/-- A symbol that decoded (41_bitreader.md R206: the signed 64-bit residual and the next entropy state). -/
structure SymbolOk where
  e : DWord
  ent : Nat
  deriving DecidableEq, Repr, Inhabited

/-- The two ways the BitReader rejects a frame (41_bitreader.md R211): the source's "stream-corruption error". -/
inductive FrameErr where
  | prematureEnd
  | invalidSymbol
  deriving DecidableEq, Repr, Inhabited

/-- A member of a WIRE_FORMAT (41_bitreader.md R206) as a finite program over the frame's bit stream: it reads only
through U_BR_READBIT and U_BR_READBITS, goes on with what each read returned (none is PREMATURE_END), and ends with a result or with
either error. -/
inductive WireProg (α : Type) where
  | ret (a : α)
  | fail (e : FrameErr)
  | bit (k : Option Bool → WireProg α)
  | bits (n : Nat) (k : Option Nat → WireProg α)
  deriving Inhabited

/-- The OPEN instance of WIRE_FORMAT.header (R206; 92_eei_decisions.md D12), applied to the number of bits of the frame's bit stream and
the bit position: its result is "a function of the frame's bit stream ..., the bit position and the State alone". -/
opaque Config.extHeader : Nat → Nat → WireProg HeaderOk

/-- The OPEN instance of WIRE_FORMAT.symbol (R206), applied to the entropy state, the number of bits of the frame's bit stream and the bit
position. -/
opaque Config.extSymbol : Nat → Nat → Nat → WireProg SymbolOk

/-- The OPEN instance of WIRE_FORMAT.reset (R206). -/
opaque Config.extEntReset : Nat

/-- The OPEN instance of CHECKSUM.init (43_reconstructor.md R297). -/
opaque Config.extCkInit : Word

/-- The OPEN instance of CHECKSUM.update (R297). -/
opaque Config.extCkUpdate : Word → Byte → Word

/-- The OPEN instance of CHECKSUM.final (R297). -/
opaque Config.extCkFinal : Word → Word

/-- The OPEN instance of UNPREPARE (43_reconstructor.md R291), giving (L, R). -/
opaque Config.extUnprepare : DWord → DWord → DWord × DWord

/-- CFG where the spec calls it unspecified: after reset and after RELEASE (10_state.md R32, 46_host_commands.md R417),
for the given value of the draw counter. -/
opaque Config.freeCfg : Nat → SessionCfg

/-- That CFG within its widths (00_scope.md R8; log 9). -/
def unspecifiedCfg (draw : Nat) : SessionCfg := (Config.freeCfg draw).clip

/-- ring.cap where the spec calls it unspecified (10_state.md R45). -/
opaque Config.freeRingCap : Nat → Nat

/-- That capacity, a 64-bit block count (00_scope.md R8; log 9). -/
def unspecifiedCap (draw : Nat) : Nat := Config.freeRingCap draw % 2 ^ 64

/-- A byte of SEEKTAB or OUT that nothing has written since the reset of the given epoch (10_state.md R49). -/
opaque Config.freeMem : Nat → Nat → Byte

/-- Byte i of a ring slot that nothing has written (10_state.md R45), for the given epoch, slot and index. -/
opaque Config.freeRing : Nat → Nat → Nat → Byte

/-- y of U_STAGE_STEP on a channel and stage without predictor state, for the given c, k and x (42_predictor.md R255; log 15). -/
opaque Config.freeStage : Nat → Nat → DWord → DWord

/-- The bytes of U_PACK at a depth that is not 8, 16, 24 or 32, for the given v and bps (43_reconstructor.md R293; log 15). -/
opaque Config.freePack : DWord → Nat → List Byte

/-- ring.count after U_RING_DROP of more blocks than there are, for the given n and count (44_framebuffer.md R325; log 15). -/
opaque Config.freeCount : Nat → Nat → Nat

/-- frameStart(g), frameEnd(g) and frameBlocks(g) of a g that is no frame of the stream (45_frame_sequencer.md R350, R351; log 15). -/
opaque Config.freeFrameStart : Nat → DWord

@[inherit_doc Config.freeFrameStart]
opaque Config.freeFrameEnd : Nat → DWord

@[inherit_doc Config.freeFrameStart]
opaque Config.freeFrameBlocks : Nat → Nat

/-- SEEKTAB[f] of an f from SEEKTAB_ENTRIES on (20_memory.md R82; log 15). -/
opaque Config.freeEntry : Nat → DWord

/-- A half of RES0 or RES1 read while BUSY = 1 (70_reset_and_hazards.md R497). -/
opaque Config.freeRes : Nat → Word

/-- A byte of OUT read while BUSY = 1 (R497), for the given draw and OUT offset. -/
opaque Config.freeOutRead : Nat → Nat → Byte

/-- A byte of OUT that a failed GETDATA had written (60_exceptions.md R454), for the given draw and OUT offset. -/
opaque Config.freeOutFailed : Nat → Nat → Byte

end Sys2Proof
end

