-- ==== Sys2Proof/Machine/State.lean ====
section
/-! DEFINITION. The machine's state as plain data, its faults and refusals, and the state after reset.
Operands, registers and results have the widths of 00_scope.md R8. The block's own counters and offsets are natural numbers and
its samples integers, because R9 takes all arithmetic on unbounded integers; Inv keeps them inside R8's widths (log 25). -/

namespace Sys2Proof.Machine

/-- st.fsm (10_state.md R33). -/
inductive Fsm where
  | uninitialized
  | ready
  | decoding
  | seeking
  deriving DecidableEq, Repr, Inhabited

/-- A status code (30_encoding.md R126). -/
inductive Status where
  | success
  | endOfData
  | badParameter
  | invalidStream
  | ioFailure
  | uninitialized
  | illegalCommand
  | illegalState
  | none
  deriving DecidableEq, Repr, Inhabited

/-- Why a step stops the machine: the two faults of 60_exceptions.md R458, and no other. -/
inductive Fault where
  /-- RING_OVERFLOW (44_framebuffer.md R322, R323): U_RING_WRITE meets a full ring. Raised by U_RING_WRITE and by the
  micro-operations that issue it. The spec's own fault. Safe. -/
  | ringOverflow
  /-- UNMODELLED_UOP (30_encoding.md R129, 60_exceptions.md R458): the sequencer meets a word that is no micro-operation.
  Raised by step. The spec's own fault. Safe. -/
  | unmodelledUop
  deriving DecidableEq, Repr

/-- Why a step has no meaning. -/
inductive Refusal where
  /-- The instruction has no meaning yet. Raised by exec. Safe. -/
  | notModelled (mnemonic : String)
  deriving DecidableEq, Repr

/-- The descriptor registers DESC_* (10_state.md R31, R53). -/
structure Desc where
  channels : Word
  sampleRate : Word
  bps : Word
  blockAlign : Word
  total : DWord
  blocksPerFrame : Word
  level : Word
  version : Word
  payOff : DWord
  payLen : DWord
  deriving DecidableEq, Repr, Inhabited

/-- The host-visible registers that hold state of their own (10_state.md R34, R35, R37, R38, R53). STATUS.HAD_ERRORS,
STATUS.INIT_FAILED and STATUS.FSM mirror `Life`. -/
structure Regs where
  ie : Bool
  busy : Bool
  done : Bool
  overrun : Bool
  lastStatus : Status
  arg0 : DWord
  arg1 : DWord
  res0 : DWord
  res1 : DWord
  desc : Desc
  deriving DecidableEq, Repr, Inhabited

/-- st.cmd, st.a0, st.a1 (10_state.md R37). -/
structure Latch where
  cmd : Word
  a0 : DWord
  a1 : DWord
  deriving DecidableEq, Repr, Inhabited

/-- st.fsm, st.initFailed (10_state.md R33) and st.hadErrors (R41). -/
structure Life where
  fsm : Fsm
  initFailed : Bool
  hadErrors : Bool
  deriving DecidableEq, Repr, Inhabited

/-- The persistent decode cursor (10_state.md R39) and st.entryBlock (R51). -/
structure Cursor where
  curBlock : Nat
  nextFrame : Nat
  skipBlocks : Nat
  resyncPending : Bool
  entryBlock : Nat
  deriving DecidableEq, Repr, Inhabited

/-- The in-frame cursor (10_state.md R40) and the frame header state (R42); `silent` is st.special. -/
structure Frame where
  curFrame : Nat
  blkInFrame : Nat
  placed : Nat
  frameErr : Bool
  storedCk : Word
  silent : Bool
  runCk : Word
  deriving DecidableEq, Repr, Inhabited

/-- The BitReader (10_state.md R43). `ent` is a state of WIRE_FORMAT written as a number; TEST_RICE writes {k} as k. -/
structure BitReader where
  start : Nat
  len : Nat
  fetched : Nat
  buf : List Byte
  p : Nat
  ent : Nat
  deriving DecidableEq, Repr, Inhabited

/-- The state of one filter stage (42_predictor.md R253), most recent history sample first. -/
structure StageState where
  coef : List Int
  hist : List Int
  deriving DecidableEq, Repr, Inhabited

/-- The ring buffer (10_state.md R45). `data` lists the slots written, slots strictly rising. -/
structure Ring where
  cap : Nat
  rd : Nat
  wr : Nat
  count : Nat
  data : List (Nat × List Byte)
  deriving DecidableEq, Repr, Inhabited

/-- A request on the byte-source port (20_memory.md R85). -/
inductive SrcReq where
  | seek (off : Nat)
  | read (max : Nat)
  | size
  deriving DecidableEq, Repr, Inhabited

/-- The collaborator's draw for one request (20_memory.md R86, 60_exceptions.md R466): it answers in full, or with at most
n bytes, or FAIL, or never. -/
inductive SrcAnswer where
  | full
  | short (n : Nat)
  | fail
  | never
  deriving DecidableEq, Repr, Inhabited

/-- The byte source (20_memory.md R85, R86; 10_state.md R50): its bytes, its position, the draws for the requests to come
(`rest` for every request after the listed ones), the request that was never answered, and the requests made, newest first.
No operation of the outside changes `bytes`, between sessions either, where R86 would let them change (log 39). -/
structure Source where
  bytes : List Byte
  pos : Nat
  answers : List SrcAnswer
  rest : SrcAnswer
  outstanding : Option SrcReq
  log : List (SrcReq × SrcAnswer)
  deriving DecidableEq, Repr, Inhabited

/-- The width of a host access in bits (20_memory.md R88). -/
inductive Width where
  | b8
  | b16
  | b32
  | b64
  deriving DecidableEq, Repr, Inhabited

/-- What the outside does to the block, in the forms of 30_encoding.md R131. `rd` and `wr` are a load and a store at a system
address. `wait` is WAIT: it holds until BUSY = 0. `letRun` lets the sequencer run one micro-operation before the next
access (R459's interleaving). `rstN` is the reset input (70_reset_and_hazards.md R490). -/
inductive HostOp where
  | rd (w : Width) (addr : DWord)
  | wr (w : Width) (addr : DWord) (v : DWord)
  | wait
  | letRun
  | rstN
  deriving DecidableEq, Repr, Inhabited

/-- What one host load returned. -/
structure HostRead where
  w : Width
  addr : DWord
  value : DWord
  deriving DecidableEq, Repr, Inhabited

/-- The outside's operations still to come, and what its loads returned, newest first. -/
structure HostSide where
  prog : List HostOp
  log : List HostRead
  deriving DecidableEq, Repr, Inhabited

/-- What a micro-operation returned (log 13). -/
inductive UopResult where
  | nothing
  | bit (b : Bool)
  | num (n : Nat)
  | bytes (bs : List Byte)
  | sample (v : Int)
  | samples (vs : List Int)
  | frameError
  | ioFailure
  deriving DecidableEq, Repr, Inhabited

/-- The operands a micro-operation word does not carry, and the result of the last micro-operation run on its own (log 13).
The names are those of the rules: U_SRC_SEEK(off), U_SRC_READ(max), U_BR_RESET(start, len), x of U_STAGE_STEP, e of
U_PRED_STEP and v of U_PACK (`x`), s[0..C-1] of U_UNPREPARE (`vals`), bps of U_PACK, blk of U_CK_UPDATE and U_RING_WRITE,
n and dst of the ring, g of U_START_FRAME and P_DECODE_FRAME, b of P_POSITION. Counts, offsets and samples are 64 bits wide
(00_scope.md R8), bps is as wide as DESC_BPS. -/
structure OpLatch where
  off : DWord
  max : DWord
  start : DWord
  len : DWord
  x : DWord
  vals : List DWord
  bps : Word
  blk : List Byte
  n : DWord
  dst : DWord
  g : DWord
  b : DWord
  ret : UopResult
  deriving DecidableEq, Repr, Inhabited

/-- The block, its byte source and its host (10_state.md R30 and INVENTORY.md's State). -/
structure State where
  params : Params
  regs : Regs
  latch : Latch
  cfg : SessionCfg
  life : Life
  cur : Cursor
  frm : Frame
  br : BitReader
  pred : List (List StageState)
  ring : Ring
  mem : List Host.Cell
  src : Source
  host : HostSide
  op : OpLatch
  uop : Option Word
  draws : Nat
  epoch : Nat
  deriving DecidableEq, Repr

/-- The reset value of one stage (10_state.md R44, 42_predictor.md R253): all zeros. -/
def StageState.zero (c : StageCfg) : StageState :=
  ⟨List.replicate c.N 0, List.replicate c.N 0⟩

/-- The operand registers right after reset (log 13). -/
def OpLatch.reset : OpLatch :=
  { off := 0, max := 1, start := 0, len := 0, x := 0, vals := [], bps := 16, blk := [], n := 0, dst := 0, g := 0, b := 0,
    ret := .nothing }

/-- The machine right after reset (70_reset_and_hazards.md R491, R492), with the TEST parameters (log 1), nothing listed in
memory (log 8), unspecified values free (log 9), a byte source with no bytes that answers in full (log 5) and a host with
nothing to do (log 14). -/
def State.reset : State where
  params := Params.test
  regs := { ie := false, busy := false, done := false, overrun := false, lastStatus := .none, arg0 := 0, arg1 := 0,
            res0 := 0, res1 := 0,
            desc := { channels := 0, sampleRate := 0, bps := 0, blockAlign := 0, total := 0, blocksPerFrame := 0,
                      level := 0, version := 0, payOff := 0, payLen := 0 } }
  latch := { cmd := 0, a0 := 0, a1 := 0 }
  cfg := unspecifiedCfg 0
  life := { fsm := .uninitialized, initFailed := false, hadErrors := false }
  cur := { curBlock := 0, nextFrame := 0, skipBlocks := 0, resyncPending := false, entryBlock := 0 }
  frm := { curFrame := 0, blkInFrame := 0, placed := 0, frameErr := false, storedCk := 0, silent := false, runCk := 0 }
  br := { start := 0, len := 0, fetched := 0, buf := [], p := 0, ent := 0 }
  pred := List.replicate Params.test.maxChannels ((unspecifiedCfg 0).stages.map StageState.zero)
  ring := { cap := unspecifiedCap 0, rd := 0, wr := 0, count := 0, data := [] }
  mem := []
  src := { bytes := [], pos := 0, answers := [], rest := .full, outstanding := none, log := [] }
  host := { prog := [], log := [] }
  op := OpLatch.reset
  uop := none
  draws := 0
  epoch := 0

end Sys2Proof.Machine
end

