-- ==== Sys2Proof/Machine/Operands.lean ====
section
/-! DEFINITION. The arithmetic primitives of 00_scope.md R10, byte order (20_memory.md R84), LO/HI pairs (R84, 30_encoding.md
R124) and the aperture's address forms (20_memory.md R80, R81, R83). -/

namespace Sys2Proof.Machine

/-- trunc_N(v) = v mod 2^N (R10). -/
def truncN (n : Nat) (v : Int) : Nat := (v % 2 ^ n).toNat

/-- wrap_N(v): the two's-complement wraparound (R10, for N ≥ 1; log 36). -/
def wrapN (n : Nat) (v : Int) : Int :=
  if v % 2 ^ n < 2 ^ (n - 1) then v % 2 ^ n else v % 2 ^ n - 2 ^ n

/-- sat_N(v) = min(max(v, −2^(N−1)), 2^(N−1) − 1) (R10, for N ≥ 1; log 36). -/
def satN (n : Nat) (v : Int) : Int := min (max v (-2 ^ (n - 1))) (2 ^ (n - 1) - 1)

/-- asr(v, k) = ⌊v / 2^k⌋ (R10). -/
def asr (v : Int) (k : Nat) : Int := v / 2 ^ k

/-- tdiv(a, b): the quotient rounded toward zero (R10). -/
def tdiv (a b : Int) : Int := Int.tdiv a b

/-- sgn(v) (R10). -/
def sgn (v : Int) : Int := if v < 0 then -1 else if v = 0 then 0 else 1

/-- The n low bytes of v, least significant first (20_memory.md R84): byte i is trunc_8(asr(v, 8i)). -/
def leBytes (n : Nat) (v : Int) : List Byte :=
  (List.range n).map fun i => BitVec.ofInt 8 (asr v (8 * i))

/-- The number a byte sequence stands for, least significant byte first (R84). -/
def leNat : List Byte → Nat
  | [] => 0
  | b :: bs => b.toNat + 256 * leNat bs

/-- The LO half of a pair (R84). -/
def lo (v : DWord) : Word := v.extractLsb' 0 32

/-- The HI half of a pair (R84). -/
def hi (v : DWord) : Word := v.extractLsb' 32 32

/-- A pair with its LO half written. -/
def setLo (v : DWord) (w : Word) : DWord := hi v ++ w

/-- A pair with its HI half written. -/
def setHi (v : DWord) (w : Word) : DWord := w ++ lo v

/-- The number of bytes of a host access (20_memory.md R88). -/
def Width.bytes : Width → Nat
  | .b8 => 1
  | .b16 => 2
  | .b32 => 4
  | .b64 => 8

/-- SEEKTAB's place in the aperture (R80). -/
def seektabBase : Nat := 0x00100000

/-- OUT's place in the aperture (R80). -/
def outBase : Nat := 0x01000000

/-- Where an aperture address falls (R80). -/
inductive Region where
  /-- REG, with its offset. -/
  | reg (o : Nat)
  /-- SEEKTAB, with its aperture offset. -/
  | seektab (o : Nat)
  /-- OUT, with its byte number. -/
  | out (j : Nat)
  /-- "A host access to an aperture address outside these ranges reads 0 and ignores writes" (R80). -/
  | unmapped
  deriving DecidableEq, Repr

/-- The aperture offset of a system address (R80, R90). The spec gives a system address no width and no meaning below
APERTURE_BASE; the model takes 64 bits and subtracts modulo 2^64 (log 38). -/
def apertureOffset (p : Params) (addr : DWord) : Nat := (addr - p.apertureBase).toNat

/-- The region an address falls in (R80). -/
def regionOf (p : Params) (addr : DWord) : Region :=
  let o := apertureOffset p addr
  if o < 0x100 then .reg o
  else if seektabBase ≤ o ∧ o < seektabBase + 8 * p.seektabEntries then .seektab o
  else if outBase ≤ o ∧ o < outBase + p.outbufBytes then .out (o - outBase)
  else .unmapped

/-- A naturally aligned 32-bit access (R81, R82). -/
def aligned32 (w : Width) (o : Nat) : Bool := w = .b32 && o % 4 = 0

/-- The system address of a REG offset (R90, 46_host_commands.md R422). -/
def regAddr (p : Params) (o : Nat) : DWord := p.apertureBase + BitVec.ofNat 64 o

end Sys2Proof.Machine
end

