-- ==== Sys2Proof/Machine/Flags.lean ====
section
/-! DEFINITION. STATUS, CTRL and IRQ: how the flags are packed, set and cleared (10_state.md R34, R35, 60_exceptions.md R462,
30_encoding.md R126, R128). -/

namespace Sys2Proof.Machine

/-- The code of a status (30_encoding.md R126). -/
def Status.code : Status → Nat
  | .success => 0x0
  | .endOfData => 0x1
  | .badParameter => 0x2
  | .invalidStream => 0x3
  | .ioFailure => 0x4
  | .uninitialized => 0x5
  | .illegalCommand => 0x6
  | .illegalState => 0x7
  | .none => 0xF

/-- The code of a lifecycle state (30_encoding.md R128). -/
def Fsm.code : Fsm → Nat
  | .uninitialized => 0
  | .ready => 1
  | .decoding => 2
  | .seeking => 3

/-- One bit as a number. -/
def bitNat (b : Bool) : Nat := if b then 1 else 0

/-- What STATUS reads (10_state.md R34): reserved fields read 0. -/
def statusWord (s : State) : Word :=
  BitVec.ofNat 32 (bitNat s.regs.busy + 2 * bitNat s.regs.done + 4 * bitNat s.regs.overrun + 8 * bitNat s.life.hadErrors +
    16 * bitNat s.life.initFailed + 256 * s.regs.lastStatus.code + 65536 * s.life.fsm.code)

/-- What CTRL reads (10_state.md R35): SOFT_RESET and the reserved bits read 0. -/
def ctrlWord (s : State) : Word := BitVec.ofNat 32 (bitNat s.regs.ie)

/-- The interrupt output: "IRQ = CTRL.IE AND STATUS.DONE" (60_exceptions.md R462). -/
def State.irq (s : State) : Bool := s.regs.ie && s.regs.done

/-- A write to STATUS (10_state.md R34, R53): DONE and OVERRUN are W1C, every other field ignores it. -/
def writeStatus (v : Word) (s : State) : State :=
  { s with regs.done := s.regs.done && !v.getLsbD 1, regs.overrun := s.regs.overrun && !v.getLsbD 2 }

/-- A write to CTRL with bit 1 = 0 (10_state.md R35). -/
def writeIe (v : Word) (s : State) : State := { s with regs.ie := v.getLsbD 0 }

/-- A CMD write while BUSY = 1: "The only effect is STATUS.OVERRUN <- 1" (46_host_commands.md R419). -/
def setOverrun (s : State) : State := { s with regs.overrun := true }

/-- The completion step (46_host_commands.md R400): a status other than SUCCESS and END_OF_DATA writes RES0 = RES1 = 0. -/
def complete (st : Status) (r0 r1 : DWord) (s : State) : State :=
  let keep := st = .success ∨ st = .endOfData
  { s with regs.res0 := if keep then r0 else 0, regs.res1 := if keep then r1 else 0, regs.lastStatus := st,
           regs.busy := false, regs.done := true }

/-- The acceptance of a CMD write (46_host_commands.md R400): the latches of 10_state.md R37, BUSY <- 1, DONE <- 0. -/
def acceptLatch (v : Word) (s : State) : State :=
  { s with latch := { cmd := v, a0 := s.regs.arg0, a1 := s.regs.arg1 }, regs.busy := true, regs.done := false }

/-- The word check, the state checks of a command outside INIT: initFailed = 1 or st.fsm ≠ READY (46_host_commands.md R404 to
R406, R417; 60_exceptions.md R453). -/
def sessionOpen (s : State) : Bool := !s.life.initFailed && s.life.fsm = .ready

end Sys2Proof.Machine
end

