-- ==== Sys2Proof/Machine/Ops.lean ====
section
/-! DEFINITION. The shared operations: memory, reset and the byte-source port. The two ways a command ends early, a failing
completion and the I/O-failure recovery, are this hardware's taking of an exception (60_exceptions.md R450, R460): `complete` is
in Flags.lean, the recovery in Recovery.lean.

A micro-operation is a computation `Seq α`: it changes the state and either yields a value or stops. -/

namespace Sys2Proof.Machine

/-- Why a micro-operation does not go on. -/
inductive Stop where
  /-- "raise IO_FAILURE" (00_scope.md R11): the source answered FAIL. -/
  | ioFailure
  /-- The running command is over without a completion: reset abandoned it (70_reset_and_hazards.md R493), or it waits for
  ever on an unanswered request (60_exceptions.md R466). -/
  | halted
  /-- "fault F" (00_scope.md R11). -/
  | fault (f : Fault)
  deriving DecidableEq, Repr, Inhabited

/-- A sequencer computation. -/
abbrev Seq (α : Type) := EStateM Stop State α

/-! ## Sparse data by number, strictly rising -/

/-- The entry listed for k. -/
def findKey {α : Type} (k : Nat) : List (Nat × α) → Option α
  | [] => none
  | (j, a) :: t => if j = k then some a else findKey k t

/-- Lists a for k, in place of what was listed for it, keeping the keys strictly rising. -/
def insertKey {α : Type} (k : Nat) (a : α) : List (Nat × α) → List (Nat × α)
  | [] => [(k, a)]
  | (j, b) :: t => if k < j then (k, a) :: (j, b) :: t else if k = j then (k, a) :: t else (j, b) :: insertKey k a t

/-- The canonical form: keys strictly rising. -/
def keysRise {α : Type} : List (Nat × α) → Bool
  | [] => true
  | [_] => true
  | (j, _) :: (k, b) :: t => decide (j < k) && keysRise ((k, b) :: t)

/-! ## Memory: SEEKTAB and OUT by aperture offset (20_memory.md R80) -/

/-- The canonical form of memory: addresses strictly rising. An unlisted byte reads a free value (10_state.md R49), so no
listed byte can be said to equal it. -/
def Memory.wf (m : List Host.Cell) : Bool := keysRise m

/-- What an unlisted address reads as (10_state.md R49: "unspecified contents"; log 8). -/
def unlistedByte (s : State) (a : Nat) : Byte := Config.freeMem s.epoch a

/-- One byte at an aperture offset. -/
def readByte (s : State) (a : Nat) : Byte := (findKey a s.mem).getD (unlistedByte s a)

/-- Writes one byte at an aperture offset. -/
def writeByte (a : Nat) (b : Byte) (s : State) : State := { s with mem := insertKey a b s.mem }

/-- MemRead: n bytes in ascending order (00_scope.md R11). -/
def readBytes (s : State) (a : Nat) : Nat → List Byte
  | 0 => []
  | n + 1 => readByte s a :: readBytes s (a + 1) n

/-- MemWrite: bytes in ascending order (00_scope.md R11, 20_memory.md R83). -/
def writeBytes (a : Nat) : List Byte → State → State
  | [], s => s
  | b :: bs, s => writeBytes (a + 1) bs (writeByte a b s)

/-- SEEKTAB[f], a little-endian 64-bit entry (20_memory.md R82). An f from SEEKTAB_ENTRIES on has no entry; what the block reads there is
free (log 15). -/
def seektabEntry (s : State) (f : Nat) : Nat :=
  if f < s.params.seektabEntries then leNat (readBytes s (seektabBase + 8 * f) 8) else (Config.freeEntry f).toNat

/-! ## Reset -/

/-- The predictor state a stage list gives every channel at reset (10_state.md R44). -/
def zeroPred (stages : List StageCfg) : List StageState := stages.map StageState.zero

/-- Reset (70_reset_and_hazards.md R490 to R493): every value of R491 and R492 at once. The parameters, the byte source and
the host are not the block's; what R492 calls unspecified is drawn afresh (log 8, 9, 10). A request in flight is abandoned. -/
def hwReset (s : State) : State :=
  { State.reset with
    params := s.params
    cfg := unspecifiedCfg (s.draws + 1)
    br := { State.reset.br with ent := if s.params.wireFormat = .testRice then 0 else Config.extEntReset }
    pred := List.replicate s.params.maxChannels (zeroPred (unspecifiedCfg (s.draws + 1)).stages)
    ring := { State.reset.ring with cap := unspecifiedCap (s.draws + 1) }
    src := { s.src with outstanding := none }
    host := s.host
    draws := s.draws + 1
    epoch := s.epoch + 1 }

/-! ## The byte-source port (20_memory.md R85, R86) -/

/-- The draw for the next request. -/
def nextAnswer (src : Source) : SrcAnswer := src.answers.headD src.rest

/-- The source after a request has met its draw. -/
def Source.afterRequest (req : SrcReq) (src : Source) : Source :=
  { src with answers := src.answers.tail, log := (req, nextAnswer src) :: src.log }

/-- One request: FAIL raises IO_FAILURE (41_bitreader.md R218 to R220), and a request that is never answered leaves the command
running for ever (60_exceptions.md R466). Yields the draw of an answered request. -/
def request (req : SrcReq) : Seq SrcAnswer := do
  let s ← get
  let ans := nextAnswer s.src
  let src := s.src.afterRequest req
  match ans with
  | .fail => do set { s with src := src }; throw .ioFailure
  | .never => do set { s with src := { src with outstanding := some req } }; throw .halted
  | .full => do set { s with src := src }; pure ans
  | .short _ => do set { s with src := src }; pure ans

/-- How many bytes an answered SrcRead(max) gives (20_memory.md R86): between 1 and min(max, Z − pos) when pos < Z, else 0. -/
def readCount (ans : SrcAnswer) (max pos z : Nat) : Nat :=
  let avail := min max (z - pos)
  match ans with
  | .short n => if avail = 0 then 0 else Nat.max 1 (min n avail)
  | .full | .fail | .never => avail

/-- frameError(kind): "st.frameErr <- 1" (45_frame_sequencer.md R354). -/
def frameError : Seq Unit := modify fun s => { s with frm.frameErr := true }

end Sys2Proof.Machine
end

