-- ==== Sys2Proof/Machine/HostPort.lean ====
section
/-! DEFINITION. The host aperture: reads, writes and their side effects (10_state.md R53, 20_memory.md R80 to R84, R89,
70_reset_and_hazards.md R497, R499), and the host's accesses between the micro-operations of a running command
(46_host_commands.md R400, 60_exceptions.md R459). -/

namespace Sys2Proof.Machine

/-- "a write takes effect only while st.fsm = UNINITIALIZED and BUSY = 0" (10_state.md R53, 20_memory.md R82). -/
def configWritable (s : State) : Bool := s.life.fsm = .uninitialized && !s.regs.busy

/-- RES read by the host: any value while BUSY = 1 (70_reset_and_hazards.md R497). -/
def readRes (s : State) (w : Word) : Word := if s.regs.busy then Config.freeRes s.draws else w

/-- A load of a REG word (10_state.md R53). -/
def readReg (s : State) (o : Nat) : Word :=
  match o with
  | 0x00 => s.params.idValue
  | 0x04 => ctrlWord s
  | 0x08 => statusWord s
  | 0x0C => 0
  | 0x10 => lo s.regs.arg0
  | 0x14 => hi s.regs.arg0
  | 0x18 => lo s.regs.arg1
  | 0x1C => hi s.regs.arg1
  | 0x20 => readRes s (lo s.regs.res0)
  | 0x24 => readRes s (hi s.regs.res0)
  | 0x28 => readRes s (lo s.regs.res1)
  | 0x2C => readRes s (hi s.regs.res1)
  | 0x40 => s.regs.desc.channels
  | 0x44 => s.regs.desc.sampleRate
  | 0x48 => s.regs.desc.bps
  | 0x4C => s.regs.desc.blockAlign
  | 0x50 => lo s.regs.desc.total
  | 0x54 => hi s.regs.desc.total
  | 0x58 => s.regs.desc.blocksPerFrame
  | 0x5C => s.regs.desc.level
  | 0x60 => s.regs.desc.version
  | 0x64 => lo s.regs.desc.payOff
  | 0x68 => hi s.regs.desc.payOff
  | 0x6C => lo s.regs.desc.payLen
  | 0x70 => hi s.regs.desc.payLen
  | _ => 0

/-- A byte of OUT as the host reads it: any value while BUSY = 1 (R497), 0 past OUTBUF_BYTES (20_memory.md R80). -/
def readOutByte (s : State) (j : Nat) : Byte :=
  if j < s.params.outbufBytes then
    if s.regs.busy then Config.freeOutRead s.draws j else readByte s (outBase + j)
  else 0

/-- A host load (20_memory.md R80 to R84): a misplaced or misaligned one reads 0. -/
def hostReadValue (s : State) (w : Width) (addr : DWord) : DWord :=
  match regionOf s.params addr with
  | .reg o => if aligned32 w o then (readReg s o).setWidth 64 else 0
  | .seektab o => if aligned32 w o then BitVec.ofNat 64 (leNat (readBytes s o 4)) else 0
  | .out j => BitVec.ofNat 64 (leNat ((List.range w.bytes).map fun i => readOutByte s (j + i)))
  | .unmapped => 0

/-- A host load: "No host read has a side effect" (20_memory.md R89); what it returned is logged. -/
def hostRead (w : Width) (addr : DWord) (s : State) : State :=
  { s with host.log := ⟨w, addr, hostReadValue s w addr⟩ :: s.host.log, draws := s.draws + 1 }

/-- A store to a DESC_* word (10_state.md R53). -/
def writeDesc (o : Nat) (v : Word) (d : Desc) : Desc :=
  match o with
  | 0x40 => { d with channels := v }
  | 0x44 => { d with sampleRate := v }
  | 0x48 => { d with bps := v }
  | 0x4C => { d with blockAlign := v }
  | 0x50 => { d with total := setLo d.total v }
  | 0x54 => { d with total := setHi d.total v }
  | 0x58 => { d with blocksPerFrame := v }
  | 0x5C => { d with level := v }
  | 0x60 => { d with version := v }
  | 0x64 => { d with payOff := setLo d.payOff v }
  | 0x68 => { d with payOff := setHi d.payOff v }
  | 0x6C => { d with payLen := setLo d.payLen v }
  | 0x70 => { d with payLen := setHi d.payLen v }
  | _ => d

/-- A store to a REG word (10_state.md R53), all but an accepted CMD write (Accept.lean): a CMD write that arrives here
arrives while BUSY = 1 and is dropped (46_host_commands.md R419). -/
def writeReg (o : Nat) (v : Word) (s : State) : State :=
  match o with
  | 0x04 => if v.getLsbD 1 then hwReset s else writeIe v s
  | 0x08 => writeStatus v s
  | 0x0C => setOverrun s
  | 0x10 => { s with regs.arg0 := setLo s.regs.arg0 v }
  | 0x14 => { s with regs.arg0 := setHi s.regs.arg0 v }
  | 0x18 => { s with regs.arg1 := setLo s.regs.arg1 v }
  | 0x1C => { s with regs.arg1 := setHi s.regs.arg1 v }
  | _ => if configWritable s then { s with regs.desc := writeDesc o v s.regs.desc } else s

/-- A host store (20_memory.md R80 to R83): one outside REG and SEEKTAB, misaligned or not of 32 bits has no effect. -/
def hostWrite (w : Width) (addr v : DWord) (s : State) : State :=
  match regionOf s.params addr with
  | .reg o => if aligned32 w o then writeReg o (lo v) s else s
  | .seektab o =>
    if aligned32 w o && configWritable s then writeBytes o (leBytes 4 (lo v).toNat) s else s
  | .out _ => s
  | .unmapped => s

/-- The store is a write to the REG word at o. -/
def isRegWrite (p : Params) (o : Nat) (w : Width) (addr : DWord) : Bool :=
  w = .b32 && regionOf p addr = .reg o

/-- The store is a write to CMD. -/
def isCmdWrite (p : Params) (w : Width) (addr : DWord) : Bool := isRegWrite p 0x0C w addr

/-- The store resets the block: CTRL with SOFT_RESET = 1 (10_state.md R35). -/
def isSoftReset (p : Params) (w : Width) (addr v : DWord) : Bool :=
  isRegWrite p 0x04 w addr && (lo v).getLsbD 1

/-- The outside's operations still to come. -/
def withProg (prog : List HostOp) (s : State) : State := { s with host.prog := prog }

/-- The host's accesses before the sequencer's next micro-operation: as listed, up to a `letRun` or a WAIT. A reset
abandons the running command "at once, between two micro-operations" (70_reset_and_hazards.md R493). -/
def drain : List HostOp → Seq Unit
  | [], s => .ok () (withProg [] s)
  | .letRun :: t, s => .ok () (withProg t s)
  | .wait :: t, s => .ok () (withProg (.wait :: t) s)
  | .rstN :: t, s => .error .halted (withProg t (hwReset s))
  | .rd w a :: t, s => drain t (hostRead w a s)
  | .wr w a v :: t, s =>
    if isSoftReset s.params w a v then .error .halted (withProg t (hostWrite w a v s))
    else drain t (hostWrite w a v s)

/-- The interleaving point between two micro-operations of a running command (60_exceptions.md R459; log 24). -/
def interleave : Seq Unit := fun s => if s.regs.busy then drain s.host.prog s else .ok () s

/-- The next micro-operation of a running command: host accesses may come before it. -/
def call {α : Type} (m : Seq α) : Seq α := do interleave; m

/-- Issues a micro-operation for each listed number, in order. -/
def forEach (m : Nat → Seq Unit) : List Nat → Seq Unit
  | [] => pure ()
  | c :: cs => do call (m c); forEach m cs

/-- No host access lies before the running command's completion: the host has nothing to do, or waits. -/
def HostSide.quiet (h : HostSide) : Bool :=
  match h.prog with
  | [] => true
  | .wait :: _ => true
  | .rd _ _ :: _ | .wr _ _ _ :: _ | .letRun :: _ | .rstN :: _ => false

end Sys2Proof.Machine
end

