-- ==== Sys2Proof/Machine/Recovery.lean ====
section
/-! DEFINITION. How a command ends: its completion, the I/O-failure recovery (60_exceptions.md R454, R460), and the outcome of a
command or of a micro-operation run on its own. Host accesses may come before each micro-operation of the recovery and before
the completion (46_host_commands.md R400; log 24). -/

namespace Sys2Proof.Machine

/-- A completion after the command has run micro-operations: host accesses may come before it (60_exceptions.md R459). -/
def finishWith (f : State → State) : Seq Unit := do
  interleave
  modify f

/-- complete(s) (46_host_commands.md): results 0. -/
def completeWith (st : Status) : Seq Unit := modify (complete st 0 0)

/-- fail(s) of INIT (46_host_commands.md R402): st.initFailed <- 1 and the completion are one step (log 23). -/
def initFail (st : Status) (s : State) : State :=
  complete st 0 0 { s with life.initFailed := true }

/-- U_RING_RESET's effect (44_framebuffer.md R321): ring.data becomes unspecified. -/
def ringReset (s : State) : State :=
  { s with ring := { s.ring with rd := 0, wr := 0, count := 0, data := [] } }

/-- U_RING_RESET (R321). -/
def uRingReset : Seq Unit := modify ringReset

/-- The OUT bytes a failed GETDATA had written are unspecified to the host (60_exceptions.md R454): blocks entryBlock to
curBlock were copied to OUT from offset 0 (log 11). -/
def forgetOut (s : State) : State :=
  let n := (s.cur.curBlock - s.cur.entryBlock) * s.cfg.BA
  let t := writeBytes outBase ((List.range n).map (Config.freeOutFailed s.draws)) s
  { t with draws := s.draws + 1 }

/-- The rollback and the completion of GETDATA's and SEEK's recovery (60_exceptions.md R454), in one step (log 23). -/
def recovered (s : State) : State :=
  complete .ioFailure 0 0
    { forgetOut s with cur := { s.cur with curBlock := s.cur.entryBlock, resyncPending := true }, life.fsm := .ready }

/-- The I/O-failure recovery of GETDATA and SEEK (60_exceptions.md R454): U_RING_RESET, the rollback, the completion. -/
def recoverSession : Seq Unit := do
  call uRingReset
  finishWith recovered

/-- The I/O-failure recovery of INIT (60_exceptions.md R454): st.fsm stays UNINITIALIZED. -/
def recoverInit : Seq Unit := finishWith (initFail .ioFailure)

/-- The recovery of R454 for the command the latch holds, where one is running; a micro-operation run on its own outside
any command is abandoned and reports the failure in its result (log 16). -/
def recoverRunning : Seq Unit := do
  let s ← get
  if s.regs.busy then
    if s.latch.cmd.toNat % 256 = 1 then recoverInit else recoverSession
  else set { s with op.ret := .ioFailure }

/-- What a command's sequence of micro-operations leaves. No recovery sends a request, so none ends in an I/O failure. -/
def settle {α : Type} : EStateM.Result Stop State α → Host.Outcome State Fault Refusal
  | .ok _ t => .next t
  | .error .ioFailure t => .next t
  | .error .halted t => .next t
  | .error (.fault f) _ => .fault f

/-- A host command's outcome, given its body and its I/O-failure recovery. -/
def runCommand (recover : Seq Unit) (body : Seq Unit) (s : State) : Host.Outcome State Fault Refusal :=
  match body s with
  | .error .ioFailure t => settle (recover t)
  | r => settle r

/-- A micro-operation's outcome when it is run on its own: its result goes to the result latch. One whose request is never answered ends
there; outside any command nothing waits for the answer, BUSY stays 0 and later steps go on (log 16). -/
def runUop (body : Seq UopResult) (s : State) : Host.Outcome State Fault Refusal :=
  match body s with
  | .ok r t => .next { t with op.ret := r }
  | .error .ioFailure t => settle (recoverRunning t)
  | r => settle r

end Sys2Proof.Machine
end

