-- ==== Sys2Proof/Machine/WireFormat.lean ====
section
/-! DEFINITION. WIRE_FORMAT (41_bitreader.md R206): the TEST_RICE instance of R212 to R215 and the choice by parameter. -/

namespace Sys2Proof.Machine

/-- unzigzag(u) (41_bitreader.md R215). -/
def unzigzag (u : Nat) : Int := if u % 2 = 0 then (u / 2 : Nat) else -(((u + 1) / 2 : Nat) : Int)

/-- "A PREMATURE_END from any read is returned as PREMATURE_END" (R212, R214). -/
def orPremature {α β : Type} (k : α → WireProg β) : Option α → WireProg β
  | none => .fail .prematureEnd
  | some a => k a

/-- TEST_RICE.header (R212). -/
def riceHeader : WireProg HeaderOk :=
  .bits 32 <| orPremature fun ck =>
  .bits 8 <| orPremature fun sp =>
    if sp / 2 ≠ 0 then .fail .invalidSymbol
    else if sp = 1 then .ret { storedCk := BitVec.ofNat 32 ck, silent := true, ent := 0 }
    else .bits 5 <| orPremature fun k =>
      if k > 24 then .fail .invalidSymbol
      else .ret { storedCk := BitVec.ofNat 32 ck, silent := false, ent := k }

/-- The symbol of prefix q and remainder r (R214, R215). -/
def riceValue (k q r : Nat) : SymbolOk := { e := BitVec.ofInt 64 (unzigzag (q * 2 ^ k + r)), ent := k }

/-- The remainder of a code word (R214): "r <- (k = 0) ? 0 : U_BR_READBITS(k)". -/
def riceRemainder (k q : Nat) : WireProg SymbolOk :=
  if k = 0 then .ret (riceValue k q 0) else .bits k <| orPremature fun r => .ret (riceValue k q r)

/-- The unary prefix of a code word (R214) after q zero bits, with `left` zero bits still allowed: the zero bit that takes
q past QMAX = 32 is INVALID_SYMBOL. -/
def ricePrefix (k : Nat) : Nat → Nat → WireProg SymbolOk
  | 0, _ => .fail .invalidSymbol
  | left + 1, q => .bit <| orPremature fun b => if b then riceRemainder k q else ricePrefix k left (q + 1)

/-- TEST_RICE.symbol(br, k) (R214). -/
def riceSymbol (k : Nat) : WireProg SymbolOk := ricePrefix k 33 0

/-- WIRE_FORMAT.header at position p of a bit stream of `limit` bits. -/
def wireHeader (w : WireFormat) (limit p : Nat) : WireProg HeaderOk :=
  match w with
  | .testRice => riceHeader
  | .external => Config.extHeader limit p

/-- WIRE_FORMAT.symbol in the entropy state ent, at position p of a bit stream of `limit` bits. -/
def wireSymbol (w : WireFormat) (ent limit p : Nat) : WireProg SymbolOk :=
  match w with
  | .testRice => riceSymbol ent
  | .external => Config.extSymbol ent limit p

/-- WIRE_FORMAT.reset: {k: 0} for TEST_RICE (R213). -/
def wireReset : WireFormat → Nat
  | .testRice => 0
  | .external => Config.extEntReset

end Sys2Proof.Machine
end

