-- ==== Sys2Proof/Machine/BitReader.lean ====
section
/-! DEFINITION. The byte-source micro-operations (41_bitreader.md R218 to R220) and the BitReader (R201 to R211). -/

namespace Sys2Proof.Machine

/-! ## The byte source -/

/-- U_SRC_SEEK(off) (R218). -/
def uSrcSeek (off : Nat) : Seq Unit := do
  let _ ← request (.seek off)
  modify fun s => { s with src.pos := off }

/-- U_SRC_READ(max) (R219; 20_memory.md R85, R86). -/
def uSrcRead (max : Nat) : Seq (List Byte) := do
  let ans ← request (.read max)
  let s ← get
  let n := readCount ans max s.src.pos s.src.bytes.length
  set { s with src.pos := s.src.pos + n }
  pure ((s.src.bytes.drop s.src.pos).take n)

/-- U_SRC_SIZE (R220). -/
def uSrcSize : Seq Nat := do
  let _ ← request .size
  let s ← get
  pure s.src.bytes.length

/-! ## The BitReader -/

/-- U_BR_RESET(start, len) (R201). -/
def uBrReset (start len : Nat) : Seq Unit :=
  modify fun s => { s with br := { start, len, fetched := 0, buf := [], p := 0, ent := wireReset s.params.wireFormat } }

/-- br.buf without the bytes below byte p/8 of the window, which no later bit lies in: "Bytes already consumed may be dropped"
(R204). br.buf holds the window's bytes up to br.fetched. -/
def BitReader.unconsumed (b : BitReader) : List Byte := b.buf.drop (b.p / 8 - (b.fetched - b.buf.length))

/-- U_BR_FETCH (R203). -/
def uBrFetch : Seq (Except FrameErr Unit) := do
  let s ← get
  let want := min s.params.fetchBytes (s.br.len - s.br.fetched)
  let bytes ← call (uSrcRead want)
  if bytes.length = 0 then pure (.error .prematureEnd)
  else do
    modify fun s => { s with br.buf := s.br.unconsumed ++ bytes, br.fetched := s.br.fetched + bytes.length }
    pure (.ok ())

/-- The fetches of U_BR_READBIT: "while br.fetched ≤ ⌊br.p / 8⌋" (R204). Each fetch that succeeds adds a byte, so the first
argument, the bytes still missing, bounds them. -/
def fetchUntil : Nat → Seq (Except FrameErr Unit)
  | 0 => pure (.ok ())
  | missing + 1 => do
    let s ← get
    if s.br.fetched ≤ s.br.p / 8 then do
      let r ← call uBrFetch
      match r with
      | .error e => pure (.error e)
      | .ok _ => fetchUntil missing
    else pure (.ok ())

/-- fb[i] of the current window (R202), from the bytes fetched and not dropped. They are the window's where src.pos was
br.start + br.fetched at each fetch, as R201's caller sees to; otherwise they are those the source gave (log 40). -/
def BitReader.byte? (b : BitReader) (i : Nat) : Option Byte := b.buf[i - (b.fetched - b.buf.length)]?

/-- Bit p of the frame's bit stream: bit 7 − (p mod 8) of fb[⌊p/8⌋] (R202). -/
def BitReader.bit? (b : BitReader) : Option Bool := (b.byte? (b.p / 8)).map fun x => x.getLsbD (7 - b.p % 8)

/-- U_BR_READBIT (R204). -/
def uBrReadbit : Seq (Except FrameErr Bool) := do
  let s ← get
  if 8 * s.br.len ≤ s.br.p then pure (.error .prematureEnd)
  else do
    let r ← fetchUntil (s.br.p / 8 + 1 - s.br.fetched)
    match r with
    | .error e => pure (.error e)
    | .ok _ => do
      let s ← get
      match s.br.bit? with
      | none => pure (.error .prematureEnd)
      | some b => do
        set { s with br.p := s.br.p + 1 }
        pure (.ok b)

/-- The loop of U_BR_READBITS: "v <- 2·v + b" (R205). -/
def readBitsFrom : Nat → Nat → Seq (Except FrameErr Nat)
  | 0, v => pure (.ok v)
  | n + 1, v => do
    let r ← call uBrReadbit
    match r with
    | .error e => pure (.error e)
    | .ok b => readBitsFrom n (2 * v + bitNat b)

/-- U_BR_READBITS(n) (R205): the first bit read is the most significant. -/
def uBrReadbits (n : Nat) : Seq (Except FrameErr Nat) := readBitsFrom n 0

/-- Runs a WIRE_FORMAT member over the frame's bit stream, "only through U_BR_READBITS and U_BR_READBIT" (R206). Either error leaves
br.p where the member's reads left it and br.ent as it was (log 32). -/
def runWire {α : Type} : WireProg α → Seq (Except FrameErr α)
  | .ret a => pure (.ok a)
  | .fail e => pure (.error e)
  | .bit k => do
    let r ← call uBrReadbit
    runWire (k r.toOption)
  | .bits n k => do
    let r ← call (uBrReadbits n)
    runWire (k r.toOption)

/-- U_BR_HEADER (R207). -/
def uBrHeader : Seq Unit := do
  let s ← get
  let h ← runWire (wireHeader s.params.wireFormat (8 * s.br.len) s.br.p)
  match h with
  | .error _ => modify fun s => { s with frm.frameErr := true, frm.silent := false }
  | .ok h => modify fun s => { s with frm.storedCk := h.storedCk, frm.silent := h.silent, br.ent := h.ent }

/-- U_BR_SYMBOL (R208): none is ERR, with frameError already called. -/
def uBrSymbol : Seq (Option Int) := do
  let s ← get
  let r ← runWire (wireSymbol s.params.wireFormat s.br.ent (8 * s.br.len) s.br.p)
  match r with
  | .error _ => do frameError; pure none
  | .ok y => do
    modify fun s => { s with br.ent := y.ent }
    pure (some y.e.toInt)

/-! ## The meanings of the micro-operations run on their own -/

/-- A result that may be a frame error. -/
def bitResult {α : Type} (f : α → UopResult) : Except FrameErr α → UopResult
  | .error _ => .frameError
  | .ok a => f a

/-- U_SRC_SEEK(off); past the end of the source it sets the position all the same (log 7). -/
def execUSrcSeek (s : State) : Host.Outcome State Fault Refusal :=
  runUop (do uSrcSeek s.op.off.toNat; pure .nothing) s

/-- U_SRC_READ(max). R219 has 1 ≤ max ≤ FETCH_BYTES; any other max is asked of the source as it is (log 7). -/
def execUSrcRead (s : State) : Host.Outcome State Fault Refusal :=
  runUop (do let bs ← uSrcRead s.op.max.toNat; pure (.bytes bs)) s

/-- U_SRC_SIZE. -/
def execUSrcSize (s : State) : Host.Outcome State Fault Refusal :=
  runUop (do let n ← uSrcSize; pure (.num n)) s

/-- U_BR_RESET. -/
def execUBrReset (s : State) : Host.Outcome State Fault Refusal :=
  runUop (do uBrReset s.op.start.toNat s.op.len.toNat; pure .nothing) s

/-- U_BR_FETCH; with no byte of the window left it reads 0 bytes and is a PREMATURE_END (log 15), and while byte p/8 is fetched
already it fetches all the same, so that br.buf may pass the FETCH_BYTES + 8 bytes of 10_state.md R43 (log 40). -/
def execUBrFetch (s : State) : Host.Outcome State Fault Refusal :=
  runUop (do let r ← uBrFetch; pure (bitResult (fun _ => .nothing) r)) s

/-- U_BR_READBIT. -/
def execUBrReadbit (s : State) : Host.Outcome State Fault Refusal :=
  runUop (do let r ← uBrReadbit; pure (bitResult .bit r)) s

/-- U_BR_READBITS(n). -/
def execUBrReadbits (n : Nat) (s : State) : Host.Outcome State Fault Refusal :=
  runUop (do let r ← uBrReadbits n; pure (bitResult .num r)) s

/-- U_BR_HEADER. -/
def execUBrHeader (s : State) : Host.Outcome State Fault Refusal :=
  runUop (do uBrHeader; pure .nothing) s

/-- U_BR_SYMBOL. In a frame whose header failed or that is silent, where R208 says that no symbol is decoded, it decodes one all the same
(log 40). -/
def execUBrSymbol (s : State) : Host.Outcome State Fault Refusal :=
  runUop (do let r ← uBrSymbol; pure (match r with | none => .frameError | some e => .sample e)) s

end Sys2Proof.Machine
end

