-- ==== Sys2Proof/Machine/Predictor.lean ====
section
/-! DEFINITION. The Predictor (42_predictor.md): U_PRED_RESET, U_STAGE_STEP, U_PRED_STEP. -/

namespace Sys2Proof.Machine

/-- acc: the N exact products added into a 64-bit accumulator that wraps (R255, R256). -/
def macAcc (coef hist : List Int) : Int := wrapN 64 (List.zipWith (· * ·) coef hist).sum

/-- The prediction (R257): rounded for k ≥ 1, acc itself for k = 0. -/
def macPred (k : Nat) (acc : Int) : Int :=
  if k = 0 then acc else asr (wrapN 64 (acc + 2 ^ (k - 1))) k

/-- The sign-sign adaptation, on the history as it was before the step's shift (R258). -/
def adaptCoef (c : StageCfg) (x : Int) (coef hist : List Int) : List Int :=
  List.zipWith (fun a h => wrapN c.Wc (a + c.mu * sgn x * sgn h)) coef hist

/-- The history's shift by one place (R259). -/
def shiftHist (c : StageCfg) (y : Int) (hist : List Int) : List Int := satN c.Wh y :: hist.dropLast

/-- y of a stage (R255). -/
def stageOutput (c : StageCfg) (st : StageState) (x : Int) : Int :=
  wrapN 64 (x + macPred c.k (macAcc st.coef st.hist))

/-- The stage's state after a step (R255). -/
def stageNext (c : StageCfg) (st : StageState) (x : Int) : StageState :=
  { coef := adaptCoef c x st.coef st.hist, hist := shiftHist c (stageOutput c st x) st.hist }

/-- Stage number k of a list: stages are numbered 1 .. S (R260; log 18). -/
def stageAt {α : Type} (l : List α) (k : Nat) : Option α := if k = 0 then none else l[k - 1]?

/-- The state of stage k of pred[c]. -/
def predStage (s : State) (c k : Nat) : Option StageState :=
  match s.pred[c]? with
  | none => none
  | some l => stageAt l k

/-- Writes the state of stage k of pred[c]. -/
def setPredStage (c k : Nat) (st : StageState) (s : State) : State :=
  { s with pred := s.pred.modify c fun l => l.set (k - 1) st }

/-- U_PRED_RESET(c) (R254); a c that has no predictor has no state to reset, and a c from C on is run on the entry pred holds
(log 15). -/
def uPredReset (c : Nat) : Seq Unit :=
  modify fun s => { s with pred := s.pred.set c (zeroPred s.cfg.stages) }

/-- y of U_STAGE_STEP(c, k, x) where channel c has no stage k: the spec states none (log 15). -/
def absentStage (c k : Nat) (x : Int) : Int := (Config.freeStage c k (BitVec.ofInt 64 x)).toInt

/-- U_STAGE_STEP(c, k, x) (R255); a c from C on is run on the entry pred holds (log 15), and a state that does not have CFG's N
entries on the entries it has (log 37). -/
def uStageStep (c k : Nat) (x : Int) : Seq Int := do
  let s ← get
  match stageAt s.cfg.stages k, predStage s c k with
  | some g, some st => do
    set (setPredStage c k (stageNext g st x) s)
    pure (stageOutput g st x)
  | _, _ => pure (absentStage c k x)

/-- The cascade from a list of stage numbers on (R260). -/
def cascade (c : Nat) : List Nat → Int → Seq Int
  | [], v => pure v
  | k :: ks, v => do
    let y ← call (uStageStep c k v)
    cascade c ks y

/-- U_PRED_STEP(c, e) (R260): "for s in 1 .. S", in list order. Inside a command a channel or a stage above 255, which the 8-bit fields
A and Bs of R129 cannot name, is stepped by its number all the same (log 41). -/
def uPredStep (c : Nat) (e : Int) : Seq Int := do
  let s ← get
  cascade c (List.range' 1 s.cfg.stages.length) e

/-! ## The meanings of the micro-operations run on their own -/

/-- U_PRED_RESET(c). -/
def execUPredReset (c : Nat) (s : State) : Host.Outcome State Fault Refusal :=
  runUop (do uPredReset c; pure .nothing) s

/-- U_STAGE_STEP(c, st, x). -/
def execUStageStep (c st : Nat) (s : State) : Host.Outcome State Fault Refusal :=
  runUop (do let y ← uStageStep c st s.op.x.toInt; pure (.sample y)) s

/-- U_PRED_STEP(c, e). -/
def execUPredStep (c : Nat) (s : State) : Host.Outcome State Fault Refusal :=
  runUop (do let y ← uPredStep c s.op.x.toInt; pure (.sample y)) s

end Sys2Proof.Machine
end

