-- ==== Sys2Proof/Machine/Reconstructor.lean ====
section
/-! DEFINITION. The Reconstructor and the frame checksum (43_reconstructor.md): U_UNPREPARE, U_PACK, U_SILENCE, U_CK_UPDATE. -/

namespace Sys2Proof.Machine

/-- MS_TRUNC (R291): R from X and Y, then L, in output order. -/
def msTrunc (x y : Int) : List Int :=
  let r := wrapN 64 (x - tdiv y 2)
  [wrapN 64 (r + y), r]

/-- UNPREPARE (R291): left, then right. -/
def unprepareStereo : Unprepare → Int → Int → List Int
  | .msTrunc, x, y => msTrunc x y
  | .external, x, y =>
    let lr := Config.extUnprepare (BitVec.ofInt 64 x) (BitVec.ofInt 64 y)
    [lr.1.toInt, lr.2.toInt]

/-- The transform of one block's samples: R291 for two channels, none otherwise (R292). A list that is not one of C samples
passes through whole (log 30). -/
def unprepare (u : Unprepare) (C : Nat) (vals : List Int) : List Int :=
  if C = 2 then
    match vals with
    | [x, y] => unprepareStereo u x y
    | _ => vals
  else vals

/-- U_PACK's bytes (R293): 8 bits as offset binary, 16, 24 and 32 little-endian and wrapped; at any other depth the spec states
none (log 15). -/
def packSample (bps : Nat) (v : Int) : List Byte :=
  if bps = 8 then leBytes 1 (v + 128)
  else if bps = 16 ∨ bps = 24 ∨ bps = 32 then leBytes (bps / 8) v
  else Config.freePack (BitVec.ofInt 64 v) bps

/-- U_SILENCE's block (R295): sample value 0 for each channel. -/
def silenceBlock (cfg : SessionCfg) : List Byte := (List.replicate cfg.C (packSample cfg.bps 0)).flatten

/-- One CRC32 shift (R299). -/
def crcShift (c : Word) : Word := if c.getLsbD 0 then (c >>> 1) ^^^ 0xEDB88320#32 else c >>> 1

/-- CRC32's update (R299): "repeat 8 times". -/
def crcUpdate (c : Word) (b : Byte) : Word := Nat.repeat crcShift 8 (c ^^^ b.setWidth 32)

/-- CHECKSUM.init (R297, R299). -/
def ckInit : Checksum → Word
  | .crc32 => 0xFFFFFFFF#32
  | .external => Config.extCkInit

/-- CHECKSUM.update (R297, R299). -/
def ckUpdate : Checksum → Word → Byte → Word
  | .crc32, c, b => crcUpdate c b
  | .external, c, b => Config.extCkUpdate c b

/-- CHECKSUM.final (R297, R299). -/
def ckFinal : Checksum → Word → Word
  | .crc32, c => c ^^^ 0xFFFFFFFF#32
  | .external, c => Config.extCkFinal c

/-- U_UNPREPARE (R291, R292). -/
def uUnprepare (vals : List Int) : Seq (List Int) := do
  let s ← get
  pure (unprepare s.params.unprepare s.cfg.C vals)

/-- U_PACK(v, bps) (R293). -/
def uPack (v : Int) (bps : Nat) : Seq (List Byte) := pure (packSample bps v)

/-- U_SILENCE (R295). -/
def uSilence : Seq (List Byte) := do
  let s ← get
  pure (silenceBlock s.cfg)

/-- U_CK_UPDATE over one block's bytes (R298). -/
def uCkUpdate (blk : List Byte) : Seq Unit :=
  modify fun s => { s with frm.runCk := blk.foldl (ckUpdate s.params.checksum) s.frm.runCk }

/-- The packing and interleave of one block (R294). -/
def packAll : List Int → Seq (List Byte)
  | [] => pure []
  | v :: vs => do
    let s ← get
    let b ← call (uPack v s.cfg.bps)
    let bs ← packAll vs
    pure (b ++ bs)

/-- finalize(s): "computed as U_PACK over the output of U_UNPREPARE" (R290). -/
def finalize (vals : List Int) : Seq (List Byte) := do
  let out ← call (uUnprepare vals)
  packAll out

/-! ## The meanings of the micro-operations run on their own -/

/-- U_UNPREPARE. -/
def execUUnprepare (s : State) : Host.Outcome State Fault Refusal :=
  runUop (do let vs ← uUnprepare (s.op.vals.map BitVec.toInt); pure (.samples vs)) s

/-- U_PACK(v, bps). -/
def execUPack (s : State) : Host.Outcome State Fault Refusal :=
  runUop (do let bs ← uPack s.op.x.toInt s.op.bps.toNat; pure (.bytes bs)) s

/-- U_SILENCE. -/
def execUSilence (s : State) : Host.Outcome State Fault Refusal :=
  runUop (do let bs ← uSilence; pure (.bytes bs)) s

/-- U_CK_UPDATE(blk), whatever the length of blk (log 15). -/
def execUCkUpdate (s : State) : Host.Outcome State Fault Refusal :=
  runUop (do uCkUpdate s.op.blk; pure .nothing) s

end Sys2Proof.Machine
end

