-- ==== Sys2Proof/Machine/RingBuffer.lean ====
section
/-! DEFINITION. The CircularFrameBuffer (44_framebuffer.md): U_RING_RESET, U_RING_WRITE, U_RING_READ, U_RING_DROP,
U_RING_SILENCE_TAIL. -/

namespace Sys2Proof.Machine

/-- ring.data[slot], BA bytes (10_state.md R45): the first BA bytes of the block written there; a byte that nothing has written is
unspecified (log 10). -/
def ringSlot (s : State) (slot : Nat) : List Byte :=
  let blk := (findKey slot s.ring.data).getD []
  (List.range s.cfg.BA).map fun j => blk[j]?.getD (Config.freeRing s.epoch slot j)

/-- The slot of the i-th oldest unread block. -/
def readSlot (r : Ring) (i : Nat) : Nat := (r.rd + i) % r.cap

/-- ring.data[slot] <- blk. -/
def setSlot (slot : Nat) (blk : List Byte) (s : State) : State :=
  { s with ring.data := insertKey slot blk s.ring.data }

/-- U_RING_WRITE(blk) (R322, R323). -/
def uRingWrite (blk : List Byte) : Seq Unit := do
  let s ← get
  if s.ring.count = s.ring.cap then throw (.fault .ringOverflow)
  else
    set { s with ring := { s.ring with data := insertKey s.ring.wr blk s.ring.data,
                                       wr := (s.ring.wr + 1) % s.ring.cap, count := s.ring.count + 1 } }

/-- Writes bytes to OUT from its byte j on; there is no memory past OUTBUF_BYTES (20_memory.md R80). -/
def writeOut (j : Nat) (bs : List Byte) (s : State) : State := writeBytes (outBase + j) (bs.take (s.params.outbufBytes - j)) s

/-- The copies of U_RING_READ for the given block numbers (R324). -/
def copyBlocks (dst : Nat) : List Nat → State → State
  | [], s => s
  | i :: is, s => copyBlocks dst is (writeOut (dst + i * s.cfg.BA) (ringSlot s (readSlot s.ring i)) s)

/-- rd and count after n blocks have left a ring that has them (R324, R325). -/
def advanceRead (n : Nat) (s : State) : State :=
  { s with ring.rd := (s.ring.rd + n) % s.ring.cap, ring.count := s.ring.count - n }

/-- U_RING_DROP's effect (R325). Where the ring has fewer than n blocks the spec states no count; it stays within ring.cap
(R327; log 15). -/
def dropBlocks (n : Nat) (s : State) : State :=
  if n ≤ s.ring.count then advanceRead n s
  else { advanceRead n s with ring.count := Config.freeCount n s.ring.count % (s.ring.cap + 1) }

/-- U_RING_READ(n, dst) (R324). -/
def uRingRead (n dst : Nat) : Seq Nat := do
  let s ← get
  let m := min n s.ring.count
  set (advanceRead m (copyBlocks dst (List.range m) s))
  pure m

/-- U_RING_DROP(n) (R325). -/
def uRingDrop (n : Nat) : Seq Unit := modify (dropBlocks n)

/-- The slot of the i-th newest block, i ≥ 1: (ring.wr − i) mod ring.cap (R326). -/
def tailSlot (r : Ring) (i : Nat) : Nat := (((r.wr : Int) - i) % r.cap).toNat

/-- The overwrites of U_RING_SILENCE_TAIL for the given block numbers (R326). -/
def silenceSlots : List Nat → State → State
  | [], s => s
  | i :: is, s => silenceSlots is (setSlot (tailSlot s.ring i) (silenceBlock s.cfg) s)

/-- U_RING_SILENCE_TAIL(n) (R326): "for i in 1 .. n". Its U_SILENCE is a value inside this one step: no host access comes before it
(log 24). -/
def uRingSilenceTail (n : Nat) : Seq Unit := modify (silenceSlots (List.range' 1 n))

/-! ## The meanings of the micro-operations run on their own -/

/-- U_RING_RESET. -/
def execURingReset (s : State) : Host.Outcome State Fault Refusal :=
  runUop (do uRingReset; pure .nothing) s

/-- U_RING_WRITE(blk). R322 has a blk of BA bytes; any other is stored as it is (log 10). -/
def execURingWrite (s : State) : Host.Outcome State Fault Refusal :=
  runUop (do uRingWrite s.op.blk; pure .nothing) s

/-- U_RING_READ(n, dst). "The caller guarantees that dst + m × BA ≤ OUTBUF_BYTES" and 1 ≤ n (R324); with n = 0 it moves no block,
and bytes past the end of OUT have nowhere to go (log 15). -/
def execURingRead (s : State) : Host.Outcome State Fault Refusal :=
  runUop (do let m ← uRingRead s.op.n.toNat s.op.dst.toNat; pure (.num m)) s

/-- U_RING_DROP(n) (R325). -/
def execURingDrop (s : State) : Host.Outcome State Fault Refusal :=
  runUop (do uRingDrop s.op.n.toNat; pure .nothing) s

/-- U_RING_SILENCE_TAIL(n) (R326); with n > ring.count the same slots by number (log 15). -/
def execURingSilenceTail (s : State) : Host.Outcome State Fault Refusal :=
  runUop (do uRingSilenceTail s.op.n.toNat; pure .nothing) s

end Sys2Proof.Machine
end

