-- ==== Sys2Proof/Machine/Sequencer.lean ====
section
/-! DEFINITION. The frame sequencer (45_frame_sequencer.md): frame geometry, U_START_FRAME, U_DECODE_BLOCK, U_END_FRAME,
P_DECODE_FRAME, P_POSITION. -/

namespace Sys2Proof.Machine

/-! ## Frame geometry -/

/-- numFrames = ⌈total / B⌉, and 0 when total = 0 (R350, 10_state.md R32). -/
def numFramesOf (total B : Nat) : Nat := (total + B - 1) / B

/-- frameBlocks(g) (R350). A g that is no frame has no count; it is at most B (log 15). A difference below 0, which no open session
has, is 0 (log 36). -/
def frameBlocks (c : SessionCfg) (g : Nat) : Nat :=
  if g + 1 < c.numFrames then c.B
  else if g + 1 = c.numFrames then c.total - (c.numFrames - 1) * c.B
  else Config.freeFrameBlocks g % (c.B + 1)

/-- frameStart(g) (R351). A g that is no frame has no window, and one from SEEKTAB_ENTRIES on no entry (log 15). -/
def frameStart (s : State) (g : Nat) : Nat :=
  if g < s.cfg.numFrames then s.cfg.payOff + seektabEntry s g else (Config.freeFrameStart g).toNat

/-- frameEnd(g) (R351); as for frameStart(g) (log 15). -/
def frameEnd (s : State) (g : Nat) : Nat :=
  if g + 1 < s.cfg.numFrames then s.cfg.payOff + seektabEntry s (g + 1)
  else if g + 1 = s.cfg.numFrames then s.cfg.payOff + s.cfg.payLen
  else (Config.freeFrameEnd g).toNat

/-- Frame g is a resynchronisation frame (R352). -/
def isResync (p : Params) (g : Nat) : Bool := g = 0 || (p.resyncInterval ≠ 0 && g % p.resyncInterval = 0)

/-- resyncFrame(f) (R352). -/
def resyncFrame (p : Params) (f : Nat) : Nat := if p.resyncInterval = 0 then 0 else f - f % p.resyncInterval

/-- deliverable(i, a) (R357). -/
def deliverable (s : State) (i a : Nat) : Bool := s.cur.skipBlocks ≤ i && a < s.cfg.F

/-! ## Frame micro-operations -/

/-- The in-frame state at a frame start (R353). -/
def enterFrame (g : Nat) (s : State) : State :=
  { s with frm := { s.frm with curFrame := g, blkInFrame := 0, placed := 0, frameErr := false,
                               runCk := ckInit s.params.checksum, silent := false } }

/-- The predictor resets of a resynchronisation frame (R353). -/
def resetPredictors (g : Nat) : Seq Unit := do
  let s ← get
  if isResync s.params g then forEach uPredReset (List.range s.cfg.C) else pure ()

/-- U_START_FRAME(g, M) (R353); M has no effect in the rule (log 35). A window whose end lies below its start, which no open session
has, is empty: its length is 0 (log 36). -/
def uStartFrame (g : Nat) : Seq Unit := do
  let s ← get
  call (uSrcSeek (frameStart s g))
  call (uBrReset (frameStart s g) (frameEnd s g - frameStart s g))
  resetPredictors g
  modify (enterFrame g)
  call uBrHeader

/-- The residuals of one block in channel order; none where a symbol is ERR, and no later symbol is read (R354, 41_bitreader.md R209). -/
def decodeSymbols : Nat → Seq (Option (List Int))
  | 0 => pure (some [])
  | n + 1 => do
    let r ← call uBrSymbol
    match r with
    | none => pure none
    | some e => do
      let es ← decodeSymbols n
      match es with
      | none => pure none
      | some es => pure (some (e :: es))

/-- The predictor steps of one block, channel c first (R354). -/
def predictAll (c : Nat) : List Int → Seq (List Int)
  | [] => pure []
  | e :: es => do
    let v ← call (uPredStep c e)
    let vs ← predictAll (c + 1) es
    pure (v :: vs)

/-- The block of a frame in error, or of a block whose symbol failed: silence, no checksum, no predictor (R354). -/
def silentBlock : Seq (List Byte) := call uSilence

/-- A block that is checksummed (R354). -/
def checked (blk : List Byte) : Seq (List Byte) := do
  call (uCkUpdate blk)
  pure blk

/-- The bytes of the current block (R354). -/
def blockBytes : Seq (List Byte) := do
  let s ← get
  if s.frm.frameErr then silentBlock
  else if s.frm.silent then do
    let blk ← silentBlock
    checked blk
  else do
    let r ← decodeSymbols s.cfg.C
    match r with
    | none => silentBlock
    | some es => do
      let vals ← predictAll 0 es
      let blk ← finalize vals
      checked blk

/-- The delivery of a block (R354, R357). -/
def deliver (m : Mode) (i : Nat) (blk : List Byte) : Seq Unit := do
  let s ← get
  if m = .deliver ∧ deliverable s i (s.frm.curFrame * s.cfg.B + i) then do
    call (uRingWrite blk)
    modify fun s => { s with frm.placed := s.frm.placed + 1 }
  else pure ()

/-- U_DECODE_BLOCK(M) (R354). -/
def uDecodeBlock (m : Mode) : Seq Unit := do
  let s ← get
  let blk ← blockBytes
  deliver m s.frm.blkInFrame blk
  modify fun t => { t with frm.blkInFrame := s.frm.blkInFrame + 1 }

/-- The checksum comparison of EndFrame (R355). -/
def verifyFrame : Seq Unit := modify fun s =>
  if !s.frm.frameErr && ckFinal s.params.checksum s.frm.runCk ≠ s.frm.storedCk then { s with frm.frameErr := true } else s

/-- The handling of a frame error at EndFrame (R355). -/
def settleFrame (m : Mode) : Seq Unit := do
  let s ← get
  if s.frm.frameErr then do
    set { s with life.hadErrors := true }
    if m = .deliver then call (uRingSilenceTail s.frm.placed) else pure ()
  else pure ()

/-- U_END_FRAME(M) (R355). -/
def uEndFrame (m : Mode) : Seq Unit := do
  verifyFrame
  settleFrame m

/-! ## Procedures -/

/-- The block loop of P_DECODE_FRAME (R356). In DISCARD mode the blocks after a frame error run as any other, though R354 lets an
implementation skip them (log 42). -/
def decodeBlocks (m : Mode) : Nat → Seq Unit
  | 0 => pure ()
  | n + 1 => do
    call (uDecodeBlock m)
    decodeBlocks m n

/-- The cursor after a frame in DELIVER mode (R356). -/
def nextCursor (g : Nat) (m : Mode) (s : State) : State :=
  if m = .deliver then { s with cur.nextFrame := g + 1, cur.skipBlocks := 0 } else s

/-- P_DECODE_FRAME(g, M) (R356). -/
def pDecodeFrame (g : Nat) (m : Mode) : Seq Unit := do
  call (uStartFrame g)
  let s ← get
  decodeBlocks m (frameBlocks s.cfg g)
  call (uEndFrame m)
  modify (nextCursor g m)

/-- The replay of P_POSITION: frames g, g+1, ... in DISCARD mode (R358). -/
def replay : Nat → Nat → Seq Unit
  | _, 0 => pure ()
  | g, n + 1 => do
    pDecodeFrame g .discard
    replay (g + 1) n

/-- The cursor at block b (R358). -/
def cursorAt (b : Nat) (pending : Bool) (s : State) : State :=
  { s with cur := { s.cur with nextFrame := (s.cfg.S + b) / s.cfg.B, skipBlocks := (s.cfg.S + b) % s.cfg.B, curBlock := b,
                               resyncPending := pending } }

/-- P_POSITION(b) (R358). While F < S, which no open session has, F − S is 0, so b = 0 takes the end-of-range branch (log 36). -/
def pPosition (b : Nat) : Seq Unit := do
  call uRingReset
  let s ← get
  if b = s.cfg.F - s.cfg.S then modify (cursorAt b true)
  else do
    let f := (s.cfg.S + b) / s.cfg.B
    let r := resyncFrame s.params f
    replay r (f - r)
    modify (cursorAt b false)

/-! ## The meanings of the micro-operations and procedures run on their own -/

/-- U_START_FRAME(g, M); a g that is no frame has a free window (R351; log 15). -/
def execUStartFrame (_m : Mode) (s : State) : Host.Outcome State Fault Refusal :=
  runUop (do uStartFrame s.op.g.toNat; pure .nothing) s

/-- U_DECODE_BLOCK(M). -/
def execUDecodeBlock (m : Mode) (s : State) : Host.Outcome State Fault Refusal :=
  runUop (do uDecodeBlock m; pure .nothing) s

/-- U_END_FRAME(M). -/
def execUEndFrame (m : Mode) (s : State) : Host.Outcome State Fault Refusal :=
  runUop (do uEndFrame m; pure .nothing) s

/-- P_DECODE_FRAME(g, M) (R356). R357 has it started in DELIVER mode with ring.count = 0 and g = st.nextFrame only; run on its own
otherwise, or on a g that is no frame, it is R356's pseudocode all the same (log 15). -/
def execPDecodeFrame (m : Mode) (s : State) : Host.Outcome State Fault Refusal :=
  runUop (do pDecodeFrame s.op.g.toNat m; pure .nothing) s

/-- P_POSITION(b) (R358); a b past F − S is positioned by the same pseudocode (log 15). -/
def execPPosition (s : State) : Host.Outcome State Fault Refusal :=
  runUop (do pPosition s.op.b.toNat; pure .nothing) s

end Sys2Proof.Machine
end

