-- ==== Sys2Proof/Machine/Commands.lean ====
section
/-! DEFINITION. The host commands (46_host_commands.md): NOP, INIT, INIT.R, GETDATA, SEEK, GETINFO's ten fields, RELEASE, and
the two rejections that are no instruction of the opcode table, an ILLEGAL word and a reserved GETINFO field. A meaning here
starts where the command was accepted: the latches hold CMD, ARG0 and ARG1 (Accept.lean). -/

namespace Sys2Proof.Machine

/-! ## NOP -/

/-- NOP (R401). -/
def execNop (s : State) : Host.Outcome State Fault Refusal := .next (complete .success 0 0 s)

/-! ## INIT -/

/-- BA = C × bps / 8 and the other constraints of 10_state.md R46. -/
def descValid (p : Params) (d : Desc) : Bool :=
  let C := d.channels.toNat
  let bps := d.bps.toNat
  let B := d.blocksPerFrame.toNat
  decide (1 ≤ C ∧ C ≤ p.maxChannels ∧ (bps = 8 ∨ bps = 16 ∨ bps = 24 ∨ bps = 32) ∧ d.blockAlign.toNat = C * bps / 8 ∧
    1 ≤ B ∧ B ≤ p.maxFrameBlocks ∧ d.level.toNat ∈ p.levels ∧ p.minVersion ≤ d.version.toNat ∧
    d.version.toNat ≤ p.maxVersion ∧ numFramesOf d.total.toNat B ≤ p.seektabEntries ∧
    d.payOff.toNat + d.payLen.toNat < 2 ^ 64)

/-- CFG from the descriptor and the range (R403 step 3, 10_state.md R32). -/
def cfgOf (p : Params) (d : Desc) (S F : Nat) : SessionCfg :=
  let legacy := decide (d.version.toNat < p.legacyVersion)
  { C := d.channels.toNat, sampleRate := d.sampleRate.toNat, bps := d.bps.toNat, BA := d.blockAlign.toNat,
    total := d.total.toNat, B := d.blocksPerFrame.toNat, level := d.level.toNat, version := d.version.toNat,
    payOff := d.payOff.toNat, payLen := d.payLen.toNat, S, F,
    numFrames := numFramesOf d.total.toNat d.blocksPerFrame.toNat, legacy, stages := p.stagesOf d.level.toNat legacy }

/-- The range (R403 step 2): st.a0 and st.a1 where RANGED, else the whole stream. -/
def initRange (ranged : Bool) (s : State) : Nat × Nat :=
  if ranged then (s.latch.a0.toNat, s.latch.a1.toNat) else (0, s.regs.desc.total.toNat)

/-- R403 steps 1 to 3: the first failing check decides. -/
def initConfigure (ranged : Bool) (s : State) : Except Status SessionCfg :=
  let r := initRange ranged s
  if !descValid s.params s.regs.desc then .error .invalidStream
  else if r.2 < r.1 ∨ s.regs.desc.total.toNat < r.2 then .error .badParameter
  else .ok (cfgOf s.params s.regs.desc r.1 r.2)

/-- SEEKTAB is well formed (R403 step 5, 45_frame_sequencer.md R351). -/
def seektabValid (s : State) : Bool :=
  (List.range (s.cfg.numFrames - 1)).all (fun g => seektabEntry s g ≤ seektabEntry s (g + 1)) &&
  (s.cfg.numFrames = 0 || seektabEntry s (s.cfg.numFrames - 1) ≤ s.cfg.payLen)

/-- R403 steps 4 and 5, given the source's size. -/
def streamValid (z : Nat) (s : State) : Bool := s.cfg.payOff + s.cfg.payLen ≤ z && seektabValid s

/-- R403 step 6, the header probe of frame 0; false where the header fails. -/
def probeHeader : Seq Bool := do
  let s ← get
  if s.cfg.numFrames = 0 then pure true
  else do
    call (uSrcSeek (frameStart s 0))
    call (uBrReset (frameStart s 0) (frameEnd s 0 - frameStart s 0))
    modify fun s => { s with frm.frameErr := false }
    call uBrHeader
    let t ← get
    pure (!t.frm.frameErr)

/-- The rest of INIT after its checks (R402): the ring, the predictors, the position. -/
def openSession : Seq Unit := do
  modify fun s => { s with ring.cap := s.params.ringFrames * s.cfg.B }
  call uRingReset
  let s ← get
  forEach uPredReset (List.range s.cfg.C)
  modify fun s => { s with cur.resyncPending := false }
  pPosition 0

/-- INIT's successful end (R402). -/
def initDone (s : State) : State := complete .success 0 0 { s with life.fsm := .ready }

/-- R403 steps 4 to 6 and the opening of the session. -/
def initStream : Seq Unit := do
  let z ← call uSrcSize
  let s ← get
  if streamValid z s then do
    let ok ← probeHeader
    if ok then do
      openSession
      finishWith initDone
    else finishWith (initFail .invalidStream)
  else finishWith (initFail .invalidStream)

/-- INIT after its state checks (R402, R403). st.hadErrors <- 0 and a failure of R403's steps 1 and 2 are one step: no host access
falls between them (log 23). -/
def initValidate (ranged : Bool) : Seq Unit := do
  modify fun s => { s with life.hadErrors := false }
  let s ← get
  match initConfigure ranged s with
  | .error st => modify (initFail st)
  | .ok cfg => do
    set { s with cfg := cfg }
    initStream

/-- INIT (R402). -/
def initBody (ranged : Bool) : Seq Unit := do
  let s ← get
  if s.life.initFailed then completeWith .uninitialized
  else if s.life.fsm ≠ .uninitialized then completeWith .illegalState
  else initValidate ranged

/-- INIT of the whole stream (R402): an I/O failure is fail(IO_FAILURE) (60_exceptions.md R454). -/
def execInit (s : State) : Host.Outcome State Fault Refusal := runCommand recoverInit (initBody false) s

/-- INIT.R, INIT of the range st.a0 .. st.a1 (R402). -/
def execInitR (s : State) : Host.Outcome State Fault Refusal := runCommand recoverInit (initBody true) s

/-! ## GETDATA -/

/-- "if st.resyncPending = 1 : P_POSITION(st.curBlock)" (R404). -/
def reposition : Seq Unit := do
  let s ← get
  if s.cur.resyncPending then pPosition s.cur.curBlock else pure ()

/-- "if ring.count = 0 : P_DECODE_FRAME(st.nextFrame, DELIVER)" (R404). -/
def refill : Seq Unit := do
  let s ← get
  if s.ring.count = 0 then pDecodeFrame s.cur.nextFrame .deliver else pure ()

/-- The loop of GETDATA (R404). The first number bounds its iterations: "the loop ends after at most want iterations". That it ends
with what it has, should it have less than want by then, is the model's choice (log 17). Yields got. -/
def deliverLoop (want : Nat) : Nat → Nat → Seq Nat
  | 0, got => pure got
  | left + 1, got =>
    if got < want then do
      refill
      let s ← get
      let m ← call (uRingRead (want - got) (got * s.cfg.BA))
      modify fun s => { s with cur.curBlock := s.cur.curBlock + m }
      deliverLoop want left (got + m)
    else pure got

/-- GETDATA's end (R404). -/
def getdataDone (n got : Nat) (s : State) : State :=
  complete (if got < n then .endOfData else .success) (BitVec.ofNat 64 (got * s.cfg.BA)) (BitVec.ofNat 64 got)
    { s with life.fsm := .ready }

/-- The blocks a GETDATA may deliver: min(N, (F − S) − curBlock) (R404). -/
def wantOf (n : Nat) (s : State) : Nat := min n ((s.cfg.F - s.cfg.S) - s.cur.curBlock)

/-- GETDATA after its checks (R404). With resyncPending = 1 it re-positions first, as R404's pseudocode and 92_eei_decisions.md D28
say, for every N, 0 as well, where D40 says "with no decode": the model's choice (log 43). -/
def getdataRun (n : Nat) : Seq Unit := do
  modify fun s => { s with life.fsm := .decoding, cur.entryBlock := s.cur.curBlock }
  reposition
  let s ← get
  let got ← deliverLoop (wantOf n s) (wantOf n s) 0
  finishWith (getdataDone n got)

/-- GETDATA (R404). -/
def getdataBody : Seq Unit := do
  let s ← get
  if !sessionOpen s then completeWith .uninitialized
  else if s.params.outbufBytes / s.cfg.BA < s.latch.a0.toNat then completeWith .badParameter
  else getdataRun s.latch.a0.toNat

/-- GETDATA. -/
def execGetdata (s : State) : Host.Outcome State Fault Refusal := runCommand recoverSession getdataBody s

/-! ## SEEK -/

/-- The target is buffered: SEEK's short path (R405). -/
def seekShort (b : Nat) (s : State) : Bool :=
  !s.cur.resyncPending && s.cur.curBlock ≤ b && b ≤ s.cur.curBlock + s.ring.count

/-- SEEK after its checks (R405). -/
def seekRun (b : Nat) : Seq Unit := do
  modify fun s => { s with life.fsm := .seeking, cur.entryBlock := s.cur.curBlock }
  let s ← get
  if seekShort b s then do
    call (uRingDrop (b - s.cur.curBlock))
    modify fun s => { s with cur.curBlock := b }
  else pPosition b
  finishWith fun s => complete .success 0 0 { s with life.fsm := .ready }

/-- SEEK (R405). -/
def seekBody : Seq Unit := do
  let s ← get
  if !sessionOpen s then completeWith .uninitialized
  else if s.cfg.F - s.cfg.S < s.latch.a0.toNat then completeWith .badParameter
  else seekRun s.latch.a0.toNat

/-- SEEK. -/
def execSeek (s : State) : Host.Outcome State Fault Refusal := runCommand recoverSession seekBody s

/-! ## GETINFO -/

/-- GETINFO of a value (R406): it is zero-extended to 64 bits. -/
def getinfo (value : Nat) (s : State) : State :=
  if sessionOpen s then complete .success (BitVec.ofNat 64 value) 0 s else complete .uninitialized 0 0 s

/-- GETINFO.CHANNELS (R407). -/
def execGetinfoChannels (s : State) : Host.Outcome State Fault Refusal := .next (getinfo s.cfg.C s)

/-- GETINFO.SAMPLE_RATE (R408). -/
def execGetinfoSampleRate (s : State) : Host.Outcome State Fault Refusal := .next (getinfo s.cfg.sampleRate s)

/-- GETINFO.BITS_PER_SAMPLE (R409). -/
def execGetinfoBitsPerSample (s : State) : Host.Outcome State Fault Refusal := .next (getinfo s.cfg.bps s)

/-- GETINFO.BLOCK_ALIGN (R410). -/
def execGetinfoBlockAlign (s : State) : Host.Outcome State Fault Refusal := .next (getinfo s.cfg.BA s)

/-- GETINFO.TOTAL_BLOCKS (R411). -/
def execGetinfoTotalBlocks (s : State) : Host.Outcome State Fault Refusal := .next (getinfo (s.cfg.F - s.cfg.S) s)

/-- GETINFO.CURRENT_BLOCK (R412). -/
def execGetinfoCurrentBlock (s : State) : Host.Outcome State Fault Refusal := .next (getinfo s.cur.curBlock s)

/-- GETINFO.COMPRESSION_LEVEL (R413). -/
def execGetinfoCompressionLevel (s : State) : Host.Outcome State Fault Refusal := .next (getinfo s.cfg.level s)

/-- GETINFO.HAD_ERRORS (R414). -/
def execGetinfoHadErrors (s : State) : Host.Outcome State Fault Refusal := .next (getinfo (bitNat s.life.hadErrors) s)

/-- GETINFO.FORMAT_VERSION (R415). -/
def execGetinfoFormatVersion (s : State) : Host.Outcome State Fault Refusal := .next (getinfo s.cfg.version s)

/-- GETINFO.LEGACY_MODE (R416). -/
def execGetinfoLegacyMode (s : State) : Host.Outcome State Fault Refusal := .next (getinfo (bitNat s.cfg.legacy) s)

/-! ## RELEASE -/

/-- RELEASE's end (R417): "CFG becomes unspecified", and ring.cap with it (70_reset_and_hazards.md R492; log 9).
Its assignments and its completion are one step (log 23). -/
def releaseDone (s : State) : State :=
  complete .success 0 0
    { s with cur := { s.cur with curBlock := 0, nextFrame := 0, skipBlocks := 0, resyncPending := false },
             life.fsm := .uninitialized, cfg := unspecifiedCfg (s.draws + 1),
             ring.cap := unspecifiedCap (s.draws + 1), draws := s.draws + 1 }

/-- RELEASE after its state check (R417). -/
def releaseRun : Seq Unit := do
  call uRingReset
  let s ← get
  forEach uPredReset (List.range s.cfg.C)
  finishWith releaseDone

/-- RELEASE (R417). -/
def releaseBody : Seq Unit := do
  let s ← get
  if sessionOpen s then releaseRun else completeWith .uninitialized

/-- RELEASE: it sends no request to the source, so its recovery is never used. -/
def execRelease (s : State) : Host.Outcome State Fault Refusal := runCommand recoverSession releaseBody s

/-! ## Words that are no instruction of the opcode table -/

/-- An ILLEGAL command word (R418). -/
def illegalCommand (s : State) : State := complete .illegalCommand 0 0 s

/-- GETINFO with a reserved field (R406): BAD_PARAMETER where a session is open. -/
def reservedGetinfo (s : State) : State :=
  if sessionOpen s then complete .badParameter 0 0 s else complete .uninitialized 0 0 s

end Sys2Proof.Machine
end

