-- ==== Sys2Proof/Machine/Dispatch.lean ====
section
/-! DEFINITION. exec: one arm per instruction, each one call of its meaning. -/

namespace Sys2Proof.Machine

def exec (i : Instr) (s : State) : Host.Outcome State Fault Refusal :=
  match i with
  | .nop => Sys2Proof.Machine.execNop s
  | .init => Sys2Proof.Machine.execInit s
  | .initR => Sys2Proof.Machine.execInitR s
  | .getdata => Sys2Proof.Machine.execGetdata s
  | .seek => Sys2Proof.Machine.execSeek s
  | .getinfoChannels => Sys2Proof.Machine.execGetinfoChannels s
  | .getinfoSampleRate => Sys2Proof.Machine.execGetinfoSampleRate s
  | .getinfoBitsPerSample => Sys2Proof.Machine.execGetinfoBitsPerSample s
  | .getinfoBlockAlign => Sys2Proof.Machine.execGetinfoBlockAlign s
  | .getinfoTotalBlocks => Sys2Proof.Machine.execGetinfoTotalBlocks s
  | .getinfoCurrentBlock => Sys2Proof.Machine.execGetinfoCurrentBlock s
  | .getinfoCompressionLevel => Sys2Proof.Machine.execGetinfoCompressionLevel s
  | .getinfoHadErrors => Sys2Proof.Machine.execGetinfoHadErrors s
  | .getinfoFormatVersion => Sys2Proof.Machine.execGetinfoFormatVersion s
  | .getinfoLegacyMode => Sys2Proof.Machine.execGetinfoLegacyMode s
  | .release => Sys2Proof.Machine.execRelease s
  | .uSrcSeek => Sys2Proof.Machine.execUSrcSeek s
  | .uSrcRead => Sys2Proof.Machine.execUSrcRead s
  | .uSrcSize => Sys2Proof.Machine.execUSrcSize s
  | .uBrReset => Sys2Proof.Machine.execUBrReset s
  | .uBrFetch => Sys2Proof.Machine.execUBrFetch s
  | .uBrReadbit => Sys2Proof.Machine.execUBrReadbit s
  | .uBrReadbits n => Sys2Proof.Machine.execUBrReadbits n s
  | .uBrHeader => Sys2Proof.Machine.execUBrHeader s
  | .uBrSymbol => Sys2Proof.Machine.execUBrSymbol s
  | .uPredReset c => Sys2Proof.Machine.execUPredReset c s
  | .uStageStep c st => Sys2Proof.Machine.execUStageStep c st s
  | .uPredStep c => Sys2Proof.Machine.execUPredStep c s
  | .uUnprepare => Sys2Proof.Machine.execUUnprepare s
  | .uPack => Sys2Proof.Machine.execUPack s
  | .uSilence => Sys2Proof.Machine.execUSilence s
  | .uCkUpdate => Sys2Proof.Machine.execUCkUpdate s
  | .uRingReset => Sys2Proof.Machine.execURingReset s
  | .uRingWrite => Sys2Proof.Machine.execURingWrite s
  | .uRingRead => Sys2Proof.Machine.execURingRead s
  | .uRingDrop => Sys2Proof.Machine.execURingDrop s
  | .uRingSilenceTail => Sys2Proof.Machine.execURingSilenceTail s
  | .uStartFrame m => Sys2Proof.Machine.execUStartFrame m s
  | .uDecodeBlock m => Sys2Proof.Machine.execUDecodeBlock m s
  | .uEndFrame m => Sys2Proof.Machine.execUEndFrame m s
  | .pDecodeFrame m => Sys2Proof.Machine.execPDecodeFrame m s
  | .pPosition => Sys2Proof.Machine.execPPosition s

end Sys2Proof.Machine
end

