-- ==== Sys2Proof/Machine/Accept.lean ====
section
/-! DEFINITION. What a step does around exec: the acceptance of a CMD write (46_host_commands.md R400), one operation of the
outside, one micro-operation word (30_encoding.md R129), and the placing of a word where the next step takes it. -/

namespace Sys2Proof.Machine

/-- An accepted word (R400): an instruction runs; a reserved GETINFO field and an ILLEGAL word complete (46_host_commands.md R406,
R418). -/
def runWord (v : Word) (s : State) : Host.Outcome State Fault Refusal :=
  match decodeCmd v with
  | .ok i => exec i s
  | .error .reservedField => .next (reservedGetinfo s)
  | .error _ => .next (illegalCommand s)

/-- The word starts a command: an instruction, or GETINFO with a reserved field. Any other is ILLEGAL (30_encoding.md R123). -/
def startsCommand (v : Word) : Bool :=
  match decodeCmd v with
  | .ok _ | .error .reservedField => true
  | .error _ => false

/-- An accepted CMD write (R400): the latches, BUSY <- 1, DONE <- 0; then the command, after the host accesses that come first. An
ILLEGAL word completes "at once" (30_encoding.md R123): no host access comes before its completion. -/
def acceptCmd (v : Word) (s : State) : Host.Outcome State Fault Refusal :=
  if startsCommand v then
    match interleave (acceptLatch v s) with
    | .ok _ t => runWord v t
    | .error _ t => .next t
  else runWord v (acceptLatch v s)

/-- A host store outside a running command (20_memory.md R80 to R83, 46_host_commands.md R400). -/
def hostStore (w : Width) (addr v : DWord) (s : State) : Host.Outcome State Fault Refusal :=
  if isCmdWrite s.params w addr ∧ ¬ s.regs.busy then acceptCmd (lo v) s else .next (hostWrite w addr v s)

/-- One operation of the outside. WAIT holds while BUSY = 1 (30_encoding.md R131): the machine is then stuck on an unanswered
request (60_exceptions.md R466), and nothing changes. With nothing to do the block is idle. -/
def hostStep (s : State) : Host.Outcome State Fault Refusal :=
  match s.host.prog with
  | [] => .next s
  | .wait :: t => if s.regs.busy then .next s else .next (withProg t s)
  | .letRun :: t => .next (withProg t s)
  | .rstN :: t => .next (withProg t (hwReset s))
  | .rd w a :: t => .next (hostRead w a (withProg t s))
  | .wr w a v :: t => hostStore w a v (withProg t s)

/-- One micro-operation word of the sequencer; "A model that meets one [unused UCODE] must fault with UNMODELLED_UOP" (30_encoding.md R129). -/
def uopStep (w : Word) (s : State) : Host.Outcome State Fault Refusal :=
  match decodeUop w with
  | .ok i => exec i { s with uop := none }
  | .error _ => .fault .unmodelledUop

/-- Places a word where the next step takes it: a word of the command space (low byte below 0x10) as the host's next store to
CMD of an idle block, followed by WAIT as in 30_encoding.md R132; any other as the sequencer's next micro-operation word. -/
def placeWord (w : Word) (s : State) : State :=
  if w.toNat % 256 < 16 then
    { s with uop := none, regs.busy := false,
             host.prog := .wr .b32 (regAddr s.params 0x0C) (w.setWidth 64) :: .wait :: s.host.prog }
  else { s with uop := some w }

end Sys2Proof.Machine
end

