-- ==== Sys2Proof/Machine/Step.lean ====
section
/-! DEFINITION. One step of the machine, and the placing of a word for the next step. -/

namespace Sys2Proof.Machine

/-- One step: the micro-operation word the sequencer holds, where it holds one (log 14); else one operation of the outside, an
accepted command running to its completion (46_host_commands.md R400; log 3). -/
def step (s : State) : Host.Outcome State Fault Refusal :=
  match s.uop with
  | some w => uopStep w s
  | none => hostStep s

/-- s with the table's word w of nbits bits placed where step takes its next instruction. -/
def State.withFetchWord (s : State) (nbits w : Nat) : State := placeWord (tableWord nbits w) s

end Sys2Proof.Machine
end

