-- ==== Sys2Proof/Safety.lean ====
section
/-! DEFINITION. What claims are stated in: when a command runs undisturbed, what a contract-keeping source answers, and the
invariant of the machine between steps. -/

namespace Sys2Proof.Machine

/-- No host access lies before the sequencer's next micro-operation: no command runs, or the host has nothing to do or waits. -/
abbrev Undisturbed (s : State) : Prop := s.regs.busy = false ∨ s.host.quiet = true

/-- Every source request is answered, with FAIL or not: the named premise of 60_exceptions.md R466. -/
def Source.repliesAll (src : Source) : Bool := src.answers.all (· ≠ .never) && decide (src.rest ≠ .never)

/-- No answer of the source is FAIL: the named premise of 20_memory.md R86. -/
def Source.neverFails (src : Source) : Bool := src.answers.all (· ≠ .fail) && decide (src.rest ≠ .fail)

/-- A command or micro-operation that nothing disturbs and whose requests are all answered. -/
structure Replied (s : State) : Prop where
  calm : Undisturbed s
  replies : s.src.repliesAll = true

/-- A command or micro-operation that nothing disturbs and whose requests all succeed. -/
structure Served (s : State) : Prop where
  calm : Undisturbed s
  replies : s.src.repliesAll = true
  noFail : s.src.neverFails = true

/-- An ILLEGAL command word (30_encoding.md R122, R123), by its fields OPCODE, SUB and RSVD (R120). -/
def illegalWord (w : Word) : Bool :=
  let opcode := w.toNat % 256
  let sub := w.toNat / 256 % 256
  let rsvd := w.toNat / 65536
  rsvd ≠ 0 || 6 ≤ opcode || (opcode = 1 && sub / 2 ≠ 0) || (opcode ≠ 1 && opcode ≠ 4 && sub ≠ 0)

/-- The completion registers after complete(st, r0, r1) (46_host_commands.md R400). -/
def doneRegs (st : Status) (r0 r1 : DWord) (r : Regs) : Regs :=
  { r with res0 := r0, res1 := r1, lastStatus := st, busy := false, done := true }

/-- The statuses a command may report (46_host_commands.md R420). -/
def statusesOf : Instr → List Status
  | .nop => [.success]
  | .init | .initR => [.success, .badParameter, .invalidStream, .ioFailure, .uninitialized, .illegalState]
  | .getdata => [.success, .endOfData, .badParameter, .ioFailure, .uninitialized]
  | .seek => [.success, .badParameter, .ioFailure, .uninitialized]
  | .getinfoChannels | .getinfoSampleRate | .getinfoBitsPerSample | .getinfoBlockAlign | .getinfoTotalBlocks
  | .getinfoCurrentBlock | .getinfoCompressionLevel | .getinfoHadErrors | .getinfoFormatVersion | .getinfoLegacyMode
  | .release => [.success, .uninitialized]
  | .uSrcSeek | .uSrcRead | .uSrcSize | .uBrReset | .uBrFetch | .uBrReadbit | .uBrReadbits _ | .uBrHeader | .uBrSymbol
  | .uPredReset _ | .uStageStep _ _ | .uPredStep _ | .uUnprepare | .uPack | .uSilence | .uCkUpdate | .uRingReset
  | .uRingWrite | .uRingRead | .uRingDrop | .uRingSilenceTail | .uStartFrame _ | .uDecodeBlock _ | .uEndFrame _
  | .pDecodeFrame _ | .pPosition => []

/-- The UCODEs of 30_encoding.md R129's table. -/
def knownUcodes : List Nat :=
  [0x10, 0x11, 0x12, 0x20, 0x21, 0x22, 0x23, 0x24, 0x25, 0x30, 0x31, 0x32, 0x40, 0x41, 0x42, 0x43, 0x50, 0x51, 0x52, 0x53,
   0x54, 0x60, 0x61, 0x62, 0x70, 0x71]

/-- Bit p of the frame's bit stream (41_bitreader.md R202): bit 7 − (p mod 8) of fb[⌊p/8⌋], fb[i] = srcBytes[br.start + i]. -/
def frameBit (s : State) (p : Nat) : Bool := (s.src.bytes.getD (s.br.start + p / 8) 0).getLsbD (7 - p % 8)

/-- The loop of U_BR_READBITS (41_bitreader.md R205) on a bit stream of `limit` bits, from position p: what it returns, and where
it leaves the position. -/
def readBitsAt (bit : Nat → Bool) (limit : Nat) : Nat → Nat → Nat → Except FrameErr Nat × Nat
  | 0, v, p => (.ok v, p)
  | n + 1, v, p => if limit ≤ p then (.error .prematureEnd, p) else readBitsAt bit limit n (2 * v + bitNat (bit p)) (p + 1)

/-- The n-bit unsigned field at position p of a bit stream, its first bit the most significant (41_bitreader.md R205). -/
def fieldAt (bit : Nat → Bool) (p n : Nat) : Nat := (List.range n).foldl (fun v i => 2 * v + bitNat (bit (p + i))) 0

/-- What a WIRE_FORMAT member does on a bit stream: "a function of the frame's bit stream ..., the bit position and the State
alone" (41_bitreader.md R206). -/
def evalWire {α : Type} (bit : Nat → Bool) (limit : Nat) : WireProg α → Nat → Except FrameErr α × Nat
  | .ret a, p => (.ok a, p)
  | .fail e, p => (.error e, p)
  | .bit k, p => if limit ≤ p then evalWire bit limit (k none) p else evalWire bit limit (k (some (bit p))) (p + 1)
  | .bits n k, p => evalWire bit limit (k (readBitsAt bit limit n 0 p).1.toOption) (readBitsAt bit limit n 0 p).2

/-- The BitReader inside a frame (41_bitreader.md R201 to R204): the window lies in the source, the source stands where the next
fetch begins, and br.buf holds the window's bytes up to br.fetched but for some that are consumed. -/
structure BrOk (s : State) : Prop where
  window : s.br.start + s.br.len ≤ s.src.bytes.length
  fetched : s.br.fetched ≤ s.br.len
  pos : s.src.pos = s.br.start + s.br.fetched
  size : s.br.buf.length ≤ s.br.fetched
  kept : s.br.fetched - s.br.buf.length ≤ s.br.p / 8
  buf : s.br.buf = (s.src.bytes.drop (s.br.start + (s.br.fetched - s.br.buf.length))).take s.br.buf.length

/-! ## What a frame decodes to -/

/-- The cascade of channel c from stage k on (42_predictor.md R260): the sample and the stages after it. A stage without state
yields a free value (log 15). -/
def cascadeOf (c : Nat) : Nat → List StageCfg → List StageState → Int → Int × List StageState
  | _, [], sts, v => (v, sts)
  | k, g :: gs, st :: sts, v =>
    let r := cascadeOf c (k + 1) gs sts (stageOutput g st v)
    (r.1, stageNext g st v :: r.2)
  | k, _ :: gs, [], v => cascadeOf c (k + 1) gs [] (absentStage c k v)

/-- The predictor steps of one block from channel c on (45_frame_sequencer.md R354): the samples of the channels, and the
predictors after them. -/
def predictOf (stages : List StageCfg) : Nat → List (List StageState) → List Int → List Int × List (List StageState)
  | _, pred, [] => ([], pred)
  | c, sts :: pred, e :: es =>
    let r := cascadeOf c 1 stages sts e
    let q := predictOf stages (c + 1) pred es
    (r.1 :: q.1, r.2 :: q.2)
  | c, [], e :: es => ((cascadeOf c 1 stages [] e).1 :: (predictOf stages (c + 1) [] es).1, [])

/-- The residuals of one block (45_frame_sequencer.md R354, 41_bitreader.md R209) from entropy state ent and position p: none where a
symbol fails. Then the entropy state and the position after them. -/
def residualsOf (bit : Nat → Bool) (limit : Nat) (w : WireFormat) : Nat → Nat → Nat → Option (List Int) × Nat × Nat
  | 0, ent, p => (some [], ent, p)
  | n + 1, ent, p =>
    match evalWire bit limit (wireSymbol w ent limit p) p with
    | (.error _, q) => (none, ent, q)
    | (.ok y, q) =>
      match residualsOf bit limit w n y.ent q with
      | (none, r) => (none, r)
      | (some es, r) => (some (y.e.toInt :: es), r)

/-- finalize(s): "U_PACK over the output of U_UNPREPARE" (43_reconstructor.md R290, R294). -/
def finalizeOf (u : Unprepare) (c : SessionCfg) (vals : List Int) : List Byte :=
  ((unprepare u c.C vals).map (packSample c.bps)).flatten

/-- What decoding a block reads and changes. -/
structure Decoder where
  pred : List (List StageState)
  p : Nat
  ent : Nat
  err : Bool
  ck : Word

/-- One block (45_frame_sequencer.md R354). -/
def blockOf (P : Params) (c : SessionCfg) (bit : Nat → Bool) (limit : Nat) (silent : Bool) (d : Decoder) :
    List Byte × Decoder :=
  if d.err then (silenceBlock c, d)
  else if silent then
    (silenceBlock c, { d with ck := (silenceBlock c).foldl (ckUpdate P.checksum) d.ck })
  else
    match residualsOf bit limit P.wireFormat c.C d.ent d.p with
    | (none, ent, p) => (silenceBlock c, { d with ent := ent, p := p, err := true })
    | (some es, ent, p) =>
      let v := predictOf c.stages 0 d.pred es
      let blk := finalizeOf P.unprepare c v.1
      (blk, { d with pred := v.2, ent := ent, p := p, ck := blk.foldl (ckUpdate P.checksum) d.ck })

/-- n blocks in a row (45_frame_sequencer.md R356). -/
def blocksOf (P : Params) (c : SessionCfg) (bit : Nat → Bool) (limit : Nat) (silent : Bool) :
    Nat → Decoder → List (List Byte) × Decoder
  | 0, d => ([], d)
  | n + 1, d =>
    let b := blockOf P c bit limit silent d
    let r := blocksOf P c bit limit silent n b.2
    (b.1 :: r.1, r.2)

/-- Bit p of frame g's bit stream (41_bitreader.md R202, 45_frame_sequencer.md R351). -/
def windowBit (s : State) (g p : Nat) : Bool := (s.src.bytes.getD (frameStart s g + p / 8) 0).getLsbD (7 - p % 8)

/-- The number of bits of frame g's window. -/
def windowBits (s : State) (g : Nat) : Nat := 8 * (frameEnd s g - frameStart s g)

/-- Frame g's header (41_bitreader.md R207), and the position after it. -/
def headerOf (s : State) (g : Nat) : Except FrameErr HeaderOk × Nat :=
  evalWire (windowBit s g) (windowBits s g) (wireHeader s.params.wireFormat (windowBits s g) 0) 0

/-- Frame g's header decodes. -/
def headerDecodes (s : State) (g : Nat) : Bool :=
  match headerOf s g with
  | (.error _, _) => false
  | (.ok _, _) => true

/-- The header probe of INIT passes (46_host_commands.md R403 step 6): there is no frame, or frame 0's header decodes. -/
def headerProbe (s : State) : Bool := if s.cfg.numFrames = 0 then true else headerDecodes s 0

/-- U_PRED_RESET of channels 0 to C − 1 (45_frame_sequencer.md R353). -/
def resetPreds (c : SessionCfg) (pred : List (List StageState)) : List (List StageState) :=
  (List.range c.C).foldl (fun p k => p.set k (zeroPred c.stages)) pred

/-- Where the decode of frame g's blocks begins (45_frame_sequencer.md R353), from the predictors the frame before left. -/
def frameBegin (s : State) (g : Nat) (pred : List (List StageState)) : Decoder :=
  let pred := if isResync s.params g then resetPreds s.cfg pred else pred
  match headerOf s g with
  | (.error _, p) => ⟨pred, p, wireReset s.params.wireFormat, true, ckInit s.params.checksum⟩
  | (.ok h, p) => ⟨pred, p, h.ent, false, ckInit s.params.checksum⟩

/-- The special code of frame g; 0 where its header fails (41_bitreader.md R207). -/
def frameSilent (s : State) (g : Nat) : Bool :=
  match headerOf s g with
  | (.error _, _) => false
  | (.ok h, _) => h.silent

/-- The stored checksum of frame g differs from the running one (45_frame_sequencer.md R355). -/
def frameMismatch (s : State) (g : Nat) (ck : Word) : Bool :=
  match headerOf s g with
  | (.error _, _) => false
  | (.ok h, _) => ckFinal s.params.checksum ck ≠ h.storedCk

/-- A whole frame (45_frame_sequencer.md R353 to R356) from the predictors the frame before left: its blocks, silence where the frame
is in error, the predictors after it, and whether it is in error. -/
def frameOf (s : State) (g : Nat) (pred : List (List StageState)) : List (List Byte) × List (List StageState) × Bool :=
  let n := frameBlocks s.cfg g
  let r := blocksOf s.params s.cfg (windowBit s g) (windowBits s g) (frameSilent s g) n (frameBegin s g pred)
  let bad := r.2.err || frameMismatch s g r.2.ck
  (if bad then List.replicate n (silenceBlock s.cfg) else r.1, r.2.pred, bad)

/-- The predictors at the start of frame g after frames 0 to g − 1 (42_predictor.md R264). -/
def predAt (s : State) : Nat → List (List StageState)
  | 0 => List.replicate s.cfg.C (zeroPred s.cfg.stages)
  | g + 1 => (frameOf s g (predAt s g)).2.1

/-- Frame g of the stream is in error (45_frame_sequencer.md R355). -/
def frameBad (s : State) (g : Nat) : Bool := (frameOf s g (predAt s g)).2.2

/-- One of the n frames from frame g on is in error. -/
def anyBad (s : State) (g n : Nat) : Bool := (List.range' g n).any (frameBad s)

/-- One of the frames that P_POSITION(b) replays is in error (45_frame_sequencer.md R358). -/
def replayBad (s : State) (b : Nat) : Bool :=
  let f := (s.cfg.S + b) / s.cfg.B
  let r := resyncFrame s.params f
  b ≠ s.cfg.F - s.cfg.S && anyBad s r (f - r)

/-- Block a of the stream, as the decode of frame ⌊a / B⌋ delivers it (45_frame_sequencer.md R350). -/
def streamBlock (s : State) (a : Nat) : List Byte :=
  (frameOf s (a / s.cfg.B) (predAt s (a / s.cfg.B))).1.getD (a % s.cfg.B) []

/-- The ring's unread blocks, oldest first (10_state.md R45). -/
def ringBlocks (s : State) : List (List Byte) :=
  (List.range s.ring.count).map fun i => ringSlot s (readSlot s.ring i)

/-! ## Sessions in order -/

/-- What INIT has checked of CFG (10_state.md R46, 46_host_commands.md R403). -/
structure CfgOk (c : SessionCfg) : Prop where
  channels : 1 ≤ c.C
  depth : c.bps = 8 ∨ c.bps = 16 ∨ c.bps = 24 ∨ c.bps = 32
  align : c.BA = c.C * c.bps / 8
  blocks : 1 ≤ c.B
  range : c.S ≤ c.F
  finish : c.F ≤ c.total
  frames : c.numFrames = numFramesOf c.total c.B

/-- What INIT has checked of the stream (45_frame_sequencer.md R351, 46_host_commands.md R403): every window lies inside the payload
and inside the source, and every channel has a predictor. -/
structure StreamOk (s : State) : Prop where
  payload : s.cfg.payOff + s.cfg.payLen ≤ s.src.bytes.length
  rising : ∀ g, g + 1 < s.cfg.numFrames → seektabEntry s g ≤ seektabEntry s (g + 1)
  last : 0 < s.cfg.numFrames → seektabEntry s (s.cfg.numFrames - 1) ≤ s.cfg.payLen
  table : s.cfg.numFrames ≤ s.params.seektabEntries
  channels : s.cfg.C ≤ s.pred.length

/-- The predictors are where the decode of frame f needs them (42_predictor.md R264). -/
def PredOk (s : State) (f : Nat) : Prop := isResync s.params f = true ∨ s.pred.take s.cfg.C = predAt s f

/-- The ring's invariants (10_state.md R52, 44_framebuffer.md R327), with its capacity fixed at INIT (R320). -/
structure RingOk (s : State) : Prop where
  cap : s.ring.cap = s.params.ringFrames * s.cfg.B
  count : s.ring.count ≤ s.ring.cap
  wr : s.ring.wr = (s.ring.rd + s.ring.count) % s.ring.cap
  rd : s.ring.rd < s.ring.cap

/-- The cursor's invariants (10_state.md R39, R52). -/
structure CursorOk (s : State) : Prop where
  inRange : s.cur.curBlock + s.ring.count ≤ s.cfg.F - s.cfg.S
  skip : s.cur.skipBlocks < s.cfg.B
  noSkip : 0 < s.ring.count → s.cur.skipBlocks = 0
  pending : s.cur.resyncPending = true → s.ring.count = 0
  next : s.ring.count = 0 → s.cur.resyncPending = false → s.cfg.S + s.cur.curBlock < s.cfg.F →
    s.cfg.S + s.cur.curBlock = s.cur.nextFrame * s.cfg.B + s.cur.skipBlocks
  buffered : 0 < s.ring.count →
    s.cfg.S + s.cur.curBlock + s.ring.count = min (s.cur.nextFrame * s.cfg.B) s.cfg.F

/-- A session is open and in order. -/
structure SessionOk (s : State) : Prop where
  cfg : CfgOk s.cfg
  ring : RingOk s
  cursor : CursorOk s

/-- "Between commands, the ring holds exactly the blocks at absolute indices [S + curBlock, S + curBlock + ring.count)"
(10_state.md R39), as the frames of a well-formed stream decode to; and while a block of the range is still to be decoded, the
predictors are where the next frame needs them. -/
structure DataOk (s : State) : Prop where
  stream : StreamOk s
  ring : ringBlocks s = (List.range s.ring.count).map fun i => streamBlock s (s.cfg.S + s.cur.curBlock + i)
  preds : s.cur.resyncPending = false → s.cfg.S + s.cur.curBlock + s.ring.count < s.cfg.F → PredOk s s.cur.nextFrame

/-- CFG inside the widths of the registers it is read from, and of block counts and byte offsets (00_scope.md R8, 10_state.md
R32). -/
structure CfgNarrow (c : SessionCfg) : Prop where
  regs : c.C < 2 ^ 32 ∧ c.sampleRate < 2 ^ 32 ∧ c.bps < 2 ^ 32 ∧ c.BA < 2 ^ 32 ∧ c.B < 2 ^ 32 ∧ c.level < 2 ^ 32 ∧ c.version < 2 ^ 32
  counts : c.total < 2 ^ 64 ∧ c.S < 2 ^ 64 ∧ c.F < 2 ^ 64 ∧ c.numFrames < 2 ^ 64
  offsets : c.payOff < 2 ^ 64 ∧ c.payLen < 2 ^ 64

/-- Every block count, block offset and byte offset is a 64-bit unsigned value (00_scope.md R8; 10_state.md R39, R40, R43, R45, R50,
R51). So is the largest ring capacity that the parameters allow, RING_FRAMES × MAX_FRAME_BLOCKS (log 25). -/
structure Narrow (s : State) : Prop where
  cfg : CfgNarrow s.cfg
  cur : s.cur.curBlock < 2 ^ 64 ∧ s.cur.nextFrame < 2 ^ 64 ∧ s.cur.skipBlocks < 2 ^ 64 ∧ s.cur.entryBlock < 2 ^ 64
  frm : s.frm.curFrame < 2 ^ 64 ∧ s.frm.blkInFrame < 2 ^ 64 ∧ s.frm.placed ≤ s.frm.blkInFrame
  br : s.br.start < 2 ^ 64 ∧ s.br.len < 2 ^ 64 ∧ s.br.fetched ≤ s.br.len ∧ s.br.p ≤ 8 * s.br.len
  ring : s.ring.cap < 2 ^ 64 ∧ s.ring.rd < 2 ^ 64 ∧ s.ring.wr < 2 ^ 64 ∧ s.ring.count ≤ s.ring.cap
  room : s.params.ringFrames * s.params.maxFrameBlocks < 2 ^ 64
  src : s.src.bytes.length < 2 ^ 64 ∧ s.src.pos < 2 ^ 64

/-- The invariant of the machine between two steps. -/
structure Inv (s : State) : Prop where
  /-- The parameters meet their constraints (00_scope.md R7). -/
  params : s.params.wf = true
  /-- The host cannot issue micro-operations (30_encoding.md R129). -/
  noUop : s.uop = none
  /-- Memory is in its canonical form. -/
  mem : Memory.wf s.mem = true
  /-- Counts and offsets stay inside their widths (00_scope.md R8). -/
  narrow : Narrow s
  /-- There is exactly one predictor per channel (10_state.md R44, 70_reset_and_hazards.md R492). -/
  preds : s.pred.length = s.params.maxChannels
  /-- BUSY = 1 between steps only while a request is unanswered (60_exceptions.md R466). -/
  stuck : s.regs.busy = true → s.src.outstanding.isSome = true
  /-- DECODING and SEEKING last no longer than their command (10_state.md R33). -/
  idle : s.regs.busy = false → s.life.fsm = .uninitialized ∨ s.life.fsm = .ready
  /-- After a failed INIT no session is open (10_state.md R33). -/
  failed : s.life.initFailed = true → s.life.fsm = .uninitialized
  /-- While a session is open and no command runs, R39 and R52 of 10_state.md hold. -/
  session : s.regs.busy = false → s.life.fsm = .ready → SessionOk s
  /-- And the ring holds the stream's next blocks. -/
  data : s.regs.busy = false → s.life.fsm = .ready → DataOk s

end Sys2Proof.Machine
end

