-- ==== Sys2Proof/Certificates/Slice0/Obligations.lean ====
section
/-! DEFINITION. The statements for the provers. A record `{ s with … }` after an instruction says its frame whole: every field
not named is that of s, memory included. -/

open Sys2Proof Sys2Proof.Machine

/-! ## Encoding -/

/-- 30_encoding.md R120, R121, R122, R127, R129: every bit of a well-formed instruction's encoding is read back. -/
def Obligations.DecodeEncodeRoundTrip : Prop :=
  ∀ (i : Instr) (rest : List Byte), i.wf = true → decodeBytes (encodeBytes i ++ rest) = .ok (i, rest)

/-- 30_encoding.md R121, R122, R127, R129: words written out from the tables. -/
def Obligations.SampleWordsDecode : Prop :=
  decodeCmd 0x00000000 = .ok .nop ∧ decodeCmd 0x00000101 = .ok .initR ∧ decodeCmd 0x00000604 = .ok .getinfoCompressionLevel ∧
  decodeCmd 0x00000005 = .ok .release ∧ decodeUop 0x00002023 = .ok (.uBrReadbits 32) ∧
  decodeUop 0x00FF0131 = .ok (.uStageStep 1 255) ∧ decodeUop 0x01000061 = .ok (.uDecodeBlock .deliver) ∧
  decodeUop 0x00000070 = .ok (.pDecodeFrame .discard)

/-- 46_host_commands.md R418, 30_encoding.md R123: a word written to CMD that is ILLEGAL completes with ILLEGAL_COMMAND in every
state, and changes nothing but RES0, RES1, LAST_STATUS, BUSY and DONE (and the latches of R400); it completes at once, in the step
that accepts it, whatever the host does next; a word that is not ILLEGAL is an instruction or GETINFO with a reserved field. -/
def Obligations.IllegalCommandWords : Prop :=
  (∀ (s : State) (w : Word), illegalWord w = true →
    runWord w s = .next { s with regs := { s.regs with res0 := 0, res1 := 0, lastStatus := .illegalCommand, busy := false,
                                                       done := true } }) ∧
  (∀ (s : State) (v : DWord), s.regs.busy = false → illegalWord (lo v) = true →
    hostStore .b32 (regAddr s.params 0x0C) v s = .next { s with
      latch := { cmd := lo v, a0 := s.regs.arg0, a1 := s.regs.arg1 },
      regs := { s.regs with res0 := 0, res1 := 0, lastStatus := .illegalCommand, busy := false, done := true } }) ∧
  (∀ w : Word, illegalWord w = false → (∃ i, decodeCmd w = .ok i) ∨ decodeCmd w = .error .reservedField)

/-- 30_encoding.md R129: a word whose UCODE is not in the table, or with a bit of 31:25 set, faults with UNMODELLED_UOP. That every
other word decodes, whatever its unused fields hold and whatever n a U_BR_READBITS word carries, is the model's choice (logs 19
and 20). -/
def Obligations.UnknownUopsFault : Prop :=
  (∀ (s : State) (w : Word), s.uop = some w → (w.toNat % 256 ∉ knownUcodes ∨ w.toNat / 2 ^ 25 ≠ 0) →
    step s = .fault .unmodelledUop) ∧
  (∀ w : Word, w.toNat % 256 ∈ knownUcodes → w.toNat / 2 ^ 25 = 0 → ∃ i, decodeUop w = .ok i)

/-! ## A step -/

/-- A step runs the instruction the sequencer's word decodes to (30_encoding.md R129; log 14). -/
def Obligations.StepRunsUopWord : Prop :=
  ∀ (s : State) (w : Word) (i : Instr), s.uop = some w → decodeUop w = .ok i → step s = exec i { s with uop := none }

/-- A step runs the instruction an accepted CMD write decodes to (46_host_commands.md R400), where no host access lies between
the write and the command's first micro-operation. -/
def Obligations.StepRunsAcceptedCommand : Prop :=
  ∀ (s : State) (v : DWord) (rest : List HostOp) (i : Instr), s.uop = none →
    s.host.prog = .wr .b32 (regAddr s.params 0x0C) v :: rest → s.regs.busy = false →
    ({ s.host with prog := rest } : HostSide).quiet = true → decodeCmd (lo v) = .ok i →
    step s = exec i { s with latch := { cmd := lo v, a0 := s.regs.arg0, a1 := s.regs.arg1 },
                             regs := { s.regs with busy := true, done := false }, host := { s.host with prog := rest } }

/-- The host's placing of a word (log 14) makes the very next step run it, for every well-formed instruction. -/
def Obligations.PlacedWordRuns : Prop :=
  ∀ (s : State) (i : Instr), i.wf = true →
    step (s.withFetchWord 32 (encode i).toNat) =
      if i.isCommand then
        exec i { s with uop := none, latch := { cmd := encode i, a0 := s.regs.arg0, a1 := s.regs.arg1 },
                        regs := { s.regs with busy := true, done := false },
                        host := { s.host with prog := .wait :: s.host.prog } }
      else exec i { s with uop := none }

/-! ## Reset -/

/-- 70_reset_and_hazards.md R491: what every register reads after reset, and the interrupt output. -/
def Obligations.ResetRegisterValues : Prop :=
  ∀ (s : State) (o : Nat), readReg (hwReset s) o = (if o = 0x00 then s.params.idValue else if o = 0x08 then 0x00000F00 else 0) ∧
    (hwReset s).irq = false

/-- 70_reset_and_hazards.md R492: the internal state after reset; the parameters and the source's bytes and position stay, and every
channel's predictor is all zeros. -/
def Obligations.ResetInternalState : Prop :=
  ∀ s : State, (hwReset s).life = { fsm := .uninitialized, initFailed := false, hadErrors := false } ∧
    (hwReset s).latch = { cmd := 0, a0 := 0, a1 := 0 } ∧
    (hwReset s).cur = { curBlock := 0, nextFrame := 0, skipBlocks := 0, resyncPending := false, entryBlock := 0 } ∧
    (hwReset s).frm = { curFrame := 0, blkInFrame := 0, placed := 0, frameErr := false, storedCk := 0, silent := false, runCk := 0 } ∧
    (hwReset s).br = { start := 0, len := 0, fetched := 0, buf := [], p := 0, ent := wireReset s.params.wireFormat } ∧
    (hwReset s).pred.length = s.params.maxChannels ∧
    (∀ sts ∈ (hwReset s).pred, ∀ st ∈ sts, (∀ x ∈ st.coef, x = 0) ∧ (∀ x ∈ st.hist, x = 0)) ∧
    (hwReset s).ring.rd = 0 ∧ (hwReset s).ring.wr = 0 ∧ (hwReset s).ring.count = 0 ∧
    (hwReset s).params = s.params ∧ (hwReset s).src.bytes = s.src.bytes ∧ (hwReset s).src.pos = s.src.pos

/-- 70_reset_and_hazards.md R490, R493: the reset input and a write to CTRL with SOFT_RESET = 1, whatever its other bits, have the
same effect, in every state; and a reset between two micro-operations of a running command abandons it: the command's step ends in
the reset state, with DONE = 0 and no status, whatever micro-operation would have come next. -/
def Obligations.ResetSourcesAgree : Prop :=
  (∀ (s : State) (rest : List HostOp), s.uop = none → s.host.prog = .rstN :: rest →
    step s = .next { hwReset s with host := { s.host with prog := rest } }) ∧
  (∀ (s : State) (v : DWord) (rest : List HostOp), s.uop = none →
    s.host.prog = .wr .b32 (regAddr s.params 0x04) v :: rest → (lo v).getLsbD 1 = true →
    step s = .next { hwReset s with host := { s.host with prog := rest } }) ∧
  (∀ (s : State) (m : Seq Unit) (rest : List HostOp) (recover : Seq Unit), s.regs.busy = true →
    (s.host.prog = .rstN :: rest ∨ ∃ v, s.host.prog = .wr .b32 (regAddr s.params 0x04) v :: rest ∧ (lo v).getLsbD 1 = true) →
    runCommand recover (call m) s = .next { hwReset s with host := { s.host with prog := rest } }) ∧
  (∀ s : State, (hwReset s).regs.done = false ∧ (hwReset s).regs.busy = false ∧ (hwReset s).regs.lastStatus = .none ∧
    (hwReset s).src.outstanding = none)

/-! ## Host accesses

A system address is 64 bits wide, and APERTURE_BASE is added and subtracted modulo 2^64: the model's choice (log 38). -/

/-- 10_state.md R34, 30_encoding.md R126 and R128: the fields of STATUS; its reserved fields read 0. -/
def Obligations.StatusFields : Prop :=
  ∀ s : State, (readReg s 0x08).getLsbD 0 = s.regs.busy ∧ (readReg s 0x08).getLsbD 1 = s.regs.done ∧
    (readReg s 0x08).getLsbD 2 = s.regs.overrun ∧ (readReg s 0x08).getLsbD 3 = s.life.hadErrors ∧
    (readReg s 0x08).getLsbD 4 = s.life.initFailed ∧ (readReg s 0x08).extractLsb' 5 3 = 0 ∧
    (readReg s 0x08).extractLsb' 8 4 = (match s.regs.lastStatus with
      | .success => 0x0 | .endOfData => 0x1 | .badParameter => 0x2 | .invalidStream => 0x3 | .ioFailure => 0x4
      | .uninitialized => 0x5 | .illegalCommand => 0x6 | .illegalState => 0x7 | .none => 0xF) ∧
    (readReg s 0x08).extractLsb' 12 4 = 0 ∧
    (readReg s 0x08).extractLsb' 16 2 = (match s.life.fsm with
      | .uninitialized => 0 | .ready => 1 | .decoding => 2 | .seeking => 3) ∧
    (readReg s 0x08).extractLsb' 18 14 = 0

/-- 10_state.md R34, R53: a store to STATUS clears DONE and OVERRUN where it writes 1, and does nothing else. -/
def Obligations.StatusWriteOneClears : Prop :=
  ∀ (s : State) (v : DWord), hostWrite .b32 (regAddr s.params 0x08) v s =
    { s with regs := { s.regs with done := s.regs.done && !(lo v).getLsbD 1, overrun := s.regs.overrun && !(lo v).getLsbD 2 } }

/-- 60_exceptions.md R462: IRQ = CTRL.IE AND STATUS.DONE; a store to CTRL without SOFT_RESET sets IE and nothing else; IRQ is cleared by
writing 1 to STATUS.DONE, by the acceptance of the next command and by reset, and a completion sets DONE, masked or not. -/
def Obligations.CompletionInterrupt : Prop :=
  (∀ s : State, s.irq = ((readReg s 0x04).getLsbD 0 && (readReg s 0x08).getLsbD 1)) ∧
  (∀ (s : State) (v : DWord), (lo v).getLsbD 1 = false →
    hostWrite .b32 (regAddr s.params 0x04) v s = { s with regs := { s.regs with ie := (lo v).getLsbD 0 } }) ∧
  (∀ (s : State) (v : DWord), (lo v).getLsbD 1 = true → (hostWrite .b32 (regAddr s.params 0x08) v s).irq = false) ∧
  (∀ (s : State) (w : Word), (acceptLatch w s).irq = false ∧ (hwReset s).irq = false) ∧
  (∀ (s : State) (st : Status) (r0 r1 : DWord), (complete st r0 r1 s).regs.done = true ∧ (complete st r0 r1 s).irq = s.regs.ie)

/-- 46_host_commands.md R419: a CMD write while BUSY = 1, between two micro-operations of the running command or after it got stuck,
changes OVERRUN alone. -/
def Obligations.CommandWhileBusyDropped : Prop :=
  ∀ (s : State) (v : DWord), s.regs.busy = true →
    hostStore .b32 (regAddr s.params 0x0C) v s = .next { s with regs := { s.regs with overrun := true } } ∧
    ∀ rest : List HostOp, drain (.wr .b32 (regAddr s.params 0x0C) v :: rest) s =
      drain rest { s with regs := { s.regs with overrun := true } }

/-- 70_reset_and_hazards.md R499: DESC and SEEKTAB ignore writes while a session is open or a command runs. -/
def Obligations.ConfigurationProtected : Prop :=
  ∀ (s : State) (w : Width) (addr v : DWord), (s.life.fsm ≠ .uninitialized ∨ s.regs.busy = true) →
    (∀ o, regionOf s.params addr = .reg o → 0x20 ≤ o → hostWrite w addr v s = s) ∧
    (∀ o, regionOf s.params addr = .seektab o → hostWrite w addr v s = s)

/-- 10_state.md R37, R38, R53, 30_encoding.md R125, 20_memory.md R81, 70_reset_and_hazards.md R498: a load of a REG word gives what
`readReg` says, RES its halves while BUSY = 0; in every state ID reads ID_VALUE, CTRL its IE bit alone, CMD and a reserved offset 0
(R35, R36); a store to an ARG word, in every state, and to a DESC word while no session is open
and no command runs, is read back and changes no other register, no latch and nothing else; a store to ID, to RES or to a reserved
offset changes nothing in any state. -/
def Obligations.RegisterReadBack : Prop :=
  (∀ (s : State) (o : Nat), o < 0x100 → o % 4 = 0 →
    hostReadValue s .b32 (regAddr s.params o) = (readReg s o).setWidth 64) ∧
  (∀ s : State, s.regs.busy = false → readReg s 0x24 ++ readReg s 0x20 = s.regs.res0 ∧
    readReg s 0x2C ++ readReg s 0x28 = s.regs.res1) ∧
  (∀ s : State, readReg s 0x14 ++ readReg s 0x10 = s.regs.arg0 ∧ readReg s 0x1C ++ readReg s 0x18 = s.regs.arg1) ∧
  (∀ s : State, readReg s 0x00 = s.params.idValue ∧ readReg s 0x04 = (if s.regs.ie then 1 else 0) ∧ readReg s 0x0C = 0) ∧
  (∀ (s : State) (o : Nat), (0x30 ≤ o ∧ o < 0x40) ∨ (0x74 ≤ o ∧ o < 0x100) → readReg s o = 0) ∧
  (∀ (s : State) (o : Nat) (v : DWord), 0x10 ≤ o → o ≤ 0x1C → o % 4 = 0 →
    let t := hostWrite .b32 (regAddr s.params o) v s
    t = { s with regs := { s.regs with arg0 := t.regs.arg0, arg1 := t.regs.arg1 } } ∧
    ∀ k, readReg t k = if k = o then lo v else readReg s k) ∧
  (∀ (s : State) (o : Nat) (v : DWord), 0x40 ≤ o → o ≤ 0x70 → o % 4 = 0 → s.life.fsm = .uninitialized → s.regs.busy = false →
    hostWrite .b32 (regAddr s.params o) v s = { s with regs := { s.regs with desc := writeDesc o (lo v) s.regs.desc } } ∧
    ∀ k, readReg (hostWrite .b32 (regAddr s.params o) v s) k = if k = o then lo v else readReg s k) ∧
  (∀ (s : State) (o : Nat) (v : DWord), o = 0 ∨ (0x20 ≤ o ∧ o < 0x40) ∨ (0x74 ≤ o ∧ o < 0x100) →
    hostWrite .b32 (regAddr s.params o) v s = s)

/-- 20_memory.md R89: a host read has no side effect on the block; what it returns is logged. -/
def Obligations.HostReadsAreIdempotent : Prop :=
  ∀ (s : State) (w : Width) (addr : DWord), s.uop = none → ∀ rest, s.host.prog = .rd w addr :: rest →
    step s = .next { s with host := { prog := rest, log := ⟨w, addr, hostReadValue s w addr⟩ :: s.host.log }, draws := s.draws + 1 }

/-- 20_memory.md R80, R81, R82: an access outside the three spaces, and a misaligned or wrong-width access to REG or SEEKTAB, reads 0
and has no effect. The model's choice: that an address below APERTURE_BASE lies outside them (log 38), and that the first byte of an
access decides where it lies (log 22). -/
def Obligations.MisplacedAccesses : Prop :=
  ∀ (s : State) (w : Width) (addr v : DWord),
    (let o := (addr - s.params.apertureBase).toNat
     let inReg := o < 0x100
     let inTab := 0x00100000 ≤ o ∧ o < 0x00100000 + 8 * s.params.seektabEntries
     let inOut := 0x01000000 ≤ o ∧ o < 0x01000000 + s.params.outbufBytes
     (¬ inReg ∧ ¬ inTab ∧ ¬ inOut) ∨ ((inReg ∨ inTab) ∧ (w ≠ .b32 ∨ o % 4 ≠ 0))) →
    hostReadValue s w addr = 0 ∧ hostWrite w addr v s = s

/-- 20_memory.md R83, R84: while BUSY = 0 a read of n bytes of OUT assembles them little-endian; a store to OUT, of any width and
with any BUSY, is ignored, one that starts in OUT and ends past it as well. -/
def Obligations.OutReadsLittleEndian : Prop :=
  ∀ (s : State) (w : Width) (addr : DWord) (j : Nat), s.params.wf = true →
    (addr - s.params.apertureBase).toNat = 0x01000000 + j →
    (s.regs.busy = false → j + w.bytes ≤ s.params.outbufBytes →
      (∀ i, i < w.bytes → (hostReadValue s w addr).extractLsb' (8 * i) 8 = readByte s (0x01000000 + j + i)) ∧
      ∀ i, 8 * w.bytes ≤ i → (hostReadValue s w addr).getLsbD i = false) ∧
    (j < s.params.outbufBytes → ∀ v, hostWrite w addr v s = s)

/-- 20_memory.md R82: storing the LO word and then the HI word of entry f makes SEEKTAB[f] their concatenation, and changes no other
byte of memory. -/
def Obligations.SeektabEntryStores : Prop :=
  ∀ (s : State) (f : Nat) (l h : DWord), s.params.wf = true → s.life.fsm = .uninitialized → s.regs.busy = false →
    f < s.params.seektabEntries →
    let a := s.params.apertureBase + BitVec.ofNat 64 (0x00100000 + 8 * f)
    let t := hostWrite .b32 (a + 4) h (hostWrite .b32 a l s)
    seektabEntry t f = (lo h ++ lo l : BitVec 64).toNat ∧
    hostReadValue t .b32 a = (lo l).setWidth 64 ∧ hostReadValue t .b32 (a + 4) = (lo h).setWidth 64 ∧
    (∀ x, x < 0x00100000 + 8 * f ∨ 0x00100000 + 8 * f + 8 ≤ x → readByte t x = readByte s x) ∧
    t = { s with mem := t.mem }

/-! ## Host commands -/

/-- 46_host_commands.md R401: NOP succeeds in every state and changes the completion registers alone; no other command succeeds
after a failed INIT; after reset it leaves STATUS = 2. -/
def Obligations.NopSucceeds : Prop :=
  decodeCmd 0x00000000 = .ok .nop ∧
  (∀ s : State, exec .nop s = .next { s with regs := doneRegs .success 0 0 s.regs }) ∧
  (∀ (s t : State) (i : Instr), i.isCommand = true → s.life.initFailed = true → exec i s = .next t →
    t.regs.lastStatus = .success → i = .nop) ∧
  (∀ s : State, ∃ t, exec .nop (hwReset s) = .next t ∧ readReg t 0x08 = 0x00000002)

/-- 60_exceptions.md R453, R457: the state checks, for every command word, and the two statuses of the spec's own. Nothing changes
but the completion registers. -/
def Obligations.StateChecks : Prop :=
  (∀ (s : State) (w : Word), illegalWord w = false → w ≠ 0 → s.life.initFailed = true →
    runWord w s = .next { s with regs := doneRegs .uninitialized 0 0 s.regs }) ∧
  (∀ (s : State) (w : Word), illegalWord w = false → 2 ≤ w.toNat % 256 → s.life.fsm ≠ .ready →
    runWord w s = .next { s with regs := doneRegs .uninitialized 0 0 s.regs }) ∧
  (∀ (s : State) (w : Word), illegalWord w = true →
    runWord w s = .next { s with regs := doneRegs .illegalCommand 0 0 s.regs }) ∧
  (∀ (s : State) (w : Word), illegalWord w = false → w.toNat % 256 = 1 → s.life.initFailed = false →
    s.life.fsm ≠ .uninitialized → runWord w s = .next { s with regs := doneRegs .illegalState 0 0 s.regs })

/-- 46_host_commands.md R407, R408, R409, R410, R413, R415, R416: what GETINFO reads of CFG; nothing changes but the completion
registers. -/
def Obligations.GetinfoConfiguration : Prop :=
  ∀ s : State, s.life.initFailed = false → s.life.fsm = .ready →
    let shows (v : Nat) := Host.Outcome.next { s with regs := doneRegs .success (BitVec.ofNat 64 v) 0 s.regs }
    decodeCmd 0x00000004 = .ok .getinfoChannels ∧ exec .getinfoChannels s = shows s.cfg.C ∧
    decodeCmd 0x00000104 = .ok .getinfoSampleRate ∧ exec .getinfoSampleRate s = shows s.cfg.sampleRate ∧
    decodeCmd 0x00000204 = .ok .getinfoBitsPerSample ∧ exec .getinfoBitsPerSample s = shows s.cfg.bps ∧
    decodeCmd 0x00000304 = .ok .getinfoBlockAlign ∧ exec .getinfoBlockAlign s = shows s.cfg.BA ∧
    decodeCmd 0x00000604 = .ok .getinfoCompressionLevel ∧ exec .getinfoCompressionLevel s = shows s.cfg.level ∧
    decodeCmd 0x00000804 = .ok .getinfoFormatVersion ∧ exec .getinfoFormatVersion s = shows s.cfg.version ∧
    decodeCmd 0x00000904 = .ok .getinfoLegacyMode ∧ exec .getinfoLegacyMode s = shows (if s.cfg.legacy then 1 else 0)

/-- 46_host_commands.md R411, R412, R414: what GETINFO reads of the range, the cursor and hadErrors. That F − S is 0 where F < S, which
no session has, is the model's choice (log 36). -/
def Obligations.GetinfoPosition : Prop :=
  ∀ s : State, s.life.initFailed = false → s.life.fsm = .ready →
    let shows (v : Nat) := Host.Outcome.next { s with regs := doneRegs .success (BitVec.ofNat 64 v) 0 s.regs }
    decodeCmd 0x00000404 = .ok .getinfoTotalBlocks ∧ exec .getinfoTotalBlocks s = shows (s.cfg.F - s.cfg.S) ∧
    decodeCmd 0x00000504 = .ok .getinfoCurrentBlock ∧ exec .getinfoCurrentBlock s = shows s.cur.curBlock ∧
    decodeCmd 0x00000704 = .ok .getinfoHadErrors ∧ exec .getinfoHadErrors s = shows (if s.life.hadErrors then 1 else 0)

/-- 46_host_commands.md R417: RELEASE closes the session, and is refused with UNINITIALIZED where none is open. CFG and ring.cap
end unspecified (70_reset_and_hazards.md R492). A channel without a predictor has none to reset (log 37). DESC and
SEEKTAB keep their contents and are writable again. -/
def Obligations.ReleaseCloses : Prop :=
  (∀ s : State, Undisturbed s → s.life.initFailed = false → s.life.fsm = .ready →
    ∃ t, exec .release s = .next t ∧
      t = { s with regs := doneRegs .success 0 0 s.regs, life := { s.life with fsm := .uninitialized }, cfg := t.cfg,
                   cur := { s.cur with curBlock := 0, nextFrame := 0, skipBlocks := 0, resyncPending := false },
                   pred := resetPreds s.cfg s.pred,
                   ring := { cap := t.ring.cap, rd := 0, wr := 0, count := 0, data := t.ring.data }, draws := t.draws } ∧
      configWritable t = true) ∧
  (∀ s : State, (s.life.initFailed = true ∨ s.life.fsm ≠ .ready) →
    exec .release s = .next { s with regs := doneRegs .uninitialized 0 0 s.regs })

/-- 60_exceptions.md R451: the four causes of BAD_PARAMETER; only INIT's changes more than the completion registers (it clears
hadErrors first, 46_host_commands.md R402). F − S for F < S and a quotient by BA = 0, which no session has, are the model's choice
(log 36). -/
def Obligations.BadParameterCases : Prop :=
  (∀ s : State, s.life.initFailed = false → s.life.fsm = .ready →
    (s.params.outbufBytes / s.cfg.BA < s.latch.a0.toNat →
      exec .getdata s = .next { s with regs := doneRegs .badParameter 0 0 s.regs }) ∧
    (s.cfg.F - s.cfg.S < s.latch.a0.toNat →
      exec .seek s = .next { s with regs := doneRegs .badParameter 0 0 s.regs }) ∧
    ∀ sub, 0x0A ≤ sub → sub ≤ 0xFF →
      runWord (BitVec.ofNat 32 (4 + 256 * sub)) s = .next { s with regs := doneRegs .badParameter 0 0 s.regs }) ∧
  (∀ s : State, s.life.initFailed = false → s.life.fsm = .uninitialized → descValid s.params s.regs.desc = true →
    (s.latch.a1.toNat < s.latch.a0.toNat ∨ s.regs.desc.total.toNat < s.latch.a1.toNat) →
    exec .initR s = .next { s with regs := doneRegs .badParameter 0 0 s.regs,
                                   life := { fsm := .uninitialized, initFailed := true, hadErrors := false } })

/-- 46_host_commands.md R402, R403: INIT completes where every request succeeds; its first failing check decides its status; a failure
leaves initFailed = 1 and no session, a success a session at block 0, in order, with an empty ring; hadErrors is cleared first, and
set where a frame replayed for block 0 is in error (10_state.md R41). Memory never changes. -/
def Obligations.InitOutcome : Prop :=
  ∀ (s : State) (ranged : Bool), Served s → s.params.wf = true → s.pred.length = s.params.maxChannels →
    s.life.initFailed = false → s.life.fsm = .uninitialized →
    let d := s.regs.desc
    let S := if ranged then s.latch.a0.toNat else 0
    let F := if ranged then s.latch.a1.toNat else d.total.toNat
    let c := cfgOf s.params d S F
    let u := { s with cfg := c }
    let st : Status :=
      if descValid s.params d = false then .invalidStream
      else if F < S ∨ d.total.toNat < F then .badParameter
      else if s.src.bytes.length < d.payOff.toNat + d.payLen.toNat then .invalidStream
      else if (∃ g ∈ List.range c.numFrames, g + 1 < c.numFrames ∧ seektabEntry s (g + 1) < seektabEntry s g) ∨
          (0 < c.numFrames ∧ c.payLen < seektabEntry s (c.numFrames - 1)) then .invalidStream
      else if 0 < c.numFrames ∧ headerDecodes u 0 = false then .invalidStream
      else .success
    ∃ t, exec (if ranged then .initR else .init) s = .next t ∧
      t = { s with regs := doneRegs st 0 0 s.regs, cfg := t.cfg, life := t.life, cur := t.cur, frm := t.frm, br := t.br,
                   pred := t.pred, ring := t.ring, src := t.src } ∧
      t.src.bytes = s.src.bytes ∧ t.pred.length = s.pred.length ∧
      (st ≠ .success → t.life = { fsm := .uninitialized, initFailed := true, hadErrors := false }) ∧
      (st = .success → t.life = { fsm := .ready, initFailed := false, hadErrors := replayBad u 0 } ∧ t.cfg = c ∧
        t.cur = { curBlock := 0, nextFrame := S / c.B, skipBlocks := S % c.B, resyncPending := decide (F = S),
                  entryBlock := s.cur.entryBlock } ∧
        t.ring.cap = s.params.ringFrames * c.B ∧ t.ring.count = 0 ∧ SessionOk t ∧ DataOk t)

/-- 46_host_commands.md R404, 45_frame_sequencer.md R361: GETDATA completes where every request succeeds. It delivers
min(N, (F − S) − curBlock) blocks, the stream's blocks in order, into OUT from its start, changes no other byte of memory, and
reports END_OF_DATA just where that is fewer than N. With resyncPending = 1 it re-positions first, for N = 0 as well, which is the
model's choice (log 43). hadErrors stays set, and is set just where a frame decoded or replayed on the
way is in error (10_state.md R41). -/
def Obligations.GetdataDelivers : Prop :=
  ∀ s : State, Served s → s.params.wf = true → s.life.initFailed = false → s.life.fsm = .ready → SessionOk s →
    s.latch.a0.toNat ≤ s.params.outbufBytes / s.cfg.BA →
    let n := s.latch.a0.toNat
    let got := min n ((s.cfg.F - s.cfg.S) - s.cur.curBlock)
    ∃ t, exec .getdata s = .next t ∧
      t = { s with regs := doneRegs (if got < n then .endOfData else .success) (BitVec.ofNat 64 (got * s.cfg.BA))
                             (BitVec.ofNat 64 got) s.regs,
                   life := { s.life with hadErrors := t.life.hadErrors },
                   cur := { t.cur with curBlock := s.cur.curBlock + got, entryBlock := s.cur.curBlock },
                   frm := t.frm, br := t.br, pred := t.pred, ring := { t.ring with cap := s.ring.cap }, mem := t.mem,
                   src := t.src } ∧
      t.src.bytes = s.src.bytes ∧ t.pred.length = s.pred.length ∧ SessionOk t ∧
      (∀ a, a < 0x01000000 ∨ 0x01000000 + got * s.cfg.BA ≤ a → readByte t a = readByte s a) ∧
      (s.life.hadErrors = true → t.life.hadErrors = true) ∧
      (DataOk s → DataOk t ∧
        (let first := if s.cur.resyncPending then (s.cfg.S + s.cur.curBlock) / s.cfg.B else s.cur.nextFrame
         t.life.hadErrors = (s.life.hadErrors || (s.cur.resyncPending && replayBad s s.cur.curBlock) ||
           anyBad s first (t.cur.nextFrame - first))) ∧
        ∀ j, j < got * s.cfg.BA → readByte t (0x01000000 + j) =
          (streamBlock s (s.cfg.S + s.cur.curBlock + j / s.cfg.BA)).getD (j % s.cfg.BA) 0)

/-- 46_host_commands.md R405: SEEK completes where every request succeeds. A buffered target only drops blocks; any other is
positioned, with an empty ring. Memory never changes. hadErrors stays set, and is set just where a replayed frame is in error
(10_state.md R41). -/
def Obligations.SeekResult : Prop :=
  ∀ s : State, Served s → s.params.wf = true → s.life.initFailed = false → s.life.fsm = .ready → SessionOk s →
    s.latch.a0.toNat ≤ s.cfg.F - s.cfg.S →
    let b := s.latch.a0.toNat
    ∃ t, exec .seek s = .next t ∧
      t = { s with regs := doneRegs .success 0 0 s.regs, life := { s.life with hadErrors := t.life.hadErrors },
                   cur := t.cur, frm := t.frm, br := t.br, pred := t.pred, ring := { t.ring with cap := s.ring.cap },
                   src := t.src } ∧
      t.cur.curBlock = b ∧ t.cur.entryBlock = s.cur.curBlock ∧ t.src.bytes = s.src.bytes ∧ t.pred.length = s.pred.length ∧
      SessionOk t ∧ (DataOk s → DataOk t) ∧ (s.life.hadErrors = true → t.life.hadErrors = true) ∧
      (if s.cur.resyncPending = false ∧ s.cur.curBlock ≤ b ∧ b ≤ s.cur.curBlock + s.ring.count then
        t = { s with regs := doneRegs .success 0 0 s.regs, cur := { s.cur with curBlock := b, entryBlock := s.cur.curBlock },
                     ring := { s.ring with rd := (s.ring.rd + (b - s.cur.curBlock)) % s.ring.cap,
                                           count := s.ring.count - (b - s.cur.curBlock) } }
      else t.ring.count = 0 ∧ (DataOk s → t.life.hadErrors = (s.life.hadErrors || replayBad s b)) ∧
        t.cur = { curBlock := b, nextFrame := (s.cfg.S + b) / s.cfg.B, skipBlocks := (s.cfg.S + b) % s.cfg.B,
                  resyncPending := decide (b = s.cfg.F - s.cfg.S), entryBlock := s.cur.curBlock })

/-- 45_frame_sequencer.md R360: from block 0 of a session in order, SEEK(b) and GETDATA(K) deliver the bytes that GETDATA(b) and
GETDATA(K) do: the same results, and the same OUT bytes. -/
def Obligations.SeekConsistency : Prop :=
  ∀ (s : State) (b k : DWord), Served s → s.params.wf = true → s.life.initFailed = false → s.life.fsm = .ready → SessionOk s →
    DataOk s → s.cur.curBlock = 0 → b.toNat < s.cfg.F - s.cfg.S →
    b.toNat ≤ s.params.outbufBytes / s.cfg.BA → k.toNat ≤ s.params.outbufBytes / s.cfg.BA →
    ∃ s1 t1 s2 t2, exec .seek { s with latch := { s.latch with a0 := b } } = .next s1 ∧
      exec .getdata { s1 with latch := { s1.latch with a0 := k } } = .next t1 ∧
      exec .getdata { s with latch := { s.latch with a0 := b } } = .next s2 ∧
      exec .getdata { s2 with latch := { s2.latch with a0 := k } } = .next t2 ∧
      t1.regs.res0 = t2.regs.res0 ∧ t1.regs.res1 = t2.regs.res1 ∧ t1.regs.lastStatus = t2.regs.lastStatus ∧
      ∀ j, j < t1.regs.res0.toNat → readByte t1 (0x01000000 + j) = readByte t2 (0x01000000 + j)

/-- 60_exceptions.md R466, 46_host_commands.md R400, R420: where every request is answered, every command completes, with a status
of R420's table, and with results only in SUCCESS and END_OF_DATA; and no command but INIT clears hadErrors (10_state.md R41). That
GETDATA(0) with resyncPending = 1 re-positions, and so can report IO_FAILURE, is the model's choice (log 43). -/
def Obligations.CommandsReport : Prop :=
  ∀ (s : State) (i : Instr), Replied s → s.params.wf = true → i.isCommand = true →
    (s.life.initFailed = false → s.life.fsm = .ready → SessionOk s) →
    ∃ t, exec i s = .next t ∧ t.regs.busy = false ∧ t.regs.done = true ∧ t.regs.lastStatus ∈ statusesOf i ∧
      (t.regs.lastStatus ≠ .success → t.regs.lastStatus ≠ .endOfData → t.regs.res0 = 0 ∧ t.regs.res1 = 0) ∧
      (i ≠ .init → i ≠ .initR → s.life.hadErrors = true → t.life.hadErrors = true)

/-- 60_exceptions.md R454, 41_bitreader.md R218 to R220: a command that meets a FAIL ends in IO_FAILURE, and no other does. INIT then
fails; GETDATA and SEEK go back to the entry position, empty the ring and mark it for re-positioning. Only OUT bytes that GETDATA may
have written change, and hadErrors stays set. src.log is the model's record of the requests (log 29). The model's choice: that no other
byte of OUT changes (log 11), what the BitReader, the in-frame state and the predictors are after an INIT whose first request
fails (log 33), and that GETDATA(0) with resyncPending = 1 can meet a FAIL (log 43). -/
def Obligations.IoFailureRecovery : Prop :=
  (∀ (s : State) (i : Instr), Replied s → i = .getdata ∨ i = .seek → s.life.initFailed = false → s.life.fsm = .ready →
    SessionOk s → ∃ t new, exec i s = .next t ∧ t.src.log = new ++ s.src.log ∧
      (t.regs.lastStatus = .ioFailure ↔ ∃ req, (req, SrcAnswer.fail) ∈ new) ∧
      (s.life.hadErrors = true → t.life.hadErrors = true) ∧ (t.regs.lastStatus = .ioFailure →
      t.life = { fsm := .ready, initFailed := false, hadErrors := t.life.hadErrors } ∧ t.cfg = s.cfg ∧ t.latch = s.latch ∧
      t.cur.curBlock = s.cur.curBlock ∧ t.cur.resyncPending = true ∧ t.ring.count = 0 ∧ t.ring.rd = 0 ∧ t.ring.wr = 0 ∧
      t.ring.cap = s.ring.cap ∧ t.regs = doneRegs .ioFailure 0 0 s.regs ∧
      ∀ a, a < 0x01000000 ∨ 0x01000000 + (if i = .seek then 0 else s.latch.a0.toNat * s.cfg.BA) ≤ a →
        readByte t a = readByte s a)) ∧
  (∀ (s : State) (i : Instr), Replied s → s.params.wf = true → i = .init ∨ i = .initR → s.life.initFailed = false →
    s.life.fsm = .uninitialized → ∃ t new, exec i s = .next t ∧ t.src.log = new ++ s.src.log ∧
      (t.regs.lastStatus = .ioFailure ↔ ∃ req, (req, SrcAnswer.fail) ∈ new) ∧ (t.regs.lastStatus = .ioFailure →
      t.life.fsm = .uninitialized ∧ t.life.initFailed = true ∧ t.regs = doneRegs .ioFailure 0 0 s.regs ∧ t.latch = s.latch ∧
      ∀ a, readByte t a = readByte s a)) ∧
  (∀ s : State, Undisturbed s → nextAnswer s.src = .fail → s.life.initFailed = false → s.life.fsm = .uninitialized →
    descValid s.params s.regs.desc = true →
    ∃ src, exec .init s = .next { s with regs := doneRegs .ioFailure 0 0 s.regs, src := src,
                                         cfg := cfgOf s.params s.regs.desc 0 s.regs.desc.total.toNat,
                                         life := { fsm := .uninitialized, initFailed := true, hadErrors := false } })

/-- 60_exceptions.md R466: while BUSY = 1 between steps, every step of the outside leaves the block stuck, except a reset. That WAIT is one
operation that holds and changes nothing, its polls of STATUS left out, is the model's choice (log 4), and so is that no
answer comes late (log 6). -/
def Obligations.StuckUntilReset : Prop :=
  (∀ (s t : State), s.uop = none → s.regs.busy = true → step s = .next t →
    (t.regs.busy = true ∧ t.src = s.src ∧ t.life = s.life ∧ t.cur = s.cur ∧ t.ring = s.ring ∧ t.mem = s.mem ∧ t.cfg = s.cfg) ∨
    t = { hwReset s with host := t.host }) ∧
  (∀ (s : State) (rest : List HostOp), s.uop = none → s.regs.busy = true → s.host.prog = .wait :: rest → step s = .next s)

/-! ## The byte source -/

/-- 41_bitreader.md R218, R219, R220, 20_memory.md R86: what an answered request does, and how many bytes a read gives; for a max
outside R219's range, and for a seek past the end of the source, it is the model's choice (log 7). A failed one reports the
failure in its result, and one that is never answered stays outstanding (60_exceptions.md R466); outside any command both are the model's
choice (log 16). -/
def Obligations.SourceRequests : Prop :=
  (∀ s : State, nextAnswer s.src ≠ .fail → nextAnswer s.src ≠ .never →
    (∃ src, exec .uSrcSeek s = .next { s with src := src, op := { s.op with ret := .nothing } } ∧
      src.bytes = s.src.bytes ∧ src.pos = s.op.off.toNat) ∧
    (∃ src n, exec .uSrcRead s = .next { s with src := src,
                                                op := { s.op with ret := .bytes ((s.src.bytes.drop s.src.pos).take n) } } ∧
      src.bytes = s.src.bytes ∧ src.pos = s.src.pos + n ∧ n ≤ s.op.max.toNat ∧ n ≤ s.src.bytes.length - s.src.pos ∧
      (1 ≤ s.op.max.toNat → s.src.pos < s.src.bytes.length → 1 ≤ n) ∧
      (nextAnswer s.src = .full → n = min s.op.max.toNat (s.src.bytes.length - s.src.pos))) ∧
    (∃ src, exec .uSrcSize s = .next { s with src := src, op := { s.op with ret := .num s.src.bytes.length } } ∧
      src.bytes = s.src.bytes ∧ src.pos = s.src.pos)) ∧
  (∀ (s : State) (i : Instr), i = .uSrcSeek ∨ i = .uSrcRead ∨ i = .uSrcSize →
    (nextAnswer s.src = .fail → s.regs.busy = false → ∃ src, src.bytes = s.src.bytes ∧ src.pos = s.src.pos ∧
      exec i s = .next { s with src := src, op := { s.op with ret := .ioFailure } }) ∧
    (nextAnswer s.src = .never → ∃ src, src.bytes = s.src.bytes ∧ src.pos = s.src.pos ∧ src.outstanding.isSome = true ∧
      exec i s = .next { s with src := src }))

/-! ## The BitReader -/

/-- 41_bitreader.md R201: U_BR_RESET sets every field of the BitReader and nothing else; with len = 0 every later bit read is a
PREMATURE_END. That it leaves the BitReader as it was is the model's choice (log 32). -/
def Obligations.BrResetClears : Prop :=
  decodeUop 0x00000020 = .ok .uBrReset ∧
  (∀ s : State, exec .uBrReset s = .next { s with
    br := { start := s.op.start.toNat, len := s.op.len.toNat, fetched := 0, buf := [], p := 0, ent := wireReset s.params.wireFormat },
    op := { s.op with ret := .nothing } }) ∧
  (∀ s : State, s.br.len = 0 → exec .uBrReadbit s = .next { s with op := { s.op with ret := .frameError } })

/-- 41_bitreader.md R203: U_BR_FETCH adds at least one byte of the window, and no byte past its end; where the source has ended it is
a PREMATURE_END. The model's choice: that a fetch runs too where the next byte is fetched already (log 40), a fetch of an exhausted
window (logs 7 and 15), and that a PREMATURE_END leaves the BitReader as it was (log 32). -/
def Obligations.BrFetchAdvances : Prop :=
  decodeUop 0x00000021 = .ok .uBrFetch ∧
  (∀ s : State, Served s → 1 ≤ s.params.fetchBytes → BrOk s → s.br.fetched < s.br.len →
    ∃ t n, exec .uBrFetch s = .next t ∧
      t = { s with br := { s.br with buf := t.br.buf, fetched := s.br.fetched + n }, src := t.src,
                   op := { s.op with ret := .nothing } } ∧
      BrOk t ∧ t.src.bytes = s.src.bytes ∧ t.src.pos = s.src.pos + n ∧ 1 ≤ n ∧ n ≤ s.params.fetchBytes ∧
      n ≤ s.br.len - s.br.fetched) ∧
  (∀ s : State, Served s → s.src.bytes.length ≤ s.src.pos →
    ∃ src, exec .uBrFetch s = .next { s with src := src, op := { s.op with ret := .frameError } } ∧
      src.bytes = s.src.bytes ∧ src.pos = s.src.pos)

/-- 41_bitreader.md R202, R204, R205: bits are read from the window most significant first, whatever the source's answers; a read past
its end is a PREMATURE_END. The model's choice: that it leaves the position where the failing read found it (log 32), and what
n = 0 and n > 32 do (log 19). -/
def Obligations.BitsRead : Prop :=
  ∀ s : State, Served s → 1 ≤ s.params.fetchBytes → BrOk s →
    (if s.br.p < 8 * s.br.len then
      ∃ t, exec .uBrReadbit s = .next t ∧ BrOk t ∧ t.src.bytes = s.src.bytes ∧
        t = { s with br := { s.br with buf := t.br.buf, fetched := t.br.fetched, p := s.br.p + 1 }, src := t.src,
                     op := { s.op with ret := .bit (frameBit s s.br.p) } }
    else exec .uBrReadbit s = .next { s with op := { s.op with ret := .frameError } }) ∧
    ∀ n, ∃ t, exec (.uBrReadbits n) s = .next t ∧ BrOk t ∧ t.src.bytes = s.src.bytes ∧
      t = { s with br := { s.br with buf := t.br.buf, fetched := t.br.fetched,
                                     p := if s.br.p + n ≤ 8 * s.br.len then s.br.p + n else max s.br.p (8 * s.br.len) },
                   src := t.src,
                   op := { s.op with ret := if n = 0 ∨ s.br.p + n ≤ 8 * s.br.len then .num (fieldAt (frameBit s) s.br.p n)
                                            else .frameError } }

/-- 41_bitreader.md R212: TEST_RICE's header on any bit stream: 40 bits for a silent frame, 45 otherwise. Where the position is after an
INVALID_SYMBOL or a PREMATURE_END is the model's choice (log 32). -/
def Obligations.RiceHeaderFields : Prop :=
  ∀ (bit : Nat → Bool) (limit p : Nat), p ≤ limit →
    let ck := BitVec.ofNat 32 (fieldAt bit p 32)
    let sp := fieldAt bit (p + 32) 8
    let k := fieldAt bit (p + 40) 5
    evalWire bit limit (wireHeader .testRice limit p) p =
      if limit < p + 40 then (.error .prematureEnd, limit)
      else if sp / 2 ≠ 0 then (.error .invalidSymbol, p + 40)
      else if sp = 1 then (.ok { storedCk := ck, silent := true, ent := 0 }, p + 40)
      else if limit < p + 45 then (.error .prematureEnd, limit)
      else if 24 < k then (.error .invalidSymbol, p + 45)
      else (.ok { storedCk := ck, silent := false, ent := k }, p + 45)

/-- 41_bitreader.md R214, R215: a TEST_RICE code word of q zeros, a one and a k-bit remainder r; 33 zeros are INVALID_SYMBOL; a code
word the window cuts off is a PREMATURE_END. For k ≤ 24 the residual fits. Where the position is after an INVALID_SYMBOL or a
PREMATURE_END is the model's choice (log 32). -/
def Obligations.RiceSymbolValue : Prop :=
  ∀ (bit : Nat → Bool) (limit k p q : Nat), (∀ i, i < q → bit (p + i) = false) →
    (q ≤ 32 → bit (p + q) = true → p + q + 1 + k ≤ limit →
      let u := q * 2 ^ k + fieldAt bit (p + q + 1) k
      let e : Int := if u % 2 = 0 then (u / 2 : Nat) else -(((u + 1) / 2 : Nat) : Int)
      evalWire bit limit (wireSymbol .testRice k limit p) p = (.ok { e := BitVec.ofInt 64 e, ent := k }, p + q + 1 + k) ∧
      (k ≤ 24 → (BitVec.ofInt 64 e).toInt = e)) ∧
    (q = 33 → p + 33 ≤ limit → evalWire bit limit (wireSymbol .testRice k limit p) p = (.error .invalidSymbol, p + 33)) ∧
    (q ≤ 32 → bit (p + q) = true → p + q + 1 ≤ limit → limit < p + q + 1 + k →
      evalWire bit limit (wireSymbol .testRice k limit p) p = (.error .prematureEnd, limit)) ∧
    (q ≤ 32 → limit = p + q → evalWire bit limit (wireSymbol .testRice k limit p) p = (.error .prematureEnd, limit))

/-- 41_bitreader.md R206, R207, R208: U_BR_HEADER and U_BR_SYMBOL do what WIRE_FORMAT's members do on the frame's bit stream; a failure
is a frame error, and a failed header leaves st.storedCk. The model's choice: where br.p and br.ent are left after a
failure (log 32), and a header or a symbol read where none is due (log 40). -/
def Obligations.HeaderAndSymbol : Prop :=
  ∀ s : State, Served s → 1 ≤ s.params.fetchBytes → BrOk s →
    (∃ t, exec .uBrHeader s = .next t ∧ BrOk t ∧ t.src.bytes = s.src.bytes ∧
      let x := evalWire (frameBit s) (8 * s.br.len) (wireHeader s.params.wireFormat (8 * s.br.len) s.br.p) s.br.p
      t = { s with br := { s.br with buf := t.br.buf, fetched := t.br.fetched, p := x.2,
                                     ent := match x.1 with | .ok h => h.ent | .error _ => s.br.ent },
                   src := t.src,
                   frm := match x.1 with
                     | .ok h => { s.frm with storedCk := h.storedCk, silent := h.silent }
                     | .error _ => { s.frm with frameErr := true, silent := false },
                   op := { s.op with ret := .nothing } }) ∧
    (∃ t, exec .uBrSymbol s = .next t ∧ BrOk t ∧ t.src.bytes = s.src.bytes ∧
      let x := evalWire (frameBit s) (8 * s.br.len) (wireSymbol s.params.wireFormat s.br.ent (8 * s.br.len) s.br.p) s.br.p
      t = { s with br := { s.br with buf := t.br.buf, fetched := t.br.fetched, p := x.2,
                                     ent := match x.1 with | .ok y => y.ent | .error _ => s.br.ent },
                   src := t.src,
                   frm := match x.1 with | .ok _ => s.frm | .error _ => { s.frm with frameErr := true },
                   op := { s.op with ret := match x.1 with | .ok y => .sample y.e.toInt | .error _ => .frameError } })

/-! ## The Predictor -/

/-- 42_predictor.md R254: U_PRED_RESET puts the channel's stages to zero, and changes nothing else. That a channel from C on is reset
too is the model's choice (log 15). -/
def Obligations.PredResetZeroes : Prop :=
  decodeUop 0x00000130 = .ok (.uPredReset 1) ∧
  ∀ (s : State) (c : Nat), c < s.pred.length →
    exec (.uPredReset c) s = .next { s with
      pred := s.pred.set c (s.cfg.stages.map fun g => { coef := List.replicate g.N 0, hist := List.replicate g.N 0 }),
      op := { s.op with ret := .nothing } }

/-- 42_predictor.md R255, R256, R257, R258, R259, R262: one stage step, tap by tap, for stage number k of channel c (stages are numbered
from 1, R260 and log 18). That a channel from C on is stepped too is the model's choice (log 15). -/
def Obligations.StageStepResult : Prop :=
  ∀ (s : State) (c k : Nat) (g : StageCfg) (sts : List StageState) (st : StageState), 1 ≤ k → s.cfg.stages[k - 1]? = some g →
    s.pred[c]? = some sts → sts[k - 1]? = some st → g.wf = true → st.coef.length = g.N → st.hist.length = g.N →
    let x := s.op.x.toInt
    let acc := wrapN 64 ((List.range g.N).map fun j => st.coef.getD j 0 * st.hist.getD j 0).sum
    let pred := if g.k = 0 then acc else wrapN 64 (acc + 2 ^ (g.k - 1)) / 2 ^ g.k
    let y := wrapN 64 (x + pred)
    ∃ st', exec (.uStageStep c k) s = .next { s with pred := s.pred.set c (sts.set (k - 1) st'),
                                                     op := { s.op with ret := .sample y } } ∧
      st'.coef.length = g.N ∧ st'.hist.length = g.N ∧
      (∀ j, j < g.N → st'.coef.getD j 0 = wrapN g.Wc (st.coef.getD j 0 + g.mu * sgn x * sgn (st.hist.getD j 0)) ∧
        -2 ^ (g.Wc - 1) ≤ st'.coef.getD j 0 ∧ st'.coef.getD j 0 < 2 ^ (g.Wc - 1)) ∧
      st'.hist.getD 0 0 = min (max y (-2 ^ (g.Wh - 1))) (2 ^ (g.Wh - 1) - 1) ∧
      ∀ j, j + 1 < g.N → st'.hist.getD (j + 1) 0 = st.hist.getD j 0

/-- 42_predictor.md R260, R261, R263: U_PRED_STEP runs the cascade on its own channel alone, and always yields a sample; with no
stages it is the identity. The model's choice: a stage that the channel has no state for yields a free value, a channel from C on is
stepped too (log 15), a stage whose lists do not have N entries is stepped on those it has (log 37), and a width of 0 (log 36). -/
def Obligations.PredStepCascade : Prop :=
  ∀ (s : State) (c : Nat) (sts : List StageState), Undisturbed s → s.pred[c]? = some sts →
    exec (.uPredStep c) s = .next { s with pred := s.pred.set c (cascadeOf c 1 s.cfg.stages sts s.op.x.toInt).2,
                                           op := { s.op with ret := .sample (cascadeOf c 1 s.cfg.stages sts s.op.x.toInt).1 } } ∧
    (s.cfg.stages = [] → exec (.uPredStep c) s = .next { s with op := { s.op with ret := .sample s.op.x.toInt } })

/-- 42_predictor.md R256: the products are exact, and the order of accumulation has no effect on acc. That lists of different lengths
give the products of the shorter is the model's choice (log 37). -/
def Obligations.MacOrderIndependent : Prop :=
  (∀ (coef hist : List Int) (l : List (Int × Int)), l.Perm (coef.zip hist) →
    l.foldl (fun acc p => wrapN 64 (acc + p.1 * p.2)) 0 = macAcc coef hist) ∧
  (∀ (Wc Wh : Nat) (a b : Int), 2 ≤ Wc → Wc ≤ 32 → 2 ≤ Wh → Wh ≤ 32 → -2 ^ (Wc - 1) ≤ a → a < 2 ^ (Wc - 1) →
    -2 ^ (Wh - 1) ≤ b → b < 2 ^ (Wh - 1) → -2 ^ (Wc + Wh - 1) ≤ a * b ∧ a * b < 2 ^ (Wc + Wh - 1) ∧ wrapN 64 (a * b) = a * b)

/-! ## The Reconstructor and the checksum -/

/-- 43_reconstructor.md R291, R292: U_UNPREPARE of two channels under MS_TRUNC inverts the encoder's transform; any other number of
channels passes through. It changes nothing but its result. The model's choice: a list that is not one of C samples passes through
whole (log 30), and under an external UNPREPARE the two samples are that function's (log 2). -/
def Obligations.UnprepareChannels : Prop :=
  (∀ s : State, s.cfg.C ≠ 2 → exec .uUnprepare s = .next { s with op := { s.op with ret := .samples (s.op.vals.map BitVec.toInt) } }) ∧
  (∀ (s : State) (x y : DWord), s.cfg.C = 2 → s.op.vals = [x, y] → s.params.unprepare = .msTrunc →
    exec .uUnprepare s = .next { s with op := { s.op with
      ret := .samples [wrapN 64 (wrapN 64 (x.toInt - Int.tdiv y.toInt 2) + y.toInt), wrapN 64 (x.toInt - Int.tdiv y.toInt 2)] } }) ∧
  (∀ (s : State) (l r : Int), s.cfg.C = 2 → s.params.unprepare = .msTrunc → -2 ^ 62 ≤ l → l < 2 ^ 62 → -2 ^ 62 ≤ r → r < 2 ^ 62 →
    s.op.vals = [BitVec.ofInt 64 (r + Int.tdiv (l - r) 2), BitVec.ofInt 64 (l - r)] →
    exec .uUnprepare s = .next { s with op := { s.op with ret := .samples [l, r] } }) ∧
  (∀ s : State, ∃ vs, exec .uUnprepare s = .next { s with op := { s.op with ret := .samples vs } } ∧
    vs.length = s.op.vals.length)

/-- 43_reconstructor.md R293: the bytes of a sample. -/
def Obligations.PackBytes : Prop :=
  decodeUop 0x00000041 = .ok .uPack ∧
  ∀ s : State,
    let gives (bs : List Byte) : Prop := exec .uPack s = .next { s with op := { s.op with ret := .bytes bs } }
    let t16 := BitVec.ofInt 16 s.op.x.toInt
    let t24 := BitVec.ofInt 24 s.op.x.toInt
    let t32 := BitVec.ofInt 32 s.op.x.toInt
    (s.op.bps = 8 → gives [BitVec.ofInt 8 (s.op.x.toInt + 128)]) ∧
    (s.op.bps = 16 → gives [t16.extractLsb' 0 8, t16.extractLsb' 8 8]) ∧
    (s.op.bps = 24 → gives [t24.extractLsb' 0 8, t24.extractLsb' 8 8, t24.extractLsb' 16 8]) ∧
    (s.op.bps = 32 → gives [t32.extractLsb' 0 8, t32.extractLsb' 8 8, t32.extractLsb' 16 8, t32.extractLsb' 24 8])

/-- 43_reconstructor.md R295: the silence block: 0x80 bytes at 8 bits, 0x00 bytes at the other depths. -/
def Obligations.SilenceBytes : Prop :=
  decodeUop 0x00000042 = .ok .uSilence ∧
  (∀ s : State, exec .uSilence s = .next { s with op := { s.op with
    ret := .bytes (List.replicate s.cfg.C (packSample s.cfg.bps 0)).flatten } }) ∧
  (∀ s : State, s.cfg.bps = 8 → exec .uSilence s = .next { s with op := { s.op with ret := .bytes (List.replicate s.cfg.C 0x80) } }) ∧
  (∀ s : State, s.cfg.bps = 16 ∨ s.cfg.bps = 24 ∨ s.cfg.bps = 32 →
    exec .uSilence s = .next { s with op := { s.op with ret := .bytes (List.replicate (s.cfg.C * (s.cfg.bps / 8)) 0x00) } })

/-- 43_reconstructor.md R298, R299: U_CK_UPDATE folds CHECKSUM.update over the block in order; CRC32 is R299's, with its check
value. That a list that is not BA bytes is folded too is the model's choice (log 15). -/
def Obligations.ChecksumUpdate : Prop :=
  decodeUop 0x00000043 = .ok .uCkUpdate ∧
  (∀ s : State, exec .uCkUpdate s = .next { s with
    frm := { s.frm with runCk := s.op.blk.foldl (ckUpdate s.params.checksum) s.frm.runCk }, op := { s.op with ret := .nothing } }) ∧
  ckInit .crc32 = 0xFFFFFFFF ∧ (∀ c, ckFinal .crc32 c = c ^^^ 0xFFFFFFFF) ∧
  (∀ c b, ckUpdate .crc32 c b =
    Nat.repeat (fun c : Word => (c >>> 1) ^^^ (if c.getLsbD 0 then 0xEDB88320 else 0)) 8 (c ^^^ b.setWidth 32)) ∧
  ckFinal .crc32 ([0x31, 0x32, 0x33, 0x34, 0x35, 0x36, 0x37, 0x38, 0x39].foldl (ckUpdate .crc32) (ckInit .crc32)) = 0xCBF43926

/-! ## The ring -/

/-- 44_framebuffer.md R321, R325: U_RING_RESET empties the ring and leaves its contents unspecified; U_RING_DROP(n), n ≤ count, drops the
n oldest blocks. For a ring of capacity 0 the index is the model's choice (log 36). -/
def Obligations.RingResetAndDrop : Prop :=
  decodeUop 0x00000050 = .ok .uRingReset ∧ decodeUop 0x00000053 = .ok .uRingDrop ∧
  (∀ s : State, ∃ data, exec .uRingReset s = .next { s with
    ring := { s.ring with rd := 0, wr := 0, count := 0, data := data }, op := { s.op with ret := .nothing } }) ∧
  (∀ s : State, s.op.n.toNat ≤ s.ring.count → exec .uRingDrop s = .next { s with
    ring := { s.ring with rd := (s.ring.rd + s.op.n.toNat) % s.ring.cap, count := s.ring.count - s.op.n.toNat },
    op := { s.op with ret := .nothing } })

/-- 44_framebuffer.md R322, R323: U_RING_WRITE stores a block of BA bytes in slot wr and in no other, and faults where the ring is full.
For a ring of capacity 0 the index is the model's choice (log 36). -/
def Obligations.RingWriteAppends : Prop :=
  decodeUop 0x00000051 = .ok .uRingWrite ∧
  (∀ s : State, s.ring.count = s.ring.cap → exec .uRingWrite s = .fault .ringOverflow) ∧
  (∀ s : State, s.ring.count ≠ s.ring.cap → s.op.blk.length = s.cfg.BA → ∃ t, exec .uRingWrite s = .next t ∧
    t = { s with ring := { s.ring with wr := (s.ring.wr + 1) % s.ring.cap, count := s.ring.count + 1, data := t.ring.data },
                 op := { s.op with ret := .nothing } } ∧
    ∀ slot, ringSlot t slot = if slot = s.ring.wr then s.op.blk else ringSlot s slot)

/-- 44_framebuffer.md R324: U_RING_READ copies the m oldest blocks to OUT from dst, in order, and changes no other byte. The model's
choice: n = 0 moves nothing, bytes past the end of OUT are written nowhere (log 15), and the indexes of a ring of capacity 0
(log 36). -/
def Obligations.RingReadCopies : Prop :=
  decodeUop 0x00000052 = .ok .uRingRead ∧
  ∀ s : State,
    let m := min s.op.n.toNat s.ring.count
    let dst := s.op.dst.toNat
    ∃ t, exec .uRingRead s = .next t ∧
      t = { s with ring := { s.ring with rd := (s.ring.rd + m) % s.ring.cap, count := s.ring.count - m }, mem := t.mem,
                   op := { s.op with ret := .num m } } ∧
      (∀ i j, i < m → j < s.cfg.BA → dst + i * s.cfg.BA + j < s.params.outbufBytes →
        readByte t (0x01000000 + dst + i * s.cfg.BA + j) = (ringSlot s ((s.ring.rd + i) % s.ring.cap)).getD j 0) ∧
      ∀ a, a < 0x01000000 + dst ∨ 0x01000000 + dst + m * s.cfg.BA ≤ a ∨ 0x01000000 + s.params.outbufBytes ≤ a →
        readByte t a = readByte s a

/-- 44_framebuffer.md R326: U_RING_SILENCE_TAIL(n) puts silence in the n newest slots, and changes no other slot. The capacity of an
open session's ring is not 0 (R320). For n > ring.count the same slots by number are the model's choice (log 15), and so is that no host
access comes before its U_SILENCE (log 24). -/
def Obligations.RingSilenceTail : Prop :=
  decodeUop 0x00000054 = .ok .uRingSilenceTail ∧
  ∀ s : State, 0 < s.ring.cap → (silenceBlock s.cfg).length = s.cfg.BA →
    ∃ t, exec .uRingSilenceTail s = .next t ∧
    t = { s with ring := { s.ring with data := t.ring.data }, op := { s.op with ret := .nothing } } ∧
    (∀ slot i : Nat, 1 ≤ i → i ≤ s.op.n.toNat → (slot : Int) = ((s.ring.wr : Int) - i) % s.ring.cap →
      ringSlot t slot = silenceBlock s.cfg) ∧
    ∀ slot : Nat, (¬ ∃ i : Nat, 1 ≤ i ∧ i ≤ s.op.n.toNat ∧ (slot : Int) = ((s.ring.wr : Int) - i) % s.ring.cap) →
      ringSlot t slot = ringSlot s slot

/-! ## The frame sequencer -/

/-- 45_frame_sequencer.md R353: the start of a frame whose window lies in the source. The model's choice: that the mode has no effect
(log 35), where br.p and br.ent are after a failed header (log 32), the window of a g that is no frame or has no entry (log 15), and a
channel without a predictor (log 37). -/
def Obligations.StartFrameEnters : Prop :=
  ∀ (s : State) (m : Mode), Served s → 1 ≤ s.params.fetchBytes →
    let g := s.op.g.toNat
    frameStart s g ≤ frameEnd s g → frameEnd s g ≤ s.src.bytes.length →
    ∃ t, exec (.uStartFrame m) s = .next t ∧ BrOk t ∧ t.src.bytes = s.src.bytes ∧
      t = { s with pred := if isResync s.params g then resetPreds s.cfg s.pred else s.pred,
                   br := { start := frameStart s g, len := frameEnd s g - frameStart s g, fetched := t.br.fetched, buf := t.br.buf,
                           p := (headerOf s g).2,
                           ent := match (headerOf s g).1 with | .ok h => h.ent | .error _ => wireReset s.params.wireFormat },
                   frm := { curFrame := g, blkInFrame := 0, placed := 0, runCk := ckInit s.params.checksum,
                            frameErr := !headerDecodes s g, silent := frameSilent s g,
                            storedCk := match (headerOf s g).1 with | .ok h => h.storedCk | .error _ => s.frm.storedCk },
                   src := t.src, op := { s.op with ret := .nothing } }

/-- 45_frame_sequencer.md R354, R357, 43_reconstructor.md R294: one block. Its bytes, the predictors, the checksum and the frame error are
those of `blockOf`; in DELIVER mode a deliverable block is written to the ring, and none into a full one. The model's
choice: where br.p and br.ent are after a failed symbol (log 32), a channel or a stage without a predictor and a block outside a frame
(log 15), predictors of another shape than CFG's stages (log 37), a ring of capacity 0 and a stage of width 0 (log 36), and a DISCARD
block after a frame error, which is not skipped (log 42). -/
def Obligations.DecodeBlockResult : Prop :=
  ∀ (s : State) (m : Mode), Served s → 1 ≤ s.params.fetchBytes → BrOk s → CfgOk s.cfg →
    let x := blockOf s.params s.cfg (frameBit s) (8 * s.br.len) s.frm.silent
      ⟨s.pred, s.br.p, s.br.ent, s.frm.frameErr, s.frm.runCk⟩
    let write := m = .deliver ∧ s.cur.skipBlocks ≤ s.frm.blkInFrame ∧ s.frm.curFrame * s.cfg.B + s.frm.blkInFrame < s.cfg.F
    (write → s.ring.count = s.ring.cap → exec (.uDecodeBlock m) s = .fault .ringOverflow) ∧
    ((write → s.ring.count ≠ s.ring.cap) → ∃ t, exec (.uDecodeBlock m) s = .next t ∧ BrOk t ∧ t.src.bytes = s.src.bytes ∧
      t = { s with pred := x.2.pred,
                   br := { s.br with fetched := t.br.fetched, buf := t.br.buf, p := x.2.p, ent := x.2.ent },
                   frm := { s.frm with frameErr := x.2.err, runCk := x.2.ck, blkInFrame := s.frm.blkInFrame + 1,
                                       placed := t.frm.placed },
                   ring := t.ring, src := t.src, op := { s.op with ret := .nothing } } ∧
      x.1.length = s.cfg.BA ∧
      (¬ write → t.ring = s.ring ∧ t.frm.placed = s.frm.placed) ∧
      (write → t.frm.placed = s.frm.placed + 1 ∧ t.ring = { s.ring with wr := (s.ring.wr + 1) % s.ring.cap,
                                                                        count := s.ring.count + 1, data := t.ring.data } ∧
        ∀ slot, ringSlot t slot = if slot = s.ring.wr then x.1 else ringSlot s slot))

/-- 45_frame_sequencer.md R355, 60_exceptions.md R455: the frame is bad where it met a frame error or its checksum differs; then hadErrors
is set, and in DELIVER mode the blocks it placed become silence. Outside a frame, and where st.placed passes ring.count, that is the
model's choice (log 15). -/
def Obligations.EndFrameVerifies : Prop :=
  ∀ (s : State) (m : Mode), Undisturbed s → 0 < s.ring.cap → (silenceBlock s.cfg).length = s.cfg.BA →
    let bad := s.frm.frameErr || decide (ckFinal s.params.checksum s.frm.runCk ≠ s.frm.storedCk)
    ∃ t, exec (.uEndFrame m) s = .next t ∧
      t = { s with frm := { s.frm with frameErr := bad }, life := { s.life with hadErrors := s.life.hadErrors || bad },
                   ring := { s.ring with data := t.ring.data }, op := { s.op with ret := .nothing } } ∧
      (bad = true → m = .deliver → ∀ slot i : Nat, 1 ≤ i → i ≤ s.frm.placed →
        (slot : Int) = ((s.ring.wr : Int) - i) % s.ring.cap → ringSlot t slot = silenceBlock s.cfg) ∧
      ∀ slot : Nat, (¬ (bad = true ∧ m = .deliver ∧
          ∃ i : Nat, 1 ≤ i ∧ i ≤ s.frm.placed ∧ (slot : Int) = ((s.ring.wr : Int) - i) % s.ring.cap)) →
        ringSlot t slot = ringSlot s slot

/-- 45_frame_sequencer.md R356, R357, 60_exceptions.md R455: one frame of a well-formed stream. Its predictors and whether it is bad are
those of `frameOf`; DELIVER mode, into an empty ring, leaves there just the deliverable blocks, all silence where the frame is bad,
and moves the cursor; DISCARD mode writes no ring and no cursor. The model's choice: a g that is not st.nextFrame in DELIVER mode
(log 15), and predictors of another shape than CFG's stages (log 37). -/
def Obligations.DecodeFrameResult : Prop :=
  ∀ (s : State) (m : Mode), Served s → s.params.wf = true → CfgOk s.cfg → StreamOk s → RingOk s →
    s.op.g.toNat < s.cfg.numFrames → (m = .deliver → s.ring.count = 0) →
    let g := s.op.g.toNat
    let x := frameOf s g s.pred
    ∃ t, exec (.pDecodeFrame m) s = .next t ∧ t.src.bytes = s.src.bytes ∧
      t = { s with pred := x.2.1, life := { s.life with hadErrors := s.life.hadErrors || x.2.2 }, frm := t.frm, br := t.br,
                   ring := { t.ring with cap := s.ring.cap }, src := t.src,
                   cur := if m = .deliver then { s.cur with nextFrame := g + 1, skipBlocks := 0 } else s.cur,
                   op := { s.op with ret := .nothing } } ∧
      (m = .discard → t.ring = s.ring) ∧
      (m = .deliver → ringBlocks t = (x.1.take (s.cfg.F - g * s.cfg.B)).drop s.cur.skipBlocks)

/-- 45_frame_sequencer.md R358, 42_predictor.md R264: positioning at block b empties the ring, puts the cursor at b, and leaves the
predictors where the decode of b's frame needs them; the end of the range is marked for re-positioning; hadErrors is set just where a
replayed frame is in error (10_state.md R41). -/
def Obligations.PositionMovesCursor : Prop :=
  ∀ s : State, Served s → s.params.wf = true → CfgOk s.cfg → StreamOk s → s.op.b.toNat ≤ s.cfg.F - s.cfg.S →
    let b := s.op.b.toNat
    ∃ t, exec .pPosition s = .next t ∧ t.src.bytes = s.src.bytes ∧ t.pred.length = s.pred.length ∧
      t = { s with pred := t.pred, life := { s.life with hadErrors := s.life.hadErrors || replayBad s b }, frm := t.frm, br := t.br,
                   ring := { cap := s.ring.cap, rd := 0, wr := 0, count := 0, data := t.ring.data }, src := t.src,
                   cur := { curBlock := b, nextFrame := (s.cfg.S + b) / s.cfg.B, skipBlocks := (s.cfg.S + b) % s.cfg.B,
                            resyncPending := decide (b = s.cfg.F - s.cfg.S), entryBlock := s.cur.entryBlock },
                   op := { s.op with ret := .nothing } } ∧
      (b ≠ s.cfg.F - s.cfg.S → PredOk t ((s.cfg.S + b) / s.cfg.B))

/-- Log 15, the model's choice throughout: a micro-operation run on its own with an operand outside its rule's range runs. It has the
effects its rule gives without reference to that operand, and a value the rule does not state is some value. That stage number 0 is
outside the range is log 18's, a seek past the end of the source log 7's, a division by B = 0 and a difference below 0 log 36's,
predictors of another shape than CFG's stages log 37's. -/
def Obligations.OperandsOutsideRangeRun : Prop :=
  ∀ s : State,
    (∀ c, s.pred.length ≤ c →
      exec (.uPredReset c) s = .next { s with op := { s.op with ret := .nothing } } ∧
      (Undisturbed s → ∃ y : Int, exec (.uPredStep c) s = .next { s with op := { s.op with ret := .sample y } })) ∧
    (∀ c k, k = 0 ∨ s.cfg.stages.length < k ∨ s.pred.length ≤ c →
      ∃ y : DWord, exec (.uStageStep c k) s = .next { s with op := { s.op with ret := .sample y.toInt } }) ∧
    (s.op.bps.toNat ∉ [8, 16, 24, 32] → ∃ bs, exec .uPack s = .next { s with op := { s.op with ret := .bytes bs } }) ∧
    (s.ring.count < s.op.n.toNat → s.ring.count ≤ s.ring.cap → ∃ count, count ≤ s.ring.cap ∧
      exec .uRingDrop s = .next { s with ring := { s.ring with rd := (s.ring.rd + s.op.n.toNat) % s.ring.cap, count := count },
                                         op := { s.op with ret := .nothing } }) ∧
    (Served s → ∀ m, ∃ t, exec (.uStartFrame m) s = .next t ∧
      t.frm.curFrame = s.op.g.toNat ∧ t.frm.blkInFrame = 0 ∧ t.frm.placed = 0 ∧ t.ring = s.ring ∧ t.cur = s.cur ∧ t.mem = s.mem) ∧
    (Served s → ∃ t, exec (.pDecodeFrame .discard) s = .next t ∧ t.ring = s.ring ∧ t.cur = s.cur ∧ t.mem = s.mem) ∧
    (Served s → CfgOk s.cfg → RingOk s → s.ring.count = 0 → ∃ t, exec (.pDecodeFrame .deliver) s = .next t ∧ t.mem = s.mem ∧
      t.cur = { s.cur with nextFrame := s.op.g.toNat + 1, skipBlocks := 0 } ∧
      t.ring.count = min (frameBlocks s.cfg s.op.g.toNat) (s.cfg.F - s.op.g.toNat * s.cfg.B) - s.cur.skipBlocks) ∧
    (Served s → ∃ t, exec .pPosition s = .next t ∧ t.mem = s.mem ∧ t.ring.count = 0 ∧ t.ring.rd = 0 ∧ t.ring.wr = 0 ∧
      t.cur = { s.cur with curBlock := s.op.b.toNat, nextFrame := (s.cfg.S + s.op.b.toNat) / s.cfg.B,
                           skipBlocks := (s.cfg.S + s.op.b.toNat) % s.cfg.B,
                           resyncPending := decide (s.op.b.toNat = s.cfg.F - s.cfg.S) })

/-! ## The invariant -/

/-- The machine right after reset is in order, and so is every machine that a reset meets, with a source that 64-bit offsets reach and
parameters whose ring 64-bit block counts reach (00_scope.md R8; log 25). -/
def Obligations.ResetInv : Prop :=
  Inv State.reset ∧ ∀ s : State, s.params.wf = true → s.src.bytes.length < 2 ^ 64 → s.src.pos < 2 ^ 64 →
    s.params.ringFrames * s.params.maxFrameBlocks < 2 ^ 64 → Inv (hwReset s)

/-- 00_scope.md R8, 10_state.md R33, R39, R44, R52, 44_framebuffer.md R327: every step keeps the machine in order, from every state in
order, whatever the host and the byte source do. That RING_FRAMES × MAX_FRAME_BLOCKS is below 2^64 is the model's choice (log 25). -/
def Obligations.StepKeepsInv : Prop :=
  ∀ s t : State, Inv s → step s = .next t → Inv t
end

