-- ==== Sys2Proof/Laws/State.lean ====
section
/-! SUPPORT. One lemma per field per update of the state, true by rfl, so that no proof unfolds a record update. -/

namespace Sys2Proof.Machine

variable (s : State)

/-! ## writeStatus -/

@[simp] theorem writeStatus_params (v : Word) : (writeStatus v s).params = s.params := rfl
@[simp] theorem writeStatus_regs_ie (v : Word) : (writeStatus v s).regs.ie = s.regs.ie := rfl
@[simp] theorem writeStatus_regs_busy (v : Word) : (writeStatus v s).regs.busy = s.regs.busy := rfl
@[simp] theorem writeStatus_regs_done (v : Word) : (writeStatus v s).regs.done = (s.regs.done && !v.getLsbD 1) := rfl
@[simp] theorem writeStatus_regs_overrun (v : Word) : (writeStatus v s).regs.overrun = (s.regs.overrun && !v.getLsbD 2) := rfl
@[simp] theorem writeStatus_regs_lastStatus (v : Word) : (writeStatus v s).regs.lastStatus = s.regs.lastStatus := rfl
@[simp] theorem writeStatus_regs_arg0 (v : Word) : (writeStatus v s).regs.arg0 = s.regs.arg0 := rfl
@[simp] theorem writeStatus_regs_arg1 (v : Word) : (writeStatus v s).regs.arg1 = s.regs.arg1 := rfl
@[simp] theorem writeStatus_regs_res0 (v : Word) : (writeStatus v s).regs.res0 = s.regs.res0 := rfl
@[simp] theorem writeStatus_regs_res1 (v : Word) : (writeStatus v s).regs.res1 = s.regs.res1 := rfl
@[simp] theorem writeStatus_regs_desc (v : Word) : (writeStatus v s).regs.desc = s.regs.desc := rfl
@[simp] theorem writeStatus_latch (v : Word) : (writeStatus v s).latch = s.latch := rfl
@[simp] theorem writeStatus_cfg (v : Word) : (writeStatus v s).cfg = s.cfg := rfl
@[simp] theorem writeStatus_life (v : Word) : (writeStatus v s).life = s.life := rfl
@[simp] theorem writeStatus_cur (v : Word) : (writeStatus v s).cur = s.cur := rfl
@[simp] theorem writeStatus_frm (v : Word) : (writeStatus v s).frm = s.frm := rfl
@[simp] theorem writeStatus_br (v : Word) : (writeStatus v s).br = s.br := rfl
@[simp] theorem writeStatus_pred (v : Word) : (writeStatus v s).pred = s.pred := rfl
@[simp] theorem writeStatus_ring (v : Word) : (writeStatus v s).ring = s.ring := rfl
@[simp] theorem writeStatus_mem (v : Word) : (writeStatus v s).mem = s.mem := rfl
@[simp] theorem writeStatus_src (v : Word) : (writeStatus v s).src = s.src := rfl
@[simp] theorem writeStatus_host (v : Word) : (writeStatus v s).host = s.host := rfl
@[simp] theorem writeStatus_op (v : Word) : (writeStatus v s).op = s.op := rfl
@[simp] theorem writeStatus_uop (v : Word) : (writeStatus v s).uop = s.uop := rfl
@[simp] theorem writeStatus_draws (v : Word) : (writeStatus v s).draws = s.draws := rfl
@[simp] theorem writeStatus_epoch (v : Word) : (writeStatus v s).epoch = s.epoch := rfl

/-! ## writeIe -/

@[simp] theorem writeIe_params (v : Word) : (writeIe v s).params = s.params := rfl
@[simp] theorem writeIe_regs_ie (v : Word) : (writeIe v s).regs.ie = v.getLsbD 0 := rfl
@[simp] theorem writeIe_regs_busy (v : Word) : (writeIe v s).regs.busy = s.regs.busy := rfl
@[simp] theorem writeIe_regs_done (v : Word) : (writeIe v s).regs.done = s.regs.done := rfl
@[simp] theorem writeIe_regs_overrun (v : Word) : (writeIe v s).regs.overrun = s.regs.overrun := rfl
@[simp] theorem writeIe_regs_lastStatus (v : Word) : (writeIe v s).regs.lastStatus = s.regs.lastStatus := rfl
@[simp] theorem writeIe_regs_arg0 (v : Word) : (writeIe v s).regs.arg0 = s.regs.arg0 := rfl
@[simp] theorem writeIe_regs_arg1 (v : Word) : (writeIe v s).regs.arg1 = s.regs.arg1 := rfl
@[simp] theorem writeIe_regs_res0 (v : Word) : (writeIe v s).regs.res0 = s.regs.res0 := rfl
@[simp] theorem writeIe_regs_res1 (v : Word) : (writeIe v s).regs.res1 = s.regs.res1 := rfl
@[simp] theorem writeIe_regs_desc (v : Word) : (writeIe v s).regs.desc = s.regs.desc := rfl
@[simp] theorem writeIe_latch (v : Word) : (writeIe v s).latch = s.latch := rfl
@[simp] theorem writeIe_cfg (v : Word) : (writeIe v s).cfg = s.cfg := rfl
@[simp] theorem writeIe_life (v : Word) : (writeIe v s).life = s.life := rfl
@[simp] theorem writeIe_cur (v : Word) : (writeIe v s).cur = s.cur := rfl
@[simp] theorem writeIe_frm (v : Word) : (writeIe v s).frm = s.frm := rfl
@[simp] theorem writeIe_br (v : Word) : (writeIe v s).br = s.br := rfl
@[simp] theorem writeIe_pred (v : Word) : (writeIe v s).pred = s.pred := rfl
@[simp] theorem writeIe_ring (v : Word) : (writeIe v s).ring = s.ring := rfl
@[simp] theorem writeIe_mem (v : Word) : (writeIe v s).mem = s.mem := rfl
@[simp] theorem writeIe_src (v : Word) : (writeIe v s).src = s.src := rfl
@[simp] theorem writeIe_host (v : Word) : (writeIe v s).host = s.host := rfl
@[simp] theorem writeIe_op (v : Word) : (writeIe v s).op = s.op := rfl
@[simp] theorem writeIe_uop (v : Word) : (writeIe v s).uop = s.uop := rfl
@[simp] theorem writeIe_draws (v : Word) : (writeIe v s).draws = s.draws := rfl
@[simp] theorem writeIe_epoch (v : Word) : (writeIe v s).epoch = s.epoch := rfl

/-! ## setOverrun -/

@[simp] theorem setOverrun_params : (setOverrun s).params = s.params := rfl
@[simp] theorem setOverrun_regs_ie : (setOverrun s).regs.ie = s.regs.ie := rfl
@[simp] theorem setOverrun_regs_busy : (setOverrun s).regs.busy = s.regs.busy := rfl
@[simp] theorem setOverrun_regs_done : (setOverrun s).regs.done = s.regs.done := rfl
@[simp] theorem setOverrun_regs_overrun : (setOverrun s).regs.overrun = true := rfl
@[simp] theorem setOverrun_regs_lastStatus : (setOverrun s).regs.lastStatus = s.regs.lastStatus := rfl
@[simp] theorem setOverrun_regs_arg0 : (setOverrun s).regs.arg0 = s.regs.arg0 := rfl
@[simp] theorem setOverrun_regs_arg1 : (setOverrun s).regs.arg1 = s.regs.arg1 := rfl
@[simp] theorem setOverrun_regs_res0 : (setOverrun s).regs.res0 = s.regs.res0 := rfl
@[simp] theorem setOverrun_regs_res1 : (setOverrun s).regs.res1 = s.regs.res1 := rfl
@[simp] theorem setOverrun_regs_desc : (setOverrun s).regs.desc = s.regs.desc := rfl
@[simp] theorem setOverrun_latch : (setOverrun s).latch = s.latch := rfl
@[simp] theorem setOverrun_cfg : (setOverrun s).cfg = s.cfg := rfl
@[simp] theorem setOverrun_life : (setOverrun s).life = s.life := rfl
@[simp] theorem setOverrun_cur : (setOverrun s).cur = s.cur := rfl
@[simp] theorem setOverrun_frm : (setOverrun s).frm = s.frm := rfl
@[simp] theorem setOverrun_br : (setOverrun s).br = s.br := rfl
@[simp] theorem setOverrun_pred : (setOverrun s).pred = s.pred := rfl
@[simp] theorem setOverrun_ring : (setOverrun s).ring = s.ring := rfl
@[simp] theorem setOverrun_mem : (setOverrun s).mem = s.mem := rfl
@[simp] theorem setOverrun_src : (setOverrun s).src = s.src := rfl
@[simp] theorem setOverrun_host : (setOverrun s).host = s.host := rfl
@[simp] theorem setOverrun_op : (setOverrun s).op = s.op := rfl
@[simp] theorem setOverrun_uop : (setOverrun s).uop = s.uop := rfl
@[simp] theorem setOverrun_draws : (setOverrun s).draws = s.draws := rfl
@[simp] theorem setOverrun_epoch : (setOverrun s).epoch = s.epoch := rfl

/-! ## complete -/

@[simp] theorem complete_params (st : Status) (a b : DWord) : (complete st a b s).params = s.params := rfl
@[simp] theorem complete_regs_ie (st : Status) (a b : DWord) : (complete st a b s).regs.ie = s.regs.ie := rfl
@[simp] theorem complete_regs_busy (st : Status) (a b : DWord) : (complete st a b s).regs.busy = false := rfl
@[simp] theorem complete_regs_done (st : Status) (a b : DWord) : (complete st a b s).regs.done = true := rfl
@[simp] theorem complete_regs_overrun (st : Status) (a b : DWord) : (complete st a b s).regs.overrun = s.regs.overrun := rfl
@[simp] theorem complete_regs_lastStatus (st : Status) (a b : DWord) : (complete st a b s).regs.lastStatus = st := rfl
@[simp] theorem complete_regs_arg0 (st : Status) (a b : DWord) : (complete st a b s).regs.arg0 = s.regs.arg0 := rfl
@[simp] theorem complete_regs_arg1 (st : Status) (a b : DWord) : (complete st a b s).regs.arg1 = s.regs.arg1 := rfl
@[simp] theorem complete_regs_res0 (st : Status) (a b : DWord) : (complete st a b s).regs.res0 = (if st = .success ∨ st = .endOfData then a else 0) := rfl
@[simp] theorem complete_regs_res1 (st : Status) (a b : DWord) : (complete st a b s).regs.res1 = (if st = .success ∨ st = .endOfData then b else 0) := rfl
@[simp] theorem complete_regs_desc (st : Status) (a b : DWord) : (complete st a b s).regs.desc = s.regs.desc := rfl
@[simp] theorem complete_latch (st : Status) (a b : DWord) : (complete st a b s).latch = s.latch := rfl
@[simp] theorem complete_cfg (st : Status) (a b : DWord) : (complete st a b s).cfg = s.cfg := rfl
@[simp] theorem complete_life (st : Status) (a b : DWord) : (complete st a b s).life = s.life := rfl
@[simp] theorem complete_cur (st : Status) (a b : DWord) : (complete st a b s).cur = s.cur := rfl
@[simp] theorem complete_frm (st : Status) (a b : DWord) : (complete st a b s).frm = s.frm := rfl
@[simp] theorem complete_br (st : Status) (a b : DWord) : (complete st a b s).br = s.br := rfl
@[simp] theorem complete_pred (st : Status) (a b : DWord) : (complete st a b s).pred = s.pred := rfl
@[simp] theorem complete_ring (st : Status) (a b : DWord) : (complete st a b s).ring = s.ring := rfl
@[simp] theorem complete_mem (st : Status) (a b : DWord) : (complete st a b s).mem = s.mem := rfl
@[simp] theorem complete_src (st : Status) (a b : DWord) : (complete st a b s).src = s.src := rfl
@[simp] theorem complete_host (st : Status) (a b : DWord) : (complete st a b s).host = s.host := rfl
@[simp] theorem complete_op (st : Status) (a b : DWord) : (complete st a b s).op = s.op := rfl
@[simp] theorem complete_uop (st : Status) (a b : DWord) : (complete st a b s).uop = s.uop := rfl
@[simp] theorem complete_draws (st : Status) (a b : DWord) : (complete st a b s).draws = s.draws := rfl
@[simp] theorem complete_epoch (st : Status) (a b : DWord) : (complete st a b s).epoch = s.epoch := rfl

/-! ## acceptLatch -/

@[simp] theorem acceptLatch_params (v : Word) : (acceptLatch v s).params = s.params := rfl
@[simp] theorem acceptLatch_regs_ie (v : Word) : (acceptLatch v s).regs.ie = s.regs.ie := rfl
@[simp] theorem acceptLatch_regs_busy (v : Word) : (acceptLatch v s).regs.busy = true := rfl
@[simp] theorem acceptLatch_regs_done (v : Word) : (acceptLatch v s).regs.done = false := rfl
@[simp] theorem acceptLatch_regs_overrun (v : Word) : (acceptLatch v s).regs.overrun = s.regs.overrun := rfl
@[simp] theorem acceptLatch_regs_lastStatus (v : Word) : (acceptLatch v s).regs.lastStatus = s.regs.lastStatus := rfl
@[simp] theorem acceptLatch_regs_arg0 (v : Word) : (acceptLatch v s).regs.arg0 = s.regs.arg0 := rfl
@[simp] theorem acceptLatch_regs_arg1 (v : Word) : (acceptLatch v s).regs.arg1 = s.regs.arg1 := rfl
@[simp] theorem acceptLatch_regs_res0 (v : Word) : (acceptLatch v s).regs.res0 = s.regs.res0 := rfl
@[simp] theorem acceptLatch_regs_res1 (v : Word) : (acceptLatch v s).regs.res1 = s.regs.res1 := rfl
@[simp] theorem acceptLatch_regs_desc (v : Word) : (acceptLatch v s).regs.desc = s.regs.desc := rfl
@[simp] theorem acceptLatch_latch (v : Word) : (acceptLatch v s).latch = { cmd := v, a0 := s.regs.arg0, a1 := s.regs.arg1 } := rfl
@[simp] theorem acceptLatch_cfg (v : Word) : (acceptLatch v s).cfg = s.cfg := rfl
@[simp] theorem acceptLatch_life (v : Word) : (acceptLatch v s).life = s.life := rfl
@[simp] theorem acceptLatch_cur (v : Word) : (acceptLatch v s).cur = s.cur := rfl
@[simp] theorem acceptLatch_frm (v : Word) : (acceptLatch v s).frm = s.frm := rfl
@[simp] theorem acceptLatch_br (v : Word) : (acceptLatch v s).br = s.br := rfl
@[simp] theorem acceptLatch_pred (v : Word) : (acceptLatch v s).pred = s.pred := rfl
@[simp] theorem acceptLatch_ring (v : Word) : (acceptLatch v s).ring = s.ring := rfl
@[simp] theorem acceptLatch_mem (v : Word) : (acceptLatch v s).mem = s.mem := rfl
@[simp] theorem acceptLatch_src (v : Word) : (acceptLatch v s).src = s.src := rfl
@[simp] theorem acceptLatch_host (v : Word) : (acceptLatch v s).host = s.host := rfl
@[simp] theorem acceptLatch_op (v : Word) : (acceptLatch v s).op = s.op := rfl
@[simp] theorem acceptLatch_uop (v : Word) : (acceptLatch v s).uop = s.uop := rfl
@[simp] theorem acceptLatch_draws (v : Word) : (acceptLatch v s).draws = s.draws := rfl
@[simp] theorem acceptLatch_epoch (v : Word) : (acceptLatch v s).epoch = s.epoch := rfl

/-! ## writeByte -/

@[simp] theorem writeByte_params (a : Nat) (b : Byte) : (writeByte a b s).params = s.params := rfl
@[simp] theorem writeByte_regs (a : Nat) (b : Byte) : (writeByte a b s).regs = s.regs := rfl
@[simp] theorem writeByte_latch (a : Nat) (b : Byte) : (writeByte a b s).latch = s.latch := rfl
@[simp] theorem writeByte_cfg (a : Nat) (b : Byte) : (writeByte a b s).cfg = s.cfg := rfl
@[simp] theorem writeByte_life (a : Nat) (b : Byte) : (writeByte a b s).life = s.life := rfl
@[simp] theorem writeByte_cur (a : Nat) (b : Byte) : (writeByte a b s).cur = s.cur := rfl
@[simp] theorem writeByte_frm (a : Nat) (b : Byte) : (writeByte a b s).frm = s.frm := rfl
@[simp] theorem writeByte_br (a : Nat) (b : Byte) : (writeByte a b s).br = s.br := rfl
@[simp] theorem writeByte_pred (a : Nat) (b : Byte) : (writeByte a b s).pred = s.pred := rfl
@[simp] theorem writeByte_ring (a : Nat) (b : Byte) : (writeByte a b s).ring = s.ring := rfl
@[simp] theorem writeByte_mem (a : Nat) (b : Byte) : (writeByte a b s).mem = insertKey a b s.mem := rfl
@[simp] theorem writeByte_src (a : Nat) (b : Byte) : (writeByte a b s).src = s.src := rfl
@[simp] theorem writeByte_host (a : Nat) (b : Byte) : (writeByte a b s).host = s.host := rfl
@[simp] theorem writeByte_op (a : Nat) (b : Byte) : (writeByte a b s).op = s.op := rfl
@[simp] theorem writeByte_uop (a : Nat) (b : Byte) : (writeByte a b s).uop = s.uop := rfl
@[simp] theorem writeByte_draws (a : Nat) (b : Byte) : (writeByte a b s).draws = s.draws := rfl
@[simp] theorem writeByte_epoch (a : Nat) (b : Byte) : (writeByte a b s).epoch = s.epoch := rfl

/-! ## ringReset -/

@[simp] theorem ringReset_params : (ringReset s).params = s.params := rfl
@[simp] theorem ringReset_regs : (ringReset s).regs = s.regs := rfl
@[simp] theorem ringReset_latch : (ringReset s).latch = s.latch := rfl
@[simp] theorem ringReset_cfg : (ringReset s).cfg = s.cfg := rfl
@[simp] theorem ringReset_life : (ringReset s).life = s.life := rfl
@[simp] theorem ringReset_cur : (ringReset s).cur = s.cur := rfl
@[simp] theorem ringReset_frm : (ringReset s).frm = s.frm := rfl
@[simp] theorem ringReset_br : (ringReset s).br = s.br := rfl
@[simp] theorem ringReset_pred : (ringReset s).pred = s.pred := rfl
@[simp] theorem ringReset_ring_cap : (ringReset s).ring.cap = s.ring.cap := rfl
@[simp] theorem ringReset_ring_rd : (ringReset s).ring.rd = 0 := rfl
@[simp] theorem ringReset_ring_wr : (ringReset s).ring.wr = 0 := rfl
@[simp] theorem ringReset_ring_count : (ringReset s).ring.count = 0 := rfl
@[simp] theorem ringReset_ring_data : (ringReset s).ring.data = [] := rfl
@[simp] theorem ringReset_mem : (ringReset s).mem = s.mem := rfl
@[simp] theorem ringReset_src : (ringReset s).src = s.src := rfl
@[simp] theorem ringReset_host : (ringReset s).host = s.host := rfl
@[simp] theorem ringReset_op : (ringReset s).op = s.op := rfl
@[simp] theorem ringReset_uop : (ringReset s).uop = s.uop := rfl
@[simp] theorem ringReset_draws : (ringReset s).draws = s.draws := rfl
@[simp] theorem ringReset_epoch : (ringReset s).epoch = s.epoch := rfl

/-! ## withProg -/

@[simp] theorem withProg_params (l : List HostOp) : (withProg l s).params = s.params := rfl
@[simp] theorem withProg_regs (l : List HostOp) : (withProg l s).regs = s.regs := rfl
@[simp] theorem withProg_latch (l : List HostOp) : (withProg l s).latch = s.latch := rfl
@[simp] theorem withProg_cfg (l : List HostOp) : (withProg l s).cfg = s.cfg := rfl
@[simp] theorem withProg_life (l : List HostOp) : (withProg l s).life = s.life := rfl
@[simp] theorem withProg_cur (l : List HostOp) : (withProg l s).cur = s.cur := rfl
@[simp] theorem withProg_frm (l : List HostOp) : (withProg l s).frm = s.frm := rfl
@[simp] theorem withProg_br (l : List HostOp) : (withProg l s).br = s.br := rfl
@[simp] theorem withProg_pred (l : List HostOp) : (withProg l s).pred = s.pred := rfl
@[simp] theorem withProg_ring (l : List HostOp) : (withProg l s).ring = s.ring := rfl
@[simp] theorem withProg_mem (l : List HostOp) : (withProg l s).mem = s.mem := rfl
@[simp] theorem withProg_src (l : List HostOp) : (withProg l s).src = s.src := rfl
@[simp] theorem withProg_host_prog (l : List HostOp) : (withProg l s).host.prog = l := rfl
@[simp] theorem withProg_host_log (l : List HostOp) : (withProg l s).host.log = s.host.log := rfl
@[simp] theorem withProg_op (l : List HostOp) : (withProg l s).op = s.op := rfl
@[simp] theorem withProg_uop (l : List HostOp) : (withProg l s).uop = s.uop := rfl
@[simp] theorem withProg_draws (l : List HostOp) : (withProg l s).draws = s.draws := rfl
@[simp] theorem withProg_epoch (l : List HostOp) : (withProg l s).epoch = s.epoch := rfl

/-! ## hostRead -/

@[simp] theorem hostRead_params (w : Width) (a : DWord) : (hostRead w a s).params = s.params := rfl
@[simp] theorem hostRead_regs (w : Width) (a : DWord) : (hostRead w a s).regs = s.regs := rfl
@[simp] theorem hostRead_latch (w : Width) (a : DWord) : (hostRead w a s).latch = s.latch := rfl
@[simp] theorem hostRead_cfg (w : Width) (a : DWord) : (hostRead w a s).cfg = s.cfg := rfl
@[simp] theorem hostRead_life (w : Width) (a : DWord) : (hostRead w a s).life = s.life := rfl
@[simp] theorem hostRead_cur (w : Width) (a : DWord) : (hostRead w a s).cur = s.cur := rfl
@[simp] theorem hostRead_frm (w : Width) (a : DWord) : (hostRead w a s).frm = s.frm := rfl
@[simp] theorem hostRead_br (w : Width) (a : DWord) : (hostRead w a s).br = s.br := rfl
@[simp] theorem hostRead_pred (w : Width) (a : DWord) : (hostRead w a s).pred = s.pred := rfl
@[simp] theorem hostRead_ring (w : Width) (a : DWord) : (hostRead w a s).ring = s.ring := rfl
@[simp] theorem hostRead_mem (w : Width) (a : DWord) : (hostRead w a s).mem = s.mem := rfl
@[simp] theorem hostRead_src (w : Width) (a : DWord) : (hostRead w a s).src = s.src := rfl
@[simp] theorem hostRead_host_prog (w : Width) (a : DWord) : (hostRead w a s).host.prog = s.host.prog := rfl
@[simp] theorem hostRead_host_log (w : Width) (a : DWord) : (hostRead w a s).host.log = ⟨w, a, hostReadValue s w a⟩ :: s.host.log := rfl
@[simp] theorem hostRead_op (w : Width) (a : DWord) : (hostRead w a s).op = s.op := rfl
@[simp] theorem hostRead_uop (w : Width) (a : DWord) : (hostRead w a s).uop = s.uop := rfl
@[simp] theorem hostRead_draws (w : Width) (a : DWord) : (hostRead w a s).draws = s.draws + 1 := rfl
@[simp] theorem hostRead_epoch (w : Width) (a : DWord) : (hostRead w a s).epoch = s.epoch := rfl

/-! ## setSlot -/

@[simp] theorem setSlot_params (k : Nat) (b : List Byte) : (setSlot k b s).params = s.params := rfl
@[simp] theorem setSlot_regs (k : Nat) (b : List Byte) : (setSlot k b s).regs = s.regs := rfl
@[simp] theorem setSlot_latch (k : Nat) (b : List Byte) : (setSlot k b s).latch = s.latch := rfl
@[simp] theorem setSlot_cfg (k : Nat) (b : List Byte) : (setSlot k b s).cfg = s.cfg := rfl
@[simp] theorem setSlot_life (k : Nat) (b : List Byte) : (setSlot k b s).life = s.life := rfl
@[simp] theorem setSlot_cur (k : Nat) (b : List Byte) : (setSlot k b s).cur = s.cur := rfl
@[simp] theorem setSlot_frm (k : Nat) (b : List Byte) : (setSlot k b s).frm = s.frm := rfl
@[simp] theorem setSlot_br (k : Nat) (b : List Byte) : (setSlot k b s).br = s.br := rfl
@[simp] theorem setSlot_pred (k : Nat) (b : List Byte) : (setSlot k b s).pred = s.pred := rfl
@[simp] theorem setSlot_ring_cap (k : Nat) (b : List Byte) : (setSlot k b s).ring.cap = s.ring.cap := rfl
@[simp] theorem setSlot_ring_rd (k : Nat) (b : List Byte) : (setSlot k b s).ring.rd = s.ring.rd := rfl
@[simp] theorem setSlot_ring_wr (k : Nat) (b : List Byte) : (setSlot k b s).ring.wr = s.ring.wr := rfl
@[simp] theorem setSlot_ring_count (k : Nat) (b : List Byte) : (setSlot k b s).ring.count = s.ring.count := rfl
@[simp] theorem setSlot_ring_data (k : Nat) (b : List Byte) : (setSlot k b s).ring.data = insertKey k b s.ring.data := rfl
@[simp] theorem setSlot_mem (k : Nat) (b : List Byte) : (setSlot k b s).mem = s.mem := rfl
@[simp] theorem setSlot_src (k : Nat) (b : List Byte) : (setSlot k b s).src = s.src := rfl
@[simp] theorem setSlot_host (k : Nat) (b : List Byte) : (setSlot k b s).host = s.host := rfl
@[simp] theorem setSlot_op (k : Nat) (b : List Byte) : (setSlot k b s).op = s.op := rfl
@[simp] theorem setSlot_uop (k : Nat) (b : List Byte) : (setSlot k b s).uop = s.uop := rfl
@[simp] theorem setSlot_draws (k : Nat) (b : List Byte) : (setSlot k b s).draws = s.draws := rfl
@[simp] theorem setSlot_epoch (k : Nat) (b : List Byte) : (setSlot k b s).epoch = s.epoch := rfl

/-! ## advanceRead -/

@[simp] theorem advanceRead_params (n : Nat) : (advanceRead n s).params = s.params := rfl
@[simp] theorem advanceRead_regs (n : Nat) : (advanceRead n s).regs = s.regs := rfl
@[simp] theorem advanceRead_latch (n : Nat) : (advanceRead n s).latch = s.latch := rfl
@[simp] theorem advanceRead_cfg (n : Nat) : (advanceRead n s).cfg = s.cfg := rfl
@[simp] theorem advanceRead_life (n : Nat) : (advanceRead n s).life = s.life := rfl
@[simp] theorem advanceRead_cur (n : Nat) : (advanceRead n s).cur = s.cur := rfl
@[simp] theorem advanceRead_frm (n : Nat) : (advanceRead n s).frm = s.frm := rfl
@[simp] theorem advanceRead_br (n : Nat) : (advanceRead n s).br = s.br := rfl
@[simp] theorem advanceRead_pred (n : Nat) : (advanceRead n s).pred = s.pred := rfl
@[simp] theorem advanceRead_ring_cap (n : Nat) : (advanceRead n s).ring.cap = s.ring.cap := rfl
@[simp] theorem advanceRead_ring_rd (n : Nat) : (advanceRead n s).ring.rd = (s.ring.rd + n) % s.ring.cap := rfl
@[simp] theorem advanceRead_ring_wr (n : Nat) : (advanceRead n s).ring.wr = s.ring.wr := rfl
@[simp] theorem advanceRead_ring_count (n : Nat) : (advanceRead n s).ring.count = s.ring.count - n := rfl
@[simp] theorem advanceRead_ring_data (n : Nat) : (advanceRead n s).ring.data = s.ring.data := rfl
@[simp] theorem advanceRead_mem (n : Nat) : (advanceRead n s).mem = s.mem := rfl
@[simp] theorem advanceRead_src (n : Nat) : (advanceRead n s).src = s.src := rfl
@[simp] theorem advanceRead_host (n : Nat) : (advanceRead n s).host = s.host := rfl
@[simp] theorem advanceRead_op (n : Nat) : (advanceRead n s).op = s.op := rfl
@[simp] theorem advanceRead_uop (n : Nat) : (advanceRead n s).uop = s.uop := rfl
@[simp] theorem advanceRead_draws (n : Nat) : (advanceRead n s).draws = s.draws := rfl
@[simp] theorem advanceRead_epoch (n : Nat) : (advanceRead n s).epoch = s.epoch := rfl

/-! ## setPredStage -/

@[simp] theorem setPredStage_params (c k : Nat) (st : StageState) : (setPredStage c k st s).params = s.params := rfl
@[simp] theorem setPredStage_regs (c k : Nat) (st : StageState) : (setPredStage c k st s).regs = s.regs := rfl
@[simp] theorem setPredStage_latch (c k : Nat) (st : StageState) : (setPredStage c k st s).latch = s.latch := rfl
@[simp] theorem setPredStage_cfg (c k : Nat) (st : StageState) : (setPredStage c k st s).cfg = s.cfg := rfl
@[simp] theorem setPredStage_life (c k : Nat) (st : StageState) : (setPredStage c k st s).life = s.life := rfl
@[simp] theorem setPredStage_cur (c k : Nat) (st : StageState) : (setPredStage c k st s).cur = s.cur := rfl
@[simp] theorem setPredStage_frm (c k : Nat) (st : StageState) : (setPredStage c k st s).frm = s.frm := rfl
@[simp] theorem setPredStage_br (c k : Nat) (st : StageState) : (setPredStage c k st s).br = s.br := rfl
@[simp] theorem setPredStage_pred (c k : Nat) (st : StageState) : (setPredStage c k st s).pred = s.pred.modify c (fun l => l.set (k - 1) st) := rfl
@[simp] theorem setPredStage_ring (c k : Nat) (st : StageState) : (setPredStage c k st s).ring = s.ring := rfl
@[simp] theorem setPredStage_mem (c k : Nat) (st : StageState) : (setPredStage c k st s).mem = s.mem := rfl
@[simp] theorem setPredStage_src (c k : Nat) (st : StageState) : (setPredStage c k st s).src = s.src := rfl
@[simp] theorem setPredStage_host (c k : Nat) (st : StageState) : (setPredStage c k st s).host = s.host := rfl
@[simp] theorem setPredStage_op (c k : Nat) (st : StageState) : (setPredStage c k st s).op = s.op := rfl
@[simp] theorem setPredStage_uop (c k : Nat) (st : StageState) : (setPredStage c k st s).uop = s.uop := rfl
@[simp] theorem setPredStage_draws (c k : Nat) (st : StageState) : (setPredStage c k st s).draws = s.draws := rfl
@[simp] theorem setPredStage_epoch (c k : Nat) (st : StageState) : (setPredStage c k st s).epoch = s.epoch := rfl

/-! ## enterFrame -/

@[simp] theorem enterFrame_params (g : Nat) : (enterFrame g s).params = s.params := rfl
@[simp] theorem enterFrame_regs (g : Nat) : (enterFrame g s).regs = s.regs := rfl
@[simp] theorem enterFrame_latch (g : Nat) : (enterFrame g s).latch = s.latch := rfl
@[simp] theorem enterFrame_cfg (g : Nat) : (enterFrame g s).cfg = s.cfg := rfl
@[simp] theorem enterFrame_life (g : Nat) : (enterFrame g s).life = s.life := rfl
@[simp] theorem enterFrame_cur (g : Nat) : (enterFrame g s).cur = s.cur := rfl
@[simp] theorem enterFrame_frm_curFrame (g : Nat) : (enterFrame g s).frm.curFrame = g := rfl
@[simp] theorem enterFrame_frm_blkInFrame (g : Nat) : (enterFrame g s).frm.blkInFrame = 0 := rfl
@[simp] theorem enterFrame_frm_placed (g : Nat) : (enterFrame g s).frm.placed = 0 := rfl
@[simp] theorem enterFrame_frm_frameErr (g : Nat) : (enterFrame g s).frm.frameErr = false := rfl
@[simp] theorem enterFrame_frm_storedCk (g : Nat) : (enterFrame g s).frm.storedCk = s.frm.storedCk := rfl
@[simp] theorem enterFrame_frm_silent (g : Nat) : (enterFrame g s).frm.silent = false := rfl
@[simp] theorem enterFrame_frm_runCk (g : Nat) : (enterFrame g s).frm.runCk = ckInit s.params.checksum := rfl
@[simp] theorem enterFrame_br (g : Nat) : (enterFrame g s).br = s.br := rfl
@[simp] theorem enterFrame_pred (g : Nat) : (enterFrame g s).pred = s.pred := rfl
@[simp] theorem enterFrame_ring (g : Nat) : (enterFrame g s).ring = s.ring := rfl
@[simp] theorem enterFrame_mem (g : Nat) : (enterFrame g s).mem = s.mem := rfl
@[simp] theorem enterFrame_src (g : Nat) : (enterFrame g s).src = s.src := rfl
@[simp] theorem enterFrame_host (g : Nat) : (enterFrame g s).host = s.host := rfl
@[simp] theorem enterFrame_op (g : Nat) : (enterFrame g s).op = s.op := rfl
@[simp] theorem enterFrame_uop (g : Nat) : (enterFrame g s).uop = s.uop := rfl
@[simp] theorem enterFrame_draws (g : Nat) : (enterFrame g s).draws = s.draws := rfl
@[simp] theorem enterFrame_epoch (g : Nat) : (enterFrame g s).epoch = s.epoch := rfl

/-! ## cursorAt -/

@[simp] theorem cursorAt_params (b : Nat) (p : Bool) : (cursorAt b p s).params = s.params := rfl
@[simp] theorem cursorAt_regs (b : Nat) (p : Bool) : (cursorAt b p s).regs = s.regs := rfl
@[simp] theorem cursorAt_latch (b : Nat) (p : Bool) : (cursorAt b p s).latch = s.latch := rfl
@[simp] theorem cursorAt_cfg (b : Nat) (p : Bool) : (cursorAt b p s).cfg = s.cfg := rfl
@[simp] theorem cursorAt_life (b : Nat) (p : Bool) : (cursorAt b p s).life = s.life := rfl
@[simp] theorem cursorAt_cur_curBlock (b : Nat) (p : Bool) : (cursorAt b p s).cur.curBlock = b := rfl
@[simp] theorem cursorAt_cur_nextFrame (b : Nat) (p : Bool) : (cursorAt b p s).cur.nextFrame = (s.cfg.S + b) / s.cfg.B := rfl
@[simp] theorem cursorAt_cur_skipBlocks (b : Nat) (p : Bool) : (cursorAt b p s).cur.skipBlocks = (s.cfg.S + b) % s.cfg.B := rfl
@[simp] theorem cursorAt_cur_resyncPending (b : Nat) (p : Bool) : (cursorAt b p s).cur.resyncPending = p := rfl
@[simp] theorem cursorAt_cur_entryBlock (b : Nat) (p : Bool) : (cursorAt b p s).cur.entryBlock = s.cur.entryBlock := rfl
@[simp] theorem cursorAt_frm (b : Nat) (p : Bool) : (cursorAt b p s).frm = s.frm := rfl
@[simp] theorem cursorAt_br (b : Nat) (p : Bool) : (cursorAt b p s).br = s.br := rfl
@[simp] theorem cursorAt_pred (b : Nat) (p : Bool) : (cursorAt b p s).pred = s.pred := rfl
@[simp] theorem cursorAt_ring (b : Nat) (p : Bool) : (cursorAt b p s).ring = s.ring := rfl
@[simp] theorem cursorAt_mem (b : Nat) (p : Bool) : (cursorAt b p s).mem = s.mem := rfl
@[simp] theorem cursorAt_src (b : Nat) (p : Bool) : (cursorAt b p s).src = s.src := rfl
@[simp] theorem cursorAt_host (b : Nat) (p : Bool) : (cursorAt b p s).host = s.host := rfl
@[simp] theorem cursorAt_op (b : Nat) (p : Bool) : (cursorAt b p s).op = s.op := rfl
@[simp] theorem cursorAt_uop (b : Nat) (p : Bool) : (cursorAt b p s).uop = s.uop := rfl
@[simp] theorem cursorAt_draws (b : Nat) (p : Bool) : (cursorAt b p s).draws = s.draws := rfl
@[simp] theorem cursorAt_epoch (b : Nat) (p : Bool) : (cursorAt b p s).epoch = s.epoch := rfl

end Sys2Proof.Machine
end

