-- ==== Sys2Proof/Laws/Memory.lean ====
section
/-! SUPPORT. The laws of sparse lists and of memory: read after write, and that every memory operation keeps the canonical
form. -/

namespace Sys2Proof.Machine

/-! ## Sparse lists -/

section
variable {α : Type}

theorem findKey_insertKey (k j : Nat) (a : α) (l : List (Nat × α)) :
    findKey j (insertKey k a l) = if k = j then some a else findKey j l := by
  induction l with
  | nil => simp [insertKey, findKey]
  | cons h t ih =>
    obtain ⟨i, b⟩ := h
    simp only [insertKey]
    split
    · simp [findKey]
    · split
      · subst_vars
        by_cases hj : i = j <;> simp [findKey, hj]
      · simp only [findKey, ih]
        by_cases hi : i = j
        · have : ¬ k = j := by omega
          simp [hi, this]
        · simp [hi]

theorem keysRise_cons (j : Nat) (b : α) (l : List (Nat × α)) :
    keysRise ((j, b) :: l) = true ↔ (∀ k c t, l = (k, c) :: t → j < k) ∧ keysRise l = true := by
  cases l with
  | nil => simp [keysRise]
  | cons h t => obtain ⟨k, c⟩ := h; simp [keysRise]

/-- Inserting a key keeps the keys strictly rising. -/
theorem keysRise_insertKey (k : Nat) (a : α) (l : List (Nat × α)) (h : keysRise l = true) :
    keysRise (insertKey k a l) = true := by
  induction l with
  | nil => rfl
  | cons hd t ih =>
    obtain ⟨j, b⟩ := hd
    rw [keysRise_cons] at h
    simp only [insertKey]
    split
    · rw [keysRise_cons, keysRise_cons]
      refine ⟨?_, h⟩
      intro k' c t' he
      cases he
      assumption
    · split
      · subst_vars
        rw [keysRise_cons]
        exact h
      · rw [keysRise_cons]
        refine ⟨?_, ih h.2⟩
        intro k' c t' he
        cases t with
        | nil => cases he; omega
        | cons h2 t2 =>
          obtain ⟨j2, b2⟩ := h2
          have hj := h.1 j2 b2 t2 rfl
          simp only [insertKey] at he
          split at he
          · cases he; omega
          · split at he <;> (cases he; omega)

end

/-! ## Memory -/

theorem readByte_writeByte (s : State) (a c : Nat) (b : Byte) :
    readByte (writeByte a b s) c = if a = c then b else readByte s c := by
  unfold readByte unlistedByte
  simp only [writeByte_mem, writeByte_epoch, findKey_insertKey]
  split <;> rfl

/-- Everything a byte write changes is `mem`. -/
theorem writeBytes_eq (a : Nat) (bs : List Byte) (s : State) :
    writeBytes a bs s = { s with mem := (writeBytes a bs s).mem } := by
  induction bs generalizing a s with
  | nil => rfl
  | cons b t ih => rw [writeBytes, ih (a + 1) (writeByte a b s)]; rfl

/-- A write of bytes leaves every byte outside them alone, and each of them reads what was written. -/
theorem readByte_writeBytes (a c : Nat) (bs : List Byte) (s : State) :
    readByte (writeBytes a bs s) c =
      if a ≤ c ∧ c < a + bs.length then bs.getD (c - a) 0 else readByte s c := by
  induction bs generalizing a s with
  | nil => simp only [writeBytes, List.length_nil]; rw [if_neg (by omega)]
  | cons b t ih =>
    rw [writeBytes, ih]
    simp only [List.length_cons, readByte_writeByte]
    by_cases h0 : a = c
    · subst h0
      rw [if_neg (by omega), if_pos rfl, if_pos (by omega)]
      simp
    · rw [if_neg h0]
      by_cases h1 : a + 1 ≤ c ∧ c < a + 1 + t.length
      · rw [if_pos h1, if_pos (by omega)]
        obtain ⟨n, rfl⟩ : ∃ n, c = a + 1 + n := ⟨c - (a + 1), by omega⟩
        rw [show a + 1 + n - (a + 1) = n by omega, show a + 1 + n - a = n + 1 by omega]
        rfl
      · rw [if_neg h1, if_neg (by omega)]

theorem wf_writeByte (a : Nat) (b : Byte) (s : State) (h : Memory.wf s.mem = true) :
    Memory.wf (writeByte a b s).mem = true := keysRise_insertKey a b s.mem h

theorem wf_writeBytes (a : Nat) (bs : List Byte) (s : State) (h : Memory.wf s.mem = true) :
    Memory.wf (writeBytes a bs s).mem = true := by
  induction bs generalizing a s with
  | nil => exact h
  | cons b t ih => exact ih (a + 1) (writeByte a b s) (wf_writeByte a b s h)

/-- Reads depend on `mem` and `epoch` alone. -/
theorem readByte_congr {s t : State} (hm : t.mem = s.mem) (he : t.epoch = s.epoch) (a : Nat) :
    readByte t a = readByte s a := by simp [readByte, unlistedByte, hm, he]

theorem readBytes_congr {s t : State} (hm : t.mem = s.mem) (he : t.epoch = s.epoch) (a n : Nat) :
    readBytes t a n = readBytes s a n := by
  induction n generalizing a with
  | zero => rfl
  | succ n ih => simp [readBytes, readByte_congr hm he, ih]

theorem seektabEntry_congr {s t : State} (hm : t.mem = s.mem) (he : t.epoch = s.epoch) (hp : t.params = s.params) (f : Nat) :
    seektabEntry t f = seektabEntry s f := by simp [seektabEntry, readBytes_congr hm he, hp]

theorem length_leBytes (n : Nat) (v : Int) : (leBytes n v).length = n := by simp [leBytes]

end Sys2Proof.Machine
end

