-- ==== Sys2Proof/Laws/Seq.lean ====
section
/-! SUPPORT. How a sequencer computation runs: the equations of bind, pure, get, set, modify and throw, and of the interleaving
point where no host access lies before the next micro-operation. -/

namespace Sys2Proof.Machine

variable {α β : Type}

@[simp] theorem Seq.bind_run (x : Seq α) (f : α → Seq β) (s : State) :
    (x >>= f) s = match x s with | .ok a t => f a t | .error e t => .error e t := by
  show EStateM.bind x f s = _
  unfold EStateM.bind
  cases x s <;> rfl

@[simp] theorem Seq.pure_run (a : α) (s : State) : (pure a : Seq α) s = .ok a s := rfl

@[simp] theorem Seq.get_run (s : State) : (get : Seq State) s = .ok s s := rfl

@[simp] theorem Seq.set_run (t s : State) : (set t : Seq PUnit) s = .ok ⟨⟩ t := rfl

@[simp] theorem Seq.modify_run (f : State → State) (s : State) : (modify f : Seq PUnit) s = .ok ⟨⟩ (f s) := rfl

@[simp] theorem Seq.throw_run (e : Stop) (s : State) : (throw e : Seq α) s = .error e s := rfl

theorem Seq.bind_ok {x : Seq α} {f : α → Seq β} {s t : State} {a : α} (h : x s = .ok a t) : (x >>= f) s = f a t := by
  simp [h]

theorem Seq.bind_error {x : Seq α} {f : α → Seq β} {s t : State} {e : Stop} (h : x s = .error e t) :
    (x >>= f) s = .error e t := by simp [h]

theorem interleave_undisturbed {s : State} (h : Undisturbed s) : interleave s = .ok () s := by
  obtain h | h := h
  · simp [interleave, h]
  · unfold interleave
    split
    · rcases s with ⟨params, regs, latch, cfg, life, cur, frm, br, pred, ring, mem, src, host, op, uop, draws, epoch⟩
      rcases host with ⟨prog, log⟩
      rcases prog with _ | ⟨o, t⟩
      · rfl
      · cases o <;> first | rfl | simp [HostSide.quiet] at h
    · rfl

theorem call_undisturbed {m : Seq α} {s : State} (h : Undisturbed s) : call m s = m s := by
  simp [call, interleave_undisturbed h]

/-! ## What a computation may do -/

/-- From s, m yields a value and a state in Q, or stops in E. -/
def Sat (m : Seq α) (s : State) (Q : α → State → Prop) (E : Stop → State → Prop) : Prop :=
  match m s with
  | .ok a t => Q a t
  | .error e t => E e t

section
variable {m : Seq α} {f : α → Seq β} {s : State} {Q Q' : α → State → Prop} {E E' : Stop → State → Prop}

theorem Sat.bind {R : β → State → Prop} (h : Sat m s (fun a t => Sat (f a) t R E) E) : Sat (m >>= f) s R E := by
  simp only [Sat, Seq.bind_run] at h ⊢
  cases hm : m s <;> simpa [hm] using h

theorem Sat.mono (h : Sat m s Q E) (hq : ∀ a t, Q a t → Q' a t) (he : ∀ e t, E e t → E' e t) : Sat m s Q' E' := by
  simp only [Sat] at h ⊢
  cases hm : m s <;> simp only [hm] at h ⊢
  · exact hq _ _ h
  · exact he _ _ h

theorem Sat.pure {a : α} (h : Q a s) : Sat (pure a) s Q E := h

theorem Sat.modify {g : State → State} {Q : PUnit → State → Prop} (h : Q ⟨⟩ (g s)) : Sat (modify g) s Q E := h

theorem Sat.set {t : State} {Q : PUnit → State → Prop} (h : Q ⟨⟩ t) : Sat (set t) s Q E := h

theorem Sat.get {Q : State → State → Prop} (h : Q s s) : Sat get s Q E := h

theorem Sat.throw {e : Stop} (h : E e s) : Sat (throw e : Seq α) s Q E := h

theorem Sat.ok {a : α} {t : State} (h : Sat m s Q E) (hm : m s = .ok a t) : Q a t := by
  simpa [Sat, hm] using h

theorem Sat.error {e : Stop} {t : State} (h : Sat m s Q E) (hm : m s = .error e t) : E e t := by
  simpa [Sat, hm] using h

end

end Sys2Proof.Machine
end

