-- ==== Sys2Proof/Laws/Host.lean ====
section
/-! SUPPORT. Everything host accesses can do between the micro-operations of a running command: they change CTRL.IE, the W1C
bits, ARG0, ARG1 and the host's own side, or they reset the block. -/

namespace Sys2Proof.Machine

/-- t is s but for what the host may change while a command runs. -/
abbrev SameBlock (s t : State) : Prop :=
  t = { s with regs := { s.regs with ie := t.regs.ie, done := t.regs.done, overrun := t.regs.overrun, arg0 := t.regs.arg0,
                                     arg1 := t.regs.arg1 },
               host := t.host, draws := t.draws }

theorem SameBlock.refl (s : State) : SameBlock s s := rfl

theorem SameBlock.trans {s t u : State} (h : SameBlock s t) (k : SameBlock t u) : SameBlock s u := by
  rw [SameBlock] at h k ⊢; rw [k, h]

theorem SameBlock.busy {s t : State} (h : SameBlock s t) : t.regs.busy = s.regs.busy := by rw [h]

theorem sameBlock_hostRead (w : Width) (a : DWord) (s : State) : SameBlock s (hostRead w a s) := rfl

theorem sameBlock_withProg (l : List HostOp) (s : State) : SameBlock s (withProg l s) := rfl

/-- A store while BUSY = 1 that is no reset: DESC and SEEKTAB are protected and CMD only sets OVERRUN. -/
theorem sameBlock_writeReg {o : Nat} {v : Word} {s : State} (hb : s.regs.busy = true)
    (hr : ¬ (o = 4 ∧ v.getLsbD 1 = true)) : SameBlock s (writeReg o v s) := by
  unfold writeReg
  split
  · split
    · exact absurd ⟨rfl, by assumption⟩ hr
    · rfl
  all_goals first | rfl | skip
  split
  · rename_i h; simp [configWritable, hb] at h
  · rfl

theorem isSoftReset_iff (p : Params) (w : Width) (a v : DWord) :
    isSoftReset p w a v = true ↔ w = .b32 ∧ regionOf p a = .reg 4 ∧ (lo v).getLsbD 1 = true := by
  simp [isSoftReset, isRegWrite, and_assoc]

theorem sameBlock_hostWrite {w : Width} {a v : DWord} {s : State} (hb : s.regs.busy = true)
    (hr : isSoftReset s.params w a v = false) : SameBlock s (hostWrite w a v s) := by
  have hr' : ¬ (w = .b32 ∧ regionOf s.params a = .reg 4 ∧ (lo v).getLsbD 1 = true) := by
    rw [← isSoftReset_iff, hr]; simp
  unfold hostWrite
  split
  · rename_i o ho
    split
    · rename_i hal
      refine sameBlock_writeReg hb ?_
      rintro ⟨rfl, hv⟩
      simp only [aligned32, Bool.and_eq_true, decide_eq_true_eq] at hal
      exact hr' ⟨hal.1, ho, hv⟩
    · rfl
  · rw [if_neg (by simp [configWritable, hb])]
  · rfl
  · rfl

/-- A store that is a soft reset resets the block, whatever else it carries (10_state.md R35). -/
theorem hostWrite_softReset {w : Width} {a v : DWord} {s : State} (h : isSoftReset s.params w a v = true) :
    hostWrite w a v s = hwReset s := by
  obtain ⟨rfl, hreg, hv⟩ := (isSoftReset_iff _ _ _ _).1 h
  simp [hostWrite, hreg, aligned32, writeReg, hv]

/-- What the host's accesses before a micro-operation can do: leave the block's own state alone, or reset it. -/
theorem drain_cases (l : List HostOp) (s : State) (hb : s.regs.busy = true) :
    (∃ t, drain l s = .ok () t ∧ SameBlock s t) ∨
    (∃ u l', drain l s = .error .halted (withProg l' (hwReset u)) ∧ SameBlock s u) := by
  induction l generalizing s with
  | nil => exact .inl ⟨_, rfl, rfl⟩
  | cons o t ih =>
    cases o with
    | wait => exact .inl ⟨_, rfl, rfl⟩
    | letRun => exact .inl ⟨_, rfl, rfl⟩
    | rstN => exact .inr ⟨s, t, rfl, rfl⟩
    | rd w a =>
      have hs := sameBlock_hostRead w a s
      obtain ⟨u, hu, hsu⟩ | ⟨u, l', hu, hsu⟩ := ih (hostRead w a s) (by rw [hs.busy, hb])
      · exact .inl ⟨u, hu, hs.trans hsu⟩
      · exact .inr ⟨u, l', hu, hs.trans hsu⟩
    | wr w a v =>
      by_cases hr : isSoftReset s.params w a v = true
      · refine .inr ⟨s, t, ?_, rfl⟩
        simp [drain, hr, hostWrite_softReset hr]
      · have hr' : isSoftReset s.params w a v = false := by simpa using hr
        have hs := sameBlock_hostWrite (v := v) hb hr'
        have hd : drain (.wr w a v :: t) s = drain t (hostWrite w a v s) := by simp [drain, hr']
        obtain ⟨u, hu, hsu⟩ | ⟨u, l', hu, hsu⟩ := ih (hostWrite w a v s) (by rw [hs.busy, hb])
        · exact .inl ⟨u, hd.trans hu, hs.trans hsu⟩
        · exact .inr ⟨u, l', hd.trans hu, hs.trans hsu⟩

/-- What happens at an interleaving point. -/
theorem interleave_cases (s : State) :
    (∃ t, interleave s = .ok () t ∧ SameBlock s t) ∨
    (∃ u l', interleave s = .error .halted (withProg l' (hwReset u)) ∧ SameBlock s u) := by
  unfold interleave
  split
  · exact drain_cases _ s (by assumption)
  · exact .inl ⟨s, rfl, rfl⟩

end Sys2Proof.Machine
end

