-- ==== Sys2Proof/Laws/Frame.lean ====
section
/-! SUPPORT. Frames of sequencer computations. `Keeps e φ f m` says once everything m leaves alone in the environment e: whatever
the view f shows is unchanged when m yields a value or stops on an I/O failure; where the command is over, it was reset, or it
waits; and which of these ends the environment rules out. -/

namespace Sys2Proof.Machine

variable {α β γ : Type}

/-- What is assumed where a computation starts: the host does not disturb, the source replies, the source does not fail, the
session has had errors, and the log of requests to compare with. -/
structure Env where
  calm : Bool
  replies : Bool
  noFail : Bool
  errors : Bool := false
  log : Option (List (SrcReq × SrcAnswer)) := none

/-- Nothing is assumed. -/
def Env.free : Env := { calm := false, replies := false, noFail := false }

/-- An undisturbed command whose requests are all answered. -/
def Env.replied : Env := { calm := true, replies := true, noFail := false }

/-- An undisturbed command whose requests all succeed. -/
def Env.fed : Env := { calm := true, replies := true, noFail := true }

/-- hadErrors has been set, and stays (10_state.md R41). -/
def Env.stained (e : Env) : Env := { e with errors := true }

/-- The requests since the log was l are looked at. -/
def Env.since (e : Env) (l : List (SrcReq × SrcAnswer)) : Env := { e with log := some l }

/-- No request since the log was l was answered FAIL. -/
def Source.cleanSince (src : Source) (l : List (SrcReq × SrcAnswer)) : Prop :=
  ∃ new, src.log = new ++ l ∧ ∀ x ∈ new, x.2 ≠ .fail

/-- A request since the log was l was answered FAIL. -/
def Source.failedSince (src : Source) (l : List (SrcReq × SrcAnswer)) : Prop :=
  ∃ new, src.log = new ++ l ∧ ∃ x ∈ new, x.2 = .fail

/-- The assumptions hold of a state. -/
def Env.holds (e : Env) (s : State) : Prop :=
  (e.calm = true → Undisturbed s) ∧ (e.replies = true → s.src.repliesAll = true) ∧
    (e.noFail = true → s.src.neverFails = true) ∧ (e.errors = true → s.life.hadErrors = true) ∧
    ∀ l, e.log = some l → s.src.cleanSince l

/-- What is left of them where a request has failed. -/
def Env.failed (e : Env) (s : State) : Prop :=
  (e.calm = true → Undisturbed s) ∧ (e.replies = true → s.src.repliesAll = true) ∧
    (e.errors = true → s.life.hadErrors = true) ∧ ∀ l, e.log = some l → s.src.failedSince l

theorem Env.holds_free (s : State) : Env.free.holds s := ⟨nofun, nofun, nofun, nofun, nofun⟩

theorem Env.holds.stained {e : Env} {s : State} (h : e.holds s) (he : s.life.hadErrors = true) : e.stained.holds s :=
  ⟨h.1, h.2.1, h.2.2.1, fun _ => he, h.2.2.2.2⟩

theorem Source.cleanSince_refl (src : Source) : src.cleanSince src.log := ⟨[], rfl, nofun⟩

theorem Env.holds.since {e : Env} {s : State} (h : e.holds s) : (e.since s.src.log).holds s :=
  ⟨h.1, h.2.1, h.2.2.1, h.2.2.2.1, fun l hl => by cases hl; exact s.src.cleanSince_refl⟩

/-- A frame error is recorded (45_frame_sequencer.md R355). -/
theorem Env.holds.setErrors {e : Env} {s : State} (h : e.holds s) : e.holds { s with life.hadErrors := true } :=
  ⟨h.1, h.2.1, h.2.2.1, fun _ => rfl, h.2.2.2.2⟩

/-- How a command ends without a completion, in a state whose view is that of s: it was reset, or its request is unanswered. -/
def HaltedFrom (e : Env) (f : State → γ) (s t : State) : Prop :=
  (e.calm = false ∧ ∃ u l, f u = f s ∧ t = withProg l (hwReset u)) ∨
  (e.replies = false ∧ f t = f s ∧ t.src.outstanding.isSome = true)

/-- What m may leave where it stops; φ is assumed of a fault. -/
def StopsFrom (e : Env) (φ : Prop) (f : State → γ) (s : State) (st : Stop) (t : State) : Prop :=
  match st with
  | .ioFailure => e.noFail = false ∧ f t = f s ∧ e.failed t
  | .halted => HaltedFrom e f s t
  | .fault _ => φ

/-- m leaves the view f alone. -/
def Keeps (e : Env) (φ : Prop) (f : State → γ) (m : Seq α) : Prop :=
  ∀ s, e.holds s → Sat m s (fun _ t => f t = f s ∧ e.holds t) (StopsFrom e φ f s)

/-- Host accesses to a running command leave the view alone, where the environment allows them. -/
def HostFree (e : Env) (f : State → γ) : Prop := ∀ s t, e.calm = false → SameBlock s t → f t = f s

theorem StopsFrom.trans {e : Env} {φ : Prop} {f : State → γ} {s t u : State} {st : Stop} (h : f t = f s)
    (k : StopsFrom e φ f t st u) : StopsFrom e φ f s st u := by
  cases st with
  | ioFailure => exact ⟨k.1, k.2.1.trans h, k.2.2⟩
  | fault => exact k
  | halted =>
    obtain ⟨hc, v, l, hv, rfl⟩ | ⟨hr, hu, ho⟩ := k
    · exact .inl ⟨hc, v, l, hv.trans h, rfl⟩
    · exact .inr ⟨hr, hu.trans h, ho⟩

section
variable {e : Env} {φ : Prop} {f : State → γ} {m : Seq α} {k : α → Seq β}

theorem Keeps.bind (hm : Keeps e φ f m) (hk : ∀ a, Keeps e φ f (k a)) : Keeps e φ f (m >>= k) := fun s hs =>
  Sat.bind <| (hm s hs).mono
    (fun a t ht => (hk a t ht.2).mono (fun _ _ hu => ⟨hu.1.trans ht.1, hu.2⟩) (fun _ _ hu => hu.trans ht.1))
    (fun _ _ h => h)

theorem Keeps.pure (a : α) : Keeps e φ f (pure a) := fun _ hs => Sat.pure ⟨rfl, hs⟩

/-- An update whose effects neither the view nor the environment shows. -/
theorem Keeps.update {g : State → State} (h : ∀ s, f (g s) = f s)
    (he : ∀ s, ((g s).regs.busy, (g s).host, (g s).src, (g s).life) = (s.regs.busy, s.host, s.src, s.life)) :
    Keeps e φ f (modify g : Seq PUnit) := fun s hs => Sat.modify ⟨h s, by
      have h := he s
      simp only [Prod.mk.injEq] at h
      simpa [Env.holds, Undisturbed, h.1, h.2.1, h.2.2.1, h.2.2.2] using hs⟩

/-- A computation that reads the state first: what follows is judged at that state. -/
theorem Keeps.get {k : State → Seq α}
    (h : ∀ s, e.holds s → Sat (k s) s (fun _ t => f t = f s ∧ e.holds t) (StopsFrom e φ f s)) :
    Keeps e φ f (get >>= k) := fun s hs => Sat.bind (Sat.get (h s hs))

/-- What keeps the view from every state keeps it from this one. -/
theorem Keeps.here {s : State} (hs : e.holds s) (h : Keeps e φ f m) :
    Sat m s (fun _ t => f t = f s ∧ e.holds t) (StopsFrom e φ f s) := h s hs

theorem Keeps.ite {p : Prop} [Decidable p] {m n : Seq α} (hm : Keeps e φ f m) (hn : Keeps e φ f n) :
    Keeps e φ f (if p then m else n) := by
  split <;> assumption

theorem Keeps.interleave (hf : HostFree e f) : Keeps e φ f interleave := fun s hs => by
  cases hc : e.calm with
  | true =>
    rw [Sat, interleave_undisturbed (hs.1 hc)]
    exact ⟨rfl, hs⟩
  | false =>
    obtain ⟨t, ht, hst⟩ | ⟨u, l, hu, hst⟩ := interleave_cases s
    · simp only [Sat, ht]
      refine ⟨hf s t hc hst, ?_⟩
      have hsrc : t.src = s.src := by rw [hst]
      have hlife : t.life = s.life := by rw [hst]
      exact ⟨by simp [hc], by rw [hsrc]; exact hs.2.1, by rw [hsrc]; exact hs.2.2.1, by rw [hlife]; exact hs.2.2.2.1,
        by rw [hsrc]; exact hs.2.2.2.2⟩
    · simp only [Sat, hu]; exact .inl ⟨hc, u, l, hf s u hc hst, rfl⟩

theorem Keeps.call (hf : HostFree e f) (hm : Keeps e φ f m) : Keeps e φ f (call m) :=
  Keeps.bind (Keeps.interleave hf) fun _ => hm

theorem Keeps.forEach (hf : HostFree e f) {m : Nat → Seq Unit} (hm : ∀ c, Keeps e φ f (m c)) (l : List Nat) :
    Keeps e φ f (forEach m l) := by
  induction l with
  | nil => exact Keeps.pure _
  | cons c cs ih => exact Keeps.bind (Keeps.call hf (hm c)) fun _ => ih

theorem nextAnswer_replies {src : Source} (h : src.repliesAll = true) : nextAnswer src ≠ .never := by
  simp only [Source.repliesAll, Bool.and_eq_true, List.all_eq_true, decide_eq_true_eq] at h
  unfold nextAnswer
  cases ha : src.answers with
  | nil => exact h.2
  | cons a l => exact h.1 a (by simp [ha])

theorem nextAnswer_neverFails {src : Source} (h : src.neverFails = true) : nextAnswer src ≠ .fail := by
  simp only [Source.neverFails, Bool.and_eq_true, List.all_eq_true, decide_eq_true_eq] at h
  unfold nextAnswer
  cases ha : src.answers with
  | nil => exact h.2
  | cons a l => exact h.1 a (by simp [ha])

theorem repliesAll_afterRequest {src : Source} (req : SrcReq) (h : src.repliesAll = true) :
    (src.afterRequest req).repliesAll = true := by
  simp only [Source.repliesAll, Source.afterRequest, Bool.and_eq_true, List.all_eq_true] at h ⊢
  exact ⟨fun x hx => h.1 x (List.mem_of_mem_tail hx), h.2⟩

theorem neverFails_afterRequest {src : Source} (req : SrcReq) (h : src.neverFails = true) :
    (src.afterRequest req).neverFails = true := by
  simp only [Source.neverFails, Source.afterRequest, Bool.and_eq_true, List.all_eq_true] at h ⊢
  exact ⟨fun x hx => h.1 x (List.mem_of_mem_tail hx), h.2⟩

/-- A request that does not fail uses up one draw, and leaves the assumptions. -/
theorem holds_afterRequest {s : State} (req : SrcReq) (hs : e.holds s) (hn : nextAnswer s.src ≠ .fail) :
    e.holds { s with src := s.src.afterRequest req } := by
  refine ⟨hs.1, fun h => repliesAll_afterRequest req (hs.2.1 h), fun h => neverFails_afterRequest req (hs.2.2.1 h), hs.2.2.2.1,
    fun l hl => ?_⟩
  obtain ⟨new, hlog, hnew⟩ := hs.2.2.2.2 l hl
  refine ⟨(req, nextAnswer s.src) :: new, by simp [Source.afterRequest, hlog], fun x hx => ?_⟩
  obtain rfl | hx := List.mem_cons.1 hx
  · exact hn
  · exact hnew x hx

/-- A request that fails is logged. -/
theorem failed_afterRequest {s : State} (req : SrcReq) (hs : e.holds s) (hn : nextAnswer s.src = .fail) :
    e.failed { s with src := s.src.afterRequest req } := by
  refine ⟨hs.1, fun h => repliesAll_afterRequest req (hs.2.1 h), hs.2.2.2.1, fun l hl => ?_⟩
  obtain ⟨new, hlog, _⟩ := hs.2.2.2.2 l hl
  exact ⟨(req, nextAnswer s.src) :: new, by simp [Source.afterRequest, hlog], _, List.mem_cons_self, hn⟩

/-- One request leaves every view alone that does not show the source's progress. -/
theorem Keeps.request (req : SrcReq)
    (h : ∀ s src, src.bytes = s.src.bytes → src.rest = s.src.rest → f { s with src := src } = f s) :
    Keeps e φ f (request req) := fun s hs => by
  unfold Sys2Proof.Machine.request
  refine Sat.bind (Sat.get ?_)
  dsimp only
  split
  · rename_i hn
    refine Sat.bind (Sat.set (Sat.throw ⟨?_, h s _ rfl rfl, failed_afterRequest req hs hn⟩))
    cases hb : e.noFail with
    | false => rfl
    | true => exact absurd hn (nextAnswer_neverFails (hs.2.2.1 hb))
  · rename_i hn
    refine Sat.bind (Sat.set (Sat.throw (.inr ⟨?_, h s _ rfl rfl, rfl⟩)))
    cases hb : e.replies with
    | false => rfl
    | true => exact absurd hn (nextAnswer_replies (hs.2.1 hb))
  · rename_i hn
    exact Sat.bind (Sat.set (Sat.pure ⟨h s _ rfl rfl, holds_afterRequest req hs (by simp [hn])⟩))
  · rename_i hn
    exact Sat.bind (Sat.set (Sat.pure ⟨h s _ rfl rfl, holds_afterRequest req hs (by simp [hn])⟩))

/-- A coarser view is kept where a finer one is. -/
theorem Keeps.coarser {δ : Type} (g : γ → δ) (h : Keeps e φ f m) : Keeps e φ (fun s => g (f s)) m := fun s hs =>
  (h s hs).mono (fun _ _ ht => ⟨congrArg g ht.1, ht.2⟩) (fun st t ht => by
    cases st with
    | ioFailure => exact ⟨ht.1, congrArg g ht.2.1, ht.2.2⟩
    | fault => exact ht
    | halted =>
      obtain ⟨hc, u, l, hu, rfl⟩ | ⟨hr, hu, ho⟩ := ht
      · exact .inl ⟨hc, u, l, congrArg g hu, rfl⟩
      · exact .inr ⟨hr, congrArg g hu, ho⟩)

end

/-! ## Views -/

/-- What the host may change while a command runs, blanked unless the host is calm. -/
def hostBlank (e : Env) (s : State) : State :=
  { s with regs := { s.regs with ie := e.calm && s.regs.ie, done := e.calm && s.regs.done,
                                 overrun := e.calm && s.regs.overrun, arg0 := if e.calm then s.regs.arg0 else 0,
                                 arg1 := if e.calm then s.regs.arg1 else 0 },
           host := if e.calm then s.host else { prog := [], log := [] }, draws := if e.calm then s.draws else 0 }

/-- The block without the byte source's progress, the BitReader and what the host may change: what reading bits keeps. -/
def readsView (e : Env) (s : State) : State :=
  { hostBlank e s with src := { s.src with pos := 0, answers := [], outstanding := none, log := [] }, br := default }

/-- Forgets the predictors, but for their number, and the frame's header, error and checksum. -/
def forgetBlock (s : State) : State :=
  { s with frm := { s.frm with frameErr := false, storedCk := 0, silent := false, runCk := 0 },
           pred := List.replicate s.pred.length [] }

/-- And without the predictors and the frame's header, error and checksum: what decoding a block's bytes keeps. -/
def blockView (e : Env) (s : State) : State := forgetBlock (readsView e s)

/-- Forgets the frame state. -/
def forgetFrame (s : State) : State := { s with frm := default }

/-- And without the in-frame cursor: what starting a frame keeps. -/
def frameView (e : Env) (s : State) : State := forgetFrame (blockView e s)

/-- Forgets hadErrors. -/
def forgetErrors (s : State) : State := { s with life := { s.life with hadErrors := false } }

/-- And without hadErrors: what replaying frames keeps. -/
def replayView (e : Env) (s : State) : State := forgetErrors (frameView e s)

/-- Forgets the ring's blocks. -/
def forgetData (s : State) : State := { s with ring := { s.ring with data := [] } }

/-- And without the ring's blocks: what a frame's end keeps. -/
def endView (e : Env) (s : State) : State := forgetData (replayView e s)

/-- Forgets the ring's contents. -/
def forgetRing (s : State) : State := { s with ring := { s.ring with rd := 0, wr := 0, count := 0, data := [] } }

/-- And without the ring's contents: what decoding frames keeps. -/
def decodeView (e : Env) (s : State) : State := forgetRing (endView e s)

/-- Forgets the persistent cursor. -/
def forgetCursor (s : State) : State :=
  { s with cur := { s.cur with curBlock := 0, nextFrame := 0, skipBlocks := 0, resyncPending := false } }

/-- And without the cursor: what positioning keeps. -/
def positionView (e : Env) (s : State) : State := forgetCursor (decodeView e s)

variable {e : Env} {φ : Prop}

theorem hostFree_hostBlank : HostFree e (hostBlank e) := fun s t hc h => by
  rw [h]; simp [hostBlank, hc]

theorem hostFree_readsView : HostFree e (readsView e) := fun s t hc h => by
  rw [h]; simp [readsView, hostBlank, hc]

theorem hostFree_blockView : HostFree e (blockView e) := fun s t hc h => congrArg forgetBlock (hostFree_readsView s t hc h)

theorem hostFree_frameView : HostFree e (frameView e) := fun s t hc h => congrArg forgetFrame (hostFree_blockView s t hc h)

theorem hostFree_replayView : HostFree e (replayView e) := fun s t hc h => congrArg forgetErrors (hostFree_frameView s t hc h)

theorem hostFree_endView : HostFree e (endView e) := fun s t hc h => congrArg forgetData (hostFree_replayView s t hc h)

theorem hostFree_decodeView : HostFree e (decodeView e) := fun s t hc h => congrArg forgetRing (hostFree_endView s t hc h)

theorem hostFree_positionView : HostFree e (positionView e) := fun s t hc h =>
  congrArg forgetCursor (hostFree_decodeView s t hc h)

theorem readsView_src (s : State) (src : Source) (hb : src.bytes = s.src.bytes) (hr : src.rest = s.src.rest) :
    readsView e { s with src := src } = readsView e s := by
  simp [readsView, hostBlank, hb, hr]

theorem Keeps.toBlock {m : Seq α} (h : Keeps e φ (readsView e) m) : Keeps e φ (blockView e) m := h.coarser forgetBlock

theorem Keeps.toFrame {m : Seq α} (h : Keeps e φ (blockView e) m) : Keeps e φ (frameView e) m := h.coarser forgetFrame

theorem Keeps.toReplay {m : Seq α} (h : Keeps e φ (frameView e) m) : Keeps e φ (replayView e) m := h.coarser forgetErrors

theorem Keeps.toEnd {m : Seq α} (h : Keeps e φ (replayView e) m) : Keeps e φ (endView e) m := h.coarser forgetData

theorem Keeps.toDecode {m : Seq α} (h : Keeps e φ (endView e) m) : Keeps e φ (decodeView e) m := h.coarser forgetRing

theorem Keeps.toPosition {m : Seq α} (h : Keeps e φ (decodeView e) m) : Keeps e φ (positionView e) m :=
  h.coarser forgetCursor

end Sys2Proof.Machine
end

