-- ==== Sys2Proof/Laws/Ring.lean ====
section
/-! SUPPORT. What the ring's copies and overwrites do, said once (44_framebuffer.md R322, R324, R326). -/

namespace Sys2Proof.Machine

theorem length_ringSlot (s : State) (slot : Nat) : (ringSlot s slot).length = s.cfg.BA := by simp [ringSlot]

/-- A slot that holds a block of BA bytes reads as that block. -/
theorem ringSlot_of_find {s : State} {slot : Nat} {blk : List Byte} (h : findKey slot s.ring.data = some blk)
    (hl : blk.length = s.cfg.BA) : ringSlot s slot = blk := by
  refine List.ext_getElem (by simp [ringSlot, hl]) fun i h1 h2 => ?_
  simp [ringSlot, h, List.getElem?_eq_getElem h2]

/-- A slot's bytes depend on the ring, the block size and the epoch alone. -/
theorem ringSlot_congr {s t : State} (hr : t.ring.data = s.ring.data) (hc : t.cfg.BA = s.cfg.BA) (he : t.epoch = s.epoch)
    (slot : Nat) : ringSlot t slot = ringSlot s slot := by simp [ringSlot, hr, hc, he]

/-! ## The copies of U_RING_READ -/

theorem writeOut_eq (j : Nat) (bs : List Byte) (s : State) : writeOut j bs s = { s with mem := (writeOut j bs s).mem } :=
  writeBytes_eq _ _ _

/-- A store to OUT changes the bytes it covers, as far as OUT reaches, and no other. -/
theorem readByte_writeOut (j a : Nat) (bs : List Byte) (s : State) :
    readByte (writeOut j bs s) a =
      if outBase + j ≤ a ∧ a < outBase + j + bs.length ∧ a < outBase + s.params.outbufBytes then bs.getD (a - (outBase + j)) 0
      else readByte s a := by
  rw [writeOut, readByte_writeBytes, List.length_take]
  by_cases h : outBase + j ≤ a ∧ a < outBase + j + bs.length ∧ a < outBase + s.params.outbufBytes
  · rw [if_pos (by omega), if_pos h]
    simp only [List.getD_eq_getElem?_getD, List.getElem?_take]
    rw [if_pos (by omega)]
  · rw [if_neg (by omega), if_neg h]

/-- Copying blocks changes memory alone. -/
theorem copyBlocks_eq (dst : Nat) (l : List Nat) (s : State) :
    copyBlocks dst l s = { s with mem := (copyBlocks dst l s).mem } := by
  induction l generalizing s with
  | nil => rfl
  | cons i is ih => rw [copyBlocks, ih, writeOut_eq]

theorem copyBlocks_append (dst : Nat) (l k : List Nat) (s : State) :
    copyBlocks dst (l ++ k) s = copyBlocks dst k (copyBlocks dst l s) := by
  induction l generalizing s with
  | nil => rfl
  | cons i is ih => exact ih _

theorem wf_copyBlocks (dst : Nat) (l : List Nat) (s : State) (h : Memory.wf s.mem = true) :
    Memory.wf (copyBlocks dst l s).mem = true := by
  induction l generalizing s with
  | nil => exact h
  | cons i is ih => exact ih _ (wf_writeBytes _ _ _ h)

/-- After m blocks have been copied to OUT + dst, each byte of them that lies in OUT is the slot's, and every other byte is as
before. -/
theorem readByte_copyBlocks (dst m a : Nat) (s : State) :
    readByte (copyBlocks dst (List.range m) s) a =
      if outBase + dst ≤ a ∧ a < outBase + dst + m * s.cfg.BA ∧ a < outBase + s.params.outbufBytes then
        (ringSlot s (readSlot s.ring ((a - (outBase + dst)) / s.cfg.BA))).getD ((a - (outBase + dst)) % s.cfg.BA) 0
      else readByte s a := by
  induction m with
  | zero => rw [if_neg (by omega)]; rfl
  | succ m ih =>
    rw [List.range_succ, copyBlocks_append, copyBlocks, copyBlocks, readByte_writeOut]
    have heq := copyBlocks_eq dst (List.range m) s
    have hp : (copyBlocks dst (List.range m) s).params = s.params := by rw [heq]
    have hc : (copyBlocks dst (List.range m) s).cfg = s.cfg := by rw [heq]
    have hr : (copyBlocks dst (List.range m) s).ring = s.ring := by rw [heq]
    have he : (copyBlocks dst (List.range m) s).epoch = s.epoch := by rw [heq]
    rw [ringSlot_congr (congrArg Ring.data hr) (congrArg SessionCfg.BA hc) he, length_ringSlot, hc, hr, hp, ih, Nat.succ_mul]
    generalize hx : m * s.cfg.BA = x
    rw [show outBase + (dst + x) = outBase + dst + x by omega]
    by_cases h1 : outBase + dst + x ≤ a ∧ a < outBase + dst + x + s.cfg.BA ∧ a < outBase + s.params.outbufBytes
    · rw [if_pos h1, if_pos (by omega)]
      have hpos : 0 < s.cfg.BA := by omega
      have : a - (outBase + dst) = s.cfg.BA * m + (a - (outBase + dst + x)) := by rw [Nat.mul_comm]; omega
      rw [this, Nat.mul_add_div hpos, Nat.mul_add_mod, Nat.div_eq_of_lt (by omega), Nat.mod_eq_of_lt (by omega), Nat.add_zero]
    · rw [if_neg h1]
      by_cases h2 : outBase + dst ≤ a ∧ a < outBase + dst + x ∧ a < outBase + s.params.outbufBytes
      · rw [if_pos h2, if_pos (by omega)]
      · rw [if_neg h2, if_neg (by omega)]

/-! ## U_RING_DROP -/

theorem dropBlocks_of_le {n : Nat} {s : State} (h : n ≤ s.ring.count) : dropBlocks n s = advanceRead n s := if_pos h

/-- Dropping blocks moves rd and count alone, and count stays within the capacity. -/
theorem dropBlocks_eq (n : Nat) (s : State) : ∃ c, dropBlocks n s =
    { s with ring := { s.ring with rd := (s.ring.rd + n) % s.ring.cap, count := c } } ∧
    (s.ring.count ≤ s.ring.cap → c ≤ s.ring.cap) ∧ (n ≤ s.ring.count → c = s.ring.count - n) := by
  unfold dropBlocks
  split
  · exact ⟨_, rfl, fun _ => by omega, fun _ => rfl⟩
  · exact ⟨_, rfl, fun _ => Nat.le_of_lt_succ (Nat.mod_lt _ (Nat.succ_pos _)), fun _ => by omega⟩

/-! ## The overwrites of U_RING_SILENCE_TAIL -/

/-- Silencing slots changes ring.data alone. -/
theorem silenceSlots_eq (l : List Nat) (s : State) :
    silenceSlots l s = { s with ring.data := (silenceSlots l s).ring.data } := by
  induction l generalizing s with
  | nil => rfl
  | cons i is ih => rw [silenceSlots, ih]; rfl

/-- Each silenced slot holds the silence block, and every other slot what it held. -/
theorem findKey_silenceSlots (l : List Nat) (k : Nat) (s : State) :
    findKey k (silenceSlots l s).ring.data =
      if k ∈ l.map (tailSlot s.ring) then some (silenceBlock s.cfg) else findKey k s.ring.data := by
  induction l generalizing s with
  | nil => simp [silenceSlots]
  | cons i is ih =>
    rw [silenceSlots, ih]
    have ht : tailSlot (setSlot (tailSlot s.ring i) (silenceBlock s.cfg) s).ring = tailSlot s.ring := rfl
    have hc : (setSlot (tailSlot s.ring i) (silenceBlock s.cfg) s).cfg = s.cfg := rfl
    have hd : (setSlot (tailSlot s.ring i) (silenceBlock s.cfg) s).ring.data =
      insertKey (tailSlot s.ring i) (silenceBlock s.cfg) s.ring.data := rfl
    rw [ht, hc, hd, findKey_insertKey]
    by_cases h1 : k ∈ is.map (tailSlot s.ring)
    · rw [if_pos h1, if_pos (by simp only [List.map_cons, List.mem_cons]; exact .inr h1)]
    · by_cases h2 : tailSlot s.ring i = k
      · rw [if_neg h1, if_pos h2, if_pos (by simp [h2])]
      · rw [if_neg h1, if_neg h2, if_neg (by simp only [List.map_cons, List.mem_cons, not_or]; exact ⟨fun h => h2 h.symm, h1⟩)]

end Sys2Proof.Machine
end

