-- ==== Sys2Proof/Laws/Keeps.lean ====
section
/-! SUPPORT. One frame lemma per micro-operation and procedure: what it leaves alone, said once. -/

namespace Sys2Proof.Machine

variable {e : Env} {φ : Prop}

/-! ## The byte source and the BitReader leave everything but themselves alone -/

theorem keeps_uSrcSeek (off : Nat) : Keeps e φ (readsView e) (uSrcSeek off) :=
  Keeps.bind (Keeps.request _ readsView_src) fun _ => fun _ hs => Sat.modify ⟨rfl, hs⟩

theorem keeps_uSrcRead (max : Nat) : Keeps e φ (readsView e) (uSrcRead max) :=
  Keeps.bind (Keeps.request _ readsView_src) fun _ => Keeps.get fun _ hs => Sat.bind (Sat.set (Sat.pure ⟨rfl, hs⟩))

theorem keeps_uSrcSize : Keeps e φ (readsView e) uSrcSize :=
  Keeps.bind (Keeps.request _ readsView_src) fun _ => Keeps.get fun _ hs => Sat.pure ⟨rfl, hs⟩

theorem keeps_uBrReset (start len : Nat) : Keeps e φ (readsView e) (uBrReset start len) :=
  Keeps.update (fun _ => rfl) fun _ => rfl

theorem keeps_uBrFetch : Keeps e φ (readsView e) uBrFetch := Keeps.get fun s hs => by
  refine Keeps.here hs (Keeps.bind (Keeps.call hostFree_readsView (keeps_uSrcRead _)) fun bs => ?_)
  exact Keeps.ite (Keeps.pure _) (Keeps.bind (Keeps.update (fun _ => rfl) fun _ => rfl) fun _ => Keeps.pure _)

theorem keeps_fetchUntil (n : Nat) : Keeps e φ (readsView e) (fetchUntil n) := by
  induction n with
  | zero => exact Keeps.pure _
  | succ n ih =>
    refine Keeps.get fun s hs => ?_
    refine Keeps.here hs (Keeps.ite (Keeps.bind (Keeps.call hostFree_readsView keeps_uBrFetch) fun r => ?_) (Keeps.pure _))
    cases r with
    | error er => exact Keeps.pure _
    | ok _ => exact ih

theorem keeps_uBrReadbit : Keeps e φ (readsView e) uBrReadbit := Keeps.get fun s hs => by
  refine Keeps.here hs (Keeps.ite (Keeps.pure _) (Keeps.bind (keeps_fetchUntil _) fun r => ?_))
  cases r with
  | error er => exact Keeps.pure _
  | ok _ =>
    refine Keeps.get fun t ht => ?_
    split
    · exact Sat.pure ⟨rfl, ht⟩
    · exact Sat.bind (Sat.set (Sat.pure ⟨rfl, ht⟩))

theorem keeps_readBitsFrom (n v : Nat) : Keeps e φ (readsView e) (readBitsFrom n v) := by
  induction n generalizing v with
  | zero => exact Keeps.pure _
  | succ n ih =>
    refine Keeps.bind (Keeps.call hostFree_readsView keeps_uBrReadbit) fun r => ?_
    cases r with
    | error er => exact Keeps.pure _
    | ok b => exact ih _

theorem keeps_uBrReadbits (n : Nat) : Keeps e φ (readsView e) (uBrReadbits n) := keeps_readBitsFrom n 0

theorem keeps_runWire {α : Type} (w : WireProg α) : Keeps e φ (readsView e) (runWire w) := by
  induction w with
  | ret a => exact Keeps.pure _
  | fail e => exact Keeps.pure _
  | bit k ih => rw [runWire]; exact Keeps.bind (Keeps.call hostFree_readsView keeps_uBrReadbit) fun r => ih _
  | bits n k ih => rw [runWire]; exact Keeps.bind (Keeps.call hostFree_readsView (keeps_uBrReadbits n)) fun r => ih _

/-! ## The bytes of a block change the predictors, the header, the frame error and the checksum -/

theorem keeps_uBrHeader : Keeps e φ (blockView e) uBrHeader := Keeps.get fun s hs => by
  refine Keeps.here hs (Keeps.bind (keeps_runWire _).toBlock fun h => ?_)
  cases h <;> exact Keeps.update (fun _ => rfl) fun _ => rfl

theorem keeps_uBrSymbol : Keeps e φ (blockView e) uBrSymbol := Keeps.get fun s hs => by
  refine Keeps.here hs (Keeps.bind (keeps_runWire _).toBlock fun r => ?_)
  cases r <;> exact Keeps.bind (Keeps.update (fun _ => rfl) fun _ => rfl) fun _ => Keeps.pure _

theorem keeps_uPredReset (c : Nat) : Keeps e φ (blockView e) (uPredReset c) :=
  Keeps.update (fun s => by simp [blockView, forgetBlock, readsView, hostBlank]) fun _ => rfl

theorem keeps_uStageStep (c k : Nat) (x : Int) : Keeps e φ (blockView e) (uStageStep c k x) := Keeps.get fun s hs => by
  split
  · exact Sat.bind (Sat.set (Sat.pure ⟨by simp [setPredStage, blockView, forgetBlock, readsView, hostBlank], hs⟩))
  · exact Sat.pure ⟨rfl, hs⟩

theorem keeps_cascade (c : Nat) (l : List Nat) (v : Int) : Keeps e φ (blockView e) (cascade c l v) := by
  induction l generalizing v with
  | nil => exact Keeps.pure _
  | cons k ks ih =>
    exact Keeps.bind (Keeps.call hostFree_blockView (keeps_uStageStep c k v)) fun y => ih y

theorem keeps_uPredStep (c : Nat) (x : Int) : Keeps e φ (blockView e) (uPredStep c x) := Keeps.get fun _ hs =>
  keeps_cascade c _ x _ hs

theorem keeps_uUnprepare (vals : List Int) : Keeps e φ (blockView e) (uUnprepare vals) :=
  Keeps.get fun _ hs => Sat.pure ⟨rfl, hs⟩

theorem keeps_uPack (v : Int) (bps : Nat) : Keeps e φ (blockView e) (uPack v bps) := Keeps.pure _

theorem keeps_uSilence : Keeps e φ (blockView e) uSilence := Keeps.get fun _ hs => Sat.pure ⟨rfl, hs⟩

theorem keeps_uCkUpdate (blk : List Byte) : Keeps e φ (blockView e) (uCkUpdate blk) :=
  Keeps.update (fun _ => rfl) fun _ => rfl

theorem keeps_packAll (vs : List Int) : Keeps e φ (blockView e) (packAll vs) := by
  induction vs with
  | nil => exact Keeps.pure _
  | cons v vs ih =>
    refine Keeps.get fun s hs => ?_
    exact Keeps.here hs (Keeps.bind (Keeps.call hostFree_blockView (keeps_uPack v _)) fun b =>
      Keeps.bind ih fun bs => Keeps.pure _)

theorem keeps_finalize (vals : List Int) : Keeps e φ (blockView e) (finalize vals) :=
  Keeps.bind (Keeps.call hostFree_blockView (keeps_uUnprepare vals)) fun out => keeps_packAll out

theorem keeps_resetPredictors (g : Nat) : Keeps e φ (blockView e) (resetPredictors g) := Keeps.get fun _ hs =>
  Keeps.here hs (Keeps.ite (Keeps.forEach hostFree_blockView keeps_uPredReset _) (Keeps.pure _))

theorem keeps_decodeSymbols (n : Nat) : Keeps e φ (blockView e) (decodeSymbols n) := by
  induction n with
  | zero => exact Keeps.pure _
  | succ n ih =>
    refine Keeps.bind (Keeps.call hostFree_blockView keeps_uBrSymbol) fun r => ?_
    cases r with
    | none => exact Keeps.pure _
    | some x =>
      refine Keeps.bind ih fun xs => ?_
      cases xs <;> exact Keeps.pure _

theorem keeps_predictAll (c : Nat) (xs : List Int) : Keeps e φ (blockView e) (predictAll c xs) := by
  induction xs generalizing c with
  | nil => exact Keeps.pure _
  | cons x xs ih =>
    exact Keeps.bind (Keeps.call hostFree_blockView (keeps_uPredStep c x)) fun v =>
      Keeps.bind (ih (c + 1)) fun vs => Keeps.pure _

theorem keeps_silentBlock : Keeps e φ (blockView e) silentBlock := Keeps.call hostFree_blockView keeps_uSilence

theorem keeps_checked (blk : List Byte) : Keeps e φ (blockView e) (checked blk) :=
  Keeps.bind (Keeps.call hostFree_blockView (keeps_uCkUpdate blk)) fun _ => Keeps.pure _

theorem keeps_blockBytes : Keeps e φ (blockView e) blockBytes := Keeps.get fun s hs => by
  refine Keeps.here hs (Keeps.ite keeps_silentBlock (Keeps.ite (Keeps.bind keeps_silentBlock keeps_checked) ?_))
  refine Keeps.bind (keeps_decodeSymbols _) fun r => ?_
  cases r with
  | none => exact keeps_silentBlock
  | some xs => exact Keeps.bind (keeps_predictAll 0 xs) fun vals => Keeps.bind (keeps_finalize vals) keeps_checked

theorem keeps_verifyFrame : Keeps e φ (blockView e) verifyFrame := by
  refine Keeps.update (fun s => ?_) (fun s => ?_) <;> (dsimp only; split <;> rfl)

/-! ## A frame's start changes the in-frame cursor too -/

theorem keeps_uStartFrame (g : Nat) : Keeps e φ (frameView e) (uStartFrame g) := Keeps.get fun s hs => by
  refine Keeps.here hs (Keeps.bind (Keeps.call hostFree_frameView (keeps_uSrcSeek _).toBlock.toFrame) fun _ => ?_)
  refine Keeps.bind (Keeps.call hostFree_frameView (keeps_uBrReset _ _).toBlock.toFrame) fun _ => ?_
  refine Keeps.bind (keeps_resetPredictors g).toFrame fun _ => ?_
  refine Keeps.bind (Keeps.update (fun _ => rfl) fun _ => rfl) fun _ => ?_
  exact Keeps.call hostFree_frameView keeps_uBrHeader.toFrame

/-! ## Delivery and a frame's end change the ring and hadErrors too; only a write to a full ring is a fault -/

theorem keeps_uRingReset : Keeps e φ (decodeView e) uRingReset := Keeps.update (fun _ => rfl) fun _ => rfl

theorem keeps_uRingWrite (hφ : φ) (blk : List Byte) : Keeps e φ (decodeView e) (uRingWrite blk) := Keeps.get fun s hs => by
  split
  · exact Sat.throw hφ
  · exact Sat.set ⟨rfl, hs⟩

theorem keeps_uRingDrop (n : Nat) : Keeps e φ (decodeView e) (uRingDrop n) := by
  refine Keeps.update (fun s => ?_) (fun s => ?_) <;> obtain ⟨c, hd, -⟩ := dropBlocks_eq n s
  · rw [hd]; rfl
  · rw [hd]

theorem keeps_uRingSilenceTail (n : Nat) : Keeps e φ (endView e) (uRingSilenceTail n) := by
  refine Keeps.update (fun s => ?_) (fun s => ?_)
  · rw [silenceSlots_eq]; rfl
  · rw [silenceSlots_eq]

theorem keeps_deliver (hφ : φ) (m : Mode) (i : Nat) (blk : List Byte) : Keeps e φ (decodeView e) (deliver m i blk) :=
  Keeps.get fun s hs => by
    refine Keeps.here hs (Keeps.ite ?_ (Keeps.pure _))
    exact Keeps.bind (Keeps.call hostFree_decodeView (keeps_uRingWrite hφ blk)) fun _ =>
      Keeps.update (fun _ => rfl) fun _ => rfl

theorem keeps_uDecodeBlock (hφ : φ) (m : Mode) : Keeps e φ (decodeView e) (uDecodeBlock m) := Keeps.get fun s hs => by
  refine Keeps.here hs (Keeps.bind keeps_blockBytes.toFrame.toReplay.toEnd.toDecode fun blk => ?_)
  exact Keeps.bind (keeps_deliver hφ m _ blk) fun _ => Keeps.update (fun _ => rfl) fun _ => rfl

theorem keeps_settleFrame (m : Mode) : Keeps e φ (endView e) (settleFrame m) := Keeps.get fun s hs => by
  split
  · refine Sat.bind (Sat.set ?_)
    refine (Keeps.here (f := endView e) ?_ (Keeps.ite (Keeps.call hostFree_endView (keeps_uRingSilenceTail _))
      (Keeps.pure _))).mono (fun _ _ h => h) fun _ _ h => h
    exact hs.setErrors
  · exact Sat.pure ⟨rfl, hs⟩

theorem keeps_uEndFrame (m : Mode) : Keeps e φ (endView e) (uEndFrame m) :=
  Keeps.bind keeps_verifyFrame.toFrame.toReplay.toEnd fun _ => keeps_settleFrame m

theorem keeps_decodeBlocks (hφ : φ) (m : Mode) (n : Nat) : Keeps e φ (decodeView e) (decodeBlocks m n) := by
  induction n with
  | zero => exact Keeps.pure _
  | succ n ih => exact Keeps.bind (Keeps.call hostFree_decodeView (keeps_uDecodeBlock hφ m)) fun _ => ih

/-! ## In DISCARD mode the ring stays, and no write is made -/

theorem keeps_uDecodeBlock_discard : Keeps e φ (frameView e) (uDecodeBlock .discard) := Keeps.get fun s hs => by
  refine Keeps.here hs (Keeps.bind keeps_blockBytes.toFrame fun blk => ?_)
  refine Keeps.bind (Keeps.get fun t ht => ?_) fun _ => Keeps.update (fun _ => rfl) fun _ => rfl
  rw [if_neg (by simp)]
  exact Sat.pure ⟨rfl, ht⟩

theorem keeps_uEndFrame_discard : Keeps e φ (replayView e) (uEndFrame .discard) :=
  Keeps.bind keeps_verifyFrame.toFrame.toReplay fun _ => Keeps.get fun s hs => by
    split
    · exact Sat.bind (Sat.set (Sat.pure ⟨rfl, hs.setErrors⟩))
    · exact Sat.pure ⟨rfl, hs⟩

theorem keeps_decodeBlocks_discard (n : Nat) : Keeps e φ (frameView e) (decodeBlocks .discard n) := by
  induction n with
  | zero => exact Keeps.pure _
  | succ n ih => exact Keeps.bind (Keeps.call hostFree_frameView keeps_uDecodeBlock_discard) fun _ => ih

theorem keeps_pDecodeFrame_discard (g : Nat) : Keeps e φ (replayView e) (pDecodeFrame g .discard) := by
  refine Keeps.bind (Keeps.call hostFree_replayView (keeps_uStartFrame g).toReplay) fun _ =>
    Keeps.get fun s hs => Keeps.here hs ?_
  refine Keeps.bind (keeps_decodeBlocks_discard _).toReplay fun _ => ?_
  refine Keeps.bind (Keeps.call hostFree_replayView keeps_uEndFrame_discard) fun _ => ?_
  exact Keeps.update (fun _ => rfl) fun _ => rfl

theorem keeps_replay (g n : Nat) : Keeps e φ (replayView e) (replay g n) := by
  induction n generalizing g with
  | zero => exact Keeps.pure _
  | succ n ih => exact Keeps.bind (keeps_pDecodeFrame_discard g) fun _ => ih (g + 1)

/-! ## The procedures move the cursor too -/

theorem keeps_pDecodeFrame (hφ : φ) (g : Nat) (m : Mode) : Keeps e φ (positionView e) (pDecodeFrame g m) := by
  refine Keeps.bind (Keeps.call hostFree_positionView (keeps_uStartFrame g).toReplay.toEnd.toDecode.toPosition) fun _ =>
    Keeps.get fun s hs => Keeps.here hs ?_
  refine Keeps.bind (keeps_decodeBlocks hφ m _).toPosition fun _ => ?_
  refine Keeps.bind (Keeps.call hostFree_positionView (keeps_uEndFrame m).toDecode.toPosition) fun _ => ?_
  refine Keeps.update (fun s => ?_) (fun s => ?_) <;> (unfold nextCursor; split <;> rfl)

theorem keeps_pPosition (b : Nat) : Keeps e φ (positionView e) (pPosition b) := by
  refine Keeps.bind (Keeps.call hostFree_positionView keeps_uRingReset.toPosition) fun _ =>
    Keeps.get fun s hs => Keeps.here hs (Keeps.ite (Keeps.update (fun _ => rfl) fun _ => rfl) ?_)
  exact Keeps.bind (keeps_replay _ _).toEnd.toDecode.toPosition fun _ => Keeps.update (fun _ => rfl) fun _ => rfl

end Sys2Proof.Machine
end

