-- ==== Sys2Proof/Laws/Session.lean ====
section
/-! SUPPORT. What a delivered frame, a positioning and the loop of GETDATA do to the ring and the cursor: the counts of
45_frame_sequencer.md R357 and the invariants of 10_state.md R39 and R52. -/

namespace Sys2Proof.Machine

variable {α : Type} {e : Env} {φ : Prop}

/-- A micro-operation of a running command: what holds of m where the host has interfered as it may holds of the call. -/
theorem Sat.call {m : Seq α} {s : State} {Q : α → State → Prop} {E : Stop → State → Prop} (hs : e.holds s)
    (hm : ∀ t, hostBlank e t = hostBlank e s → e.holds t → Sat m t Q E)
    (hE : ∀ st t, StopsFrom e φ (hostBlank e) s st t → E st t) : Sat (call m) s Q E :=
  Sat.bind ((Keeps.interleave (φ := φ) hostFree_hostBlank s hs).mono (fun _ t ht => hm t ht.1 ht.2) hE)

/-- Stops in a finer view are stops in a coarser one. -/
theorem StopsFrom.coarser {γ δ : Type} {f : State → γ} (g : γ → δ) {s t : State} {st : Stop} (h : StopsFrom e φ f s st t) :
    StopsFrom e φ (fun s => g (f s)) s st t := by
  cases st with
  | ioFailure => exact ⟨h.1, congrArg g h.2.1, h.2.2⟩
  | fault => exact h
  | halted =>
    obtain ⟨hc, u, l, hu, rfl⟩ | ⟨hr, hu, ho⟩ := h
    · exact .inl ⟨hc, u, l, congrArg g hu, rfl⟩
    · exact .inr ⟨hr, congrArg g hu, ho⟩

/-- What the decode view forgets beyond the host's own. -/
def forgetToDecode (s : State) : State :=
  forgetRing (forgetData (forgetErrors (forgetFrame (forgetBlock
    { s with src := { s.src with pos := 0, answers := [], outstanding := none, log := [] }, br := default }))))

theorem decodeView_eq (s : State) : decodeView e s = forgetToDecode (hostBlank e s) := rfl

/-! ## A delivered frame -/

/-- i blocks of frame g have been decoded into a ring that was empty (45_frame_sequencer.md R357). -/
structure Delivering (g i : Nat) (s : State) : Prop where
  frame : s.frm.curFrame = g
  blk : s.frm.blkInFrame = i
  count : s.ring.count = min i (s.cfg.F - g * s.cfg.B) - s.cur.skipBlocks
  placed : s.frm.placed = s.ring.count
  wr : s.ring.wr = (s.ring.rd + s.ring.count) % s.ring.cap

/-- The number of deliverable blocks among the first i + 1 of a frame. -/
theorem delivered_succ {s : State} {g i : Nat} :
    min (i + 1) (s.cfg.F - g * s.cfg.B) - s.cur.skipBlocks =
      min i (s.cfg.F - g * s.cfg.B) - s.cur.skipBlocks + if deliverable s i (g * s.cfg.B + i) then 1 else 0 := by
  generalize hx : g * s.cfg.B = x
  simp only [deliverable, Bool.and_eq_true, decide_eq_true_eq]
  split <;> omega

theorem wrap_succ (rd count cap : Nat) : ((rd + count) % cap + 1) % cap = (rd + (count + 1)) % cap := by
  rw [Nat.mod_add_mod, Nat.add_assoc]

theorem sat_deliver {g i : Nat} {s : State} (blk : List Byte) (hs : e.holds s) (hd : Delivering g i s) (hroom : i < s.ring.cap) :
    Sat (deliver .deliver i blk) s
      (fun _ t => decodeView e t = decodeView e s ∧ e.holds t ∧ t.ring.rd = s.ring.rd ∧ t.frm.curFrame = g ∧
        t.ring.count = min (i + 1) (s.cfg.F - g * s.cfg.B) - s.cur.skipBlocks ∧ t.frm.placed = t.ring.count ∧
        t.ring.wr = (t.ring.rd + t.ring.count) % t.ring.cap)
      (StopsFrom e φ (decodeView e) s) := by
  refine Sat.bind (Sat.get ?_)
  rw [delivered_succ, ← hd.count]
  have hg := hd.frame
  simp only [true_and]
  rw [hg]
  split
  · refine Sat.bind (Sat.call (φ := φ) hs (fun t ht hte => ?_) fun st t h => h.coarser forgetToDecode)
    have hr : t.ring = s.ring := (congrArg State.ring ht :)
    have hf : t.frm = s.frm := (congrArg State.frm ht :)
    have hne : ¬ t.ring.count = t.ring.cap := by
      rw [hr, hd.count]; omega
    refine Sat.bind (Sat.get ?_)
    rw [if_neg hne]
    refine Sat.set (Sat.modify ⟨(congrArg forgetToDecode ht :), hte, ?_, ?_, ?_, ?_, ?_⟩)
    · exact (congrArg Ring.rd hr :)
    · exact ((congrArg Frame.curFrame hf).trans hg :)
    · exact (congrArg (fun r => r.count + 1) hr :)
    · show t.frm.placed + 1 = t.ring.count + 1
      rw [hf, hr, hd.placed]
    · show (t.ring.wr + 1) % t.ring.cap = (t.ring.rd + (t.ring.count + 1)) % t.ring.cap
      rw [hr, hd.wr, wrap_succ]
  · exact Sat.pure ⟨rfl, hs, rfl, hg, rfl, hd.placed, hd.wr⟩

/-- One block. -/
theorem sat_uDecodeBlock {g i : Nat} {s : State} (hs : e.holds s) (hd : Delivering g i s) (hroom : i < s.ring.cap) :
    Sat (uDecodeBlock .deliver) s
      (fun _ t => decodeView e t = decodeView e s ∧ e.holds t ∧ t.ring.rd = s.ring.rd ∧ Delivering g (i + 1) t)
      (StopsFrom e φ (decodeView e) s) := by
  refine Sat.bind (Sat.get (Sat.bind ((keeps_blockBytes s hs).mono (fun blk t ht => ?_) fun st t h =>
    h.coarser fun s => forgetRing (forgetData (forgetErrors (forgetFrame s))))))
  have hr : t.ring = s.ring := (congrArg State.ring ht.1 :)
  have hc : t.cfg = s.cfg := (congrArg State.cfg ht.1 :)
  have hu : t.cur = s.cur := (congrArg State.cur ht.1 :)
  have hdv : decodeView e t = decodeView e s := (congrArg (fun s => forgetRing (forgetData (forgetErrors (forgetFrame s)))) ht.1 :)
  have hf : t.frm.curFrame = s.frm.curFrame := (congrArg (fun s => s.frm.curFrame) ht.1 :)
  have hb : t.frm.blkInFrame = s.frm.blkInFrame := (congrArg (fun s => s.frm.blkInFrame) ht.1 :)
  have hp : t.frm.placed = s.frm.placed := (congrArg (fun s => s.frm.placed) ht.1 :)
  have hd' : Delivering g i t := by
    constructor
    · rw [hf, hd.frame]
    · rw [hb, hd.blk]
    · rw [hr, hc, hu, hd.count]
    · rw [hp, hr, hd.placed]
    · rw [hr, hd.wr]
  rw [hd.blk]
  refine Sat.bind ((sat_deliver (φ := φ) blk ht.2 hd' (by rw [hr]; exact hroom)).mono (fun _ u hu' => ?_) fun st u h => h.trans hdv)
  obtain ⟨hv, hh, hrd, hfr, hcnt, hpl, hwr⟩ := hu'
  refine Sat.modify ⟨hv.trans hdv, hh, hrd.trans (congrArg Ring.rd hr), ?_⟩
  have hc' : u.cfg = t.cfg := (congrArg State.cfg hv :)
  have hu' : u.cur = t.cur := (congrArg State.cur hv :)
  exact ⟨hfr, rfl, by show u.ring.count = _ ; rw [hcnt]; show _ = min (i + 1) (u.cfg.F - g * u.cfg.B) - u.cur.skipBlocks; rw [hc', hu'], hpl, hwr⟩

/-- The block loop. -/
theorem sat_decodeBlocks {g i : Nat} (n : Nat) {s : State} (hs : e.holds s) (hd : Delivering g i s) (hroom : i + n ≤ s.ring.cap) :
    Sat (decodeBlocks .deliver n) s
      (fun _ t => decodeView e t = decodeView e s ∧ e.holds t ∧ t.ring.rd = s.ring.rd ∧ Delivering g (i + n) t)
      (StopsFrom e φ (decodeView e) s) := by
  induction n generalizing s i with
  | zero => exact Sat.pure ⟨rfl, hs, rfl, hd⟩
  | succ n ih =>
    refine Sat.bind (Sat.call (φ := φ) hs (fun t ht hte => ?_) fun st t h => h.coarser forgetToDecode)
    have hr : t.ring = s.ring := (congrArg State.ring ht :)
    have hf : t.frm = s.frm := (congrArg State.frm ht :)
    have hdv : decodeView e t = decodeView e s := (congrArg forgetToDecode ht :)
    have hd' : Delivering g i t := by
      have hc : t.cfg = s.cfg := (congrArg State.cfg ht :)
      have hu : t.cur = s.cur := (congrArg State.cur ht :)
      constructor
      · rw [hf, hd.frame]
      · rw [hf, hd.blk]
      · rw [hr, hc, hu, hd.count]
      · rw [hf, hr, hd.placed]
      · rw [hr, hd.wr]
    refine (sat_uDecodeBlock (φ := φ) hte hd' (by rw [hr]; omega)).mono (fun _ u hu => ?_) fun st u h => h.trans hdv
    obtain ⟨hv, hh, hrd, hdu⟩ := hu
    have hcap : u.ring.cap = t.ring.cap := (congrArg (fun s => s.ring.cap) hv :)
    refine (ih hh hdu (by rw [hcap, hr]; omega)).mono (fun _ w hw => ?_) fun st w h => (h.trans hv).trans hdv
    exact ⟨hw.1.trans (hv.trans hdv), hw.2.1, hw.2.2.1.trans (hrd.trans (congrArg Ring.rd hr)), by
      have := hw.2.2.2; rwa [Nat.add_right_comm] at this⟩

/-- A frame's start enters it. -/
theorem sat_uStartFrame (g : Nat) {s : State} (hs : e.holds s) :
    Sat (uStartFrame g) s
      (fun _ t => frameView e t = frameView e s ∧ e.holds t ∧ t.frm.curFrame = g ∧ t.frm.blkInFrame = 0 ∧ t.frm.placed = 0)
      (StopsFrom e φ (frameView e) s) := by
  have before : Keeps e φ (frameView e) (do
      call (uSrcSeek (frameStart s g))
      call (uBrReset (frameStart s g) (frameEnd s g - frameStart s g))
      resetPredictors g) :=
    Keeps.bind (Keeps.call hostFree_frameView (keeps_uSrcSeek _).toBlock.toFrame) fun _ =>
      Keeps.bind (Keeps.call hostFree_frameView (keeps_uBrReset _ _).toBlock.toFrame) fun _ => (keeps_resetPredictors g).toFrame
  have after : ∀ t, e.holds t → frameView e t = frameView e s →
      Sat (do modify (enterFrame g); call uBrHeader) t
        (fun _ t => frameView e t = frameView e s ∧ e.holds t ∧ t.frm.curFrame = g ∧ t.frm.blkInFrame = 0 ∧ t.frm.placed = 0)
        (StopsFrom e φ (frameView e) s) := by
    intro t ht hv
    refine Sat.bind (Sat.modify ?_)
    have hte : e.holds (enterFrame g t) := ht
    have hve : frameView e (enterFrame g t) = frameView e s := hv
    refine (Keeps.call (φ := φ) hostFree_blockView keeps_uBrHeader (enterFrame g t) hte).mono (fun _ u hu => ?_) fun st u hu => ?_
    · exact ⟨(congrArg forgetFrame hu.1 :).trans hve, hu.2, (congrArg (fun s => s.frm.curFrame) hu.1 :),
        (congrArg (fun s => s.frm.blkInFrame) hu.1 :), (congrArg (fun s => s.frm.placed) hu.1 :)⟩
    · exact (hu.coarser forgetFrame).trans hve
  have hb := before s hs
  unfold uStartFrame
  refine Sat.bind (Sat.get ?_)
  have key := Sat.bind (f := fun _ => do modify (enterFrame g); call uBrHeader) (hb.mono (fun _ t ht => after t ht.2 ht.1) fun _ _ h => h)
  simpa only [bind_assoc] using key

/-- A frame in DELIVER mode fills an empty ring with its deliverable blocks (45_frame_sequencer.md R357). -/
theorem sat_pDecodeFrame {g : Nat} {s : State} (hs : e.holds s) (hc : s.ring.count = 0)
    (hw : s.ring.wr = (s.ring.rd + s.ring.count) % s.ring.cap) (hroom : frameBlocks s.cfg g ≤ s.ring.cap) :
    Sat (pDecodeFrame g .deliver) s
      (fun _ t => positionView e t = positionView e s ∧ e.holds t ∧ t.ring.rd = s.ring.rd ∧
        t.cur = { s.cur with nextFrame := g + 1, skipBlocks := 0 } ∧
        t.ring.count = min (frameBlocks s.cfg g) (s.cfg.F - g * s.cfg.B) - s.cur.skipBlocks ∧
        t.ring.wr = (t.ring.rd + t.ring.count) % t.ring.cap)
      (StopsFrom e φ (decodeView e) s) := by
  refine Sat.bind (Sat.call (φ := φ) hs (fun t ht hte => ?_) fun st t h => h.coarser forgetToDecode)
  have hdt : decodeView e t = decodeView e s := (congrArg forgetToDecode ht :)
  have hrt : t.ring = s.ring := (congrArg State.ring ht :)
  refine (sat_uStartFrame (φ := φ) g hte).mono (fun _ u hu => ?_)
    fun st u h => (h.coarser fun s => forgetRing (forgetData (forgetErrors s))).trans hdt
  obtain ⟨hvu, hhu, hfu, hbu, hpu⟩ := hu
  have hdu : decodeView e u = decodeView e s := (congrArg (fun s => forgetRing (forgetData (forgetErrors s))) hvu :).trans hdt
  have hru : u.ring = s.ring := (congrArg State.ring hvu :).trans hrt
  have hcu : u.cfg = s.cfg := (congrArg State.cfg hdu :)
  refine Sat.bind (Sat.get (Sat.bind ?_))
  have hD : Delivering g 0 u := ⟨hfu, hbu, by rw [hru, hc]; omega, by rw [hru, hc, hpu], by rw [hru, hw]⟩
  rw [hcu]
  refine (sat_decodeBlocks (φ := φ) (frameBlocks s.cfg g) hhu hD (by rw [hru]; omega)).mono (fun _ v hv => ?_)
    fun st v h => h.trans hdu
  obtain ⟨hvv, hhv, hrdv, hDv⟩ := hv
  have hdv : decodeView e v = decodeView e s := hvv.trans hdu
  refine Sat.bind ((Keeps.call (φ := φ) hostFree_endView (keeps_uEndFrame .deliver) v hhv).mono (fun _ w hw => ?_)
    fun st w h => (h.coarser forgetRing).trans hdv)
  have hdw : decodeView e w = decodeView e s := (congrArg forgetRing hw.1 :).trans hdv
  have hcw : w.cur = s.cur := (congrArg State.cur hdw :)
  have hcv : v.cfg = s.cfg := (congrArg State.cfg hdv :)
  have hcv' : v.cur = s.cur := (congrArg State.cur hdv :)
  have hrd : w.ring.rd = v.ring.rd := (congrArg (fun s => s.ring.rd) hw.1 :)
  have hcn : w.ring.count = v.ring.count := (congrArg (fun s => s.ring.count) hw.1 :)
  have hwr : w.ring.wr = v.ring.wr := (congrArg (fun s => s.ring.wr) hw.1 :)
  have hcp : w.ring.cap = v.ring.cap := (congrArg (fun s => s.ring.cap) hw.1 :)
  have hcount := hDv.count
  rw [hcv, hcv', Nat.zero_add] at hcount
  refine Sat.modify ⟨(congrArg forgetCursor hdw :), hw.2, ?_, ?_, ?_, ?_⟩
  · show w.ring.rd = _; rw [hrd, hrdv, hru]
  · show { w.cur with nextFrame := g + 1, skipBlocks := 0 } = _; rw [hcw]
  · show w.ring.count = _; rw [hcn, hcount]
  · show w.ring.wr = (w.ring.rd + w.ring.count) % w.ring.cap; rw [hwr, hrd, hcn, hcp, hDv.wr]

/-! ## Frame geometry (45_frame_sequencer.md R350) -/

theorem numFrames_bounds {total B : Nat} (hB : 1 ≤ B) :
    total ≤ numFramesOf total B * B ∧ (0 < numFramesOf total B → (numFramesOf total B - 1) * B < total) := by
  have h1 := Nat.div_add_mod (total + B - 1) B
  have h2 := Nat.mod_lt (total + B - 1) (show 0 < B by omega)
  unfold numFramesOf
  generalize (total + B - 1) / B = q at *
  rw [Nat.mul_comm] at h1
  refine ⟨by omega, fun h => ?_⟩
  obtain ⟨k, rfl⟩ : ∃ k, q = k + 1 := ⟨q - 1, by omega⟩
  rw [Nat.add_sub_cancel]
  rw [Nat.succ_mul] at h1
  omega

/-- No frame has more than B blocks. -/
theorem frameBlocks_le {c : SessionCfg} (h : CfgOk c) (g : Nat) : frameBlocks c g ≤ c.B := by
  unfold frameBlocks
  split
  · exact Nat.le_refl _
  · split
    · have hb := (numFrames_bounds (total := c.total) h.blocks).1
      rw [h.frames]
      generalize numFramesOf c.total c.B = q at *
      cases q with
      | zero => omega
      | succ k => rw [Nat.succ_mul] at hb; rw [Nat.add_sub_cancel]; omega
    · exact Nat.le_of_lt_succ (Nat.mod_lt _ (Nat.succ_pos _))

/-- A frame that holds a block of the stream has every block of the stream that falls in it. -/
theorem frameBlocks_eq {c : SessionCfg} (h : CfgOk c) {g : Nat} (hg : g * c.B < c.total) :
    frameBlocks c g = min c.B (c.total - g * c.B) := by
  have hb := numFrames_bounds (total := c.total) h.blocks
  unfold frameBlocks
  rw [h.frames]
  generalize numFramesOf c.total c.B = q at *
  have hlt : g < q := by
    rcases Nat.lt_or_ge g q with h1 | h1
    · exact h1
    · have := Nat.mul_le_mul_right c.B h1; omega
  have hlast := hb.2 (by omega)
  split
  · have h2 : (g + 1) * c.B ≤ (q - 1) * c.B := Nat.mul_le_mul_right _ (by omega)
    rw [Nat.succ_mul] at h2
    omega
  · have : q - 1 = g := by omega
    subst this
    rw [if_pos (by omega)]
    have hb1 := hb.1
    have : q = (q - 1) + 1 := by omega
    rw [this, Nat.succ_mul] at hb1
    omega

/-- The ring holds a frame. -/
theorem RingOk.room {s : State} (h : RingOk s) : s.cfg.B ≤ s.ring.cap := by
  have h1 := h.cap
  have h2 := h.rd
  rcases Nat.eq_zero_or_pos s.params.ringFrames with h0 | h0
  · rw [h0, Nat.zero_mul] at h1; omega
  · rw [h1]; exact Nat.le_mul_of_pos_left _ h0

/-! ## Positioning -/

/-- P_POSITION empties the ring and puts the cursor at block b (45_frame_sequencer.md R358). -/
theorem sat_pPosition (b : Nat) {s : State} (hs : e.holds s) :
    Sat (pPosition b) s
      (fun _ t => positionView e t = positionView e s ∧ e.holds t ∧ t.ring.rd = 0 ∧ t.ring.wr = 0 ∧ t.ring.count = 0 ∧
        t.cur = { s.cur with nextFrame := (s.cfg.S + b) / s.cfg.B, skipBlocks := (s.cfg.S + b) % s.cfg.B, curBlock := b,
                             resyncPending := decide (b = s.cfg.F - s.cfg.S) })
      (StopsFrom e φ (decodeView e) s) := by
  refine Sat.bind (Sat.call (φ := φ) hs (fun t ht hte => ?_) fun st t h => h.coarser forgetToDecode)
  have hdt : decodeView e (ringReset t) = decodeView e s := (congrArg forgetToDecode ht :)
  have hte' : e.holds (ringReset t) := hte
  refine Sat.modify (Sat.bind (Sat.get ?_))
  have hcfg : (ringReset t).cfg = s.cfg := (congrArg State.cfg ht :)
  have hcur : (ringReset t).cur = s.cur := (congrArg State.cur ht :)
  have fin : ∀ u p, decodeView e u = decodeView e s → e.holds u → u.ring.rd = 0 ∧ u.ring.wr = 0 ∧ u.ring.count = 0 →
      p = decide (b = s.cfg.F - s.cfg.S) →
      Sat (modify (cursorAt b p)) u
        (fun _ t => positionView e t = positionView e s ∧ e.holds t ∧ t.ring.rd = 0 ∧ t.ring.wr = 0 ∧ t.ring.count = 0 ∧
          t.cur = { s.cur with nextFrame := (s.cfg.S + b) / s.cfg.B, skipBlocks := (s.cfg.S + b) % s.cfg.B, curBlock := b,
                               resyncPending := decide (b = s.cfg.F - s.cfg.S) })
        (StopsFrom e φ (decodeView e) s) := by
    intro u p hu hh hr hp
    have hcu : u.cfg = s.cfg := (congrArg State.cfg hu :)
    have hku : u.cur = s.cur := (congrArg State.cur hu :)
    refine Sat.modify ⟨(congrArg forgetCursor hu :), hh, hr.1, hr.2.1, hr.2.2, ?_⟩
    show { u.cur with nextFrame := (u.cfg.S + b) / u.cfg.B, skipBlocks := (u.cfg.S + b) % u.cfg.B, curBlock := b,
                      resyncPending := p } = _
    rw [hcu, hku, hp]
  rw [hcfg]
  split
  · rename_i hb
    exact fin _ _ hdt hte' ⟨rfl, rfl, rfl⟩ (by simp [hb])
  · rename_i hb
    refine Sat.bind ((keeps_replay (φ := φ) _ _ _ hte').mono (fun _ u hu => ?_) fun st u h =>
      (h.coarser fun s => forgetRing (forgetData s)).trans hdt)
    have hr : u.ring = (ringReset t).ring := (congrArg State.ring hu.1 :)
    exact fin _ _ ((congrArg (fun s => forgetRing (forgetData s)) hu.1 :).trans hdt) hu.2 (by rw [hr]; exact ⟨rfl, rfl, rfl⟩) (by simp [hb])

end Sys2Proof.Machine
end

