-- ==== Sys2Proof/Laws/Bits.lean ====
section
/-! SUPPORT. The BitReader reads the frame's bit stream (41_bitreader.md R202 to R206), however the source cuts its answers and
whatever the host does meanwhile: what a reader that yields a value has read. That it yields one where the source never fails
is `Keeps.ends`. -/

namespace Sys2Proof.Machine

variable {α : Type}

/-- Where m yields a value, Q holds of it and of the state. -/
def Yields (m : Seq α) (s : State) (Q : α → State → Prop) : Prop := Sat m s Q fun _ _ => True

theorem Yields.mono {m : Seq α} {s : State} {Q Q' : α → State → Prop} (h : Yields m s Q) (hq : ∀ a t, Q a t → Q' a t) :
    Yields m s Q' := Sat.mono h hq fun _ _ h => h

theorem Yields.bind {β : Type} {m : Seq α} {k : α → Seq β} {s : State} {R : β → State → Prop}
    (h : Yields m s fun a t => Yields (k a) t R) : Yields (m >>= k) s R := Sat.bind h

theorem Yields.and {m : Seq α} {s : State} {P Q : α → State → Prop} (h : Yields m s P) (k : Yields m s Q) :
    Yields m s fun a t => P a t ∧ Q a t := by
  simp only [Yields, Sat] at *
  cases hm : m s with
  | ok a t => simp only [hm] at h k ⊢; exact ⟨h, k⟩
  | error st t => trivial

/-- What a frame lemma says of a value. -/
theorem Keeps.yields {γ : Type} {e : Env} {f : State → γ} {m : Seq α} (h : Keeps e True f m) {s : State} (hs : e.holds s) :
    Yields m s fun _ t => f t = f s ∧ e.holds t := (h s hs).mono (fun _ _ h => h) fun _ _ _ => trivial

/-- What a computation yields, beside what is known of its stops. -/
theorem Sat.and_yields {m : Seq α} {s : State} {P Q : α → State → Prop} {E : Stop → State → Prop} (h : Sat m s Q E)
    (k : Yields m s P) : Sat m s (fun a t => Q a t ∧ P a t) E := by
  simp only [Sat, Yields] at *
  cases hm : m s with
  | ok a t => simp only [hm] at h k ⊢; exact ⟨h, k⟩
  | error st t => simpa [hm] using h

/-- Two things known of a computation and of its stops. -/
theorem Sat.and_sat {m : Seq α} {s : State} {P Q : α → State → Prop} {E F : Stop → State → Prop} (h : Sat m s Q E)
    (k : Sat m s P F) : Sat m s (fun a t => Q a t ∧ P a t) fun st t => E st t ∧ F st t := by
  simp only [Sat] at *
  cases hm : m s with
  | ok a t => simp only [hm] at h k ⊢; exact ⟨h, k⟩
  | error st t => simp only [hm] at h k ⊢; exact ⟨h, k⟩

/-- A micro-operation of a running command yields what it yields once the host has interfered as it may. -/
theorem Yields.call {m : Seq α} {s : State} {Q : α → State → Prop} (h : ∀ t, SameBlock s t → Yields m t Q) :
    Yields (call m) s Q := by
  refine Sat.bind ?_
  obtain ⟨t, ht, hs⟩ | ⟨u, l, hu, hs⟩ := interleave_cases s
  · simp only [Sat, ht]; exact h t hs
  · simp only [Sat, hu]

/-- A computation that ends with a value in Q. -/
def Ends (m : Seq α) (s : State) (Q : α → State → Prop) : Prop := Sat m s Q fun _ _ => False

/-- In an undisturbed command whose requests all succeed nothing stops but a fault. -/
theorem Keeps.ends {γ : Type} {f : State → γ} {m : Seq α} (h : Keeps .fed False f m) {s : State} (hs : Env.fed.holds s) :
    Ends m s fun _ t => f t = f s ∧ Env.fed.holds t := by
  refine (h s hs).mono (fun _ _ h => h) fun st t h => ?_
  cases st with
  | ioFailure => exact absurd h.1 (by decide)
  | halted => obtain ⟨h, _⟩ | ⟨h, _⟩ := h <;> exact absurd h (by decide)
  | fault => exact h

/-- It ends, and where it yields a value Q holds. -/
theorem Ends.and {m : Seq α} {s : State} {P Q : α → State → Prop} (h : Ends m s P) (k : Yields m s Q) :
    Ends m s fun a t => P a t ∧ Q a t := by
  simp only [Ends, Yields, Sat] at *
  cases hm : m s with
  | ok a t => simp only [hm] at h k ⊢; exact ⟨h, k⟩
  | error st t => simp [hm] at h

theorem Ends.exists_ok {m : Seq α} {s : State} {Q : α → State → Prop} (h : Ends m s Q) : ∃ a t, m s = .ok a t ∧ Q a t := by
  simp only [Ends, Sat] at h
  cases hm : m s with
  | ok a t => exact ⟨a, t, rfl, by simpa [hm] using h⟩
  | error st t => simp [hm] at h

/-! ## One request and one read -/

theorem yields_request {s : State} (req : SrcReq) :
    Yields (request req) s fun a t => a = nextAnswer s.src ∧ t = { s with src := s.src.afterRequest req } := by
  unfold Yields request
  refine Sat.bind (Sat.get ?_)
  dsimp only
  split
  · exact Sat.bind (Sat.set (Sat.throw trivial))
  · exact Sat.bind (Sat.set (Sat.throw trivial))
  · exact Sat.bind (Sat.set (Sat.pure ⟨rfl, rfl⟩))
  · exact Sat.bind (Sat.set (Sat.pure ⟨rfl, rfl⟩))

/-- The number of bytes an answered read gives (20_memory.md R86). -/
theorem readCount_bounds (a : SrcAnswer) {max pos z : Nat} (hm : 1 ≤ max) (hz : pos < z) :
    1 ≤ readCount a max pos z ∧ readCount a max pos z ≤ max ∧ readCount a max pos z ≤ z - pos := by
  unfold readCount
  cases a with
  | short n =>
    simp only
    have h0 : ¬ min max (z - pos) = 0 := by omega
    rw [if_neg h0]
    have h1 : Nat.max 1 (min n (min max (z - pos))) = if 1 ≤ min n (min max (z - pos)) then min n (min max (z - pos)) else 1 := rfl
    rw [h1]
    split <;> omega
  | full => simp only; omega
  | fail => simp only; omega
  | never => simp only; omega

theorem yields_uSrcRead {s : State} (max : Nat) :
    Yields (uSrcRead max) s fun bs t =>
      bs = (s.src.bytes.drop s.src.pos).take (readCount (nextAnswer s.src) max s.src.pos s.src.bytes.length) ∧
      t = { s with src := { s.src.afterRequest (.read max) with
        pos := s.src.pos + readCount (nextAnswer s.src) max s.src.pos s.src.bytes.length } } := by
  unfold uSrcRead
  refine Yields.bind ((yields_request _).mono fun a t ht => ?_)
  obtain ⟨rfl, rfl⟩ := ht
  exact Sat.bind (Sat.get (Sat.bind (Sat.set (Sat.pure ⟨rfl, rfl⟩))))

/-! ## Where reading leads -/

/-- What reading leaves: the frame, the rest of the block, and the position p. -/
structure ReadTo (p : Nat) (s t : State) : Prop where
  ok : BrOk t
  view : readsView .free t = readsView .free s
  start : t.br.start = s.br.start
  len : t.br.len = s.br.len
  pos : t.br.p = p
  ent : t.br.ent = s.br.ent

theorem ReadTo.bytes {p : Nat} {s t : State} (h : ReadTo p s t) : t.src.bytes = s.src.bytes :=
  (congrArg (fun s => s.src.bytes) h.view :)

theorem ReadTo.frameBit {p : Nat} {s t : State} (h : ReadTo p s t) : frameBit t = frameBit s := by
  funext q; simp only [Machine.frameBit, h.bytes, h.start]

theorem ReadTo.params {p : Nat} {s t : State} (h : ReadTo p s t) : t.params = s.params := (congrArg State.params h.view :)

theorem ReadTo.trans {p q : Nat} {s t u : State} (h : ReadTo p s t) (k : ReadTo q t u) : ReadTo q s u :=
  ⟨k.ok, k.view.trans h.view, k.start.trans h.start, k.len.trans h.len, k.pos, k.ent.trans h.ent⟩

theorem ReadTo.refl {s : State} (h : BrOk s) : ReadTo s.br.p s s := ⟨h, rfl, rfl, rfl, rfl, rfl⟩

theorem BrOk.congr {s t : State} (h : BrOk s) (hb : t.br = s.br) (hs : t.src = s.src) : BrOk t := by
  obtain ⟨h1, h2, h3, h4, h5, h6⟩ := h
  constructor <;> simp only [hb, hs] <;> assumption

/-- Host accesses to a running command leave the reader where it is. -/
theorem ReadTo.host {s t : State} (h : BrOk s) (hs : SameBlock s t) : ReadTo s.br.p s t := by
  have hb : t.br = s.br := by rw [hs]
  refine ⟨h.congr hb (by rw [hs]), hostFree_readsView s t rfl hs, by rw [hb], by rw [hb], by rw [hb], by rw [hb]⟩

/-! ## Fetching -/

/-- A fetch of a byte the reader needs (R203). -/
theorem yields_uBrFetch {s : State} (hf : 1 ≤ s.params.fetchBytes) (h : BrOk s) (hneed : s.br.fetched ≤ s.br.p / 8)
    (hp : s.br.p < 8 * s.br.len) :
    Yields uBrFetch s fun r t => r = .ok () ∧ ReadTo s.br.p s t ∧ s.br.fetched < t.br.fetched := by
  unfold uBrFetch
  refine Yields.bind (Sat.get ?_)
  refine Yields.bind (Yields.call fun u hu => ?_)
  have hr := ReadTo.host h hu
  have hbr : u.br = s.br := by rw [hu]
  have hlt : s.br.fetched < s.br.len := by omega
  obtain ⟨h1, h2, h3, h4, h5, h6⟩ := hr.ok
  rw [hbr] at h1 h2 h3 h4 h5 h6
  have hzpos : u.src.pos < u.src.bytes.length := by omega
  refine (yields_uSrcRead _).mono fun bs t ht => ?_
  obtain ⟨hbs, ht⟩ := ht
  have hb := readCount_bounds (nextAnswer u.src) (max := min s.params.fetchBytes (s.br.len - s.br.fetched)) (by omega) hzpos
  generalize readCount (nextAnswer u.src) (min s.params.fetchBytes (s.br.len - s.br.fetched)) u.src.pos u.src.bytes.length = n at *
  have hlen : bs.length = n := by rw [hbs, List.length_take, List.length_drop]; omega
  rw [if_neg (by omega)]
  have hun : s.br.unconsumed = [] := by
    unfold BitReader.unconsumed
    exact List.drop_eq_nil_of_le (by omega)
  subst ht
  refine Sat.bind (Sat.modify (Sat.pure ⟨rfl, ⟨?_, ?_, ?_, ?_, ?_, ?_⟩, ?_⟩))
  · constructor <;> simp only [hbr, hun, List.nil_append, hlen]
    · exact h1
    · omega
    · rw [h3]; omega
    · omega
    · omega
    · rw [hbs, h3, show s.br.start + (s.br.fetched + n - n) = s.br.start + s.br.fetched by omega]; rfl
  · exact hr.view
  · exact hr.start
  · exact hr.len
  · exact hr.pos
  · exact hr.ent
  · show s.br.fetched < u.br.fetched + bs.length
    rw [hbr]; omega

theorem yields_fetchUntil (missing : Nat) : ∀ {s : State}, 1 ≤ s.params.fetchBytes → BrOk s → s.br.p < 8 * s.br.len →
    s.br.p / 8 + 1 - s.br.fetched ≤ missing →
    Yields (fetchUntil missing) s fun r t => r = .ok () ∧ ReadTo s.br.p s t ∧ s.br.p / 8 < t.br.fetched := by
  induction missing with
  | zero => intro s hf h hp hm; exact Sat.pure ⟨rfl, ReadTo.refl h, by omega⟩
  | succ n ih =>
    intro s hf h hp hm
    unfold fetchUntil
    refine Yields.bind (Sat.get ?_)
    split
    · rename_i hneed
      refine Yields.bind (Yields.call fun v hv => ?_)
      have hr := ReadTo.host h hv
      have hbr : v.br = s.br := by rw [hv]
      refine (yields_uBrFetch (by rw [hr.params]; exact hf) hr.ok (by rw [hbr]; exact hneed) (by rw [hbr]; exact hp)).mono fun r t ht => ?_
      obtain ⟨rfl, hrt, hlt⟩ := ht
      have hst := hr.trans hrt
      rw [hbr] at hst hlt
      refine (ih (by rw [hst.params]; exact hf) hst.ok (by rw [hst.pos, hst.len]; exact hp) (by rw [hst.pos]; omega)).mono fun r u hu => ?_
      obtain ⟨rfl, hru, hltu⟩ := hu
      rw [hst.pos] at hru hltu
      exact ⟨rfl, hst.trans hru, hltu⟩
    · exact Sat.pure ⟨rfl, ReadTo.refl h, by omega⟩

/-! ## Bits -/

theorem bit?_eq {s : State} (h : BrOk s) (hp : s.br.p / 8 < s.br.fetched) : s.br.bit? = some (frameBit s s.br.p) := by
  obtain ⟨h1, h2, h3, h4, h5, h6⟩ := h
  unfold BitReader.bit? BitReader.byte? frameBit
  have hi : s.br.p / 8 - (s.br.fetched - s.br.buf.length) < s.br.buf.length := by omega
  have hget : s.br.buf[s.br.p / 8 - (s.br.fetched - s.br.buf.length)]? = s.src.bytes[s.br.start + s.br.p / 8]? := by
    rw [h6, List.length_take, List.length_drop, List.getElem?_take, if_pos (by omega), List.getElem?_drop]
    congr 1
    omega
  rw [hget, List.getElem?_eq_getElem (by omega), List.getD_eq_getElem?_getD, List.getElem?_eq_getElem (by omega)]
  rfl

/-- U_BR_READBIT reads the frame's bit (R204). -/
theorem yields_uBrReadbit {s : State} (hf : 1 ≤ s.params.fetchBytes) (h : BrOk s) :
    Yields uBrReadbit s fun r t => if 8 * s.br.len ≤ s.br.p then r = .error .prematureEnd ∧ t = s
      else r = .ok (frameBit s s.br.p) ∧ ReadTo (s.br.p + 1) s t := by
  unfold uBrReadbit
  refine Yields.bind (Sat.get ?_)
  split
  · exact Sat.pure ⟨rfl, rfl⟩
  · rename_i hp
    refine Yields.bind ((yields_fetchUntil _ hf h (by omega) (Nat.le_refl _)).mono fun r t ht => ?_)
    obtain ⟨rfl, hr, hlt⟩ := ht
    refine Yields.bind (Sat.get ?_)
    simp only [bit?_eq hr.ok (by rw [hr.pos]; exact hlt), hr.frameBit, hr.pos]
    refine Sat.bind (Sat.set (Sat.pure ⟨rfl, ?_⟩))
    refine ⟨⟨hr.ok.window, hr.ok.fetched, hr.ok.pos, hr.ok.size, ?_, hr.ok.buf⟩, hr.view, hr.start, hr.len, rfl, hr.ent⟩
    have := hr.ok.kept
    rw [hr.pos] at this
    show t.br.fetched - t.br.buf.length ≤ (s.br.p + 1) / 8
    omega

/-- The same of a call: the host's accesses do not matter. -/
theorem yields_call_uBrReadbit {s : State} (hf : 1 ≤ s.params.fetchBytes) (h : BrOk s) :
    Yields (call uBrReadbit) s fun r t => if 8 * s.br.len ≤ s.br.p then r = .error .prematureEnd ∧ ReadTo s.br.p s t
      else r = .ok (frameBit s s.br.p) ∧ ReadTo (s.br.p + 1) s t := Yields.call fun u hu => by
  have hr := ReadTo.host h hu
  refine (yields_uBrReadbit (by rw [hr.params]; exact hf) hr.ok).mono fun r t ht => ?_
  rw [hr.len, hr.pos, hr.frameBit] at ht
  split at ht
  · rename_i hp
    rw [if_pos hp]
    obtain ⟨rfl, rfl⟩ := ht
    exact ⟨rfl, hr⟩
  · rename_i hp
    rw [if_neg hp]
    exact ⟨ht.1, hr.trans ht.2⟩

theorem yields_readBitsFrom (n : Nat) : ∀ {v : Nat} {s : State}, 1 ≤ s.params.fetchBytes → BrOk s →
    Yields (readBitsFrom n v) s fun r t => r = (readBitsAt (frameBit s) (8 * s.br.len) n v s.br.p).1 ∧
      ReadTo (readBitsAt (frameBit s) (8 * s.br.len) n v s.br.p).2 s t := by
  induction n with
  | zero => intro v s hf h; exact Sat.pure ⟨rfl, ReadTo.refl h⟩
  | succ n ih =>
    intro v s hf h
    unfold readBitsFrom readBitsAt
    refine Yields.bind ((yields_call_uBrReadbit hf h).mono fun r t ht => ?_)
    split at ht
    · rename_i hp
      obtain ⟨rfl, hr⟩ := ht
      rw [if_pos hp]
      exact Sat.pure ⟨rfl, hr⟩
    · rename_i hp
      obtain ⟨rfl, hr⟩ := ht
      rw [if_neg hp]
      refine (ih (by rw [hr.params]; exact hf) hr.ok).mono fun r u hu => ?_
      rw [hr.frameBit, hr.len, hr.pos] at hu
      exact ⟨hu.1, hr.trans hu.2⟩

/-- U_BR_READBITS reads the frame's bits, the first one the most significant (R205). -/
theorem yields_uBrReadbits {s : State} (n : Nat) (hf : 1 ≤ s.params.fetchBytes) (h : BrOk s) :
    Yields (uBrReadbits n) s fun r t => r = (readBitsAt (frameBit s) (8 * s.br.len) n 0 s.br.p).1 ∧
      ReadTo (readBitsAt (frameBit s) (8 * s.br.len) n 0 s.br.p).2 s t := yields_readBitsFrom n hf h

/-- A WIRE_FORMAT member is a function of the frame's bit stream and the position (R206). -/
theorem yields_runWire (w : WireProg α) : ∀ {s : State}, 1 ≤ s.params.fetchBytes → BrOk s →
    Yields (runWire w) s fun r t => r = (evalWire (frameBit s) (8 * s.br.len) w s.br.p).1 ∧
      ReadTo (evalWire (frameBit s) (8 * s.br.len) w s.br.p).2 s t := by
  induction w with
  | ret a => intro s hf h; exact Sat.pure ⟨rfl, ReadTo.refl h⟩
  | fail e => intro s hf h; exact Sat.pure ⟨rfl, ReadTo.refl h⟩
  | bit k ih =>
    intro s hf h
    rw [runWire, evalWire]
    refine Yields.bind ((yields_call_uBrReadbit hf h).mono fun r t ht => ?_)
    split at ht
    · rename_i hp
      obtain ⟨rfl, hr⟩ := ht
      rw [if_pos hp]
      refine (ih _ (by rw [hr.params]; exact hf) hr.ok).mono fun r u hu => ?_
      rw [hr.frameBit, hr.len, hr.pos] at hu
      exact ⟨hu.1, hr.trans hu.2⟩
    · rename_i hp
      obtain ⟨rfl, hr⟩ := ht
      rw [if_neg hp]
      refine (ih _ (by rw [hr.params]; exact hf) hr.ok).mono fun r u hu => ?_
      rw [hr.frameBit, hr.len, hr.pos] at hu
      exact ⟨hu.1, hr.trans hu.2⟩
  | bits n k ih =>
    intro s hf h
    rw [runWire, evalWire]
    refine Yields.bind (Yields.call fun v hv => ?_)
    have hrv := ReadTo.host h hv
    refine (yields_uBrReadbits n (by rw [hrv.params]; exact hf) hrv.ok).mono fun r t ht => ?_
    rw [hrv.frameBit, hrv.len, hrv.pos] at ht
    obtain ⟨rfl, hr⟩ := ht
    replace hr := hrv.trans hr
    refine (ih _ (by rw [hr.params]; exact hf) hr.ok).mono fun r u hu => ?_
    rw [hr.frameBit, hr.len, hr.pos] at hu
    exact ⟨hu.1, hr.trans hu.2⟩

end Sys2Proof.Machine
end

