-- ==== Sys2Proof/Laws/Blocks.lean ====
section
/-! SUPPORT. What one block decodes to (45_frame_sequencer.md R354): where U_DECODE_BLOCK's parts yield a value, it is the one the
reference functions of Safety.lean give, however the source cuts its answers and whatever the host does meanwhile. -/

namespace Sys2Proof.Machine

variable {α : Type}

/-- t is s but for what the host may change. -/
abbrev Alike (s t : State) : Prop := hostBlank .free t = hostBlank .free s

theorem SameBlock.alike {s t : State} (h : SameBlock s t) : Alike s t := hostFree_hostBlank s t rfl h

theorem Alike.params {s t : State} (h : Alike s t) : t.params = s.params := (congrArg State.params h :)
theorem Alike.cfg {s t : State} (h : Alike s t) : t.cfg = s.cfg := (congrArg State.cfg h :)
theorem Alike.pred {s t : State} (h : Alike s t) : t.pred = s.pred := (congrArg State.pred h :)
theorem Alike.frm {s t : State} (h : Alike s t) : t.frm = s.frm := (congrArg State.frm h :)
theorem Alike.br {s t : State} (h : Alike s t) : t.br = s.br := (congrArg State.br h :)
theorem Alike.src {s t : State} (h : Alike s t) : t.src = s.src := (congrArg State.src h :)
theorem Alike.ring {s t : State} (h : Alike s t) : t.ring = s.ring := (congrArg State.ring h :)
theorem Alike.cur {s t : State} (h : Alike s t) : t.cur = s.cur := (congrArg State.cur h :)
theorem Alike.mem {s t : State} (h : Alike s t) : t.mem = s.mem := (congrArg State.mem h :)
theorem Alike.epoch {s t : State} (h : Alike s t) : t.epoch = s.epoch := (congrArg State.epoch h :)

/-! ## The predictors -/

theorem alike_setPred {s t : State} (h : Alike s t) (p : List (List StageState)) : Alike { s with pred := p } { t with pred := p } := by
  have := congrArg (fun s => { s with pred := p }) h
  exact this

theorem modify_set (l : List (List StageState)) (c : Nat) (f : List StageState → List StageState) (x : List StageState) :
    (l.modify c f).set c x = l.set c x := by
  refine List.ext_getElem? fun i => ?_
  simp only [List.getElem?_set, List.length_modify, List.getElem?_modify]
  split
  · rfl
  · simp

theorem set_self {l : List (List StageState)} {c : Nat} {x : List StageState} (h : l[c]? = some x) : l.set c x = l := by
  refine List.ext_getElem? fun i => ?_
  rw [List.getElem?_set]
  split
  · subst_vars; rw [h]; simp [(List.getElem?_eq_some_iff.1 h).1]
  · rfl

theorem cascadeOf_nil (c : Nat) (gs : List StageCfg) : ∀ (k : Nat) (v : Int), (cascadeOf c k gs [] v).2 = [] := by
  induction gs with
  | nil => intro k v; rfl
  | cons g gs ih => intro k v; exact ih _ _

/-- Stages that have no state yield free values, and change nothing. -/
theorem yields_cascade_none (c : Nat) (gs : List StageCfg) : ∀ {j : Nat} {s : State} {v : Int},
    (∀ k, j < k → predStage s c k = none) →
    Yields (cascade c (List.range' (j + 1) gs.length) v) s fun y t => y = (cascadeOf c (j + 1) gs [] v).1 ∧ Alike s t := by
  induction gs with
  | nil => intro j s v h; exact Sat.pure ⟨rfl, rfl⟩
  | cons g gs ih =>
    intro j s v h
    rw [List.length_cons, List.range'_succ, cascade]
    refine Yields.bind (Yields.call fun t ht => ?_)
    have ha := ht.alike
    have hp : ∀ k, j < k → predStage t c k = none := fun k hk => by
      have := h k hk
      simpa only [predStage, ha.pred] using this
    refine Yields.bind (Sat.get ?_)
    rw [hp (j + 1) (by omega)]
    have key : Yields (cascade c (List.range' (j + 1 + 1) gs.length) (absentStage c (j + 1) v)) t
        fun y u => y = (cascadeOf c (j + 1) (g :: gs) [] v).1 ∧ Alike s u :=
      (ih (fun k hk => hp k (by omega))).mono fun y u hu => ⟨hu.1, hu.2.trans ha⟩
    cases stageAt t.cfg.stages (j + 1) <;> exact Sat.pure key

/-- The cascade from stage j + 1 on. -/
theorem yields_cascade (c : Nat) (gs : List StageCfg) : ∀ {j : Nat} {s : State} {sts pre : List StageState} {v : Int},
    s.cfg.stages.drop j = gs → pre.length = j → s.pred[c]? = some (pre ++ sts) →
    Yields (cascade c (List.range' (j + 1) gs.length) v) s fun y t => y = (cascadeOf c (j + 1) gs sts v).1 ∧
      Alike { s with pred := s.pred.set c (pre ++ (cascadeOf c (j + 1) gs sts v).2) } t := by
  induction gs with
  | nil =>
    intro j s sts pre v hg hl hp
    rw [show cascadeOf c (j + 1) [] sts v = (v, sts) from rfl, set_self hp]
    exact Sat.pure ⟨rfl, rfl⟩
  | cons g gs ih =>
    intro j s sts pre v hg hl hp
    have hg' : s.cfg.stages[j]? = some g := by
      have := congrArg (·[0]?) hg
      simpa [List.getElem?_drop] using this
    have hdrop : s.cfg.stages.drop (j + 1) = gs := by
      have := congrArg (List.drop 1) hg
      simpa [List.drop_drop, Nat.add_comm] using this
    have hpr : ∀ k, j < k → predStage s c k = sts[k - (j + 1)]? := fun k hk => by
      simp only [predStage, hp, stageAt]
      rw [if_neg (by omega), List.getElem?_append_right (by omega), hl, show k - 1 - j = k - (j + 1) by omega]
    cases sts with
    | nil =>
      rw [cascadeOf_nil, set_self hp]
      exact yields_cascade_none c (g :: gs) fun k hk => by rw [hpr k hk]; rfl
    | cons st sts =>
      rw [List.length_cons, List.range'_succ, cascade]
      refine Yields.bind (Yields.call fun t ht => ?_)
      have ha := ht.alike
      refine Yields.bind (Sat.get ?_)
      have hst : stageAt t.cfg.stages (j + 1) = some g := by simp [stageAt, ha.cfg, hg']
      have hpt : predStage t c (j + 1) = some st := by
        have := hpr (j + 1) (by omega)
        simp only [predStage, ha.pred] at this ⊢
        simpa using this
      rw [hst, hpt]
      refine Sat.bind (Sat.set (Sat.pure ?_))
      have hset : t.pred.modify c (fun l => l.set (j + 1 - 1) (stageNext g st v)) =
          s.pred.set c ((pre ++ [stageNext g st v]) ++ sts) := by
        rw [ha.pred]
        refine List.ext_getElem? fun i => ?_
        rw [List.getElem?_modify, List.getElem?_set]
        split
        · subst_vars
          have hlt := (List.getElem?_eq_some_iff.1 hp).1
          simp only [hp, hlt, if_true]
          simp
        · simp
      refine (ih (j := j + 1) (s := setPredStage c (j + 1) (stageNext g st v) t) (sts := sts) (pre := pre ++ [stageNext g st v]) ?_ ?_ ?_).mono
        fun y u hu => ?_
      · show t.cfg.stages.drop (j + 1) = gs
        rw [ha.cfg]; exact hdrop
      · simp [hl]
      · show (t.pred.modify c _)[c]? = _
        rw [hset]
        have hlt := (List.getElem?_eq_some_iff.1 hp).1
        simp [hlt]
      · refine ⟨hu.1, hu.2.trans ?_⟩
        show Alike _ { t with pred := (t.pred.modify c _).set c _ }
        rw [hset, List.set_set]
        have h1 : (cascadeOf c (j + 1) (g :: gs) (st :: sts) v).2 =
          stageNext g st v :: (cascadeOf c (j + 1 + 1) gs sts (stageOutput g st v)).2 := rfl
        rw [h1, show pre ++ [stageNext g st v] ++ (cascadeOf c (j + 1 + 1) gs sts (stageOutput g st v)).2 =
          pre ++ stageNext g st v :: (cascadeOf c (j + 1 + 1) gs sts (stageOutput g st v)).2 by simp]
        exact alike_setPred ha _

/-- U_PRED_STEP (42_predictor.md R260). -/
theorem yields_uPredStep {c : Nat} {s : State} {stages : List StageCfg} {sts : List StageState} (v : Int)
    (hg : s.cfg.stages = stages) (h : s.pred[c]? = some sts) :
    Yields (uPredStep c v) s fun y t => y = (cascadeOf c 1 stages sts v).1 ∧
      Alike { s with pred := s.pred.set c (cascadeOf c 1 stages sts v).2 } t := by
  subst hg
  exact Yields.bind (Sat.get (yields_cascade c s.cfg.stages (j := 0) (pre := []) rfl rfl h))

/-- The predictor steps of one block (45_frame_sequencer.md R354). -/
theorem yields_predictAll (es : List Int) : ∀ {c : Nat} {s : State} {stages : List StageCfg} {P : List (List StageState)},
    s.cfg.stages = stages → s.pred = P →
    Yields (predictAll c es) s fun vs t => vs = (predictOf stages c (P.drop c) es).1 ∧
      Alike { s with pred := P.take c ++ (predictOf stages c (P.drop c) es).2 } t := by
  induction es with
  | nil =>
    intro c s stages P hg hP
    rw [show predictOf stages c (P.drop c) [] = ([], P.drop c) by rw [predictOf], List.take_append_drop, ← hP]
    exact Sat.pure ⟨rfl, rfl⟩
  | cons e es ih =>
    intro c s stages P hg hP
    rw [predictAll]
    refine Yields.bind (Yields.call fun t ht => ?_)
    have ha := ht.alike
    have htp : t.pred = P := ha.pred.trans hP
    have htg : t.cfg.stages = stages := by rw [ha.cfg]; exact hg
    cases hc : P[c]? with
    | none =>
      have hlen : P.length ≤ c := by simpa using List.getElem?_eq_none_iff.1 hc
      have hnone : ∀ k, 0 < k → predStage t c k = none := fun k _ => by simp [predStage, htp, hc]
      have hd : P.drop c = [] := List.drop_eq_nil_of_le hlen
      have hd' : P.drop (c + 1) = [] := List.drop_eq_nil_of_le (by omega)
      have hp : ∀ c es, (predictOf stages c [] es).2 = [] := fun c es => by cases es <;> rfl
      have hstep : Yields (uPredStep c e) t fun y u => y = (cascadeOf c 1 stages [] e).1 ∧ Alike t u :=
        Yields.bind (Sat.get (by rw [htg]; exact yields_cascade_none c stages hnone))
      refine hstep.mono fun y u hu => ?_
      have hu2 : Alike s u := hu.2.trans ha
      refine Yields.bind ((ih (stages := stages) (P := P) (by rw [hu2.cfg]; exact hg) (hu2.pred.trans hP)).mono fun vs w hw => ?_)
      refine Sat.pure ?_
      rw [hd'] at hw
      rw [hp, List.append_nil, List.take_of_length_le (by omega)] at hw
      rw [hd, hp, List.append_nil, List.take_of_length_le hlen]
      exact ⟨by rw [hu.1, hw.1]; rfl, hw.2.trans (alike_setPred hu2 P)⟩
    | some sts =>
      have hlt := (List.getElem?_eq_some_iff.1 hc).1
      have hdrop : P.drop c = sts :: P.drop (c + 1) := by
        rw [List.drop_eq_getElem_cons hlt, (List.getElem?_eq_some_iff.1 hc).2]
      refine (yields_uPredStep e htg (by rw [htp]; exact hc)).mono fun y u hu => ?_
      rw [htp] at hu
      have hu2 : Alike { s with pred := P.set c (cascadeOf c 1 stages sts e).2 } u := hu.2.trans (alike_setPred ha _)
      have hup : u.pred = P.set c (cascadeOf c 1 stages sts e).2 := (congrArg State.pred hu2 :)
      have hug : u.cfg.stages = stages := by
        have : u.cfg = s.cfg := (congrArg State.cfg hu2 :)
        rw [this]; exact hg
      refine Yields.bind ((ih hug hup).mono fun vs w hw => Sat.pure ?_)
      rw [List.drop_set, if_pos (by omega), List.take_set] at hw
      rw [hdrop]
      refine ⟨by rw [hu.1, hw.1]; rfl, hw.2.trans ?_⟩
      have h3 : (P.take (c + 1)).set c (cascadeOf c 1 stages sts e).2 ++ (predictOf stages (c + 1) (P.drop (c + 1)) es).2 =
          P.take c ++ (predictOf stages c (sts :: P.drop (c + 1)) (e :: es)).2 := by
        have : (predictOf stages c (sts :: P.drop (c + 1)) (e :: es)).2 =
          (cascadeOf c 1 stages sts e).2 :: (predictOf stages (c + 1) (P.drop (c + 1)) es).2 := rfl
        rw [this, List.take_succ_eq_append_getElem hlt, List.set_append]
        simp [Nat.min_eq_left (Nat.le_of_lt hlt)]
      rw [h3]
      exact alike_setPred hu2 _

theorem length_predictOf (stages : List StageCfg) : ∀ (c : Nat) (P : List (List StageState)) (es : List Int),
    (predictOf stages c P es).2.length = P.length
  | _, [], es => by cases es <;> rfl
  | _, _ :: _, [] => rfl
  | c, _ :: P, _ :: es => by simp [predictOf, length_predictOf stages (c + 1) P es]

/-! ## Where decoding leads -/

/-- The decoder inside a state. -/
def decoderOf (s : State) : Decoder := ⟨s.pred, s.br.p, s.br.ent, s.frm.frameErr, s.frm.runCk⟩

/-- What decoding leaves: the frame, the rest of the block, and the decoder d. -/
structure DecodeTo (d : Decoder) (s t : State) : Prop where
  ok : BrOk t
  view : blockView .free t = blockView .free s
  start : t.br.start = s.br.start
  len : t.br.len = s.br.len
  silent : t.frm.silent = s.frm.silent
  stored : t.frm.storedCk = s.frm.storedCk
  here : decoderOf t = d

section
variable {d d' : Decoder} {s t u : State}

theorem DecodeTo.trans (h : DecodeTo d s t) (k : DecodeTo d' t u) : DecodeTo d' s u :=
  ⟨k.ok, k.view.trans h.view, k.start.trans h.start, k.len.trans h.len, k.silent.trans h.silent, k.stored.trans h.stored, k.here⟩

theorem DecodeTo.refl (h : BrOk s) : DecodeTo (decoderOf s) s s := ⟨h, rfl, rfl, rfl, rfl, rfl, rfl⟩

theorem ReadTo.decodeTo {p : Nat} (h : ReadTo p s t) : DecodeTo { decoderOf s with p := p } s t := by
  have hf : t.frm = s.frm := (congrArg State.frm h.view :)
  have hp : t.pred = s.pred := (congrArg State.pred h.view :)
  refine ⟨h.ok, (congrArg forgetBlock h.view :), h.start, h.len, by rw [hf], by rw [hf], ?_⟩
  simp only [decoderOf, hf, hp, h.pos, h.ent]

theorem blockView_pred (P : List (List StageState)) (hl : P.length = s.pred.length) :
    blockView .free { s with pred := P } = blockView .free s := by
  simp only [blockView, forgetBlock, readsView, hostBlank, hl]

theorem Alike.blockView (h : Alike s t) : blockView .free t = blockView .free s :=
  (congrArg (fun s => forgetBlock
    { s with src := { s.src with pos := 0, answers := [], outstanding := none, log := [] }, br := default }) h :)

theorem Alike.decodeTo (ok : BrOk s) (P : List (List StageState)) (hl : P.length = s.pred.length) (h : Alike { s with pred := P } t) :
    DecodeTo { decoderOf s with pred := P } s t := by
  have hf : t.frm = s.frm := (congrArg State.frm h :)
  have hb : t.br = s.br := (congrArg State.br h :)
  have hp : t.pred = P := (congrArg State.pred h :)
  refine ⟨ok.congr hb (congrArg State.src h :), h.blockView.trans (blockView_pred P hl), by rw [hb], by rw [hb], by rw [hf],
    by rw [hf], ?_⟩
  simp only [decoderOf, hf, hb, hp]

theorem DecodeTo.host (h : BrOk s) (hs : SameBlock s t) : DecodeTo (decoderOf s) s t :=
  Alike.decodeTo h s.pred rfl hs.alike

theorem DecodeTo.params (h : DecodeTo d s t) : t.params = s.params := (congrArg State.params h.view :)
theorem DecodeTo.cfg (h : DecodeTo d s t) : t.cfg = s.cfg := (congrArg State.cfg h.view :)
theorem DecodeTo.ring (h : DecodeTo d s t) : t.ring = s.ring := (congrArg State.ring h.view :)
theorem DecodeTo.cur (h : DecodeTo d s t) : t.cur = s.cur := (congrArg State.cur h.view :)
theorem DecodeTo.blk (h : DecodeTo d s t) : t.frm.blkInFrame = s.frm.blkInFrame := (congrArg (fun s => s.frm.blkInFrame) h.view :)
theorem DecodeTo.placed (h : DecodeTo d s t) : t.frm.placed = s.frm.placed := (congrArg (fun s => s.frm.placed) h.view :)
theorem DecodeTo.frame (h : DecodeTo d s t) : t.frm.curFrame = s.frm.curFrame := (congrArg (fun s => s.frm.curFrame) h.view :)

theorem DecodeTo.frameBit (h : DecodeTo d s t) : frameBit t = frameBit s := by
  have hb : t.src.bytes = s.src.bytes := (congrArg (fun s => s.src.bytes) h.view :)
  funext q; simp only [Machine.frameBit, hb, h.start]

end

/-! ## One block -/

/-- U_BR_SYMBOL (41_bitreader.md R208). -/
theorem yields_uBrSymbol {s : State} (hf : 1 ≤ s.params.fetchBytes) (ok : BrOk s) :
    Yields uBrSymbol s fun r t =>
      match evalWire (frameBit s) (8 * s.br.len) (wireSymbol s.params.wireFormat s.br.ent (8 * s.br.len) s.br.p) s.br.p with
      | (.error _, q) => r = none ∧ DecodeTo { decoderOf s with p := q, err := true } s t
      | (.ok y, q) => r = some y.e.toInt ∧ DecodeTo { decoderOf s with p := q, ent := y.ent } s t := by
  unfold uBrSymbol
  refine Yields.bind (Sat.get (Yields.bind ((yields_runWire _ hf ok).mono fun r t ht => ?_)))
  obtain ⟨hr, ht⟩ := ht
  generalize evalWire (frameBit s) (8 * s.br.len) (wireSymbol s.params.wireFormat s.br.ent (8 * s.br.len) s.br.p) s.br.p = x at *
  obtain ⟨x, q⟩ := x
  simp only at hr ht
  subst hr
  obtain ⟨hok, hv, h1, h2, h3, h4, h5⟩ := ht.decodeTo
  simp only [decoderOf, Decoder.mk.injEq] at h5
  cases r with
  | error er =>
    refine Sat.bind (Sat.modify (Sat.pure ⟨rfl, hok.congr rfl rfl, hv, h1, h2, h3, h4, ?_⟩))
    simp only [decoderOf, h5]
  | ok y =>
    refine Sat.bind (Sat.modify (Sat.pure ⟨rfl, ?_, hv, h1, h2, h3, h4, ?_⟩))
    · obtain ⟨a1, a2, a3, a4, a5, a6⟩ := hok
      exact ⟨a1, a2, a3, a4, a5, a6⟩
    · simp only [decoderOf, h5]

/-- The symbols of one block (45_frame_sequencer.md R354). -/
theorem yields_decodeSymbols (n : Nat) : ∀ {s : State}, 1 ≤ s.params.fetchBytes → BrOk s →
    Yields (decodeSymbols n) s fun r t =>
      let x := residualsOf (frameBit s) (8 * s.br.len) s.params.wireFormat n s.br.ent s.br.p
      r = x.1 ∧ DecodeTo { decoderOf s with ent := x.2.1, p := x.2.2, err := s.frm.frameErr || x.1.isNone } s t := by
  induction n with
  | zero =>
    intro s hf ok
    refine Sat.pure ⟨rfl, ?_⟩
    have := DecodeTo.refl ok
    simpa [residualsOf, decoderOf] using this
  | succ n ih =>
    intro s hf ok
    rw [decodeSymbols, residualsOf]
    refine Yields.bind (Yields.call fun t ht => ?_)
    have h0 := DecodeTo.host ok ht
    have hb : t.br = s.br := by rw [ht]
    have he : t.frm = s.frm := by rw [ht]
    have hp : t.pred = s.pred := by rw [ht]
    refine (yields_uBrSymbol (by rw [h0.params]; exact hf) h0.ok).mono fun r u hu => ?_
    rw [h0.frameBit, h0.params, hb] at hu
    generalize evalWire (frameBit s) (8 * s.br.len) (wireSymbol s.params.wireFormat s.br.ent (8 * s.br.len) s.br.p) s.br.p = x at *
    obtain ⟨x, q⟩ := x
    have hd : decoderOf t = decoderOf s := by simp only [decoderOf, hb, he, hp]
    rw [hd] at hu
    cases x with
    | error er =>
      obtain ⟨rfl, hu⟩ := hu
      refine Sat.pure ⟨rfl, ?_⟩
      have := h0.trans hu
      simpa [decoderOf] using this
    | ok y =>
      obtain ⟨rfl, hu⟩ := hu
      have hsu := h0.trans hu
      refine Yields.bind ((ih (by rw [hsu.params]; exact hf) hsu.ok).mono fun r w hw => ?_)
      have h5 := hsu.here
      simp only [decoderOf, Decoder.mk.injEq] at h5
      rw [hsu.frameBit, hsu.params, hsu.len, h5.2.1, h5.2.2.1, h5.2.2.2.1, hsu.here] at hw
      dsimp only
      generalize residualsOf (frameBit s) (8 * s.br.len) s.params.wireFormat n y.ent q = z at *
      obtain ⟨z, e', q'⟩ := z
      obtain ⟨hr, hw⟩ := hw
      simp only at hr hw
      subst hr
      have hsw := hsu.trans hw
      cases r with
      | none => exact Sat.pure ⟨rfl, hsw⟩
      | some es => exact Sat.pure ⟨rfl, hsw⟩

theorem yields_packAll (vs : List Int) : ∀ {s : State}, Yields (packAll vs) s fun bs t =>
    bs = (vs.map (packSample s.cfg.bps)).flatten ∧ Alike s t := by
  induction vs with
  | nil => intro s; exact Sat.pure ⟨rfl, rfl⟩
  | cons v vs ih =>
    intro s
    rw [packAll]
    refine Yields.bind (Sat.get (Yields.bind (Yields.call fun t ht => Sat.pure ?_)))
    refine Yields.bind (ih.mono fun bs u hu => Sat.pure ⟨?_, hu.2.trans ht.alike⟩)
    rw [hu.1, ht.alike.cfg]
    rfl

theorem yields_finalize (vals : List Int) {s : State} : Yields (finalize vals) s fun blk t =>
    blk = finalizeOf s.params.unprepare s.cfg vals ∧ Alike s t := by
  unfold finalize
  refine Yields.bind (Yields.call fun t ht => Sat.bind (Sat.get (Sat.pure ?_)))
  refine (yields_packAll _).mono fun bs u hu => ⟨?_, hu.2.trans ht.alike⟩
  rw [hu.1, ht.alike.cfg, ht.alike.params]
  rfl

theorem yields_checked {d : Decoder} {s0 s : State} (blk : List Byte) (h : DecodeTo d s0 s) :
    Yields (checked blk) s fun b t => b = blk ∧ DecodeTo { d with ck := blk.foldl (ckUpdate s.params.checksum) d.ck } s0 t := by
  unfold checked
  refine Yields.bind (Yields.call fun t ht => Sat.modify (Sat.pure ⟨rfl, ?_⟩))
  obtain ⟨hok, hv, h1, h2, h3, h4, h5⟩ := h.trans (DecodeTo.host h.ok ht)
  refine ⟨hok.congr rfl rfl, hv, h1, h2, h3, h4, ?_⟩
  have hf : t.frm = s.frm := by rw [ht]
  have hb : t.br = s.br := by rw [ht]
  have hp : t.pred = s.pred := by rw [ht]
  have hpar : t.params = s.params := by rw [ht]
  rw [← h.here]
  simp only [decoderOf, hf, hb, hp, hpar]

theorem yields_silentBlock {d : Decoder} {s0 s : State} (h : DecodeTo d s0 s) :
    Yields silentBlock s fun b t => b = silenceBlock s.cfg ∧ DecodeTo d s0 t := by
  unfold silentBlock
  refine Yields.call fun t ht => Sat.bind (Sat.get (Sat.pure ⟨by rw [ht], ?_⟩))
  have := h.trans (DecodeTo.host h.ok ht)
  rwa [h.here] at this

/-- The bytes of one block (45_frame_sequencer.md R354). -/
theorem yields_blockBytes {s : State} (hf : 1 ≤ s.params.fetchBytes) (ok : BrOk s) :
    Yields blockBytes s fun b t =>
      let x := blockOf s.params s.cfg (frameBit s) (8 * s.br.len) s.frm.silent (decoderOf s)
      b = x.1 ∧ DecodeTo x.2 s t := by
  have hr := DecodeTo.refl ok
  unfold blockBytes blockOf
  refine Yields.bind (Sat.get ?_)
  show Yields _ s _
  split
  · rename_i he
    rw [if_pos (show (decoderOf s).err = true from he)]
    exact yields_silentBlock hr
  · rename_i he
    rw [if_neg (show ¬ (decoderOf s).err = true from he)]
    split
    · rename_i hs
      refine Yields.bind ((yields_silentBlock hr).mono fun b t ht => ?_)
      obtain ⟨rfl, ht⟩ := ht
      refine (yields_checked _ ht).mono fun b u hu => ?_
      rw [ht.params] at hu
      exact hu
    · rename_i hs
      refine Yields.bind ((yields_decodeSymbols _ hf ok).mono fun r t ht => ?_)
      rw [show (decoderOf s).ent = s.br.ent from rfl, show (decoderOf s).p = s.br.p from rfl]
      generalize residualsOf (frameBit s) (8 * s.br.len) s.params.wireFormat s.cfg.C s.br.ent s.br.p = x at *
      obtain ⟨x, e', q⟩ := x
      obtain ⟨hx, ht⟩ := ht
      simp only at hx ht
      subst hx
      have he' : s.frm.frameErr = false := by simpa using he
      cases r with
      | none =>
        simp only [Option.isNone_none, Bool.or_true] at ht
        refine (yields_silentBlock ht).mono fun b u hu => ?_
        rw [ht.cfg] at hu
        exact hu
      | some es =>
        simp only [Option.isNone_some, Bool.or_false] at ht
        have h5 := ht.here
        simp only [decoderOf, Decoder.mk.injEq] at h5
        refine Yields.bind ((yields_predictAll es (c := 0) (stages := s.cfg.stages) (P := s.pred) (by rw [ht.cfg]) h5.1).mono fun vs u hu => ?_)
        simp only [List.drop_zero, List.take_zero, List.nil_append] at hu
        have hu' := ht.trans (Alike.decodeTo ht.ok _ (by rw [length_predictOf, h5.1]) hu.2)
        refine Yields.bind ((yields_finalize vs).mono fun blk w hw => ?_)
        have hw' := hu'.trans (Alike.decodeTo hu'.ok u.pred rfl hw.2)
        refine (yields_checked _ hw').mono fun b y hy => ?_
        obtain ⟨hb0, hy⟩ := hy
        have h6 := hu'.here
        have h7 := ht.here
        rw [hw'.params] at hy
        have hb : blk = finalizeOf s.params.unprepare s.cfg (predictOf s.cfg.stages 0 s.pred es).1 := by
          rw [hw.1, hu'.params, hu'.cfg, hu.1]
        refine ⟨hb0.trans hb, ?_⟩
        have h8 : ({ decoderOf u with pred := u.pred } : Decoder) = decoderOf u := rfl
        rw [h8, h6, h7] at hy
        rw [hb] at hy
        exact hy

end Sys2Proof.Machine
end

