-- ==== Sys2Proof/Laws/Delivery.lean ====
section
/-! SUPPORT. The loop of GETDATA (46_host_commands.md R404): it delivers what it wants, and writes nothing but OUT. -/

namespace Sys2Proof.Machine

variable {e : Env} {φ : Prop}

/-- Forgets the memories. -/
def forgetMem (s : State) : State := { s with mem := [] }

/-- The position view without the memories: what GETDATA keeps. -/
def outView (e : Env) (s : State) : State := forgetMem (positionView e s)

/-- Memory has changed in the first n bytes of OUT alone, and kept its canonical form. -/
structure MemWithin (n : Nat) (s t : State) : Prop where
  outside : ∀ a, a < outBase ∨ outBase + n ≤ a → readByte t a = readByte s a
  wf : Memory.wf s.mem = true → Memory.wf t.mem = true

theorem MemWithin.of_eq {n : Nat} {s t : State} (hm : t.mem = s.mem) (he : t.epoch = s.epoch) : MemWithin n s t :=
  ⟨fun a _ => readByte_congr hm he a, fun h => by rw [hm]; exact h⟩

theorem MemWithin.trans {n : Nat} {s t u : State} (h : MemWithin n s t) (k : MemWithin n t u) : MemWithin n s u :=
  ⟨fun a ha => (k.outside a ha).trans (h.outside a ha), fun hs => k.wf (h.wf hs)⟩

theorem MemWithin.mono {n m : Nat} {s t : State} (h : MemWithin n s t) (hl : n ≤ m) : MemWithin m s t :=
  ⟨fun a ha => h.outside a (by omega), h.wf⟩

/-- How the loop may stop: n bounds the bytes of OUT written and k the blocks delivered. -/
def LoopStops (e : Env) (φ : Prop) (n k : Nat) (s : State) (st : Stop) (t : State) : Prop :=
  match st with
  | .ioFailure => e.noFail = false ∧ outView e t = outView e s ∧ e.failed t ∧ t.cur.skipBlocks < t.cfg.B ∧ MemWithin n s t ∧
      t.cur.curBlock ≤ s.cur.curBlock + k
  | .halted => HaltedFrom e (outView e) s t ∧ (Memory.wf s.mem = true → Memory.wf t.mem = true)
  | .fault _ => φ

theorem HaltedFrom.trans {γ : Type} {f : State → γ} {s t u : State} (h : f t = f s) (k : HaltedFrom e f t u) :
    HaltedFrom e f s u := StopsFrom.trans (φ := True) (st := .halted) h k

theorem LoopStops.trans {n k j : Nat} {s t u : State} {st : Stop} (hv : outView e t = outView e s) (hm : MemWithin n s t)
    (hk : t.cur.curBlock + j ≤ s.cur.curBlock + k) (h : LoopStops e φ n j t st u) : LoopStops e φ n k s st u := by
  cases st with
  | ioFailure =>
    obtain ⟨h1, h2, h3, h4, h5, h6⟩ := h
    exact ⟨h1, h2.trans hv, h3, h4, hm.trans h5, by omega⟩
  | halted => exact ⟨HaltedFrom.trans hv h.1, fun hw => h.2 (hm.wf hw)⟩
  | fault => exact h

/-- A stop that leaves the cursor and the memories alone. -/
theorem LoopStops.of_decode {n k : Nat} {s t : State} {st : Stop} (hsk : s.cur.skipBlocks < s.cfg.B)
    (h : StopsFrom e φ (decodeView e) s st t) : LoopStops e φ n k s st t := by
  cases st with
  | ioFailure =>
    obtain ⟨h1, h2, h3⟩ := h
    have hu : t.cur = s.cur := (congrArg State.cur h2 :)
    have hc : t.cfg = s.cfg := (congrArg State.cfg h2 :)
    exact ⟨h1, (congrArg (fun s => forgetMem (forgetCursor s)) h2 :), h3, by rw [hu, hc]; exact hsk,
      MemWithin.of_eq (congrArg State.mem h2 :) (congrArg State.epoch h2 :), by rw [hu]; omega⟩
  | halted =>
    refine ⟨StopsFrom.coarser (φ := True) (st := .halted) (fun s => forgetMem (forgetCursor s)) h, fun hw => ?_⟩
    obtain ⟨_, u, l, _, rfl⟩ | ⟨_, hu, _⟩ := h
    · rfl
    · have hm : t.mem = s.mem := (congrArg State.mem hu :)
      rw [hm]; exact hw
  | fault => exact h

/-- Refilling an empty ring (46_host_commands.md R404). -/
theorem sat_refill {s : State} {n k : Nat} (hs : e.holds s) (hl : SessionOk s) (hp : s.cur.resyncPending = false)
    (hlt : s.cfg.S + s.cur.curBlock < s.cfg.F) :
    Sat refill s
      (fun _ t => outView e t = outView e s ∧ e.holds t ∧ SessionOk t ∧ 0 < t.ring.count ∧ t.cur.curBlock = s.cur.curBlock ∧
        t.cur.resyncPending = false ∧ t.mem = s.mem ∧ t.epoch = s.epoch)
      (LoopStops e φ n k s) := by
  obtain ⟨hcfg, hring, hcur⟩ := hl
  refine Sat.bind (Sat.get ?_)
  split
  · rename_i h0
    have hnext := hcur.next h0 hp hlt
    have hF := hcfg.finish
    have hg : s.cur.nextFrame * s.cfg.B < s.cfg.total := by omega
    have hfb := frameBlocks_eq hcfg hg
    have hsk := hcur.skip
    refine (sat_pDecodeFrame (φ := φ) hs h0 hring.wr (Nat.le_trans (frameBlocks_le hcfg _) hring.room)).mono
      (fun _ t ht => ?_) fun st t h => LoopStops.of_decode hsk h
    obtain ⟨hv, hh, hrd, hcu, hcnt, hwr⟩ := ht
    have hc : t.cfg = s.cfg := (congrArg State.cfg hv :)
    have hpar : t.params = s.params := (congrArg State.params hv :)
    have hcap : t.ring.cap = s.ring.cap := (congrArg (fun s => s.ring.cap) hv :)
    have hroom := hring.room
    have hcount : s.cfg.S + s.cur.curBlock + t.ring.count = min (s.cur.nextFrame * s.cfg.B + s.cfg.B) s.cfg.F := by
      rw [hcnt, hfb]; omega
    have hpos : 0 < t.ring.count := by omega
    refine ⟨(congrArg forgetMem hv :), hh, ⟨by rw [hc]; exact hcfg, ?_, ?_⟩, hpos, by rw [hcu], by rw [hcu]; exact hp,
      (congrArg State.mem hv :), (congrArg State.epoch hv :)⟩
    · refine ⟨by rw [hcap, hc, hpar]; exact hring.cap, ?_, hwr, by rw [hrd, hcap]; exact hring.rd⟩
      rw [hcap, hcnt]
      have := frameBlocks_le hcfg s.cur.nextFrame
      omega
    · constructor
      · rw [hcu, hc]; simp only; omega
      · rw [hcu, hc]; exact hcfg.blocks
      · intro _; rw [hcu]
      · intro h; rw [hcu] at h; simp [hp] at h
      · intro h; omega
      · intro _
        rw [hcu, hc]
        simp only [Nat.succ_mul]
        exact hcount
  · rename_i h0
    exact Sat.pure ⟨rfl, hs, ⟨hcfg, hring, hcur⟩, by omega, rfl, hp, rfl, rfl⟩

theorem outView_curBlock (s : State) (n : Nat) : outView e { s with cur.curBlock := n } = outView e s := rfl

theorem outView_advanceRead (s : State) (n : Nat) : outView e (advanceRead n s) = outView e s := rfl

theorem outView_mem (s : State) (m : List Host.Cell) : outView e { s with mem := m } = outView e s := rfl

/-- Draining the ring into OUT (44_framebuffer.md R324, 46_host_commands.md R404). -/
theorem sat_drain {s : State} {w got n : Nat} (hs : e.holds s) (hl : SessionOk s) (hpos : 0 < s.ring.count)
    (hfit : (got + w) * s.cfg.BA ≤ n) :
    Sat (do
        let m ← call (uRingRead w (got * s.cfg.BA))
        modify fun s => { s with cur.curBlock := s.cur.curBlock + m }
        pure m) s
      (fun m t => m = min w s.ring.count ∧ outView e t = outView e s ∧ e.holds t ∧ SessionOk t ∧
        t.cur.curBlock = s.cur.curBlock + m ∧ t.cur.resyncPending = s.cur.resyncPending ∧ MemWithin n s t)
      (fun st t => StopsFrom e φ (decodeView e) s st t) := by
  obtain ⟨hcfg, hring, hcur⟩ := hl
  refine Sat.bind (Sat.call (φ := φ) hs (fun t ht hte => ?_) fun st t h => h.coarser forgetToDecode)
  have hr : t.ring = s.ring := (congrArg State.ring ht :)
  have hc : t.cfg = s.cfg := (congrArg State.cfg ht :)
  have hpar : t.params = s.params := (congrArg State.params ht :)
  have hu : t.cur = s.cur := (congrArg State.cur ht :)
  have hm : t.mem = s.mem := (congrArg State.mem ht :)
  have hep : t.epoch = s.epoch := (congrArg State.epoch ht :)
  have hmem : MemWithin n t (copyBlocks (got * s.cfg.BA) (List.range (min w t.ring.count)) t) := by
    have hle : (got + min w t.ring.count) * s.cfg.BA ≤ (got + w) * s.cfg.BA := Nat.mul_le_mul_right _ (by omega)
    refine ⟨fun a ha => ?_, fun h => wf_copyBlocks _ _ _ h⟩
    rw [readByte_copyBlocks, hc, if_neg (by rw [Nat.add_mul] at hle; omega)]
  obtain ⟨M, hM⟩ : ∃ M, copyBlocks (got * s.cfg.BA) (List.range (min w t.ring.count)) t = { t with mem := M } :=
    ⟨_, copyBlocks_eq _ _ _⟩
  rw [hM] at hmem
  refine Sat.bind (Sat.get (Sat.bind (Sat.set (Sat.pure (Sat.bind (Sat.modify (Sat.pure ?_)))))))
  rw [hM]
  have hcnt := hring.count
  have hmod : 0 < s.ring.cap := by have := hring.rd; omega
  have hview : outView e t = outView e s := (congrArg (fun s => forgetMem (forgetCursor (forgetToDecode s))) ht :)
  refine ⟨by rw [hr], (outView_curBlock _ _).trans ((outView_advanceRead _ _).trans ((outView_mem _ _).trans hview)), hte, ⟨?_, ?_, ?_⟩, ?_, ?_, ?_⟩
  · show CfgOk t.cfg
    rw [hc]; exact hcfg
  · constructor <;> simp only [advanceRead, hr, hc, hpar]
    · exact hring.cap
    · omega
    · rw [hring.wr, Nat.mod_add_mod]; congr 1; omega
    · exact Nat.mod_lt _ hmod
  · have h1 := hcur.inRange
    have h2 := hcur.skip
    have h3 := hcur.noSkip hpos
    have h4 := hcur.buffered hpos
    have h5 := hcur.pending
    constructor <;> simp only [advanceRead, hr, hc, hu]
    · omega
    · exact h2
    · intro _; exact h3
    · intro h; have := h5 h; omega
    · intro h _ hlt; omega
    · intro h; omega
  · show t.cur.curBlock + _ = _
    rw [hu]
  · show t.cur.resyncPending = _
    rw [hu]
  · exact (MemWithin.of_eq hm hep).trans (hmem.trans (MemWithin.of_eq rfl rfl))

/-- The loop of GETDATA delivers `want` blocks, whatever the frames hold. -/
theorem sat_deliverLoop {want n : Nat} (left : Nat) : ∀ {got : Nat} {s : State}, e.holds s → SessionOk s → got ≤ want →
    want ≤ got + left → s.cfg.S + s.cur.curBlock + (want - got) ≤ s.cfg.F → (got < want → s.cur.resyncPending = false) →
    want * s.cfg.BA ≤ n →
    Sat (deliverLoop want left got) s
      (fun r t => r = want ∧ outView e t = outView e s ∧ e.holds t ∧ SessionOk t ∧
        t.cur.curBlock = s.cur.curBlock + (want - got) ∧ t.cur.resyncPending = s.cur.resyncPending ∧ MemWithin n s t)
      (LoopStops e φ n (want - got) s) := by
  induction left with
  | zero =>
    intro got s hs hl h1 h2 h3 h4 h5
    rw [deliverLoop]
    exact Sat.pure ⟨by omega, rfl, hs, hl, by omega, rfl, MemWithin.of_eq rfl rfl⟩
  | succ left ih =>
    intro got s hs hl h1 h2 h3 h4 h5
    rw [deliverLoop]
    split
    · rename_i hg
      have hp := h4 hg
      refine Sat.bind ((sat_refill (φ := φ) (n := n) (k := want - got) hs hl hp (by omega)).mono (fun _ t ht => ?_) fun _ _ h => h)
      obtain ⟨hv, hh, hlt, hpos, hcb, hpt, hm, hep⟩ := ht
      have hc : t.cfg = s.cfg := (congrArg State.cfg hv :)
      have hmw : MemWithin n s t := MemWithin.of_eq hm hep
      refine Sat.bind (Sat.get ?_)
      have key := sat_drain (φ := φ) (w := want - got) (got := got) (n := n) hh hlt hpos (by
        rw [hc, show got + (want - got) = want by omega]; exact h5)
      have step : Sat (do
          let m ← (do
            let m ← call (uRingRead (want - got) (got * t.cfg.BA))
            modify fun s => { s with cur.curBlock := s.cur.curBlock + m }
            pure m)
          deliverLoop want left (got + m)) t
          (fun r u => r = want ∧ outView e u = outView e s ∧ e.holds u ∧ SessionOk u ∧
            u.cur.curBlock = s.cur.curBlock + (want - got) ∧ u.cur.resyncPending = s.cur.resyncPending ∧ MemWithin n s u)
          (LoopStops e φ n (want - got) s) := by
        refine Sat.bind (key.mono (fun m u hu => ?_) fun st u h =>
          (LoopStops.of_decode (k := want - got) hlt.cursor.skip h).trans hv hmw (by omega))
        obtain ⟨hmeq, hvu, hhu, hlu, hcu, hpu, hmu⟩ := hu
        have hcu' : u.cfg = s.cfg := (congrArg State.cfg hvu :).trans hc
        have hm1 : 1 ≤ m := by omega
        have hm2 : m ≤ want - got := by omega
        refine (ih hhu hlu (by omega) (by omega) (by rw [hcu', hcu, hcb]; omega) (fun _ => hpu.trans hpt) (by rw [hcu']; exact h5)).mono
          (fun r w hw => ?_) fun st w h => h.trans (hvu.trans hv) (hmw.trans hmu) (by rw [hcu, hcb]; omega)
        obtain ⟨hr, hvw, hhw, hlw, hcw, hpw, hmw'⟩ := hw
        exact ⟨hr, hvw.trans (hvu.trans hv), hhw, hlw, by rw [hcw, hcu, hcb]; omega, by rw [hpw, hpu, hpt, hp],
          (hmw.trans hmu).trans hmw'⟩
      simpa only [bind_assoc, pure_bind] using step
    · exact Sat.pure ⟨by omega, rfl, hs, hl, by omega, rfl, MemWithin.of_eq rfl rfl⟩

end Sys2Proof.Machine
end

