-- ==== Sys2Proof/Laws/Commands.lean ====
section
/-! SUPPORT. What the host commands do, said once: GETDATA, SEEK, RELEASE and the parts of INIT (46_host_commands.md R402 to R405,
R417), each with its three ends: completed, I/O failure, over without a completion. -/

namespace Sys2Proof.Machine

variable {α : Type} {e : Env} {φ : Prop}

/-- A completion after the last micro-operation. -/
theorem sat_finishWith {f : State → State} {s : State} {Q : Unit → State → Prop} {E : Stop → State → Prop} (hs : e.holds s)
    (hq : ∀ u, hostBlank e u = hostBlank e s → e.holds u → Q () (f u))
    (hE : ∀ st t, StopsFrom e φ (hostBlank e) s st t → E st t) : Sat (finishWith f) s Q E :=
  Sat.bind ((Keeps.interleave (φ := φ) hostFree_hostBlank s hs).mono (fun _ t ht => hq t ht.1 ht.2) hE)

theorem sessionOpen_iff (s : State) : sessionOpen s = true ↔ s.life.initFailed = false ∧ s.life.fsm = .ready := by
  simp [sessionOpen]

/-- What SessionOk depends on. -/
theorem SessionOk.congr {s t : State} (h : SessionOk s) (hp : t.params = s.params) (hc : t.cfg = s.cfg) (hr : t.ring = s.ring)
    (h1 : t.cur.curBlock = s.cur.curBlock) (h2 : t.cur.nextFrame = s.cur.nextFrame)
    (h3 : t.cur.skipBlocks = s.cur.skipBlocks) (h4 : t.cur.resyncPending = s.cur.resyncPending) : SessionOk t := by
  obtain ⟨ha, ⟨b1, b2, b3, b4⟩, ⟨c1, c2, c3, c4, c5, c6⟩⟩ := h
  constructor
  · rw [hc]; exact ha
  · constructor <;> simp only [hp, hc, hr] <;> assumption
  · constructor <;> simp only [hc, hr, h1, h2, h3, h4] <;> assumption

theorem SessionOk.congr_hostBlank {s t : State} (h : SessionOk s) (ht : hostBlank e t = hostBlank e s) : SessionOk t := by
  have hcur : t.cur = s.cur := (congrArg State.cur ht :)
  exact h.congr (congrArg State.params ht :) (congrArg State.cfg ht :) (congrArg State.ring ht :) (by rw [hcur]) (by rw [hcur])
    (by rw [hcur]) (by rw [hcur])

/-- The blocks a GETDATA delivers fit in OUT (46_host_commands.md R404). -/
theorem wantOf_fits {n : Nat} {s : State} (h : n ≤ s.params.outbufBytes / s.cfg.BA) : wantOf n s * s.cfg.BA ≤ s.params.outbufBytes :=
  Nat.le_trans (Nat.mul_le_mul_right _ (Nat.le_trans (Nat.min_le_left _ _) h)) (Nat.div_mul_le_self _ _)

/-- The cursor at block b. -/
def positioned (b : Nat) (s : State) : Cursor :=
  { s.cur with nextFrame := (s.cfg.S + b) / s.cfg.B, skipBlocks := (s.cfg.S + b) % s.cfg.B, curBlock := b,
               resyncPending := decide (b = s.cfg.F - s.cfg.S) }

/-- Positioning leaves a cursor and a ring in order (10_state.md R39, R52). -/
theorem SessionOk.of_positioned {b : Nat} {s t : State} (hcfg : CfgOk s.cfg)
    (hcap : s.ring.cap = s.params.ringFrames * s.cfg.B) (hpos : 0 < s.ring.cap) (hb : b ≤ s.cfg.F - s.cfg.S)
    (hv : positionView e t = positionView e s) (hrd : t.ring.rd = 0) (hwr : t.ring.wr = 0) (hcnt : t.ring.count = 0)
    (hcur : t.cur = positioned b s) : SessionOk t := by
  have hc : t.cfg = s.cfg := (congrArg State.cfg hv :)
  have hp : t.params = s.params := (congrArg State.params hv :)
  have hcp : t.ring.cap = s.ring.cap := (congrArg (fun s => s.ring.cap) hv :)
  have hB := hcfg.blocks
  refine ⟨by rw [hc]; exact hcfg, ?_, ?_⟩
  · constructor
    · rw [hcp, hc, hp, hcap]
    · rw [hcnt]; omega
    · rw [hrd, hwr, hcnt]; simp
    · rw [hrd, hcp]; exact hpos
  · constructor
    · rw [hcur, hc, hcnt]; simpa [positioned] using hb
    · rw [hcur, hc]; exact Nat.mod_lt _ (by omega)
    · intro h; omega
    · intro _; exact hcnt
    · intro _ _ _
      rw [hcur, hc]
      have h1 := Nat.div_add_mod (s.cfg.S + b) s.cfg.B
      simp only [positioned]
      rw [Nat.mul_comm]
      omega
    · intro h; omega

theorem sat_pPosition_ok {b n k : Nat} {s : State} (hs : e.holds s) (hcfg : CfgOk s.cfg)
    (hcap : s.ring.cap = s.params.ringFrames * s.cfg.B) (hpos : 0 < s.ring.cap) (hb : b ≤ s.cfg.F - s.cfg.S)
    (hsk : s.cur.skipBlocks < s.cfg.B) :
    Sat (pPosition b) s
      (fun _ t => positionView e t = positionView e s ∧ e.holds t ∧ SessionOk t ∧ t.ring.count = 0 ∧ t.cur = positioned b s)
      (LoopStops e φ n k s) :=
  (sat_pPosition (φ := φ) b hs).mono
    (fun _ _ ⟨hv, hh, hrd, hwr, hcnt, hcur⟩ =>
      ⟨hv, hh, SessionOk.of_positioned hcfg hcap hpos hb hv hrd hwr hcnt hcur, hcnt, hcur⟩)
    fun _ _ h => LoopStops.of_decode hsk h

/-! ## GETDATA -/

/-- The state of a GETDATA or SEEK past its checks. -/
def enterCommand (f : Fsm) (s : State) : State := { s with life.fsm := f, cur.entryBlock := s.cur.curBlock }

theorem SessionOk.enter {s : State} (f : Fsm) (h : SessionOk s) : SessionOk (enterCommand f s) :=
  h.congr rfl rfl rfl rfl rfl rfl rfl

theorem sat_reposition {s : State} {n k : Nat} (hs : e.holds s) (hl : SessionOk s) :
    Sat reposition s
      (fun _ t => positionView e t = positionView e s ∧ e.holds t ∧ SessionOk t ∧ t.cur.curBlock = s.cur.curBlock ∧
        (s.cfg.S + s.cur.curBlock < s.cfg.F → t.cur.resyncPending = false))
      (LoopStops e φ n k s) := by
  refine Sat.bind (Sat.get ?_)
  have hin := hl.cursor.inRange
  split
  · have hrd := hl.ring.rd
    refine (sat_pPosition_ok (φ := φ) hs hl.cfg hl.ring.cap (by omega) (by omega) hl.cursor.skip).mono (fun _ t ht => ?_)
      fun _ _ h => h
    obtain ⟨hv, hh, hlt, _, hcur⟩ := ht
    refine ⟨hv, hh, hlt, by rw [hcur]; rfl, fun h => ?_⟩
    rw [hcur]
    simp only [positioned, decide_eq_false_iff_not]
    omega
  · rename_i hp
    exact Sat.pure ⟨rfl, hs, hl, rfl, fun _ => by simpa using hp⟩

/-- GETDATA past its checks (46_host_commands.md R404). -/
theorem sat_getdataRun (n : Nat) {s : State} (hs : e.holds s) (hl : SessionOk s) :
    Sat (getdataRun n) s
      (fun _ t => ∃ u, t = getdataDone n (wantOf n s) u ∧ outView e u = outView e (enterCommand .decoding s) ∧ e.holds u ∧
        SessionOk u ∧ u.cur.curBlock = s.cur.curBlock + wantOf n s ∧ MemWithin (wantOf n s * s.cfg.BA) s u)
      (LoopStops e φ (wantOf n s * s.cfg.BA) (wantOf n s) (enterCommand .decoding s)) := by
  refine Sat.bind (Sat.modify ?_)
  have hs' : e.holds (enterCommand .decoding s) := hs
  refine Sat.bind ((sat_reposition (φ := φ) hs' (hl.enter .decoding)).mono (fun _ t ht => ?_) fun _ _ h => h)
  obtain ⟨hv, hh, hlt, hcb, hp⟩ := ht
  have hc : t.cfg = s.cfg := (congrArg State.cfg hv :)
  have hcb' : t.cur.curBlock = s.cur.curBlock := hcb
  have hw : wantOf n t = wantOf n s := by simp only [wantOf, hc, hcb']
  have hvo : outView e t = outView e (enterCommand .decoding s) := (congrArg forgetMem hv :)
  have hmw : MemWithin (wantOf n s * s.cfg.BA) (enterCommand .decoding s) t :=
    MemWithin.of_eq (congrArg State.mem hv :) (congrArg State.epoch hv :)
  have hin := hl.cursor.inRange
  have hSF := hl.cfg.range
  have hwant : wantOf n s ≤ (s.cfg.F - s.cfg.S) - s.cur.curBlock := by unfold wantOf; omega
  have hp' : 0 < wantOf n s → t.cur.resyncPending = false := fun h => hp (by
    show s.cfg.S + s.cur.curBlock < s.cfg.F
    omega)
  refine Sat.bind (Sat.get ?_)
  rw [hw]
  refine Sat.bind ((sat_deliverLoop (φ := φ) (want := wantOf n s) (n := wantOf n s * s.cfg.BA) (wantOf n s) hh hlt (Nat.zero_le _)
    (by omega) (by rw [hc, hcb']; omega) hp' (by rw [hc])).mono (fun r u hu => ?_) fun st u h => ?_)
  · obtain ⟨rfl, hvu, hhu, hlu, hcu, _, hmu⟩ := hu
    have hmem : MemWithin (wantOf n s * s.cfg.BA) (enterCommand .decoding s) u := hmw.trans hmu
    refine sat_finishWith (φ := φ) hhu (fun w hw hhw => ⟨w, rfl, ?_, hhw, hlu.congr_hostBlank hw, ?_, ?_⟩) fun st w h => ?_
    · exact (congrArg (fun s => forgetMem (forgetCursor (forgetToDecode s))) hw :).trans (hvu.trans hvo)
    · have : w.cur = u.cur := (congrArg State.cur hw :)
      rw [this, hcu, hcb']; omega
    · have := hmem.trans (MemWithin.of_eq (congrArg State.mem hw :) (congrArg State.epoch hw :))
      exact ⟨this.outside, this.wf⟩
    · refine (LoopStops.of_decode (k := 0) hlu.cursor.skip (h.coarser forgetToDecode)).trans (hvu.trans hvo) hmem ?_
      rw [hcu, hcb]; show _ ≤ s.cur.curBlock + _; rw [hcb'] at *; simp only [enterCommand]; omega
  · exact h.trans hvo hmw (by rw [hcb]; show s.cur.curBlock + _ ≤ s.cur.curBlock + _; omega)

/-! ## SEEK -/

theorem positionView_curBlock (s : State) (n : Nat) : positionView e { s with cur.curBlock := n } = positionView e s := rfl

theorem positionView_advanceRead (s : State) (n : Nat) : positionView e (advanceRead n s) = positionView e s := rfl

/-- Blocks that leave the ring leave the session in order. -/
theorem SessionOk.drop {s : State} {m : Nat} (hl : SessionOk s) (hp : s.cur.resyncPending = false) (hm : m ≤ s.ring.count) :
    SessionOk { advanceRead m s with cur.curBlock := s.cur.curBlock + m } := by
  have h3 := hl.ring.count
  have h4 := hl.ring.rd
  have c1 := hl.cursor.inRange
  have c3 := hl.cursor.noSkip
  have c4 := hl.cursor.buffered
  have c5 := hl.cursor.next
  refine ⟨hl.cfg, ?_, ?_⟩
  · constructor <;> simp only [advanceRead]
    · exact hl.ring.cap
    · omega
    · rw [hl.ring.wr, Nat.mod_add_mod]; congr 1; omega
    · exact Nat.mod_lt _ (by omega)
  · constructor <;> simp only [advanceRead]
    · omega
    · exact hl.cursor.skip
    · intro h; exact c3 (by omega)
    · intro h; rw [hp] at h; cases h
    · intro h _ hlt
      rcases Nat.eq_zero_or_pos s.ring.count with h0 | h0
      · have := c5 h0 hp (by omega); omega
      · have := c4 h0; have := c3 h0; omega
    · intro h; have := c4 (by omega); omega

/-- SEEK past its checks (46_host_commands.md R405). -/
theorem sat_seekRun (b : Nat) {s : State} (hs : e.holds s) (hl : SessionOk s) (hb : b ≤ s.cfg.F - s.cfg.S) :
    Sat (seekRun b) s
      (fun _ t => ∃ u, t = complete .success 0 0 { u with life.fsm := .ready } ∧
        positionView e u = positionView e (enterCommand .seeking s) ∧ e.holds u ∧ SessionOk u ∧ u.cur.curBlock = b)
      (LoopStops e φ 0 b (enterCommand .seeking s)) := by
  refine Sat.bind (Sat.modify ?_)
  have hs' : e.holds (enterCommand .seeking s) := hs
  have hl' := hl.enter .seeking
  change Sat _ (enterCommand .seeking s) _ _
  generalize hs0 : enterCommand .seeking s = s0 at *
  have hb0 : b ≤ s0.cfg.F - s0.cfg.S := by rw [← hs0]; exact hb
  have last : ∀ t, e.holds t → positionView e t = positionView e s0 → SessionOk t → t.cur.curBlock = b →
      Sat (finishWith fun s => complete .success 0 0 { s with life.fsm := .ready }) t
        (fun _ t => ∃ u, t = complete .success 0 0 { u with life.fsm := .ready } ∧ positionView e u = positionView e s0 ∧
          e.holds u ∧ SessionOk u ∧ u.cur.curBlock = b) (LoopStops e φ 0 b s0) := by
    intro t ht hv hlt hcb
    refine sat_finishWith (φ := φ) ht (fun w hw hhw => ⟨w, rfl, ?_, hhw, hlt.congr_hostBlank hw, ?_⟩) fun st w h => ?_
    · exact (congrArg (fun s => forgetCursor (forgetToDecode s)) hw :).trans hv
    · have : w.cur = t.cur := (congrArg State.cur hw :)
      rw [this, hcb]
    · exact (LoopStops.of_decode (k := 0) hlt.cursor.skip (h.coarser forgetToDecode)).trans (congrArg forgetMem hv :)
        (MemWithin.of_eq (congrArg State.mem hv :) (congrArg State.epoch hv :)) (by omega)
  refine Sat.bind (Sat.get ?_)
  split
  · rename_i hshort
    simp only [seekShort, Bool.and_eq_true, Bool.not_eq_true', decide_eq_true_eq] at hshort
    obtain ⟨⟨hp, h1⟩, h2⟩ := hshort
    dsimp only
    refine Sat.bind (Sat.call (φ := φ) hs' (fun t ht hte => ?_) fun st t h =>
      LoopStops.of_decode hl'.cursor.skip (h.coarser forgetToDecode))
    have hr : t.ring = s0.ring := (congrArg State.ring ht :)
    have hc : t.cfg = s0.cfg := (congrArg State.cfg ht :)
    have hpar : t.params = s0.params := (congrArg State.params ht :)
    have hu : t.cur = s0.cur := (congrArg State.cur ht :)
    refine Sat.modify ?_
    rw [dropBlocks_of_le (by rw [hr]; omega)]
    refine Sat.bind (Sat.modify ?_)
    have hlt : SessionOk t := hl'.congr hpar hc hr (by rw [hu]) (by rw [hu]) (by rw [hu]) (by rw [hu])
    have hcb : t.cur.curBlock = s0.cur.curBlock := by rw [hu]
    have h4 := hlt.drop (m := b - s0.cur.curBlock) (by rw [hu]; exact hp) (by rw [hr]; omega)
    rw [show t.cur.curBlock + (b - s0.cur.curBlock) = b by omega] at h4
    refine last _ hte ?_ h4 rfl
    have hv : positionView e t = positionView e s0 := (congrArg (fun s => forgetCursor (forgetToDecode s)) ht :)
    exact (positionView_curBlock _ _).trans ((positionView_advanceRead _ _).trans hv)
  · have hrd := hl'.ring.rd
    refine Sat.bind ((sat_pPosition_ok (φ := φ) hs' hl'.cfg hl'.ring.cap (by omega) hb0 hl'.cursor.skip).mono
      (fun _ t ht => ?_) fun _ _ h => h)
    obtain ⟨hv, hh, hlt, _, hcur⟩ := ht
    exact last t hh hv hlt (by rw [hcur]; rfl)

/-! ## INIT -/

/-- Forgets ring.cap. -/
def forgetCap (s : State) : State := { s with ring := { s.ring with cap := 0 } }

/-- The position view without ring.cap: what INIT keeps from the configuration on. -/
def initView (e : Env) (s : State) : State := forgetCap (positionView e s)

/-- From the decode view to the init view. -/
def forgetToInit (s : State) : State := forgetCap (forgetCursor s)

theorem keeps_probeHeader : Keeps e φ (blockView e) probeHeader := Keeps.get fun s hs => by
  split
  · exact Sat.pure ⟨rfl, hs⟩
  · refine Keeps.here hs (Keeps.bind (Keeps.call hostFree_blockView (keeps_uSrcSeek _).toBlock) fun _ => ?_)
    refine Keeps.bind (Keeps.call hostFree_blockView (keeps_uBrReset _ _).toBlock) fun _ => ?_
    refine Keeps.bind (Keeps.update (fun _ => rfl) fun _ => rfl) fun _ => ?_
    exact Keeps.bind (Keeps.call hostFree_blockView keeps_uBrHeader) fun _ => Keeps.get fun _ ht => Sat.pure ⟨rfl, ht⟩

/-- The opening of a session (46_host_commands.md R402): ring, predictors, position 0. -/
theorem sat_openSession {s : State} (hs : e.holds s) (hcfg : CfgOk s.cfg) (hrf : 1 ≤ s.params.ringFrames) :
    Sat openSession s
      (fun _ t => initView e t = initView e s ∧ e.holds t ∧ SessionOk t ∧ t.ring.count = 0 ∧ t.cur = positioned 0 s)
      (StopsFrom e φ (initView e) s) := by
  refine Sat.bind (Sat.modify ?_)
  generalize hs0 : ({ s with ring.cap := s.params.ringFrames * s.cfg.B } : State) = s0
  have hs0' : e.holds s0 := by rw [← hs0]; exact hs
  have hv0 : initView e s0 = initView e s := by rw [← hs0]; rfl
  have hcap : s0.ring.cap = s0.params.ringFrames * s0.cfg.B := by rw [← hs0]
  have hcfg0 : s0.cfg = s.cfg := by rw [← hs0]
  have hcur0 : s0.cur = s.cur := by rw [← hs0]
  have hpar0 : s0.params = s.params := by rw [← hs0]
  have hpos : 0 < s0.ring.cap := by
    rw [hcap, hpar0, hcfg0]
    exact Nat.mul_pos hrf hcfg.blocks
  refine Sat.bind ((Keeps.call (φ := φ) hostFree_decodeView keeps_uRingReset s0 hs0').mono (fun _ t ht => ?_) fun st t h =>
    (h.coarser forgetToInit).trans hv0)
  refine Sat.bind (Sat.get ?_)
  refine Sat.bind (((Keeps.forEach (φ := φ) hostFree_blockView keeps_uPredReset _) t ht.2).mono (fun _ u hu => ?_) fun st u h => ?_)
  · have hdu : decodeView e u = decodeView e s0 :=
      (congrArg (fun s => forgetRing (forgetData (forgetErrors (forgetFrame s)))) hu.1 :).trans ht.1
    refine Sat.bind (Sat.modify ?_)
    generalize hw : ({ u with cur.resyncPending := false } : State) = w
    have hwv : positionView e w = positionView e s0 := by
      rw [← hw]; exact Eq.trans (b := positionView e u) rfl (congrArg forgetCursor hdu)
    have hwh : e.holds w := by rw [← hw]; exact hu.2
    have hcw : w.cfg = s0.cfg := (congrArg State.cfg hwv :)
    have hpw : w.params = s0.params := (congrArg State.params hwv :)
    have hrw : w.ring.cap = s0.ring.cap := (congrArg (fun s => s.ring.cap) hwv :)
    have huw : u.cur = s0.cur := (congrArg State.cur hdu :)
    refine (sat_pPosition (φ := φ) 0 hwh).mono (fun _ v hv => ?_) fun st v h => ?_
    · obtain ⟨hvv, hh, hrd, hwr, hcnt, hcur⟩ := hv
      refine ⟨(congrArg forgetCap (hvv.trans hwv) :).trans hv0, hh,
        SessionOk.of_positioned (b := 0) (by rw [hcw, hcfg0]; exact hcfg) (by rw [hrw, hcw, hpw]; exact hcap) (by rw [hrw]; exact hpos)
          (Nat.zero_le _) hvv hrd hwr hcnt hcur, hcnt, ?_⟩
      rw [hcur, ← hw]
      show positioned 0 { u with cur.resyncPending := false } = _
      have hcu : u.cfg = s0.cfg := (congrArg State.cfg hdu :)
      simp only [positioned, hcu, huw, hcfg0, hcur0]
    · exact (h.coarser forgetToInit).trans ((congrArg forgetCap hwv :).trans hv0)
  · have hvt : initView e t = initView e s0 := (congrArg forgetToInit ht.1 :)
    exact StopsFrom.trans (f := initView e) (hvt.trans hv0)
      (h.coarser fun s => forgetToInit (forgetRing (forgetData (forgetErrors (forgetFrame s)))))

/-- The end of an INIT (46_host_commands.md R402, R403). -/
inductive InitEnd (e : Env) (s t : State) : Prop where
  | opened (u : State) (done : t = initDone u) (view : initView e u = initView e s) (holds : e.holds u) (ok : SessionOk u)
      (empty : u.ring.count = 0) (cur : u.cur = positioned 0 s)
  | failed (u : State) (done : t = initFail .invalidStream u) (view : initView e u = initView e s) (holds : e.holds u)

/-- From the size check to the end (46_host_commands.md R403 steps 4 to 6, R402). -/
theorem sat_initStream {s : State} (hs : e.holds s) (hcfg : CfgOk s.cfg) (hrf : 1 ≤ s.params.ringFrames) :
    Sat initStream s (fun _ t => InitEnd e s t) (StopsFrom e φ (initView e) s) := by
  have fail : ∀ t, e.holds t → initView e t = initView e s →
      Sat (finishWith (initFail .invalidStream)) t (fun _ t => InitEnd e s t) (StopsFrom e φ (initView e) s) := by
    intro t ht hv
    refine sat_finishWith (φ := φ) ht (fun w hw hhw => .failed w rfl ?_ hhw) fun st w h => ?_
    · exact (congrArg (fun s => forgetToInit (forgetToDecode s)) hw :).trans hv
    · exact (h.coarser fun s => forgetToInit (forgetToDecode s)).trans hv
  refine Sat.bind ((Keeps.call (φ := φ) hostFree_blockView keeps_uSrcSize.toBlock s hs).mono (fun z t ht => ?_) fun st t h =>
    h.coarser fun s => forgetToInit (forgetRing (forgetData (forgetErrors (forgetFrame s)))))
  have hvt : initView e t = initView e s :=
    (congrArg (fun s => forgetToInit (forgetRing (forgetData (forgetErrors (forgetFrame s))))) ht.1 :)
  have hct : t.cfg = s.cfg := (congrArg State.cfg ht.1 :)
  have hpt : t.params = s.params := (congrArg State.params ht.1 :)
  have hkt : t.cur = s.cur := (congrArg State.cur ht.1 :)
  refine Sat.bind (Sat.get ?_)
  split
  · refine Sat.bind ((keeps_probeHeader (φ := φ) t ht.2).mono (fun ok u hu => ?_) fun st u h =>
      (h.coarser fun s => forgetToInit (forgetRing (forgetData (forgetErrors (forgetFrame s))))).trans hvt)
    have hvu : initView e u = initView e s :=
      (congrArg (fun s => forgetToInit (forgetRing (forgetData (forgetErrors (forgetFrame s))))) hu.1 :).trans hvt
    have hcu : u.cfg = s.cfg := (congrArg State.cfg hu.1 :).trans hct
    have hpu : u.params = s.params := (congrArg State.params hu.1 :).trans hpt
    have hku : u.cur = s.cur := (congrArg State.cur hu.1 :).trans hkt
    split
    · refine Sat.bind ((sat_openSession (φ := φ) hu.2 (by rw [hcu]; exact hcfg) (by rw [hpu]; exact hrf)).mono
        (fun _ v hv => ?_) fun st v h => h.trans hvu)
      obtain ⟨hvv, hh, hl, hcnt, hcur⟩ := hv
      refine sat_finishWith (φ := φ) hh (fun w hw hhw => .opened w rfl ?_ hhw (hl.congr_hostBlank hw) ?_ ?_) fun st w h => ?_
      · exact ((congrArg (fun s => forgetToInit (forgetToDecode s)) hw :).trans hvv).trans hvu
      · have : w.ring = v.ring := (congrArg State.ring hw :)
        rw [this, hcnt]
      · have : w.cur = v.cur := (congrArg State.cur hw :)
        rw [this, hcur]
        simp only [positioned, hcu, hku]
      · exact ((h.coarser fun s => forgetToInit (forgetToDecode s)).trans hvv).trans hvu
    · exact fail u hu.2 hvu
  · exact fail t ht.2 hvt

/-! ## RELEASE -/

/-- RELEASE past its state check (46_host_commands.md R417). -/
theorem sat_releaseRun {s : State} (hs : e.holds s) :
    Sat releaseRun s
      (fun _ t => ∃ u, t = releaseDone u ∧ decodeView e u = decodeView e s ∧ e.holds u ∧ u.ring.rd = 0 ∧ u.ring.wr = 0 ∧
        u.ring.count = 0 ∧ u.life = s.life)
      (StopsFrom e φ (decodeView e) s) := by
  refine Sat.bind (Sat.call (φ := φ) hs (fun t ht hte => ?_) fun st t h => h.coarser forgetToDecode)
  refine Sat.modify (Sat.bind (Sat.get ?_))
  have hv : decodeView e (ringReset t) = decodeView e s := (congrArg forgetToDecode ht :)
  have hh : e.holds (ringReset t) := hte
  refine Sat.bind ((Keeps.forEach (φ := φ) hostFree_blockView keeps_uPredReset _ _ hh).mono (fun _ u hu => ?_) fun st u h =>
    (h.coarser fun s => forgetRing (forgetData (forgetErrors (forgetFrame s)))).trans hv)
  have hvu : decodeView e u = decodeView e s :=
    (congrArg (fun s => forgetRing (forgetData (forgetErrors (forgetFrame s)))) hu.1 :).trans hv
  have hr : u.ring = (ringReset t).ring := (congrArg State.ring hu.1 :)
  have hl : u.life = s.life := (congrArg State.life hu.1 :).trans (congrArg State.life ht :)
  refine sat_finishWith (φ := φ) hu.2 (fun w hw hhw => ⟨w, rfl, (congrArg forgetToDecode hw :).trans hvu, hhw, ?_⟩) fun st w h =>
    (h.coarser forgetToDecode).trans hvu
  have hrw : w.ring = (ringReset t).ring := (congrArg State.ring hw :).trans hr
  have hlw : w.life = s.life := (congrArg State.life hw :).trans hl
  rw [hrw]
  exact ⟨rfl, rfl, rfl, hlw⟩

end Sys2Proof.Machine
end

