-- ==== Sys2Proof/Laws/Frames.lean ====
section
/-! SUPPORT. What one frame decodes to (45_frame_sequencer.md R353 to R356): where P_DECODE_FRAME's parts yield a value, the ring and
the predictors are those of `frameOf` in Safety.lean. -/

namespace Sys2Proof.Machine

/-! ## Sizes -/

theorem length_packSample {bps : Nat} (h : bps = 8 ∨ bps = 16 ∨ bps = 24 ∨ bps = 32) (v : Int) :
    (packSample bps v).length = bps / 8 := by
  obtain rfl | rfl | rfl | rfl := h <;> exact length_leBytes _ _

theorem CfgOk.bytes {c : SessionCfg} (h : CfgOk c) : c.BA = c.C * (c.bps / 8) := by
  rw [h.align]
  obtain h | h | h | h := h.depth <;> rw [h] <;> omega

theorem length_flatten_pack {bps : Nat} (h : bps = 8 ∨ bps = 16 ∨ bps = 24 ∨ bps = 32) (vals : List Int) :
    ((vals.map (packSample bps)).flatten).length = vals.length * (bps / 8) := by
  induction vals with
  | nil => simp
  | cons v vs ih => simp only [List.map_cons, List.flatten_cons, List.length_append, ih, length_packSample h, List.length_cons, Nat.succ_mul]; omega

theorem length_silenceBlock {c : SessionCfg} (h : CfgOk c) : (silenceBlock c).length = c.BA := by
  have : silenceBlock c = ((List.replicate c.C (0 : Int)).map (packSample c.bps)).flatten := by
    simp [silenceBlock, List.map_replicate]
  rw [this, length_flatten_pack h.depth, List.length_replicate, h.bytes]

theorem length_unprepare (u : Unprepare) (C : Nat) (vals : List Int) : (unprepare u C vals).length = vals.length := by
  unfold unprepare
  split
  · split
    · cases u <;> rfl
    · rfl
  · rfl

theorem length_predictOf_fst (stages : List StageCfg) : ∀ (c : Nat) (P : List (List StageState)) (es : List Int),
    (predictOf stages c P es).1.length = es.length
  | _, _, [] => by rw [predictOf]
  | c, [], _ :: es => by simp [predictOf, length_predictOf_fst stages (c + 1) [] es]
  | c, _ :: P, _ :: es => by simp [predictOf, length_predictOf_fst stages (c + 1) P es]

theorem length_residualsOf (bit : Nat → Bool) (limit : Nat) (w : WireFormat) (n : Nat) : ∀ {ent p : Nat} {es : List Int},
    (residualsOf bit limit w n ent p).1 = some es → es.length = n := by
  induction n with
  | zero => intro ent p es h; simp only [residualsOf, Option.some.injEq] at h; rw [← h]; rfl
  | succ n ih =>
    intro ent p es h
    rw [residualsOf] at h
    generalize evalWire bit limit (wireSymbol w ent limit p) p = x at h
    obtain ⟨x, q⟩ := x
    cases x with
    | error er => simp at h
    | ok y =>
      simp only at h
      have h2 := @ih y.ent q
      generalize residualsOf bit limit w n y.ent q = z at h h2
      obtain ⟨z, r⟩ := z
      cases z with
      | none => simp at h
      | some fs => simp only [Option.some.injEq] at h; rw [← h, List.length_cons, h2 rfl]

/-- Every block has BA bytes. -/
theorem length_blockOf {P : Params} {c : SessionCfg} (h : CfgOk c) (bit : Nat → Bool) (limit : Nat) (silent : Bool) (d : Decoder) :
    (blockOf P c bit limit silent d).1.length = c.BA := by
  unfold blockOf
  split
  · exact length_silenceBlock h
  · split
    · exact length_silenceBlock h
    · have hl := @length_residualsOf bit limit P.wireFormat c.C d.ent d.p
      generalize residualsOf bit limit P.wireFormat c.C d.ent d.p = x at hl
      obtain ⟨x, e', q⟩ := x
      cases x with
      | none => exact length_silenceBlock h
      | some es =>
        show (finalizeOf P.unprepare c (predictOf c.stages 0 d.pred es).1).length = c.BA
        rw [finalizeOf, length_flatten_pack h.depth, length_unprepare, length_predictOf_fst, hl rfl, h.bytes]

theorem length_blocksOf (P : Params) (c : SessionCfg) (bit : Nat → Bool) (limit : Nat) (silent : Bool) (n : Nat) (d : Decoder) :
    (blocksOf P c bit limit silent n d).1.length = n := by
  induction n generalizing d with
  | zero => rfl
  | succ n ih => simp [blocksOf, ih]

/-! ## The ring's blocks -/

theorem length_ringBlocks (s : State) : (ringBlocks s).length = s.ring.count := by simp [ringBlocks]

theorem ringBlocks_congr {s t : State} (hr : t.ring = s.ring) (hc : t.cfg = s.cfg) (he : t.epoch = s.epoch) :
    ringBlocks t = ringBlocks s := by
  unfold ringBlocks
  rw [hr]
  exact List.map_congr_left fun i _ => ringSlot_congr (by rw [hr]) (by rw [hc]) he _

theorem mod_ne {rd i n cap : Nat} (hi : i < n) (hn : n < cap) : (rd + i) % cap ≠ (rd + n) % cap := by
  intro h
  have h1 : (rd + n) % cap = ((rd + i) % cap + (n - i)) % cap := by rw [Nat.mod_add_mod]; congr 1; omega
  have h2 := Nat.mod_lt (rd + i) (show 0 < cap by omega)
  rw [← h] at h1
  generalize (rd + i) % cap = x at *
  rcases Nat.lt_or_ge (x + (n - i)) cap with h3 | h3
  · rw [Nat.mod_eq_of_lt h3] at h1; omega
  · rw [Nat.mod_eq_sub_mod h3, Nat.mod_eq_of_lt (by omega)] at h1; omega

/-- A written block is the newest (44_framebuffer.md R322). -/
theorem ringBlocks_write {s : State} {blk : List Byte} (hw : s.ring.wr = (s.ring.rd + s.ring.count) % s.ring.cap)
    (hc : s.ring.count < s.ring.cap) (hl : blk.length = s.cfg.BA) :
    ringBlocks { s with ring := { s.ring with data := insertKey s.ring.wr blk s.ring.data, wr := (s.ring.wr + 1) % s.ring.cap,
                                              count := s.ring.count + 1 } } = ringBlocks s ++ [blk] := by
  unfold ringBlocks
  simp only [List.range_succ, List.map_append, List.map_cons, List.map_nil]
  congr 1
  · refine List.map_congr_left fun i hi => ?_
    have hi := List.mem_range.1 hi
    have hne := mod_ne (rd := s.ring.rd) hi hc
    unfold ringSlot readSlot
    simp only [findKey_insertKey]
    rw [if_neg (by rw [hw]; exact fun h => hne h.symm)]
  · congr 1
    refine ringSlot_of_find ?_ hl
    simp only [readSlot, findKey_insertKey]
    rw [if_pos hw]

/-- Blocks leave the ring in order (44_framebuffer.md R324, R325). -/
theorem ringBlocks_advance (s : State) (m : Nat) : ringBlocks (advanceRead m s) = (ringBlocks s).drop m := by
  refine List.ext_getElem (by simp [ringBlocks, advanceRead]) fun i h1 h2 => ?_
  simp only [ringBlocks, List.getElem_map, List.getElem_range, List.getElem_drop]
  have : readSlot (advanceRead m s).ring i = readSlot s.ring (m + i) := by
    simp only [readSlot, advanceRead, Nat.mod_add_mod, Nat.add_assoc]
  rw [this]
  exact ringSlot_congr rfl rfl rfl _

/-- The tail of U_RING_SILENCE_TAIL(count) is the whole ring. -/
theorem tailSlot_eq {r : Ring} {i : Nat} (hw : r.wr = (r.rd + r.count) % r.cap) (hi : i < r.count) :
    tailSlot r (r.count - i) = readSlot r i := by
  unfold tailSlot readSlot
  rw [hw]
  have h1 : (((r.rd + r.count) % r.cap : Nat) : Int) = ((r.rd + r.count : Nat) : Int) % (r.cap : Int) := by simp
  have h2 : (((r.rd + r.count : Nat) : Int) - ((r.count - i : Nat) : Int)) = ((r.rd + i : Nat) : Int) := by omega
  rw [h1, Int.emod_sub_emod, h2]
  rw [← Int.natCast_emod]; exact Int.toNat_natCast _

/-- Silencing as many blocks as the ring holds (44_framebuffer.md R326). -/
theorem ringBlocks_silence {s : State} (hc : CfgOk s.cfg) (hw : s.ring.wr = (s.ring.rd + s.ring.count) % s.ring.cap) :
    ringBlocks (silenceSlots (List.range' 1 s.ring.count) s) = List.replicate s.ring.count (silenceBlock s.cfg) := by
  have heq := silenceSlots_eq (List.range' 1 s.ring.count) s
  have hcount : (silenceSlots (List.range' 1 s.ring.count) s).ring.count = s.ring.count := by rw [heq]
  refine List.ext_getElem (by simp [ringBlocks, hcount]) fun i h1 h2 => ?_
  rw [length_ringBlocks, hcount] at h1
  simp only [ringBlocks, List.getElem_map, List.getElem_range, List.getElem_replicate]
  have hslot : readSlot (silenceSlots (List.range' 1 s.ring.count) s).ring i = readSlot s.ring i := by rw [heq]; rfl
  rw [hslot]
  refine ringSlot_of_find ?_ (by rw [heq]; exact length_silenceBlock hc)
  rw [findKey_silenceSlots, if_pos]
  rw [List.mem_map]
  exact ⟨s.ring.count - i, List.mem_range'_1.2 (by omega), tailSlot_eq hw h1⟩

/-! ## The blocks of a frame -/

/-- What decoding a frame leaves: the window, the rest of the block but for the ring, and the decoder d. -/
structure FrameTo (d : Decoder) (s t : State) : Prop where
  ok : BrOk t
  view : decodeView .free t = decodeView .free s
  start : t.br.start = s.br.start
  len : t.br.len = s.br.len
  silent : t.frm.silent = s.frm.silent
  stored : t.frm.storedCk = s.frm.storedCk
  life : t.life = s.life
  here : decoderOf t = d

section
variable {d d' : Decoder} {s t u : State}

theorem FrameTo.trans (h : FrameTo d s t) (k : FrameTo d' t u) : FrameTo d' s u :=
  ⟨k.ok, k.view.trans h.view, k.start.trans h.start, k.len.trans h.len, k.silent.trans h.silent, k.stored.trans h.stored,
    k.life.trans h.life, k.here⟩

theorem DecodeTo.frameTo (h : DecodeTo d s t) : FrameTo d s t :=
  ⟨h.ok, (congrArg (fun s => forgetRing (forgetData (forgetErrors (forgetFrame s)))) h.view :), h.start, h.len, h.silent, h.stored,
    (congrArg State.life h.view :), h.here⟩

theorem FrameTo.params (h : FrameTo d s t) : t.params = s.params := (congrArg State.params h.view :)
theorem FrameTo.cfg (h : FrameTo d s t) : t.cfg = s.cfg := (congrArg State.cfg h.view :)
theorem FrameTo.cur (h : FrameTo d s t) : t.cur = s.cur := (congrArg State.cur h.view :)
theorem FrameTo.epoch (h : FrameTo d s t) : t.epoch = s.epoch := (congrArg State.epoch h.view :)
theorem FrameTo.cap (h : FrameTo d s t) : t.ring.cap = s.ring.cap := (congrArg (fun s => s.ring.cap) h.view :)

theorem FrameTo.frameBit (h : FrameTo d s t) : frameBit t = frameBit s := by
  have hb : t.src.bytes = s.src.bytes := (congrArg (fun s => s.src.bytes) h.view :)
  funext q; simp only [Machine.frameBit, hb, h.start]

end

/-- The blocks bs of frame g have been decoded into a ring that was empty (45_frame_sequencer.md R354, R357). -/
structure Delivered (bs : List (List Byte)) (g : Nat) (s : State) : Prop where
  frame : s.frm.curFrame = g
  blk : s.frm.blkInFrame = bs.length
  content : ringBlocks s = (bs.take (s.cfg.F - g * s.cfg.B)).drop s.cur.skipBlocks
  placed : s.frm.placed = s.ring.count
  wr : s.ring.wr = (s.ring.rd + s.ring.count) % s.ring.cap

theorem Delivered.count {bs : List (List Byte)} {g : Nat} {s : State} (h : Delivered bs g s) :
    s.ring.count = min bs.length (s.cfg.F - g * s.cfg.B) - s.cur.skipBlocks := by
  rw [← length_ringBlocks, h.content, List.length_drop, List.length_take, Nat.min_comm]

theorem Delivered.congr {bs : List (List Byte)} {g : Nat} {s t : State} (h : Delivered bs g s)
    (hf : t.frm.curFrame = s.frm.curFrame) (hb : t.frm.blkInFrame = s.frm.blkInFrame) (hp : t.frm.placed = s.frm.placed)
    (hr : t.ring = s.ring) (hc : t.cfg = s.cfg) (hu : t.cur = s.cur) (he : t.epoch = s.epoch) : Delivered bs g t := by
  obtain ⟨h1, h2, h3, h4, h5⟩ := h
  exact ⟨hf.trans h1, hb.trans h2, by rw [ringBlocks_congr hr hc he, hc, hu, h3], by rw [hp, hr, h4], by rw [hr, h5]⟩

/-- The deliverable blocks with one more block decoded. -/
theorem take_drop_append {bs : List (List Byte)} (blk : List Byte) (F k : Nat) :
    ((bs ++ [blk]).take F).drop k = (bs.take F).drop k ++ if k ≤ bs.length ∧ bs.length < F then [blk] else [] := by
  rw [List.take_append, List.drop_append]
  congr 1
  split
  · rename_i h
    rw [List.length_take, show k - min F bs.length = 0 by omega, List.take_of_length_le (by simp; omega)]
    rfl
  · rename_i h
    rw [List.drop_eq_nil_iff, List.length_take, List.length_take]
    simp only [List.length_cons, List.length_nil]
    omega

/-- One block (45_frame_sequencer.md R354). -/
theorem yields_uDecodeBlock (m : Mode) {s : State} (hf : 1 ≤ s.params.fetchBytes) (ok : BrOk s) (hc : CfgOk s.cfg) :
    Yields (uDecodeBlock m) s fun _ t =>
      let x := blockOf s.params s.cfg (frameBit s) (8 * s.br.len) s.frm.silent (decoderOf s)
      FrameTo x.2 s t ∧ (m = .deliver → ∀ g bs, Delivered bs g s → bs.length < s.ring.cap → Delivered (bs ++ [x.1]) g t) := by
  unfold uDecodeBlock
  refine Yields.bind (Sat.get (Yields.bind ((yields_blockBytes hf ok).mono fun blk t ht => ?_)))
  have hl := length_blockOf (P := s.params) hc (frameBit s) (8 * s.br.len) s.frm.silent (decoderOf s)
  generalize blockOf s.params s.cfg (frameBit s) (8 * s.br.len) s.frm.silent (decoderOf s) = x at *
  obtain ⟨hb, ht⟩ := ht
  have hft := ht.frameTo
  unfold deliver
  refine Yields.bind (Yields.bind (Sat.get ?_))
  show Yields _ t _
  split
  · rename_i hd
    refine Yields.bind (Yields.call fun u hu => ?_)
    have hur : u.ring = s.ring := by rw [hu]; exact ht.ring
    have hfu := hft.trans (DecodeTo.host ht.ok hu).frameTo
    refine Yields.bind (Sat.get ?_)
    show Yields _ u _
    split
    · exact Sat.throw trivial
    · rename_i hfull
      refine Sat.set (Sat.modify (Sat.modify ⟨?_, ?_⟩))
      · obtain ⟨a1, a2, a3, a4, a5, a6, al, a7⟩ := hfu
        refine ⟨a1.congr rfl rfl, a2, a3, a4, a5, a6, al, ?_⟩
        rw [← a7.trans ht.here]; rfl
      · intro _ g bs hD hlt
        have hD' : Delivered bs g u := hD.congr (by rw [hu]; exact ht.frame) (by rw [hu]; exact ht.blk) (by rw [hu]; exact ht.placed)
          hur hfu.cfg hfu.cur hfu.epoch
        have hdel := hd.2
        rw [ht.frame, hD.frame, ht.cfg, hD.blk] at hdel
        simp only [deliverable, ht.cur, ht.cfg, Bool.and_eq_true, decide_eq_true_eq] at hdel
        have hcnt := hD.count
        have hrw := ringBlocks_write (s := u) (blk := blk) hD'.wr (by rw [hur]; omega) (by rw [hb, hfu.cfg, hl])
        refine ⟨hD'.frame, by show s.frm.blkInFrame + 1 = _; rw [hD.blk]; simp, ?_, ?_, ?_⟩
        · show ringBlocks { u with ring := _ } = ((bs ++ [x.1]).take (u.cfg.F - g * u.cfg.B)).drop u.cur.skipBlocks
          rw [hrw, hD'.content, take_drop_append, hfu.cfg, hfu.cur, if_pos (by omega), hb]
        · show u.frm.placed + 1 = u.ring.count + 1
          rw [hD'.placed]
        · show (u.ring.wr + 1) % u.ring.cap = (u.ring.rd + (u.ring.count + 1)) % u.ring.cap
          rw [hD'.wr, wrap_succ]
  · rename_i hd
    refine Sat.pure (Sat.modify ⟨?_, ?_⟩)
    · obtain ⟨a1, a2, a3, a4, a5, a6, al, a7⟩ := hft
      refine ⟨a1.congr rfl rfl, a2, a3, a4, a5, a6, al, ?_⟩
      rw [← a7]; rfl
    · intro hm g bs hD hlt
      have hD' : Delivered bs g t := hD.congr ht.frame ht.blk ht.placed ht.ring ht.cfg ht.cur hft.epoch
      have hdel : ¬ deliverable t s.frm.blkInFrame (t.frm.curFrame * t.cfg.B + s.frm.blkInFrame) = true := fun h => hd ⟨hm, h⟩
      rw [ht.frame, hD.frame, ht.cfg, hD.blk] at hdel
      simp only [deliverable, ht.cur, ht.cfg, Bool.and_eq_true, decide_eq_true_eq] at hdel
      refine ⟨hD'.frame, by show s.frm.blkInFrame + 1 = _; rw [hD.blk]; simp, ?_, hD'.placed, hD'.wr⟩
      show ringBlocks t = ((bs ++ [x.1]).take (t.cfg.F - g * t.cfg.B)).drop t.cur.skipBlocks
      rw [hD'.content, take_drop_append, ht.cfg, ht.cur, if_neg (by omega), List.append_nil]

/-- The block loop (45_frame_sequencer.md R356). -/
theorem yields_decodeBlocks (m : Mode) (n : Nat) : ∀ {s : State}, 1 ≤ s.params.fetchBytes → BrOk s → CfgOk s.cfg →
    Yields (decodeBlocks m n) s fun _ t =>
      let x := blocksOf s.params s.cfg (frameBit s) (8 * s.br.len) s.frm.silent n (decoderOf s)
      FrameTo x.2 s t ∧
        (m = .deliver → ∀ g bs, Delivered bs g s → bs.length + n ≤ s.ring.cap → Delivered (bs ++ x.1) g t) := by
  induction n with
  | zero =>
    intro s hf ok hc
    refine Sat.pure ⟨(DecodeTo.refl ok).frameTo, fun _ g bs hD _ => ?_⟩
    simpa [blocksOf] using hD
  | succ n ih =>
    intro s hf ok hc
    rw [decodeBlocks]
    refine Yields.bind (Yields.call fun t ht => ?_)
    have h0 := DecodeTo.host ok ht
    have hb : t.br = s.br := by rw [ht]
    have hfr : t.frm = s.frm := by rw [ht]
    have hfb : frameBit t = frameBit s := h0.frameBit
    refine (yields_uDecodeBlock m (by rw [h0.params]; exact hf) h0.ok (by rw [h0.cfg]; exact hc)).mono fun _ u hu => ?_
    rw [h0.params, h0.cfg, hfb, hb, hfr, h0.here] at hu
    simp only [blocksOf]
    generalize blockOf s.params s.cfg (frameBit s) (8 * s.br.len) s.frm.silent (decoderOf s) = x at *
    obtain ⟨hu, hD⟩ := hu
    have hsu := h0.frameTo.trans hu
    refine (ih (by rw [hsu.params]; exact hf) hsu.ok (by rw [hsu.cfg]; exact hc)).mono fun _ v hv => ?_
    rw [hsu.params, hsu.cfg, hsu.frameBit, hsu.len, hsu.silent, hsu.here] at hv
    refine ⟨hsu.trans hv.1, fun hm g bs hDs hl => ?_⟩
    have hDt := hDs.congr (t := t) h0.frame h0.blk h0.placed h0.ring h0.cfg h0.cur h0.frameTo.epoch
    have hDu := hD hm g bs hDt (by rw [h0.ring]; omega)
    have hDv := hv.2 hm g _ hDu (by rw [List.length_append, hsu.cap]; simp; omega)
    simpa using hDv

/-! ## A frame's start -/

theorem yields_forEach_uPredReset (l : List Nat) : ∀ {s : State} {stages : List StageCfg} {P : List (List StageState)},
    s.cfg.stages = stages → s.pred = P →
    Yields (forEach uPredReset l) s fun _ t =>
      Alike { s with pred := l.foldl (fun p k => p.set k (zeroPred stages)) P } t := by
  induction l with
  | nil => intro s stages P hg hP; subst hP; exact Sat.pure rfl
  | cons c cs ih =>
    intro s stages P hg hP
    rw [forEach]
    refine Yields.bind (Yields.call fun t ht => Sat.modify ?_)
    have ha := ht.alike
    have hset : t.pred.set c (zeroPred t.cfg.stages) = P.set c (zeroPred stages) := by rw [ha.pred, ha.cfg, hP, hg]
    have hcfg : t.cfg.stages = stages := by rw [ha.cfg, hg]
    refine (ih (s := { t with pred := t.pred.set c (zeroPred t.cfg.stages) }) hcfg hset).mono fun _ u hu => ?_
    exact hu.trans (alike_setPred ha _)

theorem length_resetPreds (c : SessionCfg) (P : List (List StageState)) : (resetPreds c P).length = P.length := by
  unfold resetPreds
  generalize List.range c.C = l
  induction l generalizing P with
  | nil => rfl
  | cons k ks ih => rw [List.foldl_cons, ih]; simp

/-- The predictors frame g starts from (45_frame_sequencer.md R353). -/
def startPreds (s : State) (g : Nat) (P : List (List StageState)) : List (List StageState) :=
  if isResync s.params g then resetPreds s.cfg P else P

theorem yields_resetPredictors (g : Nat) {s : State} :
    Yields (resetPredictors g) s fun _ t => Alike { s with pred := startPreds s g s.pred } t := by
  unfold resetPredictors startPreds
  refine Yields.bind (Sat.get ?_)
  show Yields _ s _
  split
  · exact yields_forEach_uPredReset _ rfl rfl
  · exact Sat.pure rfl

/-- U_BR_HEADER (41_bitreader.md R207). -/
theorem yields_uBrHeader {s : State} (hf : 1 ≤ s.params.fetchBytes) (ok : BrOk s) :
    Yields uBrHeader s fun _ t =>
      BrOk t ∧ blockView .free t = blockView .free s ∧ t.br.start = s.br.start ∧ t.br.len = s.br.len ∧
      match evalWire (frameBit s) (8 * s.br.len) (wireHeader s.params.wireFormat (8 * s.br.len) s.br.p) s.br.p with
      | (.error _, q) => t.frm.silent = false ∧ t.frm.storedCk = s.frm.storedCk ∧
          decoderOf t = { decoderOf s with p := q, err := true }
      | (.ok h, q) => t.frm.silent = h.silent ∧ t.frm.storedCk = h.storedCk ∧
          decoderOf t = { decoderOf s with p := q, ent := h.ent } := by
  unfold uBrHeader
  refine Yields.bind (Sat.get (Yields.bind ((yields_runWire _ hf ok).mono fun r t ht => ?_)))
  obtain ⟨hr, ht⟩ := ht
  generalize evalWire (frameBit s) (8 * s.br.len) (wireHeader s.params.wireFormat (8 * s.br.len) s.br.p) s.br.p = x at *
  obtain ⟨x, q⟩ := x
  simp only at hr ht
  subst hr
  obtain ⟨hok, hv, h1, h2, h3, h4, h5⟩ := ht.decodeTo
  simp only [decoderOf, Decoder.mk.injEq] at h5
  cases r with
  | error er =>
    refine Sat.modify ⟨hok.congr rfl rfl, hv, h1, h2, rfl, h4, ?_⟩
    simp only [decoderOf, h5]
  | ok h =>
    refine Sat.modify ⟨?_, hv, h1, h2, rfl, rfl, ?_⟩
    · obtain ⟨a1, a2, a3, a4, a5, a6⟩ := hok
      exact ⟨a1, a2, a3, a4, a5, a6⟩
    · simp only [decoderOf, h5]

/-- A state at the start of frame g's blocks. -/
structure FrameStarted (g : Nat) (s t : State) : Prop where
  ok : BrOk t
  view : frameView .free t = frameView .free s
  start : t.br.start = frameStart s g
  len : t.br.len = frameEnd s g - frameStart s g
  silent : t.frm.silent = frameSilent s g
  stored : ∀ h q, headerOf s g = (.ok h, q) → t.frm.storedCk = h.storedCk
  kept : ∀ er q, headerOf s g = (.error er, q) → t.frm.storedCk = s.frm.storedCk
  here : decoderOf t = frameBegin s g s.pred
  frame : t.frm.curFrame = g
  blk : t.frm.blkInFrame = 0
  placed : t.frm.placed = 0

/-- The window of frame g lies in the source. -/
def WindowOk (s : State) (g : Nat) : Prop := frameStart s g ≤ frameEnd s g ∧ frameEnd s g ≤ s.src.bytes.length

theorem yields_uSrcSeek (off : Nat) {s : State} :
    Yields (uSrcSeek off) s fun _ t => t = { s with src := { s.src.afterRequest (.seek off) with pos := off } } := by
  unfold uSrcSeek
  refine Yields.bind ((yields_request _).mono fun a t ht => ?_)
  obtain ⟨_, rfl⟩ := ht
  exact Sat.modify rfl

theorem alike_br {s t : State} (b : BitReader) (h : Alike s t) : Alike { s with br := b } { t with br := b } := by
  have := congrArg (fun s => { s with br := b }) h
  exact this

/-- The seek and the reset of the BitReader (45_frame_sequencer.md R353, 41_bitreader.md R201). -/
theorem yields_enterWindow (off len : Nat) {s : State} (hw : off + len ≤ s.src.bytes.length) :
    Yields (do call (uSrcSeek off); call (uBrReset off len)) s fun _ t =>
      BrOk t ∧ readsView .free t = readsView .free s ∧ t.br.start = off ∧ t.br.len = len ∧ t.br.p = 0 ∧
        t.br.ent = wireReset s.params.wireFormat := by
  refine Yields.bind (Yields.call fun t ht => (yields_uSrcSeek off).mono fun _ u hu => ?_)
  refine Yields.call fun w hw' => Sat.modify ?_
  have hwu := hw'.alike
  have hts := ht.alike
  have hsrc : w.src = { t.src.afterRequest (.seek off) with pos := off } := by rw [hwu.src, hu]
  have hpar : w.params = s.params := by rw [hwu.params, hu]; exact hts.params
  have hbytes : w.src.bytes = s.src.bytes := by
    rw [hsrc]; show t.src.bytes = _; rw [hts.src]
  refine ⟨⟨?_, ?_, ?_, ?_, ?_, ?_⟩, ?_, rfl, rfl, rfl, by rw [← hpar]⟩
  · show off + len ≤ w.src.bytes.length; rw [hbytes]; exact hw
  · exact Nat.zero_le _
  · show w.src.pos = off + 0; rw [hsrc]; rfl
  · exact Nat.le_refl _
  · exact Nat.zero_le _
  · rfl
  · have h1 : readsView .free w = readsView .free u := hostFree_readsView u w rfl hw'
    have h2 : readsView .free u = readsView .free t := by rw [hu]; exact readsView_src _ _ rfl rfl
    have h3 : readsView .free t = readsView .free s := hostFree_readsView s t rfl ht
    exact (show readsView .free w = readsView .free s from h1.trans (h2.trans h3))

theorem frameView_pred (s : State) (P : List (List StageState)) (hl : P.length = s.pred.length) :
    frameView .free { s with pred := P } = frameView .free s := congrArg forgetFrame (blockView_pred P hl)

/-- U_START_FRAME (45_frame_sequencer.md R353). -/
theorem yields_uStartFrame (g : Nat) {s : State} (hf : 1 ≤ s.params.fetchBytes) (hw : WindowOk s g) :
    Yields (uStartFrame g) s fun _ t => FrameStarted g s t := by
  have hwin : frameStart s g + (frameEnd s g - frameStart s g) ≤ s.src.bytes.length := by
    have := hw.1; have := hw.2; omega
  have after : ∀ t, BrOk t → readsView .free t = readsView .free s → t.br.start = frameStart s g →
      t.br.len = frameEnd s g - frameStart s g → t.br.p = 0 → t.br.ent = wireReset s.params.wireFormat →
      Yields (do resetPredictors g; modify (enterFrame g); call uBrHeader) t fun _ t => FrameStarted g s t := by
    intro t h1 h2 h3 h4 h5 h6
    have hpar : t.params = s.params := (congrArg State.params h2 :)
    have hcfg : t.cfg = s.cfg := (congrArg State.cfg h2 :)
    have hpred : t.pred = s.pred := (congrArg State.pred h2 :)
    refine Yields.bind ((yields_resetPredictors g).mono fun _ u hu => Sat.bind (Sat.modify ?_))
    refine (Yields.call (m := uBrHeader) fun w hw' => ?_ : Yields (call uBrHeader) (enterFrame g u) _)
    have hP : startPreds t g t.pred = startPreds s g s.pred := by simp only [startPreds, hpar, hcfg, hpred]
    have hlen : (startPreds s g s.pred).length = t.pred.length := by
      rw [hpred]; unfold startPreds; split
      · exact length_resetPreds _ _
      · rfl
    rw [hP] at hu
    have hub : u.br = t.br := (congrArg State.br hu :)
    have hus : u.src = t.src := (congrArg State.src hu :)
    have hup : u.pred = startPreds s g s.pred := (congrArg State.pred hu :)
    have hupar : u.params = s.params := (congrArg State.params hu :).trans hpar
    have hwu := hw'.alike
    have hwb : w.br = t.br := hwu.br.trans hub
    have hws : w.src = t.src := hwu.src.trans hus
    have hwp : w.pred = startPreds s g s.pred := hwu.pred.trans hup
    have hwpar : w.params = s.params := hwu.params.trans hupar
    have hwf : w.frm = (enterFrame g u).frm := hwu.frm
    have hbytes : w.src.bytes = s.src.bytes := by rw [hws]; exact (congrArg (fun s => s.src.bytes) h2 :)
    have hv : frameView .free w = frameView .free s := by
      have a1 : frameView .free w = frameView .free (enterFrame g u) := congrArg forgetFrame hwu.blockView
      have a2 : frameView .free (enterFrame g u) = frameView .free u := rfl
      have a3 : frameView .free u = frameView .free { t with pred := startPreds s g s.pred } := congrArg forgetFrame (Alike.blockView hu)
      have a4 := frameView_pred t _ hlen
      have a5 : frameView .free t = frameView .free s := congrArg (fun s => forgetFrame (forgetBlock s)) h2
      exact a1.trans (a2.trans (a3.trans (a4.trans a5)))
    have okw : BrOk w := h1.congr hwb hws
    have hbit : frameBit w = windowBit s g := by
      funext q; simp only [frameBit, windowBit, hbytes, hwb, h3]
    refine (yields_uBrHeader (by rw [hwpar]; exact hf) okw).mono fun _ y hy => ?_
    obtain ⟨b1, b2, b3, b4, b5⟩ := hy
    rw [hbit, hwpar, hwb, h4, h5] at b5
    have hdec : decoderOf w = ⟨startPreds s g s.pred, 0, wireReset s.params.wireFormat, false, ckInit s.params.checksum⟩ := by
      simp only [decoderOf, hwb, hwp, hwf, h5, h6, enterFrame, hupar]
    have hvy : frameView .free y = frameView .free s := (congrArg forgetFrame b2 :).trans hv
    have hfy : ∀ {γ : Type} (f : Frame → γ), (∀ x : Frame, f { x with frameErr := false, storedCk := 0, silent := false, runCk := 0 } = f x) →
        f y.frm = f w.frm := by
      intro γ f hf
      have : f (blockView .free y).frm = f (blockView .free w).frm := by rw [b2]
      exact (hf y.frm).symm.trans (this.trans (hf w.frm))
    have hck : w.frm.storedCk = s.frm.storedCk := by
      rw [hwf]
      have hu' : u.frm = t.frm := (congrArg State.frm hu :)
      have ht' : t.frm = s.frm := (congrArg State.frm h2 :)
      show u.frm.storedCk = _
      rw [hu', ht']
    have hsil : y.frm.silent = frameSilent s g ∧ (∀ h q, headerOf s g = (.ok h, q) → y.frm.storedCk = h.storedCk) ∧
        (∀ er q, headerOf s g = (.error er, q) → y.frm.storedCk = s.frm.storedCk) ∧ decoderOf y = frameBegin s g s.pred := by
      unfold frameSilent frameBegin headerOf windowBits
      rw [hdec] at b5
      generalize evalWire (windowBit s g) (8 * (frameEnd s g - frameStart s g))
        (wireHeader s.params.wireFormat (8 * (frameEnd s g - frameStart s g)) 0) 0 = x at *
      obtain ⟨x, q⟩ := x
      cases x with
      | error er => exact ⟨b5.1, nofun, fun _ _ _ => b5.2.1.trans hck, b5.2.2⟩
      | ok h =>
        refine ⟨b5.1, fun h' q' he => ?_, nofun, b5.2.2⟩
        simp only [Prod.mk.injEq, Except.ok.injEq] at he
        rw [← he.1]; exact b5.2.1
    refine ⟨b1, hvy, by rw [b3, hwb, h3], by rw [b4, hwb, h4], hsil.1, hsil.2.1, hsil.2.2.1, hsil.2.2.2, ?_, ?_, ?_⟩
    · rw [hfy Frame.curFrame fun _ => rfl, hwf]; rfl
    · rw [hfy Frame.blkInFrame fun _ => rfl, hwf]; rfl
    · rw [hfy Frame.placed fun _ => rfl, hwf]; rfl
  unfold uStartFrame
  refine Yields.bind (Sat.get ?_)
  have key := Yields.bind (k := fun _ => do resetPredictors g; modify (enterFrame g); call uBrHeader)
    ((yields_enterWindow _ _ hwin).mono fun _ t ht => after t ht.1 ht.2.1 ht.2.2.1 ht.2.2.2.1 ht.2.2.2.2.1 ht.2.2.2.2.2)
  simpa only [bind_assoc] using key

/-! ## A frame's end, and the whole frame -/

theorem blockOf_err {P : Params} {c : SessionCfg} {bit : Nat → Bool} {limit : Nat} {silent : Bool} {d : Decoder} (h : d.err = true) :
    (blockOf P c bit limit silent d).2 = d := by
  unfold blockOf; rw [if_pos h]

/-- A frame in error stays in error. -/
theorem blocksOf_err {P : Params} {c : SessionCfg} {bit : Nat → Bool} {limit : Nat} {silent : Bool} (n : Nat) {d : Decoder}
    (h : d.err = true) : (blocksOf P c bit limit silent n d).2.err = true := by
  induction n generalizing d with
  | zero => exact h
  | succ n ih => simp only [blocksOf]; rw [blockOf_err h]; exact ih h

/-- U_END_FRAME's comparison (45_frame_sequencer.md R355). -/
def badFrame (s : State) : Bool := s.frm.frameErr || decide (ckFinal s.params.checksum s.frm.runCk ≠ s.frm.storedCk)

/-- U_END_FRAME (R355): a frame in error sets hadErrors and silences what it placed. -/
theorem yields_uEndFrame (m : Mode) {s : State} :
    Yields (uEndFrame m) s fun _ t => endView .free t = endView .free s ∧ t.pred = s.pred ∧
      t.life = { s.life with hadErrors := s.life.hadErrors || badFrame s } ∧
      (m = .deliver → CfgOk s.cfg → s.frm.placed = s.ring.count → s.ring.wr = (s.ring.rd + s.ring.count) % s.ring.cap →
        t.ring.rd = s.ring.rd ∧ t.ring.count = s.ring.count ∧
        ringBlocks t = if badFrame s then List.replicate s.ring.count (silenceBlock s.cfg) else ringBlocks s) := by
  unfold uEndFrame verifyFrame settleFrame
  refine Sat.bind (Sat.modify (Sat.bind (Sat.get ?_)))
  have hbad : (if (!s.frm.frameErr && decide (ckFinal s.params.checksum s.frm.runCk ≠ s.frm.storedCk)) = true then
      { s with frm.frameErr := true } else s) = { s with frm.frameErr := badFrame s } := by
    rcases s with ⟨params, regs, latch, cfg, life, cur, frm, br, pred, ring, mem, src, host, op, uop, draws, epoch⟩
    rcases frm with ⟨a, b, c, fe, e, f, g⟩
    unfold badFrame
    split <;> rename_i h <;> simp only [Bool.and_eq_true, Bool.not_eq_true', not_and] at h
    · simp [h.1, h.2]
    · cases fe with
      | true => simp
      | false => have := h rfl; simpa using this
  show Yields (if (if _ then _ else _ : State).frm.frameErr = true then _ else _) (if _ then _ else _) _
  simp only [hbad]
  cases hb : badFrame s with
  | false =>
    rw [if_neg (by simp)]
    refine Sat.pure ⟨rfl, rfl, ?_, fun _ _ _ _ => ⟨rfl, rfl, ?_⟩⟩
    · simp
    · exact ringBlocks_congr rfl rfl rfl
  | true =>
    rw [if_pos rfl]
    refine Sat.bind (Sat.set ?_)
    rw [← hb]
    split
    · rename_i hm
      refine Yields.call (m := uRingSilenceTail s.frm.placed) fun u hu => Sat.modify ?_
      refine ⟨?_, ?_, ?_, fun _ hc hp hw => ?_⟩
      · have h1 : endView .free (silenceSlots (List.range' 1 s.frm.placed) u) = endView .free u := by
          rw [silenceSlots_eq]; rfl
        have h2 := hostFree_endView (e := .free) _ u rfl hu
        exact h1.trans h2
      · rw [silenceSlots_eq]; show u.pred = _; rw [hu]
      · rw [silenceSlots_eq]; show u.life = _; rw [hu]; simp [hb]
      · have hur : u.ring = s.ring := by rw [hu]
        have huc : u.cfg = s.cfg := by rw [hu]
        have heq := silenceSlots_eq (List.range' 1 s.frm.placed) u
        refine ⟨by rw [heq]; show u.ring.rd = _; rw [hur], by rw [heq]; show u.ring.count = _; rw [hur], ?_⟩
        have hrs := ringBlocks_silence (s := u) (by rw [huc]; exact hc) (by rw [hur]; exact hw)
        rw [hur, huc] at hrs
        rw [hp, hrs]; simp
    · rename_i hm
      refine Sat.pure ⟨rfl, rfl, ?_, fun h => absurd h hm⟩
      simp [hb]

theorem frameOf_eq (s : State) (g : Nat) (P : List (List StageState)) :
    frameOf s g P =
      let r := blocksOf s.params s.cfg (windowBit s g) (windowBits s g) (frameSilent s g) (frameBlocks s.cfg g) (frameBegin s g P)
      let bad := r.2.err || frameMismatch s g r.2.ck
      (if bad then List.replicate (frameBlocks s.cfg g) (silenceBlock s.cfg) else r.1, r.2.pred, bad) := rfl

theorem length_frameOf (s : State) (g : Nat) (P : List (List StageState)) : (frameOf s g P).1.length = frameBlocks s.cfg g := by
  rw [frameOf_eq]
  dsimp only
  split
  · exact List.length_replicate
  · exact length_blocksOf _ _ _ _ _ _ _

/-- P_DECODE_FRAME (45_frame_sequencer.md R356, R357). -/
theorem yields_pDecodeFrame (g : Nat) (m : Mode) {s : State} (hf : 1 ≤ s.params.fetchBytes) (hc : CfgOk s.cfg) (hw : WindowOk s g) :
    Yields (pDecodeFrame g m) s fun _ t =>
      t.pred = (frameOf s g s.pred).2.1 ∧
      t.life = { s.life with hadErrors := s.life.hadErrors || (frameOf s g s.pred).2.2 } ∧
      (m = .deliver → s.ring.count = 0 → s.ring.wr = (s.ring.rd + s.ring.count) % s.ring.cap → frameBlocks s.cfg g ≤ s.ring.cap →
        ringBlocks t = ((frameOf s g s.pred).1.take (s.cfg.F - g * s.cfg.B)).drop s.cur.skipBlocks) := by
  unfold pDecodeFrame
  refine Yields.bind (Yields.call fun s' hs' => ?_)
  have ha := hs'.alike
  have hfs : frameStart s' g = frameStart s g := by
    simp only [frameStart, ha.cfg, seektabEntry_congr ha.mem ha.epoch ha.params]
  have hfe : frameEnd s' g = frameEnd s g := by
    simp only [frameEnd, ha.cfg, seektabEntry_congr ha.mem ha.epoch ha.params]
  have hwb : windowBit s' g = windowBit s g := by funext q; simp only [windowBit, hfs, ha.src]
  have hhd : headerOf s' g = headerOf s g := by simp only [headerOf, windowBits, hwb, hfs, hfe, ha.params]
  have hsil : frameSilent s' g = frameSilent s g := by simp only [frameSilent, hhd]
  have hfb : frameBegin s' g s'.pred = frameBegin s g s.pred := by simp only [frameBegin, hhd, ha.params, ha.cfg, ha.pred]
  refine (yields_uStartFrame g (by rw [ha.params]; exact hf) (by unfold WindowOk; rw [hfs, hfe, ha.src]; exact hw)).mono fun _ t ht => ?_
  have hvt : decodeView .free t = decodeView .free s :=
    (congrArg (fun s => forgetRing (forgetData (forgetErrors s))) ht.view :).trans (congrArg forgetToDecode ha :)
  have htr : t.ring = s.ring := (congrArg State.ring ht.view :).trans ha.ring
  have htc : t.cfg = s.cfg := (congrArg State.cfg hvt :)
  have htp : t.params = s.params := (congrArg State.params hvt :)
  have htu : t.cur = s.cur := (congrArg State.cur hvt :)
  have hte : t.epoch = s.epoch := (congrArg State.epoch hvt :)
  have htl : t.life = s.life := (congrArg State.life ht.view :).trans (congrArg State.life ha :)
  have hbit : frameBit t = windowBit s g := by
    have hb : t.src.bytes = s.src.bytes := (congrArg (fun s => s.src.bytes) hvt :)
    funext q; simp only [frameBit, windowBit, hb, ht.start, hfs]
  have hlen : 8 * t.br.len = windowBits s g := by rw [ht.len, hfs, hfe]; rfl
  refine Yields.bind (Sat.get (Yields.bind ((yields_decodeBlocks m (frameBlocks t.cfg g) (by rw [htp]; exact hf) ht.ok
    (by rw [htc]; exact hc)).mono fun _ u hu => ?_)))
  rw [htp, htc, hbit, hlen, ht.silent, hsil, ht.here, hfb] at hu
  rw [frameOf_eq]
  have herr : (frameBegin s g s.pred).err = true → (blocksOf s.params s.cfg (windowBit s g) (windowBits s g) (frameSilent s g)
      (frameBlocks s.cfg g) (frameBegin s g s.pred)).2.err = true := blocksOf_err _
  have hlb := length_blocksOf s.params s.cfg (windowBit s g) (windowBits s g) (frameSilent s g) (frameBlocks s.cfg g) (frameBegin s g s.pred)
  generalize blocksOf s.params s.cfg (windowBit s g) (windowBits s g) (frameSilent s g) (frameBlocks s.cfg g) (frameBegin s g s.pred) = r at *
  obtain ⟨hu, hD⟩ := hu
  dsimp only
  have hul : u.life = s.life := hu.life.trans htl
  refine Yields.bind (Yields.call fun v hv => ?_)
  have hav := hv.alike
  have hvd : decoderOf v = r.2 := by
    have : decoderOf v = decoderOf u := by simp only [decoderOf, hav.pred, hav.br, hav.frm]
    rw [this, hu.here]
  simp only [decoderOf] at hvd
  have hbad : badFrame v = (r.2.err || frameMismatch s g r.2.ck) := by
    have h1 : v.frm.frameErr = r.2.err := by rw [← hvd]
    have h2 : v.frm.runCk = r.2.ck := by rw [← hvd]
    have h3 : v.params = s.params := hav.params.trans (hu.params.trans htp)
    have h4 : v.frm.storedCk = t.frm.storedCk := by rw [hav.frm]; exact hu.stored
    unfold badFrame frameMismatch
    rw [h1, h2, h3, h4]
    have h5 := ht.stored
    rw [hhd] at h5
    unfold frameBegin at herr
    generalize headerOf s g = x at *
    obtain ⟨x, q⟩ := x
    cases x with
    | error er => rw [herr rfl]; rfl
    | ok h => rw [h5 h q rfl]
  refine (yields_uEndFrame m).mono fun _ w hw => Sat.modify ?_
  obtain ⟨c1, c2, c3, c4⟩ := hw
  rw [hbad] at c3 c4
  have hn : ∀ x : State, (nextCursor g m x).pred = x.pred ∧ (nextCursor g m x).life = x.life ∧ ringBlocks (nextCursor g m x) = ringBlocks x := by
    intro x; unfold nextCursor; split <;> exact ⟨rfl, rfl, rfl⟩
  obtain ⟨n1, n2, n3⟩ := hn w
  refine ⟨?_, ?_, fun hm h0 hwr hcap => ?_⟩
  · rw [n1, c2, ← hvd]
  · have hvl : v.life = u.life := (congrArg State.life hav :)
    rw [n2, c3, hvl, hul]
  · rw [n3]
    have hD0 : Delivered [] g t := by
      refine ⟨ht.frame, ht.blk, ?_, by rw [ht.placed, htr, h0], by rw [htr, hwr]⟩
      have : ringBlocks t = [] := List.eq_nil_of_length_eq_zero (by rw [length_ringBlocks, htr, h0])
      rw [this]; simp
    have hDu := hD hm g [] hD0 (by rw [htr]; simpa using hcap)
    rw [List.nil_append] at hDu
    have hDv := hDu.congr (t := v) (by rw [hav.frm]) (by rw [hav.frm]) (by rw [hav.frm]) hav.ring hav.cfg hav.cur hav.epoch
    have hvc : v.cfg = s.cfg := hav.cfg.trans (hu.cfg.trans htc)
    have hvu : v.cur = s.cur := hav.cur.trans (hu.cur.trans htu)
    obtain ⟨_, _, hrb⟩ := c4 hm (by rw [hvc]; exact hc) hDv.placed hDv.wr
    rw [hrb, hvc]
    have hcnt := hDv.count
    rw [hvc, hvu, hlb] at hcnt
    split
    · rw [List.take_replicate, List.drop_replicate, hcnt, Nat.min_comm]
    · rw [hDv.content, hvc, hvu]

end Sys2Proof.Machine
end

