-- ==== Sys2Proof/Laws/Stream.lean ====
section
/-! SUPPORT. The stream's blocks (Safety.lean: `streamBlock`) and where the predictors stand between frames (42_predictor.md R264,
45_frame_sequencer.md R352, R358, R360). -/

namespace Sys2Proof.Machine

/-! ## Two states with one stream -/

/-- s and t read one stream: the same parameters, configuration, source bytes and SEEKTAB entries. -/
structure SameStream (s t : State) : Prop where
  params : t.params = s.params
  cfg : t.cfg = s.cfg
  bytes : t.src.bytes = s.src.bytes
  entries : ∀ g, g < s.cfg.numFrames → seektabEntry t g = seektabEntry s g

theorem SameStream.refl (s : State) : SameStream s s := ⟨rfl, rfl, rfl, fun _ _ => rfl⟩

theorem SameStream.trans {s t u : State} (h : SameStream s t) (k : SameStream t u) : SameStream s u :=
  ⟨k.params.trans h.params, k.cfg.trans h.cfg, k.bytes.trans h.bytes, fun g hg =>
    (k.entries g (by rw [h.cfg]; exact hg)).trans (h.entries g hg)⟩

theorem SameStream.symm {s t : State} (h : SameStream s t) : SameStream t s :=
  ⟨h.params.symm, h.cfg.symm, h.bytes.symm, fun g hg => (h.entries g (by rw [← h.cfg]; exact hg)).symm⟩

theorem SameStream.of_mem {s t : State} (hp : t.params = s.params) (hc : t.cfg = s.cfg) (hb : t.src.bytes = s.src.bytes)
    (hm : t.mem = s.mem) (he : t.epoch = s.epoch) : SameStream s t := ⟨hp, hc, hb, fun g _ => seektabEntry_congr hm he hp g⟩

section
variable {s t : State} {g : Nat}

theorem SameStream.frameStart (h : SameStream s t) (hg : g < s.cfg.numFrames) : frameStart t g = frameStart s g := by
  simp only [Machine.frameStart, h.cfg, h.entries g hg]

theorem SameStream.frameEnd (h : SameStream s t) : frameEnd t g = frameEnd s g := by
  simp only [Machine.frameEnd, h.cfg]
  split
  · rename_i hg; rw [h.entries _ hg]
  · rfl

theorem SameStream.windowBit (h : SameStream s t) (hg : g < s.cfg.numFrames) : windowBit t g = windowBit s g := by
  funext q; simp only [Machine.windowBit, h.bytes, h.frameStart hg]

theorem SameStream.windowBits (h : SameStream s t) (hg : g < s.cfg.numFrames) : windowBits t g = windowBits s g := by
  simp only [Machine.windowBits, h.frameStart hg, h.frameEnd]

theorem SameStream.headerOf (h : SameStream s t) (hg : g < s.cfg.numFrames) : headerOf t g = headerOf s g := by
  simp only [Machine.headerOf, h.windowBit hg, h.windowBits hg, h.params]

theorem SameStream.frameOf (h : SameStream s t) (hg : g < s.cfg.numFrames) (P : List (List StageState)) :
    frameOf t g P = frameOf s g P := by
  have h1 : frameSilent t g = frameSilent s g := by simp only [frameSilent, h.headerOf hg]
  have h2 : frameBegin t g P = frameBegin s g P := by simp only [frameBegin, h.headerOf hg, h.params, h.cfg]
  have h3 : frameMismatch t g = frameMismatch s g := by funext ck; simp only [frameMismatch, h.headerOf hg, h.params]
  simp only [frameOf_eq, h1, h2, h3, h.windowBit hg, h.windowBits hg, h.params, h.cfg]

theorem SameStream.predAt (h : SameStream s t) : ∀ {g : Nat}, g ≤ s.cfg.numFrames → predAt t g = predAt s g
  | 0, _ => by simp only [Machine.predAt, h.cfg]
  | g + 1, hg => by
    simp only [Machine.predAt]
    rw [SameStream.predAt h (g := g) (by omega), h.frameOf (by omega)]

theorem SameStream.frameBad (h : SameStream s t) (hg : g < s.cfg.numFrames) : frameBad t g = frameBad s g := by
  simp only [Machine.frameBad, h.predAt (Nat.le_of_lt hg), h.frameOf hg]

theorem SameStream.anyBad (h : SameStream s t) {n : Nat} (hg : n = 0 ∨ g + n ≤ s.cfg.numFrames) : anyBad t g n = anyBad s g n := by
  unfold Machine.anyBad
  rw [Bool.eq_iff_iff, List.any_eq_true, List.any_eq_true]
  refine exists_congr fun k => and_congr_right fun hk => ?_
  have := List.mem_range'_1.1 hk
  rw [h.frameBad (by omega)]

/-- A block of the stream lies in a frame. -/
theorem frame_lt {c : SessionCfg} (h : CfgOk c) {a : Nat} (ha : a < c.total) : a / c.B < c.numFrames := by
  have hb := (numFrames_bounds (total := c.total) h.blocks).1
  rw [← h.frames] at hb
  exact Nat.div_lt_of_lt_mul (by rw [Nat.mul_comm]; omega)

theorem SameStream.streamBlock (h : SameStream s t) (hc : CfgOk s.cfg) {a : Nat} (ha : a < s.cfg.total) :
    streamBlock t a = streamBlock s a := by
  have hg := frame_lt hc ha
  simp only [Machine.streamBlock, h.cfg]
  rw [h.predAt (Nat.le_of_lt hg), h.frameOf hg]

theorem SameStream.windowOk (h : SameStream s t) (hg : g < s.cfg.numFrames) (hw : WindowOk s g) : WindowOk t g := by
  unfold WindowOk at *
  rw [h.frameStart hg, h.frameEnd, h.bytes]; exact hw

theorem SameStream.streamOk (h : SameStream s t) (hl : t.pred.length = s.pred.length) (k : StreamOk s) : StreamOk t := by
  obtain ⟨h1, h2, h3, h4, h5⟩ := k
  refine ⟨by rw [h.cfg, h.bytes]; exact h1, fun g hg => ?_, fun hn => ?_, by rw [h.cfg, h.params]; exact h4, by rw [h.cfg, hl]; exact h5⟩
  · rw [h.cfg] at hg
    rw [h.entries _ hg, h.entries _ (by omega)]; exact h2 g hg
  · rw [h.cfg] at hn ⊢
    rw [h.entries _ (by omega)]; exact h3 hn

end

/-- Every window of a well-formed stream lies in the source (45_frame_sequencer.md R351). -/
theorem StreamOk.window {s : State} (h : StreamOk s) {g : Nat} (hg : g < s.cfg.numFrames) : WindowOk s g := by
  obtain ⟨h1, h2, h3, h4, h5⟩ := h
  have hle : ∀ k, ∀ g, g + k + 1 = s.cfg.numFrames → seektabEntry s g ≤ s.cfg.payLen := by
    intro k
    induction k with
    | zero => intro g he; have := h3 (by omega); rwa [show s.cfg.numFrames - 1 = g by omega] at this
    | succ k ih => intro g he; exact Nat.le_trans (h2 g (by omega)) (ih (g + 1) (by omega))
  have hl := hle (s.cfg.numFrames - 1 - g) g (by omega)
  unfold WindowOk frameStart frameEnd
  rw [if_pos hg]
  split
  · rename_i hn
    have h6 := h2 g hn
    have h7 := hle (s.cfg.numFrames - 1 - (g + 1)) (g + 1) (by omega)
    omega
  · rw [if_pos (by omega)]; omega

/-! ## The predictors of the channels in use -/

theorem predictOf_take (stages : List StageCfg) : ∀ (c : Nat) (P : List (List StageState)) (es : List Int) (n : Nat),
    es.length ≤ n → predictOf stages c (P.take n) es = ((predictOf stages c P es).1, (predictOf stages c P es).2.take n)
  | _, _, [], _, _ => by simp [predictOf]
  | _, [], _ :: _, n, _ => by simp [predictOf]
  | _, _ :: _, _ :: _, 0, h => by simp at h
  | c, _ :: P, _ :: es, n + 1, h => by
    have ih := predictOf_take stages (c + 1) P es n (by simpa using h)
    simp only [List.take_succ_cons, predictOf, ih]

theorem blockOf_take {P : Params} {c : SessionCfg} {bit : Nat → Bool} {limit : Nat} {silent : Bool} {d : Decoder} :
    blockOf P c bit limit silent { d with pred := d.pred.take c.C } =
      ((blockOf P c bit limit silent d).1, { (blockOf P c bit limit silent d).2 with pred := (blockOf P c bit limit silent d).2.pred.take c.C }) := by
  unfold blockOf
  split
  · rfl
  · split
    · rfl
    · dsimp only
      have hl := @length_residualsOf bit limit P.wireFormat c.C d.ent d.p
      generalize residualsOf bit limit P.wireFormat c.C d.ent d.p = x at hl
      obtain ⟨x, e', q⟩ := x
      cases x with
      | none => rfl
      | some es =>
        dsimp only
        rw [predictOf_take c.stages 0 d.pred es c.C (by rw [hl rfl])]

theorem blocksOf_take {P : Params} {c : SessionCfg} {bit : Nat → Bool} {limit : Nat} {silent : Bool} (n : Nat) (d : Decoder) :
    blocksOf P c bit limit silent n { d with pred := d.pred.take c.C } =
      ((blocksOf P c bit limit silent n d).1, { (blocksOf P c bit limit silent n d).2 with pred := (blocksOf P c bit limit silent n d).2.pred.take c.C }) := by
  induction n generalizing d with
  | zero => rfl
  | succ n ih =>
    simp only [blocksOf]
    rw [blockOf_take]
    dsimp only
    rw [ih]

theorem resetPreds_take (c : SessionCfg) (P : List (List StageState)) : resetPreds c (P.take c.C) = (resetPreds c P).take c.C := by
  unfold resetPreds
  generalize List.range c.C = l
  induction l generalizing P with
  | nil => rfl
  | cons k ks ih => rw [List.foldl_cons, List.foldl_cons, ← ih, List.take_set]

/-- A reset leaves nothing of the predictors before it. -/
theorem resetPreds_eq (c : SessionCfg) (P : List (List StageState)) (h : P.length = c.C) :
    resetPreds c P = List.replicate c.C (zeroPred c.stages) := by
  have key : ∀ n, n ≤ c.C → (List.range n).foldl (fun p k => p.set k (zeroPred c.stages)) P =
      List.replicate n (zeroPred c.stages) ++ P.drop n := by
    intro n hn
    induction n with
    | zero => simp
    | succ n ih =>
      rw [List.range_succ, List.foldl_append, ih (by omega)]
      simp only [List.foldl_cons, List.foldl_nil]
      rw [List.set_append, if_neg (by simp), List.length_replicate, Nat.sub_self, List.replicate_succ', List.append_assoc]
      congr 1
      rw [List.drop_eq_getElem_cons (by omega)]
      rfl
  have := key c.C (Nat.le_refl _)
  rw [List.drop_eq_nil_of_le (by omega), List.append_nil] at this
  exact this

theorem frameBegin_take (s : State) (g : Nat) (P : List (List StageState)) :
    frameBegin s g (P.take s.cfg.C) = { frameBegin s g P with pred := (frameBegin s g P).pred.take s.cfg.C } := by
  unfold frameBegin
  generalize headerOf s g = x
  obtain ⟨x, q⟩ := x
  cases x <;> (dsimp only; congr 1; split <;> first | rfl | exact resetPreds_take _ _)

theorem frameOf_take (s : State) (g : Nat) (P : List (List StageState)) :
    frameOf s g (P.take s.cfg.C) = ((frameOf s g P).1, (frameOf s g P).2.1.take s.cfg.C, (frameOf s g P).2.2) := by
  simp only [frameOf_eq]
  rw [frameBegin_take, blocksOf_take]

theorem frameOf_reset {s : State} {g : Nat} (h : isResync s.params g = true) {P Q : List (List StageState)} (hP : P.length = s.cfg.C)
    (hQ : Q.length = s.cfg.C) : frameOf s g P = frameOf s g Q := by
  have : frameBegin s g P = frameBegin s g Q := by
    unfold frameBegin
    rw [h, if_pos rfl, if_pos rfl, resetPreds_eq _ _ hP, resetPreds_eq _ _ hQ]
  simp only [frameOf_eq, this]

theorem length_blockOf_pred (P : Params) (c : SessionCfg) (bit : Nat → Bool) (limit : Nat) (silent : Bool) (d : Decoder) :
    (blockOf P c bit limit silent d).2.pred.length = d.pred.length := by
  unfold blockOf
  split
  · rfl
  · split
    · rfl
    · generalize residualsOf bit limit P.wireFormat c.C d.ent d.p = x
      obtain ⟨x, e', q⟩ := x
      cases x with
      | none => rfl
      | some es => exact length_predictOf _ _ _ _

theorem length_blocksOf_pred (P : Params) (c : SessionCfg) (bit : Nat → Bool) (limit : Nat) (silent : Bool) (n : Nat) (d : Decoder) :
    (blocksOf P c bit limit silent n d).2.pred.length = d.pred.length := by
  induction n generalizing d with
  | zero => rfl
  | succ n ih => simp only [blocksOf]; rw [ih, length_blockOf_pred]

theorem length_frameOf_pred (s : State) (g : Nat) (P : List (List StageState)) : (frameOf s g P).2.1.length = P.length := by
  simp only [frameOf_eq]
  rw [length_blocksOf_pred]
  unfold frameBegin
  generalize headerOf s g = x
  obtain ⟨x, q⟩ := x
  cases x <;> (dsimp only; split <;> first | rfl | exact length_resetPreds _ _)

theorem length_predAt (s : State) (g : Nat) : (predAt s g).length = s.cfg.C := by
  induction g with
  | zero => simp [predAt]
  | succ g ih => rw [predAt, length_frameOf_pred, ih]

/-- Where the predictors are right, the frame decodes as the stream's frame does, and leaves them right for the next. -/
theorem PredOk.frame {s : State} {f : Nat} (h : PredOk s f) (hc : s.cfg.C ≤ s.pred.length) :
    (frameOf s f s.pred).1 = (frameOf s f (predAt s f)).1 ∧ (frameOf s f s.pred).2.1.take s.cfg.C = predAt s (f + 1) ∧
      (frameOf s f s.pred).2.2 = frameBad s f := by
  have ht := frameOf_take s f s.pred
  have key : frameOf s f (s.pred.take s.cfg.C) = frameOf s f (predAt s f) := by
    obtain h | h := h
    · exact frameOf_reset h (by rw [List.length_take]; omega) (length_predAt s f)
    · rw [h]
  rw [key] at ht
  refine ⟨by rw [ht], by rw [predAt, ht], by rw [frameBad, ht]⟩

theorem isResync_resyncFrame (p : Params) (f : Nat) : isResync p (resyncFrame p f) = true := by
  unfold isResync resyncFrame
  split
  · simp
  · rename_i h
    have : (f - f % p.resyncInterval) % p.resyncInterval = 0 := Nat.sub_mod_eq_zero_of_mod_eq (Nat.mod_mod _ _).symm
    simp [h, this]

theorem resyncFrame_le (p : Params) (f : Nat) : resyncFrame p f ≤ f := by
  unfold resyncFrame; split
  · exact Nat.zero_le _
  · exact Nat.sub_le _ _

end Sys2Proof.Machine
end

