-- ==== Sys2Proof/Laws/Content.lean ====
section
/-! SUPPORT. What positioning, GETDATA and SEEK put into the ring and into OUT: the stream's blocks in order (45_frame_sequencer.md
R358, R360, 46_host_commands.md R404, R405). -/

namespace Sys2Proof.Machine

/-- A frame lemma's conclusion, as a fact about values. -/
theorem Yields.of_sat {α : Type} {m : Seq α} {s : State} {Q : α → State → Prop} {E : Stop → State → Prop} (h : Sat m s Q E) :
    Yields m s Q := h.mono (fun _ _ h => h) fun _ _ _ => trivial

section
variable {s t : State}

theorem sameStream_of_position (h : positionView .free t = positionView .free s) : SameStream s t :=
  .of_mem (congrArg State.params h :) (congrArg State.cfg h :) (congrArg (fun s => s.src.bytes) h :) (congrArg State.mem h :)
    (congrArg State.epoch h :)

theorem length_pred_of_position (h : positionView .free t = positionView .free s) : t.pred.length = s.pred.length := by
  have : (positionView .free t).pred.length = (positionView .free s).pred.length := congrArg (fun s => s.pred.length) h
  have key : ∀ s, (positionView .free s).pred.length = s.pred.length := fun s =>
    (List.length_replicate : (List.replicate s.pred.length ([] : List StageState)).length = _)
  rwa [key, key] at this

theorem Alike.position (h : Alike s t) : positionView .free t = positionView .free s :=
  (congrArg (fun s => forgetCursor (forgetToDecode s)) h :)

theorem PredOk.congr {f : Nat} (h : PredOk s f) (hf : f ≤ s.cfg.numFrames) (hs : SameStream s t)
    (hp : t.pred.take s.cfg.C = s.pred.take s.cfg.C) : PredOk t f := by
  obtain h | h := h
  · exact .inl (by rw [hs.params]; exact h)
  · exact .inr (by rw [hs.cfg, hp, h, hs.predAt hf])

end

/-- A frame decoded from the right predictors leaves them right for the next. -/
theorem PredOk.next {s t : State} {g : Nat} (h : PredOk s g) (hc : s.cfg.C ≤ s.pred.length) (hg : g < s.cfg.numFrames)
    (hs : SameStream s t) (ht : t.pred = (frameOf s g s.pred).2.1) : PredOk t (g + 1) :=
  .inr (by rw [hs.cfg, ht, (h.frame hc).2.1, hs.predAt (by omega)])

/-! ## Which frames were in error -/

theorem anyBad_zero (s : State) (g : Nat) : anyBad s g 0 = false := rfl

theorem anyBad_succ (s : State) (g n : Nat) : anyBad s g (n + 1) = (frameBad s g || anyBad s (g + 1) n) := by
  simp [anyBad, List.range'_succ]

theorem anyBad_add (s : State) (g n m : Nat) : anyBad s g (n + m) = (anyBad s g n || anyBad s (g + n) m) := by
  simp [anyBad, ← List.range'_append_1]

/-- A positioning in the same stream replays the same frames. -/
theorem SameStream.replayBad {s t : State} (h : SameStream s t) (hc : CfgOk s.cfg) {b : Nat} (hb : b ≤ s.cfg.F - s.cfg.S) :
    replayBad t b = replayBad s b := by
  have hF := hc.finish
  simp only [Machine.replayBad, h.cfg, h.params]
  by_cases hbe : b = s.cfg.F - s.cfg.S
  · simp [hbe]
  · have hlt := frame_lt hc (a := s.cfg.S + b) (by omega)
    have hle := resyncFrame_le s.params ((s.cfg.S + b) / s.cfg.B)
    rw [h.anyBad (.inr (by omega))]

/-- Frames s.cur.nextFrame to t.cur.nextFrame − 1 have been decoded, and hadErrors says whether one was in error
(45_frame_sequencer.md R355, 10_state.md R41). -/
structure Decoded (s t : State) : Prop where
  le : s.cur.nextFrame ≤ t.cur.nextFrame
  inside : t.cur.nextFrame = s.cur.nextFrame ∨ t.cur.nextFrame ≤ s.cfg.numFrames
  errors : t.life.hadErrors = (s.life.hadErrors || anyBad s s.cur.nextFrame (t.cur.nextFrame - s.cur.nextFrame))

theorem Decoded.of_eq {s t : State} (hc : t.cur.nextFrame = s.cur.nextFrame) (hl : t.life.hadErrors = s.life.hadErrors) : Decoded s t :=
  ⟨by omega, .inl hc, by rw [hl, hc, Nat.sub_self, anyBad_zero, Bool.or_false]⟩

theorem Decoded.trans {s t u : State} (hs : SameStream s t) (h : Decoded s t) (k : Decoded t u) : Decoded s u := by
  obtain ⟨h1, h2, h3⟩ := h
  obtain ⟨k1, k2, k3⟩ := k
  rw [hs.cfg] at k2
  refine ⟨by omega, by omega, ?_⟩
  rw [k3, h3, hs.anyBad (by omega), show u.cur.nextFrame - s.cur.nextFrame =
    (t.cur.nextFrame - s.cur.nextFrame) + (u.cur.nextFrame - t.cur.nextFrame) by omega, anyBad_add, Bool.or_assoc,
    show s.cur.nextFrame + (t.cur.nextFrame - s.cur.nextFrame) = t.cur.nextFrame by omega]

/-! ## Replay and positioning -/

theorem yields_replay (n : Nat) : ∀ {g : Nat} {s : State}, 1 ≤ s.params.fetchBytes → CfgOk s.cfg → StreamOk s → PredOk s g →
    g + n ≤ s.cfg.numFrames → Yields (replay g n) s fun _ t => PredOk t (g + n) ∧
      t.life.hadErrors = (s.life.hadErrors || anyBad s g n) := by
  induction n with
  | zero => intro g s hf hc hk hp hg; exact Sat.pure ⟨hp, by rw [anyBad_zero, Bool.or_false]⟩
  | succ n ih =>
    intro g s hf hc hk hp hg
    rw [replay]
    have hv := (keeps_pDecodeFrame_discard (e := .free) (φ := True) g).yields (Env.holds_free s)
    refine Yields.bind ((hv.and (yields_pDecodeFrame g .discard hf hc (hk.window (by omega)))).mono fun _ t ht => ?_)
    obtain ⟨⟨hv, _⟩, hpred, hlife, _⟩ := ht
    have hpos : positionView .free t = positionView .free s :=
      (congrArg (fun s => forgetCursor (forgetRing (forgetData s))) hv :)
    have hs := sameStream_of_position hpos
    have hnext := hp.next hk.channels (by omega) hs hpred
    refine (ih (g := g + 1) (by rw [hs.params]; exact hf) (by rw [hs.cfg]; exact hc) (hs.streamOk (length_pred_of_position hpos) hk)
      hnext (by rw [hs.cfg]; omega)).mono fun _ u hu => ?_
    rw [Nat.add_right_comm] at hu
    refine ⟨hu.1, ?_⟩
    rw [hu.2, hlife, (hp.frame hk.channels).2.2, hs.anyBad (by omega), anyBad_succ, Bool.or_assoc]

/-- P_POSITION leaves the predictors where the decode of block b's frame needs them, and records errors in the frames it replays
(45_frame_sequencer.md R358). -/
theorem yields_pPosition (b : Nat) {s : State} (hf : 1 ≤ s.params.fetchBytes) (hc : CfgOk s.cfg) (hk : StreamOk s)
    (hb : b ≤ s.cfg.F - s.cfg.S) :
    Yields (pPosition b) s fun _ t => (b ≠ s.cfg.F - s.cfg.S → PredOk t ((s.cfg.S + b) / s.cfg.B)) ∧
      t.life.hadErrors = (s.life.hadErrors || replayBad s b) := by
  unfold pPosition
  refine Yields.bind (Yields.call fun t ht => Sat.modify (Sat.bind (Sat.get ?_)))
  have hpos : positionView .free (ringReset t) = positionView .free s := ht.alike.position
  have hs := sameStream_of_position hpos
  have hk' := hs.streamOk (length_pred_of_position hpos) hk
  have hlf : (ringReset t).life = s.life := (congrArg State.life ht.alike :)
  rw [hs.cfg]
  split
  · rename_i h
    refine Sat.modify ⟨fun hn => absurd h hn, ?_⟩
    rw [replayBad, ← h]
    simpa using congrArg Life.hadErrors hlf
  · rename_i h
    have hF := hc.finish
    have hlt := frame_lt hc (a := s.cfg.S + b) (by omega)
    rw [hs.params]
    have hle := resyncFrame_le s.params ((s.cfg.S + b) / s.cfg.B)
    have hr : PredOk (ringReset t) (resyncFrame s.params ((s.cfg.S + b) / s.cfg.B)) :=
      .inl (by rw [hs.params]; exact isResync_resyncFrame _ _)
    have hv := (keeps_replay (e := .free) (φ := True) (resyncFrame s.params ((s.cfg.S + b) / s.cfg.B))
      ((s.cfg.S + b) / s.cfg.B - resyncFrame s.params ((s.cfg.S + b) / s.cfg.B))).yields (Env.holds_free (ringReset t))
    refine Yields.bind ((hv.and (yields_replay ((s.cfg.S + b) / s.cfg.B - resyncFrame s.params ((s.cfg.S + b) / s.cfg.B))
      (by rw [hs.params]; exact hf) (by rw [hs.cfg]; exact hc) hk' hr (by rw [hs.cfg]; omega))).mono fun _ u hu => Sat.modify ?_)
    obtain ⟨⟨hv, _⟩, hu, herr⟩ := hu
    rw [Nat.add_sub_of_le hle] at hu
    have hcu : u.cfg = s.cfg := (congrArg State.cfg hv :).trans hs.cfg
    refine ⟨fun _ => hu.congr (by rw [hcu]; omega) (.of_mem rfl rfl rfl rfl rfl) rfl, ?_⟩
    show u.life.hadErrors = _
    rw [herr, hs.anyBad (.inr (by omega)), hlf, replayBad]
    simp [h]

/-- The frame still to be decoded is one of the stream's. -/
theorem SessionOk.nextFrame_lt {s : State} (h : SessionOk s) (hp : s.cur.resyncPending = false)
    (hlt : s.cfg.S + s.cur.curBlock + s.ring.count < s.cfg.F) : s.cur.nextFrame < s.cfg.numFrames := by
  have hF := h.cfg.finish
  have key : s.cur.nextFrame * s.cfg.B < s.cfg.total := by
    rcases Nat.eq_zero_or_pos s.ring.count with h0 | h0
    · have := h.cursor.next h0 hp (by omega); omega
    · have := h.cursor.buffered h0; omega
  have := frame_lt h.cfg key
  rwa [Nat.mul_div_cancel _ h.cfg.blocks] at this

theorem DataOk.congr {s t : State} (h : DataOk s) (hl : SessionOk s) (hs : SameStream s t) (hp : t.pred = s.pred)
    (hr : t.ring = s.ring) (he : t.epoch = s.epoch) (h1 : t.cur.curBlock = s.cur.curBlock) (h2 : t.cur.nextFrame = s.cur.nextFrame)
    (h3 : t.cur.resyncPending = s.cur.resyncPending) : DataOk t := by
  refine ⟨hs.streamOk (by rw [hp]) h.stream, ?_, fun hpend hlt => ?_⟩
  · rw [ringBlocks_congr hr hs.cfg he, h.ring, hr, hs.cfg, h1]
    refine List.map_congr_left fun i hi => ?_
    have := List.mem_range.1 hi
    have := hl.cursor.inRange
    have := hl.cfg.finish
    exact (hs.streamBlock hl.cfg (by omega)).symm
  · rw [h3] at hpend
    rw [hs.cfg, h1, hr] at hlt
    rw [h2]
    exact (h.preds hpend hlt).congr (Nat.le_of_lt (hl.nextFrame_lt hpend hlt)) hs (by rw [hp])

/-- Positioning puts the data in order, and records errors in the frames it replays. -/
theorem yields_pPosition_data (b : Nat) {s : State} (hf : 1 ≤ s.params.fetchBytes) (hc : CfgOk s.cfg) (hk : StreamOk s)
    (hb : b ≤ s.cfg.F - s.cfg.S) :
    Yields (pPosition b) s fun _ t => DataOk t ∧ t.life.hadErrors = (s.life.hadErrors || replayBad s b) := by
  refine ((Yields.of_sat (sat_pPosition (e := .free) (φ := True) b (Env.holds_free s))).and (yields_pPosition b hf hc hk hb)).mono fun _ t ht => ?_
  obtain ⟨⟨hv, _, _, _, hcnt, hcur⟩, hp, herr⟩ := ht
  have hs := sameStream_of_position hv
  refine ⟨⟨hs.streamOk (length_pred_of_position hv) hk, ?_, fun hpend _ => ?_⟩, herr⟩
  · have : ringBlocks t = [] := List.eq_nil_of_length_eq_zero (by rw [length_ringBlocks, hcnt])
    rw [this, hcnt]; rfl
  · rw [hcur] at hpend ⊢
    exact hp (by simpa using hpend)

/-! ## GETDATA -/

/-- The blocks of a frame from `skip` on are the stream's from g × B + skip on. -/
theorem frame_blocks_eq {s : State} (hc : CfgOk s.cfg) (g skip F : Nat) :
    ((frameOf s g (predAt s g)).1.take (F - g * s.cfg.B)).drop skip =
      (List.range (min (F - g * s.cfg.B) (frameBlocks s.cfg g) - skip)).map fun i => streamBlock s (g * s.cfg.B + skip + i) := by
  have hlen := length_frameOf s g (predAt s g)
  refine List.ext_getElem (by rw [List.length_drop, List.length_take, hlen, List.length_map, List.length_range]) fun i h1 h2 => ?_
  rw [List.length_drop, List.length_take, hlen] at h1
  rw [List.getElem_drop, List.getElem_take, List.getElem_map, List.getElem_range]
  have hB := frameBlocks_le hc g
  unfold streamBlock
  have hd : (g * s.cfg.B + skip + i) / s.cfg.B = g := by
    rw [Nat.add_assoc, Nat.mul_comm, Nat.mul_add_div hc.blocks, Nat.div_eq_of_lt (by omega), Nat.add_zero]
  have hm : (g * s.cfg.B + skip + i) % s.cfg.B = skip + i := by
    rw [Nat.add_assoc, Nat.mul_comm, Nat.mul_add_mod, Nat.mod_eq_of_lt (by omega)]
  rw [hd, hm, List.getD_eq_getElem?_getD, List.getElem?_eq_getElem (by rw [hlen]; omega)]
  rfl

/-- Refilling an empty ring brings the stream's next blocks. -/
theorem yields_refill {s : State} (hf : 1 ≤ s.params.fetchBytes) (hl : SessionOk s) (hd : DataOk s)
    (hp : s.cur.resyncPending = false) (hlt : s.cfg.S + s.cur.curBlock < s.cfg.F) :
    Yields refill s fun _ t => DataOk t ∧ SameStream s t ∧ Decoded s t := by
  unfold refill
  refine Yields.bind (Sat.get ?_)
  show Yields _ s _
  split
  · rename_i h0
    have hc := hl.cfg
    have hFt := hc.finish
    have hnext := hl.cursor.next h0 hp hlt
    have hg : s.cur.nextFrame * s.cfg.B < s.cfg.total := by omega
    have hgn := hl.nextFrame_lt hp (by omega)
    have hroom := Nat.le_trans (frameBlocks_le hc s.cur.nextFrame) hl.ring.room
    refine ((Yields.of_sat (sat_pDecodeFrame (e := .free) (φ := True) (Env.holds_free s) h0 hl.ring.wr hroom)).and
      (yields_pDecodeFrame s.cur.nextFrame .deliver hf hc (hd.stream.window hgn))).mono fun _ t ht => ?_
    obtain ⟨⟨hv, _, _, hcur, hcnt, _⟩, hpred, hlife, hring⟩ := ht
    have hs := sameStream_of_position hv
    have hpk := hd.preds hp (by omega)
    have hfr := hpk.frame hd.stream.channels
    have hring := hring rfl h0 hl.ring.wr hroom
    rw [hfr.1, frame_blocks_eq hc _ _ _] at hring
    have hnf : t.cur.nextFrame = s.cur.nextFrame + 1 := by rw [hcur]
    refine ⟨⟨hs.streamOk (length_pred_of_position hv) hd.stream, ?_, fun _ _ => ?_⟩, hs, by omega, by omega, ?_⟩
    · rw [hring, hcnt, hs.cfg, hcur, Nat.min_comm]
      refine List.map_congr_left fun i hi => ?_
      have := List.mem_range.1 hi
      dsimp only
      rw [← hnext]
      exact (hs.streamBlock hc (by omega)).symm
    · rw [hcur]
      exact hpk.next hd.stream.channels hgn hs hpred
    · rw [hlife, hnf, Nat.add_sub_cancel_left, anyBad_succ, anyBad_zero, Bool.or_false, hfr.2.2]
  · exact Sat.pure ⟨hd, .refl s, .of_eq rfl rfl⟩

/-- SEEKTAB lies below OUT (20_memory.md R80). -/
theorem entry_below_out {s : State} (hw : s.params.wf = true) (hk : StreamOk s) {g i : Nat} (hg : g < s.cfg.numFrames) (hi : i < 8) :
    seektabBase + 8 * g + i < outBase := by
  have h1 := hk.table
  have h2 : s.params.seektabEntries ≤ 2 ^ 17 := by
    simp only [Params.wf, Bool.and_eq_true, decide_eq_true_eq] at hw
    exact hw.1.1.2.2.2.2.2.2.1
  unfold seektabBase outBase
  omega

theorem readBytes_congr_range {s t : State} (n : Nat) : ∀ {a : Nat}, (∀ i, i < n → readByte t (a + i) = readByte s (a + i)) →
    readBytes t a n = readBytes s a n := by
  induction n with
  | zero => intro a _; rfl
  | succ n ih =>
    intro a h
    rw [readBytes, readBytes, ih (a := a + 1) (fun i hi => by rw [Nat.add_assoc, Nat.add_comm 1 i]; exact h (i + 1) (by omega))]
    have := h 0 (by omega)
    rw [Nat.add_zero] at this
    rw [this]

/-- Writing OUT leaves the stream as it is. -/
theorem sameStream_of_out {n : Nat} {s t : State} (hw : s.params.wf = true) (hk : StreamOk s) (hp : t.params = s.params)
    (hc : t.cfg = s.cfg) (hb : t.src.bytes = s.src.bytes) (hm : MemWithin n s t) : SameStream s t :=
  ⟨hp, hc, hb, fun g hg => by
    unfold seektabEntry
    rw [hp, readBytes_congr_range 8 fun i hi => hm.outside _ (.inl (entry_below_out hw hk hg hi))]⟩

/-- What the stream's blocks from block a on read as when they lie in OUT from block got to block upTo. -/
def outHolds (s : State) (a got upTo : Nat) (t : State) : Prop := ∀ x, readByte t x =
  if outBase + got * s.cfg.BA ≤ x ∧ x < outBase + upTo * s.cfg.BA then
    (streamBlock s (a + (x - (outBase + got * s.cfg.BA)) / s.cfg.BA)).getD ((x - (outBase + got * s.cfg.BA)) % s.cfg.BA) 0
  else readByte s x

theorem outHolds_trans {s t u : State} {a got m upTo : Nat} (hc : t.cfg = s.cfg) (hBA : 0 < s.cfg.BA) (hm : got + m ≤ upTo)
    (h : outHolds s a got (got + m) t)
    (hst : ∀ x, outBase + (got + m) * s.cfg.BA ≤ x → x < outBase + upTo * s.cfg.BA →
      streamBlock t (a + m + (x - (outBase + (got + m) * s.cfg.BA)) / s.cfg.BA) =
        streamBlock s (a + m + (x - (outBase + (got + m) * s.cfg.BA)) / s.cfg.BA))
    (k : outHolds t (a + m) (got + m) upTo u) : outHolds s a got upTo u := by
  intro x
  rw [k x, hc]
  have hmono : (got + m) * s.cfg.BA ≤ upTo * s.cfg.BA := Nat.mul_le_mul_right _ hm
  have hsplit : (got + m) * s.cfg.BA = got * s.cfg.BA + m * s.cfg.BA := Nat.add_mul _ _ _
  by_cases h1 : outBase + (got + m) * s.cfg.BA ≤ x ∧ x < outBase + upTo * s.cfg.BA
  · rw [if_pos h1, if_pos (by omega), hst x h1.1 h1.2]
    have hx : x - (outBase + got * s.cfg.BA) = s.cfg.BA * m + (x - (outBase + (got + m) * s.cfg.BA)) := by
      rw [Nat.mul_comm s.cfg.BA m]; omega
    rw [hx, Nat.mul_add_div hBA, Nat.mul_add_mod, Nat.add_assoc]
  · rw [if_neg h1, h x]
    by_cases h2 : outBase + got * s.cfg.BA ≤ x ∧ x < outBase + (got + m) * s.cfg.BA
    · rw [if_pos h2, if_pos (by omega)]
    · rw [if_neg h2, if_neg (by omega)]

theorem CfgOk.align_pos {c : SessionCfg} (h : CfgOk c) : 0 < c.BA := by
  rw [h.bytes]
  have h1 := h.channels
  have : 0 < c.bps / 8 := by obtain h | h | h | h := h.depth <;> rw [h] <;> omega
  exact Nat.mul_pos h1 this

/-- Blocks that leave the ring leave the data in order. -/
theorem DataOk.drop {s : State} {m : Nat} (hd : DataOk s) (hl : SessionOk s) (hm : m ≤ s.ring.count) :
    DataOk { advanceRead m s with cur.curBlock := s.cur.curBlock + m } := by
  have hin := hl.cursor.inRange
  have hFt := hl.cfg.finish
  have hrange := hl.cfg.range
  have hs : SameStream s (({ advanceRead m s with cur.curBlock := s.cur.curBlock + m } : State)) := .of_mem rfl rfl rfl rfl rfl
  refine ⟨hs.streamOk rfl hd.stream, ?_, fun hpend hlt => ?_⟩
  · have h1 : ringBlocks ({ advanceRead m s with cur.curBlock := s.cur.curBlock + m } : State) = (ringBlocks s).drop m :=
      (ringBlocks_congr rfl rfl rfl).trans (ringBlocks_advance s m)
    refine h1.trans ?_
    rw [hd.ring]
    refine List.ext_getElem (by simp [advanceRead]) fun i h2 h3 => ?_
    simp only [List.getElem_drop, List.getElem_map, List.getElem_range]
    have h4 : i < s.ring.count - m := by simpa [advanceRead] using h3
    have h5 := hs.streamBlock hl.cfg (a := s.cfg.S + s.cur.curBlock + (m + i)) (by omega)
    rw [← h5]
    congr 1
    show _ = s.cfg.S + (s.cur.curBlock + m) + i
    omega
  · have h6 : s.cfg.S + (s.cur.curBlock + m) + (s.ring.count - m) < s.cfg.F := hlt
    have h7 := hd.preds hpend (by omega)
    exact h7.congr (Nat.le_of_lt (hl.nextFrame_lt hpend (by omega))) hs rfl

/-- Draining the ring: the stream's blocks go to OUT, and the ring keeps the ones after them. -/
theorem yields_drain {s : State} {w got : Nat} (hw : s.params.wf = true) (hl : SessionOk s) (hd : DataOk s)
    (hfit : (got + w) * s.cfg.BA ≤ s.params.outbufBytes) :
    Yields (do
        let m ← call (uRingRead w (got * s.cfg.BA))
        modify fun s => { s with cur.curBlock := s.cur.curBlock + m }
        pure m) s
      fun m t => DataOk t ∧ SameStream s t ∧ Decoded s t ∧ outHolds s (s.cfg.S + s.cur.curBlock) got (got + m) t := by
  refine Yields.bind (Yields.call fun t ht => ?_)
  have hst := sameStream_of_position ht.alike.position
  have ha := ht.alike
  have hlt : SessionOk t := hl.congr ha.params ha.cfg ha.ring (by rw [ha.cur]) (by rw [ha.cur]) (by rw [ha.cur]) (by rw [ha.cur])
  have hdt : DataOk t := hd.congr hl hst ha.pred ha.ring ha.epoch (by rw [ha.cur]) (by rw [ha.cur]) (by rw [ha.cur])
  have hcopy := readByte_copyBlocks (got * s.cfg.BA) (min w t.ring.count) (s := t)
  obtain ⟨M, hM⟩ : ∃ M, copyBlocks (got * s.cfg.BA) (List.range (min w t.ring.count)) t = { t with mem := M } :=
    ⟨_, copyBlocks_eq _ _ _⟩
  refine Sat.bind (Sat.get (Sat.bind (Sat.set (Sat.pure (Sat.bind (Sat.modify (Sat.pure ?_)))))))
  rw [hM] at hcopy ⊢
  generalize hm : min w t.ring.count = m at *
  have hle : m ≤ t.ring.count := by omega
  have hfit : (got + m) * s.cfg.BA ≤ s.params.outbufBytes := Nat.le_trans (Nat.mul_le_mul_right _ (by omega)) hfit
  have hBA := hlt.cfg.align_pos
  have hmw : MemWithin ((got + m) * s.cfg.BA) t { t with mem := M } := by
    refine ⟨fun x hx => ?_, fun h => ?_⟩
    · rw [hcopy, ha.cfg, if_neg (by rw [Nat.add_mul] at hx; omega)]
    · have := wf_copyBlocks (got * s.cfg.BA) (List.range m) t h
      rw [hM] at this; exact this
  have hs1 : SameStream t { t with mem := M } := sameStream_of_out (by rw [ha.params]; exact hw) hdt.stream rfl rfl rfl hmw
  have hin := hlt.cursor.inRange
  have hFt := hlt.cfg.finish
  have hrange := hlt.cfg.range
  have hl1 : SessionOk { t with mem := M } := hlt.congr rfl rfl rfl rfl rfl rfl rfl
  have hd1 : DataOk { t with mem := M } := hdt.congr hlt hs1 rfl rfl rfl rfl rfl rfl
  refine ⟨hd1.drop hl1 hle, hst.trans (hs1.trans (.of_mem rfl rfl rfl rfl rfl)),
    .of_eq (congrArg Cursor.nextFrame ha.cur :) (congrArg (fun s => s.life.hadErrors) ha :), ?_⟩
  · intro x
    have h8 := hcopy x
    have h9 : readByte ({ advanceRead m { t with mem := M } with cur.curBlock := t.cur.curBlock + m } : State) x =
        readByte { t with mem := M } x := rfl
    have hBAe : t.cfg.BA = s.cfg.BA := by rw [ha.cfg]
    rw [hBAe] at h8
    refine (h9.trans h8).trans ?_
    rw [Nat.add_mul] at hfit
    have hout : (outBase + got * s.cfg.BA ≤ x ∧ x < outBase + got * s.cfg.BA + m * s.cfg.BA ∧ x < outBase + s.params.outbufBytes) ↔
        (outBase + got * s.cfg.BA ≤ x ∧ x < outBase + got * s.cfg.BA + m * s.cfg.BA) := by omega
    rw [Nat.add_mul got m, ← Nat.add_assoc outBase, show t.params = s.params from ha.params]
    simp only [hout]
    have h10 : readByte t x = readByte s x := readByte_congr ha.mem ha.epoch x
    rw [h10]
    split
    · rename_i hx
      have hi : (x - (outBase + got * s.cfg.BA)) / s.cfg.BA < m :=
        Nat.div_lt_of_lt_mul (by rw [Nat.mul_comm s.cfg.BA m]; omega)
      generalize (x - (outBase + got * s.cfg.BA)) / s.cfg.BA = i at *
      have h11 : ringSlot t (readSlot t.ring i) = streamBlock t (t.cfg.S + t.cur.curBlock + i) := by
        have := congrArg (fun l => l[i]?) hdt.ring
        simpa [ringBlocks, List.getElem?_range (show i < t.ring.count by omega)] using this
      have h12 : t.cfg.S + t.cur.curBlock + i < s.cfg.total := by rw [← ha.cfg]; omega
      rw [h11, hst.streamBlock hl.cfg h12, ha.cfg, ha.cur]
    · rfl

theorem outHolds_refl (s : State) (a got : Nat) : outHolds s a got got s := fun x => by rw [if_neg (by omega)]

/-- The loop of GETDATA copies the stream's next blocks to OUT, in order. -/
theorem yields_deliverLoop {want : Nat} (left : Nat) : ∀ {got : Nat} {s : State}, s.params.wf = true → 1 ≤ s.params.fetchBytes →
    SessionOk s → DataOk s → got ≤ want → want ≤ got + left → s.cfg.S + s.cur.curBlock + (want - got) ≤ s.cfg.F →
    (got < want → s.cur.resyncPending = false) → want * s.cfg.BA ≤ s.params.outbufBytes →
    Yields (deliverLoop want left got) s fun _ t =>
      DataOk t ∧ SameStream s t ∧ Decoded s t ∧ outHolds s (s.cfg.S + s.cur.curBlock) got want t := by
  induction left with
  | zero =>
    intro got s hw hf hl hd h1 hb h2 h3 hfit
    rw [deliverLoop]
    obtain rfl : got = want := by omega
    exact Sat.pure ⟨hd, .refl s, .of_eq rfl rfl, outHolds_refl _ _ _⟩
  | succ left ih =>
    intro got s hw hf hl hd h1 hb h2 h3 hfit
    rw [deliverLoop]
    split
    · rename_i hg
      have hp := h3 hg
      refine Yields.bind (((Yields.of_sat (sat_refill (e := .free) (φ := True) (n := 0) (k := 0) (Env.holds_free s) hl hp (by omega))).and
        (yields_refill hf hl hd hp (by omega))).mono fun _ t ht => ?_)
      obtain ⟨⟨hv, _, hlt, hpos, hcb, hpt, hm, hep⟩, hdt, hst, hdec⟩ := ht
      have hpar : t.params = s.params := hst.params
      refine Sat.bind (Sat.get ?_)
      have key := (Yields.of_sat (sat_drain (e := .free) (φ := True) (w := want - got) (got := got)
        (n := (got + (want - got)) * t.cfg.BA) (Env.holds_free t) hlt hpos (Nat.le_refl _))).and
        (yields_drain (w := want - got) (got := got) (by rw [hpar]; exact hw) hlt hdt
          (by rw [hst.cfg, hpar, show got + (want - got) = want by omega]; exact hfit))
      have step : Yields (do
          let m ← (do
            let m ← call (uRingRead (want - got) (got * t.cfg.BA))
            modify fun s => { s with cur.curBlock := s.cur.curBlock + m }
            pure m)
          deliverLoop want left (got + m)) t
          (fun _ u => DataOk u ∧ SameStream s u ∧ Decoded s u ∧ outHolds s (s.cfg.S + s.cur.curBlock) got want u) := by
        refine Yields.bind (key.mono fun m u hu => ?_)
        obtain ⟨⟨hmeq, _, _, hlu, hcu, hpu, _⟩, hdu, htu, hdec2, hou⟩ := hu
        have hsu := hst.trans htu
        refine (ih (by rw [hsu.params]; exact hw) (by rw [hsu.params]; exact hf) hlu hdu (by omega) (by omega)
          (by rw [hsu.cfg, hcu, hcb]; omega) (fun _ => hpu.trans hpt) (by rw [hsu.cfg, hsu.params]; exact hfit)).mono fun _ v hv' => ?_
        obtain ⟨hdv, huv, hdec3, hov⟩ := hv'
        refine ⟨hdv, hsu.trans huv, .trans hsu (.trans hst hdec hdec2) hdec3, ?_⟩
        rw [hcu, hcb, hsu.cfg, ← Nat.add_assoc] at hov
        have hou' : outHolds s (s.cfg.S + s.cur.curBlock) got (got + m) u := by
          intro x
          have h4 := hou x
          rw [hst.cfg, hcb, readByte_congr hm hep] at h4
          rw [h4]
          split
          · rename_i hx
            rw [hst.streamBlock hl.cfg]
            have hFt := hl.cfg.finish
            have : (x - (outBase + got * s.cfg.BA)) / s.cfg.BA < m :=
              Nat.div_lt_of_lt_mul (by rw [Nat.mul_comm s.cfg.BA m]; have := Nat.add_mul got m s.cfg.BA; omega)
            omega
          · rfl
        refine outHolds_trans hsu.cfg hl.cfg.align_pos (by omega) hou' (fun x hx1 hx2 => ?_) hov
        refine hsu.streamBlock hl.cfg ?_
        have hFt := hl.cfg.finish
        have : (x - (outBase + (got + m) * s.cfg.BA)) / s.cfg.BA < want - (got + m) :=
          Nat.div_lt_of_lt_mul (by
            rw [Nat.mul_comm s.cfg.BA, Nat.sub_mul]; omega)
        omega
      show Yields _ t _
      simpa only [bind_assoc, pure_bind] using step
    · have : got = want := by omega
      subst this
      exact Sat.pure ⟨hd, .refl s, .of_eq rfl rfl, outHolds_refl _ _ _⟩

/-- The frame GETDATA decodes first, but for replays (46_host_commands.md R404). -/
def firstFrame (s : State) : Nat :=
  if s.cur.resyncPending then (s.cfg.S + s.cur.curBlock) / s.cfg.B else s.cur.nextFrame

theorem yields_reposition {s : State} (hf : 1 ≤ s.params.fetchBytes) (hl : SessionOk s) (hd : DataOk s) :
    Yields reposition s fun _ t => DataOk t ∧ t.cur.nextFrame = firstFrame s ∧
      t.life.hadErrors = (s.life.hadErrors || (s.cur.resyncPending && replayBad s s.cur.curBlock)) := by
  unfold reposition firstFrame
  refine Sat.bind (Sat.get ?_)
  split
  · rename_i hp
    have := hl.cursor.inRange
    refine ((Yields.of_sat (sat_pPosition (e := .free) (φ := True) s.cur.curBlock (Env.holds_free s))).and
      (yields_pPosition_data _ hf hl.cfg hd.stream (by omega))).mono fun _ t ht => ?_
    obtain ⟨⟨_, _, _, _, _, hcur⟩, hdt, herr⟩ := ht
    exact ⟨hdt, by rw [hcur], by rw [herr, hp, Bool.true_and]⟩
  · rename_i hp
    exact Sat.pure ⟨hd, rfl, by rw [Bool.eq_false_iff.2 hp, Bool.false_and, Bool.or_false]⟩

/-- hadErrors after a GETDATA or SEEK that went from s to t, given whether frames replayed first were in error. -/
def errorsAfter (s t : State) (replayed : Bool) : Bool :=
  s.life.hadErrors || replayed || anyBad s (firstFrame s) (t.cur.nextFrame - firstFrame s)

/-- GETDATA past its checks: OUT holds the stream's next blocks, and hadErrors says whether a frame was in error. -/
theorem yields_getdataRun (n : Nat) {s : State} (hw : s.params.wf = true) (hf : 1 ≤ s.params.fetchBytes) (hl : SessionOk s)
    (hd : DataOk s) (hfit : wantOf n s * s.cfg.BA ≤ s.params.outbufBytes) :
    Yields (getdataRun n) s fun _ t => DataOk t ∧ outHolds s (s.cfg.S + s.cur.curBlock) 0 (wantOf n s) t ∧
      t.life.hadErrors = errorsAfter s t (s.cur.resyncPending && replayBad s s.cur.curBlock) := by
  refine Sat.bind (Sat.modify ?_)
  have hl' := hl.enter .decoding
  have hd' : DataOk (enterCommand .decoding s) := hd.congr hl (.of_mem rfl rfl rfl rfl rfl) rfl rfl rfl rfl rfl rfl
  refine Yields.bind (((Yields.of_sat (sat_reposition (e := .free) (φ := True) (n := 0) (k := 0) (Env.holds_free _) hl')).and
    (yields_reposition hf hl' hd')).mono fun _ t ht => ?_)
  obtain ⟨⟨hv, _, hlt, hcb, hp⟩, hdt, hnf, herr⟩ := ht
  have hst : SameStream s t := (SameStream.of_mem rfl rfl rfl rfl rfl : SameStream s (enterCommand .decoding s)).trans (sameStream_of_position hv)
  have hcb' : t.cur.curBlock = s.cur.curBlock := hcb
  have hwant : wantOf n t = wantOf n s := by simp only [wantOf, hst.cfg, hcb']
  have hin := hl.cursor.inRange
  have hSF := hl.cfg.range
  have hwb : wantOf n s ≤ (s.cfg.F - s.cfg.S) - s.cur.curBlock := by unfold wantOf; omega
  refine Sat.bind (Sat.get ?_)
  rw [hwant]
  refine Yields.bind (((Yields.of_sat (sat_deliverLoop (e := .free) (φ := True) (want := wantOf n s) (n := wantOf n s * t.cfg.BA)
    (wantOf n s) (Env.holds_free t) hlt (Nat.zero_le _) (by omega) (by rw [hst.cfg, hcb']; omega)
    (fun h => hp (by show s.cfg.S + s.cur.curBlock < s.cfg.F; omega)) (Nat.le_refl _))).and
    (yields_deliverLoop (wantOf n s) (by rw [hst.params]; exact hw) (by rw [hst.params]; exact hf) hlt hdt (Nat.zero_le _) (by omega)
    (by rw [hst.cfg, hcb']; omega) (fun h => hp (by show s.cfg.S + s.cur.curBlock < s.cfg.F; omega))
    (by rw [hst.cfg, hst.params]; exact hfit))).mono fun r u hu => ?_)
  obtain ⟨⟨_, _, _, hlu, _⟩, hdu, htu, hdec, hou⟩ := hu
  have hsu := hst.trans htu
  unfold finishWith
  refine Yields.bind ?_
  have key : Yields interleave u fun _ w => SameBlock u w := by
    obtain ⟨w, hw, hs⟩ | ⟨w, l, hw, hs⟩ := interleave_cases u
    · simp only [Yields, Sat, hw]; exact hs
    · simp only [Yields, Sat, hw]
  refine key.mono fun _ w hw' => Sat.modify ?_
  have ha := hw'.alike
  have hdw : DataOk w := hdu.congr hlu (.of_mem ha.params ha.cfg (by rw [ha.src]) ha.mem ha.epoch) ha.pred ha.ring ha.epoch
    (by rw [ha.cur]) (by rw [ha.cur]) (by rw [ha.cur])
  have hlw : SessionOk w := hlu.congr ha.params ha.cfg ha.ring (by rw [ha.cur]) (by rw [ha.cur]) (by rw [ha.cur]) (by rw [ha.cur])
  refine ⟨hdw.congr hlw (.of_mem rfl rfl rfl rfl rfl) rfl rfl rfl rfl rfl rfl, fun x => ?_, ?_⟩
  rotate_left
  · have hwl : (getdataDone n r w).life.hadErrors = u.life.hadErrors := (congrArg (fun s => s.life.hadErrors) ha :)
    have hwn : (getdataDone n r w).cur.nextFrame = u.cur.nextFrame := (congrArg Cursor.nextFrame ha.cur :)
    have hs0 : SameStream s (enterCommand .decoding s) := .of_mem rfl rfl rfl rfl rfl
    have h1 : t.life.hadErrors = (s.life.hadErrors || (s.cur.resyncPending && replayBad s s.cur.curBlock)) := by
      rw [herr]
      show (s.life.hadErrors || (s.cur.resyncPending && replayBad (enterCommand .decoding s) s.cur.curBlock)) = _
      rw [hs0.replayBad hl.cfg (by omega)]
    have h2 : t.cur.nextFrame = firstFrame s := hnf
    have h3 := hdec.inside
    have h4 := hdec.le
    rw [hst.cfg] at h3
    rw [hwl, hdec.errors, h1, errorsAfter, hwn, hst.anyBad (by omega), h2]
  have h4 := hou x
  rw [hst.cfg, hcb'] at h4
  have h5 : readByte (getdataDone n r w) x = readByte u x := readByte_congr ha.mem ha.epoch x
  have h6 : readByte t x = readByte s x :=
    (readByte_congr (congrArg State.mem hv :) (congrArg State.epoch hv :) x).trans rfl
  rw [h5, h4, h6]
  split
  · rename_i hx
    rw [hst.streamBlock hl.cfg]
    have hFt := hl.cfg.finish
    have : (x - (outBase + 0 * s.cfg.BA)) / s.cfg.BA < wantOf n s :=
      Nat.div_lt_of_lt_mul (by rw [Nat.mul_comm s.cfg.BA]; omega)
    omega
  · rfl

/-! ## SEEK -/

/-- SEEK past its checks leaves the data in order, and records errors in the frames it replays. -/
theorem yields_seekRun (b : Nat) {s : State} (hf : 1 ≤ s.params.fetchBytes) (hl : SessionOk s) (hd : DataOk s)
    (hb : b ≤ s.cfg.F - s.cfg.S) : Yields (seekRun b) s fun _ t => DataOk t ∧
      t.life.hadErrors = (s.life.hadErrors || (!seekShort b s && replayBad s b)) := by
  refine Sat.bind (Sat.modify ?_)
  have hl' := hl.enter .seeking
  have hd' : DataOk (enterCommand .seeking s) := hd.congr hl (.of_mem rfl rfl rfl rfl rfl) rfl rfl rfl rfl rfl rfl
  change Yields _ (enterCommand .seeking s) _
  generalize hs0 : enterCommand .seeking s = s0 at *
  have hb0 : b ≤ s0.cfg.F - s0.cfg.S := by rw [← hs0]; exact hb
  have hf0 : 1 ≤ s0.params.fetchBytes := by rw [← hs0]; exact hf
  have hshort0 : seekShort b s0 = seekShort b s := by rw [← hs0]; rfl
  have hreplay0 : replayBad s0 b = replayBad s b := by
    rw [← hs0]
    have h : SameStream s (enterCommand .seeking s) := .of_mem rfl rfl rfl rfl rfl
    exact h.replayBad hl.cfg hb
  have last : ∀ (t : State) (x : Bool), SessionOk t → DataOk t → t.life.hadErrors = x →
      Yields (finishWith fun s => complete .success 0 0 { s with life.fsm := .ready }) t fun _ t => DataOk t ∧ t.life.hadErrors = x := by
    intro t x hlt hdt hx
    unfold finishWith
    refine Yields.bind ?_
    have key : Yields interleave t fun _ w => SameBlock t w := by
      obtain ⟨w, hw, hs⟩ | ⟨w, l, hw, hs⟩ := interleave_cases t
      · simp only [Yields, Sat, hw]; exact hs
      · simp only [Yields, Sat, hw]
    refine key.mono fun _ w hw' => Sat.modify ?_
    have ha := hw'.alike
    exact ⟨hdt.congr hlt (.of_mem ha.params ha.cfg (congrArg Source.bytes ha.src) ha.mem ha.epoch) ha.pred ha.ring ha.epoch
      (congrArg Cursor.curBlock ha.cur) (congrArg Cursor.nextFrame ha.cur) (congrArg Cursor.resyncPending ha.cur),
      (congrArg (fun s => s.life.hadErrors) ha :).trans hx⟩
  refine Sat.bind (Sat.get ?_)
  rw [← hshort0, ← hreplay0]
  have hlife0 : s.life.hadErrors = s0.life.hadErrors := by rw [← hs0]; rfl
  rw [hlife0]
  split
  · rename_i hshort
    rw [hshort, Bool.not_true, Bool.false_and, Bool.or_false]
    simp only [seekShort, Bool.and_eq_true, Bool.not_eq_true', decide_eq_true_eq] at hshort
    obtain ⟨⟨hp, h1⟩, h2⟩ := hshort
    refine Yields.bind (Yields.call (m := uRingDrop (b - s0.cur.curBlock)) fun t ht => Sat.modify ?_)
    have ha := ht.alike
    rw [dropBlocks_of_le (by rw [congrArg Ring.count ha.ring]; omega)]
    refine Yields.bind (Sat.modify ?_)
    have hlt : SessionOk t := hl'.congr ha.params ha.cfg ha.ring (congrArg Cursor.curBlock ha.cur) (congrArg Cursor.nextFrame ha.cur)
      (congrArg Cursor.skipBlocks ha.cur) (congrArg Cursor.resyncPending ha.cur)
    have hdt : DataOk t := hd'.congr hl' (.of_mem ha.params ha.cfg (congrArg Source.bytes ha.src) ha.mem ha.epoch) ha.pred ha.ring
      ha.epoch (congrArg Cursor.curBlock ha.cur) (congrArg Cursor.nextFrame ha.cur) (congrArg Cursor.resyncPending ha.cur)
    have hcb : t.cur.curBlock = s0.cur.curBlock := congrArg Cursor.curBlock ha.cur
    have hrp : t.cur.resyncPending = false := (congrArg Cursor.resyncPending ha.cur).trans hp
    have hcnt : t.ring.count = s0.ring.count := congrArg Ring.count ha.ring
    have hb' : t.cur.curBlock + (b - s0.cur.curBlock) = b := by omega
    have h3 := hdt.drop hlt (m := b - s0.cur.curBlock) (by omega)
    have h4 := hlt.drop (m := b - s0.cur.curBlock) hrp (by omega)
    rw [hb'] at h3 h4
    exact last _ _ h4 h3 (congrArg (fun s => s.life.hadErrors) ha :)
  · rename_i hshort
    rw [Bool.eq_false_iff.2 hshort, Bool.not_false, Bool.true_and]
    have hrd := hl'.ring.rd
    refine Yields.bind (((Yields.of_sat (sat_pPosition_ok (e := .free) (φ := True) (n := 0) (k := 0) (Env.holds_free s0) hl'.cfg hl'.ring.cap (by omega) hb0
      hl'.cursor.skip)).and (yields_pPosition_data b hf0 hl'.cfg hd'.stream hb0)).mono fun _ t ht => ?_)
    exact last t _ ht.1.2.2.1 ht.2.1 ht.2.2

end Sys2Proof.Machine
end

