-- ==== Sys2Proof/Laws/Opening.lean ====
section
/-! SUPPORT. What INIT's checks of the stream find, and the data it leaves (46_host_commands.md R402, R403). -/

namespace Sys2Proof.Machine

theorem yields_uSrcSize {s : State} : Yields uSrcSize s fun z t => z = s.src.bytes.length ∧ t = { s with src := s.src.afterRequest .size } := by
  unfold uSrcSize
  refine Yields.bind ((yields_request _).mono fun a t ht => ?_)
  obtain ⟨_, rfl⟩ := ht
  exact Sat.bind (Sat.get (Sat.pure ⟨rfl, rfl⟩))

theorem cfgOf_ok {p : Params} {d : Desc} {S F : Nat} (hd : descValid p d = true) (h1 : S ≤ F) (h2 : F ≤ d.total.toNat) :
    CfgOk (cfgOf p d S F) ∧ (cfgOf p d S F).numFrames ≤ p.seektabEntries ∧ (cfgOf p d S F).C ≤ p.maxChannels := by
  simp only [descValid, decide_eq_true_eq] at hd
  exact ⟨⟨hd.1, hd.2.2.1, hd.2.2.2.1, hd.2.2.2.2.1, h1, h2, rfl⟩, hd.2.2.2.2.2.2.2.2.2.1, hd.2.1⟩

theorem initConfigure_ok {ranged : Bool} {s : State} {c : SessionCfg} (h : initConfigure ranged s = .ok c) :
    CfgOk c ∧ c.numFrames ≤ s.params.seektabEntries ∧ c.C ≤ s.params.maxChannels := by
  unfold initConfigure at h
  simp only at h
  split at h
  · cases h
  · rename_i hd
    split at h
    · cases h
    · rename_i hr
      cases h
      exact cfgOf_ok (by simpa using hd) (by omega) (by omega)

/-- The header probe finds whether frame 0's header decodes (46_host_commands.md R403 step 6). -/
theorem yields_probeHeader {s : State} (hf : 1 ≤ s.params.fetchBytes) (hw : 0 < s.cfg.numFrames → WindowOk s 0) :
    Yields probeHeader s fun ok _ => ok = headerProbe s := by
  unfold probeHeader headerProbe
  refine Sat.bind (Sat.get ?_)
  split
  · rename_i h; exact Sat.pure rfl
  · rename_i h
    have hw := hw (by omega)
    have hwin : frameStart s 0 + (frameEnd s 0 - frameStart s 0) ≤ s.src.bytes.length := by
      have := hw.1; have := hw.2; omega
    have after : ∀ t, BrOk t → readsView .free t = readsView .free s → t.br.start = frameStart s 0 →
        t.br.len = frameEnd s 0 - frameStart s 0 → t.br.p = 0 →
        Yields (do
          modify fun s => { s with frm := { s.frm with frameErr := false } }
          call uBrHeader
          let t ← get
          pure (!t.frm.frameErr)) t fun ok _ => ok = headerDecodes s 0 := by
      intro t h1 h2 h3 h4 h5
      have hpar : t.params = s.params := (congrArg State.params h2 :)
      have hbytes : t.src.bytes = s.src.bytes := (congrArg (fun s => s.src.bytes) h2 :)
      refine Yields.bind (Sat.modify (Yields.bind (Yields.call (m := uBrHeader) fun u hu => ?_)))
      have ha := hu.alike
      have hub : u.br = t.br := (congrArg State.br ha :)
      have hus : u.src = t.src := (congrArg State.src ha :)
      have hup : u.params = s.params := (congrArg State.params ha :).trans hpar
      have huf : u.frm.frameErr = false := (congrArg (fun s => s.frm.frameErr) ha :)
      have hbit : frameBit u = windowBit s 0 := by
        funext q; simp only [frameBit, windowBit, hus, hbytes, hub, h3]
      refine (yields_uBrHeader (by rw [hup]; exact hf) (h1.congr hub hus)).mono fun _ v hv => ?_
      obtain ⟨_, _, _, _, hv⟩ := hv
      rw [hbit, hup, hub, h4, h5] at hv
      refine Sat.bind (Sat.get (Sat.pure ?_))
      unfold headerDecodes headerOf windowBits
      generalize evalWire (windowBit s 0) (8 * (frameEnd s 0 - frameStart s 0))
        (wireHeader s.params.wireFormat (8 * (frameEnd s 0 - frameStart s 0)) 0) 0 = x at *
      obtain ⟨x, q⟩ := x
      cases x with
      | error er =>
        have : v.frm.frameErr = true := congrArg Decoder.err hv.2.2
        rw [this]; rfl
      | ok h =>
        have : v.frm.frameErr = u.frm.frameErr := congrArg Decoder.err hv.2.2
        rw [this, huf]; rfl
    have key := Yields.bind (k := fun _ => do
        modify fun s => { s with frm := { s.frm with frameErr := false } }
        call uBrHeader
        let t ← get
        pure (!t.frm.frameErr))
      ((yields_enterWindow _ _ hwin).mono fun _ t ht => after t ht.1 ht.2.1 ht.2.2.1 ht.2.2.2.1 ht.2.2.2.2.1)
    show Yields _ s _
    simpa only [bind_assoc] using key

theorem headerProbe_congr {s t : State} (h : SameStream s t) : headerProbe t = headerProbe s := by
  unfold headerProbe
  rw [h.cfg]
  split
  · rfl
  · rename_i hn; unfold headerDecodes; rw [h.headerOf (by omega)]

/-- The well-formedness INIT has checked (45_frame_sequencer.md R351). -/
theorem streamOk_of_valid {s : State} (h : streamValid s.src.bytes.length s = true) (ht : s.cfg.numFrames ≤ s.params.seektabEntries)
    (hc : s.cfg.C ≤ s.pred.length) : StreamOk s := by
  simp only [streamValid, seektabValid, Bool.and_eq_true, decide_eq_true_eq, List.all_eq_true, List.mem_range, Bool.or_eq_true] at h
  obtain ⟨h1, h2, h3⟩ := h
  exact ⟨h1, fun g hg => h2 g (by omega), fun hn => h3.resolve_left (by omega), ht, hc⟩

theorem streamValid_congr {s t : State} {z : Nat} (hc : t.cfg = s.cfg) (hm : t.mem = s.mem) (he : t.epoch = s.epoch)
    (hp : t.params = s.params) : streamValid z t = streamValid z s := by
  simp only [streamValid, seektabValid, hc, seektabEntry_congr hm he hp]

/-- Opening the session puts the data in order, and records errors in the frames it replays. -/
theorem yields_openSession {s : State} (hf : 1 ≤ s.params.fetchBytes) (hc : CfgOk s.cfg) (hk : StreamOk s) :
    Yields openSession s fun _ t => DataOk t ∧ t.life.hadErrors = (s.life.hadErrors || replayBad s 0) := by
  unfold openSession
  refine Sat.bind (Sat.modify ?_)
  refine Yields.bind (Yields.call (m := uRingReset) fun t ht => Sat.modify (Sat.bind (Sat.get ?_)))
  have ha := ht.alike
  have hst : SameStream s (ringReset t) := .of_mem (congrArg State.params ha :) (congrArg State.cfg ha :)
    (congrArg (fun s => s.src.bytes) ha :) (congrArg State.mem ha :) (congrArg State.epoch ha :)
  have hpt : (ringReset t).pred = s.pred := (congrArg State.pred ha :)
  have hv := (Keeps.forEach (e := .free) (φ := True) hostFree_blockView keeps_uPredReset (List.range (ringReset t).cfg.C)).yields
    (Env.holds_free (ringReset t))
  refine Yields.bind (hv.mono fun _ u hu => Sat.bind (Sat.modify ?_))
  have hpos : positionView .free u = positionView .free (ringReset t) :=
    (congrArg (fun s => forgetCursor (forgetRing (forgetData (forgetErrors (forgetFrame s))))) hu.1 :)
  have hsu : SameStream s u := hst.trans (sameStream_of_position hpos)
  have hs2 : SameStream s ({ u with cur.resyncPending := false } : State) := hsu.trans (.of_mem rfl rfl rfl rfl rfl)
  have hlen : u.pred.length = s.pred.length := (length_pred_of_position hpos).trans (congrArg List.length hpt)
  have hl : u.life = s.life := ((congrArg State.life hu.1 :) : u.life = (ringReset t).life).trans (congrArg State.life ha :)
  refine (yields_pPosition_data 0 (by rw [hs2.params]; exact hf) (by rw [hs2.cfg]; exact hc) (hs2.streamOk hlen hk)
    (Nat.zero_le _)).mono fun _ v hv => ⟨hv.1, ?_⟩
  rw [hv.2, hs2.replayBad hc (Nat.zero_le _)]
  exact congrArg (fun l => l.hadErrors || replayBad s 0) hl

theorem yields_interleave {s : State} : Yields interleave s fun _ t => SameBlock s t := by
  obtain ⟨w, hw, hs⟩ | ⟨w, l, hw, hs⟩ := interleave_cases s
  · simp only [Yields, Sat, hw]; exact hs
  · simp only [Yields, Sat, hw]

/-- INIT from its size check to its end: it succeeds just where the stream is valid and the header probe passes. -/
theorem yields_initStream {s : State} (hf : 1 ≤ s.params.fetchBytes) (hrf : 1 ≤ s.params.ringFrames) (hc : CfgOk s.cfg)
    (ht : s.cfg.numFrames ≤ s.params.seektabEntries) (hp : s.cfg.C ≤ s.pred.length) :
    Yields initStream s fun _ t =>
      if streamValid s.src.bytes.length s && headerProbe s then
        ∃ u, t = initDone u ∧ DataOk t ∧ u.life.initFailed = s.life.initFailed ∧
          u.life.hadErrors = (s.life.hadErrors || replayBad s 0)
      else ∃ u, t = initFail .invalidStream u ∧ u.life = s.life := by
  have bad : ∀ t, t.life = s.life → Yields (finishWith (initFail .invalidStream)) t fun _ t =>
      ∃ u, t = initFail .invalidStream u ∧ u.life = s.life := fun t ht =>
    Yields.bind (yields_interleave.mono fun _ w hw => Sat.modify ⟨w, rfl, by rw [hw]; exact ht⟩)
  unfold initStream
  refine Yields.bind (Yields.call fun t htt => yields_uSrcSize.mono fun z u hu => ?_)
  have ha := htt.alike
  obtain ⟨rfl, rfl⟩ := hu
  have hst : SameStream s ({ t with src := t.src.afterRequest .size } : State) :=
    .of_mem ha.params ha.cfg (show t.src.bytes = s.src.bytes by rw [ha.src]) ha.mem ha.epoch
  have hz : t.src.bytes.length = s.src.bytes.length := by rw [ha.src]
  have hpred : ({ t with src := t.src.afterRequest .size } : State).pred.length = s.pred.length := congrArg List.length ha.pred
  have hval : streamValid s.src.bytes.length ({ t with src := t.src.afterRequest .size } : State) = streamValid s.src.bytes.length s :=
    streamValid_congr (s := s) ha.cfg ha.mem ha.epoch ha.params
  have hlf : ({ t with src := t.src.afterRequest .size } : State).life = s.life := (congrArg State.life ha :)
  generalize ({ t with src := t.src.afterRequest .size } : State) = v at *
  refine Sat.bind (Sat.get ?_)
  rw [hz, hval]
  split
  · rename_i hv
    have hk := streamOk_of_valid hv ht hp
    have hkv := hst.streamOk hpred hk
    have hpr := yields_probeHeader (s := v) (by rw [hst.params]; exact hf) fun h => hkv.window h
    rw [headerProbe_congr hst] at hpr
    have hkeep := (keeps_probeHeader (e := .free) (φ := True)).yields (Env.holds_free v)
    refine Yields.bind ((hkeep.and hpr).mono fun ok w hw => ?_)
    obtain ⟨⟨hbv, _⟩, rfl⟩ := hw
    have hpos : positionView .free w = positionView .free v :=
      (congrArg (fun s => forgetCursor (forgetRing (forgetData (forgetErrors (forgetFrame s))))) hbv :)
    have hsw := hst.trans (sameStream_of_position hpos)
    have hlw : w.life = s.life := (congrArg State.life hbv :).trans hlf
    rw [hv, Bool.true_and]
    split
    · rename_i hok
      have hkw := hsw.streamOk ((length_pred_of_position hpos).trans hpred) hk
      have hsat := Yields.of_sat (sat_openSession (e := .free) (φ := True) (Env.holds_free w) (by rw [hsw.cfg]; exact hc)
        (by rw [hsw.params]; exact hrf))
      refine Yields.bind ((hsat.and (yields_openSession (by rw [hsw.params]; exact hf) (by rw [hsw.cfg]; exact hc) hkw)).mono
        fun _ x hx => Yields.bind (yields_interleave.mono fun _ y hy => Sat.modify ?_))
      obtain ⟨⟨hvx, _, hlx, _, _⟩, hdx, herr⟩ := hx
      have hay := hy.alike
      have hdy : DataOk y := hdx.congr hlx (.of_mem hay.params hay.cfg (congrArg Source.bytes hay.src) hay.mem hay.epoch) hay.pred hay.ring
        hay.epoch (congrArg Cursor.curBlock hay.cur) (congrArg Cursor.nextFrame hay.cur) (congrArg Cursor.resyncPending hay.cur)
      have hly : SessionOk y := hlx.congr hay.params hay.cfg hay.ring (congrArg Cursor.curBlock hay.cur) (congrArg Cursor.nextFrame hay.cur)
        (congrArg Cursor.skipBlocks hay.cur) (congrArg Cursor.resyncPending hay.cur)
      have hfail : y.life.initFailed = s.life.initFailed := by
        have h1 : y.life = x.life := (congrArg State.life hay :)
        have h2 : x.life.initFailed = w.life.initFailed := (congrArg (fun s => s.life.initFailed) hvx :)
        rw [h1, h2, hlw]
      refine ⟨y, rfl, hdy.congr hly (.of_mem rfl rfl rfl rfl rfl) rfl rfl rfl rfl rfl rfl, hfail, ?_⟩
      rw [show y.life.hadErrors = x.life.hadErrors from (congrArg (fun s => s.life.hadErrors) hay :), herr, hlw,
        hsw.replayBad hc (Nat.zero_le _)]
    · exact bad w hlw
  · rename_i hv
    rw [show streamValid s.src.bytes.length s = false by simpa using hv, Bool.false_and]
    exact bad v hlf

end Sys2Proof.Machine
end

