-- ==== Sys2Proof/Laws/Served.lean ====
section
/-! SUPPORT. What the frame lemmas say of an undisturbed command whose requests all succeed: which fields of State may differ from
those before it. -/

namespace Sys2Proof.Machine

theorem Served.fed {s : State} (h : Served s) : Env.fed.holds s :=
  ⟨fun _ => h.calm, fun _ => h.replies, fun _ => h.noFail, nofun, nofun⟩

theorem Replied.replied {s : State} (h : Replied s) : Env.replied.holds s :=
  ⟨fun _ => h.calm, fun _ => h.replies, nofun, nofun, nofun⟩

theorem Undisturbed.congr {s t : State} (h : Undisturbed s) (hb : t.regs.busy = s.regs.busy) (hh : t.host = s.host) :
    Undisturbed t := by
  unfold Undisturbed at *; rw [hb, hh]; exact h

/-- An undisturbed host changes nothing. -/
theorem hostBlank_calm {e : Env} (h : e.calm = true) (s : State) : hostBlank e s = s := by
  simp only [hostBlank, h]; rfl

/-- The frame of the view that reading bits keeps. -/
theorem readsView_frame {e : Env} (he : e.calm = true) {s u : State} (h : readsView e u = readsView e s) :
    u = { s with src := u.src, br := u.br } ∧ u.src.bytes = s.src.bytes := by
  simp only [readsView, hostBlank_calm he] at h
  rcases u with ⟨_, _, _, _, _, _, _, _, _, _, _, ⟨_, _, _, _, _, _⟩, _, _, _, _, _⟩
  rcases s with ⟨_, _, _, _, _, _, _, _, _, _, _, ⟨_, _, _, _, _, _⟩, _, _, _, _, _⟩
  simp only [State.mk.injEq, Source.mk.injEq] at h ⊢
  simp_all

/-- The number of predictors is what a view that blanks them shows. -/
theorem length_pred_of_blank {f : State → State} (hf : ∀ s, (f s).pred = List.replicate s.pred.length []) {s u : State}
    (h : f u = f s) : u.pred.length = s.pred.length := by
  have : (f u).pred.length = (f s).pred.length := congrArg (fun s => s.pred.length) h
  rwa [hf, hf, List.length_replicate, List.length_replicate] at this

/-- The frame of the view that decoding a block's bytes keeps. -/
theorem blockView_frame {e : Env} (he : e.calm = true) {s u : State} (h : blockView e u = blockView e s) :
    u = { s with src := u.src, br := u.br, pred := u.pred,
                 frm := { s.frm with frameErr := u.frm.frameErr, storedCk := u.frm.storedCk, silent := u.frm.silent,
                                     runCk := u.frm.runCk } } ∧
      u.src.bytes = s.src.bytes ∧ u.pred.length = s.pred.length := by
  have hp := length_pred_of_blank (f := blockView e) (fun _ => rfl) h
  simp only [blockView, forgetBlock, readsView, hostBlank_calm he] at h
  rcases u with ⟨_, _, _, _, _, _, ⟨_, _, _, _, _, _, _⟩, _, _, _, _, ⟨_, _, _, _, _, _⟩, _, _, _, _, _⟩
  rcases s with ⟨_, _, _, _, _, _, ⟨_, _, _, _, _, _, _⟩, _, _, _, _, ⟨_, _, _, _, _, _⟩, _, _, _, _, _⟩
  simp only [State.mk.injEq, Source.mk.injEq, Frame.mk.injEq] at h hp ⊢
  simp_all

/-- The frame of the view that starting a frame keeps. -/
theorem frameView_frame {e : Env} (he : e.calm = true) {s u : State} (h : frameView e u = frameView e s) :
    u = { s with src := u.src, br := u.br, pred := u.pred, frm := u.frm } ∧
      u.src.bytes = s.src.bytes ∧ u.pred.length = s.pred.length := by
  have hp := length_pred_of_blank (f := frameView e) (fun _ => rfl) h
  simp only [frameView, forgetFrame, blockView, forgetBlock, readsView, hostBlank_calm he] at h
  rcases u with ⟨_, _, _, _, _, _, _, _, _, _, _, ⟨_, _, _, _, _, _⟩, _, _, _, _, _⟩
  rcases s with ⟨_, _, _, _, _, _, _, _, _, _, _, ⟨_, _, _, _, _, _⟩, _, _, _, _, _⟩
  simp only [State.mk.injEq, Source.mk.injEq] at h hp ⊢
  simp_all

/-- The frame of the view that decoding frames keeps. -/
theorem decodeView_frame {e : Env} (he : e.calm = true) {s u : State} (h : decodeView e u = decodeView e s) :
    u = { s with src := u.src, br := u.br, pred := u.pred, frm := u.frm, life := { s.life with hadErrors := u.life.hadErrors },
                 ring := { u.ring with cap := s.ring.cap } } ∧
      u.src.bytes = s.src.bytes ∧ u.pred.length = s.pred.length := by
  have hp := length_pred_of_blank (f := decodeView e) (fun _ => rfl) h
  simp only [decodeView, endView, replayView, forgetRing, forgetData, forgetErrors, frameView, forgetFrame, blockView, forgetBlock,
    readsView, hostBlank_calm he] at h
  rcases u with ⟨_, _, _, _, ⟨_, _, _⟩, _, _, _, _, ⟨_, _, _, _, _⟩, _, ⟨_, _, _, _, _, _⟩, _, _, _, _, _⟩
  rcases s with ⟨_, _, _, _, ⟨_, _, _⟩, _, _, _, _, ⟨_, _, _, _, _⟩, _, ⟨_, _, _, _, _, _⟩, _, _, _, _, _⟩
  simp only [State.mk.injEq, Source.mk.injEq, Life.mk.injEq, Ring.mk.injEq] at h hp ⊢
  simp_all

/-- The frame of the view that positioning keeps. -/
theorem positionView_frame {e : Env} (he : e.calm = true) {s u : State} (h : positionView e u = positionView e s) :
    u = { s with src := u.src, br := u.br, pred := u.pred, frm := u.frm, life := { s.life with hadErrors := u.life.hadErrors },
                 ring := { u.ring with cap := s.ring.cap }, cur := { u.cur with entryBlock := s.cur.entryBlock } } ∧
      u.src.bytes = s.src.bytes ∧ u.pred.length = s.pred.length := by
  have hp := length_pred_of_blank (f := positionView e) (fun _ => rfl) h
  simp only [positionView, forgetCursor, decodeView, endView, replayView, forgetRing, forgetData, forgetErrors, frameView,
    forgetFrame, blockView, forgetBlock, readsView, hostBlank_calm he] at h
  rcases u with ⟨_, _, _, _, ⟨_, _, _⟩, ⟨_, _, _, _, _⟩, _, _, _, ⟨_, _, _, _, _⟩, _, ⟨_, _, _, _, _, _⟩, _, _, _, _, _⟩
  rcases s with ⟨_, _, _, _, ⟨_, _, _⟩, ⟨_, _, _, _, _⟩, _, _, _, ⟨_, _, _, _, _⟩, _, ⟨_, _, _, _, _, _⟩, _, _, _, _, _⟩
  simp only [State.mk.injEq, Source.mk.injEq, Life.mk.injEq, Ring.mk.injEq, Cursor.mk.injEq] at h hp ⊢
  simp_all

/-- The frame of the view that GETDATA keeps. -/
theorem outView_frame {e : Env} (he : e.calm = true) {s u : State} (h : outView e u = outView e s) :
    u = { s with src := u.src, br := u.br, pred := u.pred, frm := u.frm, life := { s.life with hadErrors := u.life.hadErrors },
                 ring := { u.ring with cap := s.ring.cap }, cur := { u.cur with entryBlock := s.cur.entryBlock }, mem := u.mem } ∧
      u.src.bytes = s.src.bytes ∧ u.pred.length = s.pred.length := by
  have hp := length_pred_of_blank (f := outView e) (fun _ => rfl) h
  simp only [outView, forgetMem, positionView, forgetCursor, decodeView, endView, replayView, forgetRing, forgetData, forgetErrors,
    frameView, forgetFrame, blockView, forgetBlock, readsView, hostBlank_calm he] at h
  rcases u with ⟨_, _, _, _, ⟨_, _, _⟩, ⟨_, _, _, _, _⟩, _, _, _, ⟨_, _, _, _, _⟩, _, ⟨_, _, _, _, _, _⟩, _, _, _, _, _⟩
  rcases s with ⟨_, _, _, _, ⟨_, _, _⟩, ⟨_, _, _, _, _⟩, _, _, _, ⟨_, _, _, _, _⟩, _, ⟨_, _, _, _, _, _⟩, _, _, _, _, _⟩
  simp only [State.mk.injEq, Source.mk.injEq, Life.mk.injEq, Ring.mk.injEq, Cursor.mk.injEq] at h hp ⊢
  simp_all

/-- The frame of the view that INIT keeps from the configuration on. -/
theorem initView_frame {e : Env} (he : e.calm = true) {s u : State} (h : initView e u = initView e s) :
    u = { s with src := u.src, br := u.br, pred := u.pred, frm := u.frm, life := { s.life with hadErrors := u.life.hadErrors },
                 ring := u.ring, cur := { u.cur with entryBlock := s.cur.entryBlock } } ∧
      u.src.bytes = s.src.bytes ∧ u.pred.length = s.pred.length := by
  have hp := length_pred_of_blank (f := initView e) (fun _ => rfl) h
  simp only [initView, forgetCap, positionView, forgetCursor, decodeView, endView, replayView, forgetRing, forgetData, forgetErrors,
    frameView, forgetFrame, blockView, forgetBlock, readsView, hostBlank_calm he] at h
  rcases u with ⟨_, _, _, _, ⟨_, _, _⟩, ⟨_, _, _, _, _⟩, _, _, _, _, _, ⟨_, _, _, _, _, _⟩, _, _, _, _, _⟩
  rcases s with ⟨_, _, _, _, ⟨_, _, _⟩, ⟨_, _, _, _, _⟩, _, _, _, _, _, ⟨_, _, _, _, _, _⟩, _, _, _, _, _⟩
  simp only [State.mk.injEq, Source.mk.injEq, Life.mk.injEq, Cursor.mk.injEq] at h hp ⊢
  simp_all

end Sys2Proof.Machine
end

