-- ==== Sys2Proof/Laws/Words.lean ====
section
/-! SUPPORT. The arithmetic of the operand forms: LO/HI pairs, little-endian bytes, two's-complement wraps, the multiply-accumulate,
and the bit fields of a frame. -/

namespace Sys2Proof.Machine

/-- A word is its four bytes. -/
theorem word_of_bytes (w : Word) : w.extractLsb' 24 8 ++ w.extractLsb' 16 8 ++ w.extractLsb' 8 8 ++ w.extractLsb' 0 8 = w := by
  ext i hi
  simp only [BitVec.getElem_append, BitVec.getElem_extractLsb']
  rcases Nat.lt_or_ge i 8 with h | h
  · simp [h, BitVec.getLsbD_eq_getElem hi]
  · rcases Nat.lt_or_ge i 16 with h2 | h2
    · have : i - 8 < 8 := by omega
      simp [this, show ¬ i < 8 by omega, show 8 + (i - 8) = i by omega, BitVec.getLsbD_eq_getElem hi]
    · rcases Nat.lt_or_ge i 24 with h3 | h3
      · simp [show ¬ i < 8 by omega, show ¬ i - 8 < 8 by omega, show i - 8 - 8 < 8 by omega, show 16 + (i - 8 - 8) =
        i by omega, BitVec.getLsbD_eq_getElem hi]
      · simp [show ¬ i < 8 by omega, show ¬ i - 8 < 8 by omega, show ¬ i - 8 - 8 < 8 by omega, show 24 + (i - 8 - 8 - 8) =
        i by omega, BitVec.getLsbD_eq_getElem hi]

/-- The place of a REG word (20_memory.md R80, R90). -/
theorem regionOf_reg (p : Params) (o : Nat) (h : o < 256) : regionOf p (regAddr p o) = .reg o := by
  have : apertureOffset p (regAddr p o) = o := by
    unfold apertureOffset regAddr
    have : p.apertureBase + BitVec.ofNat 64 o - p.apertureBase = BitVec.ofNat 64 o := by
      rw [BitVec.add_comm, BitVec.add_sub_cancel]
    rw [this, BitVec.toNat_ofNat]; exact Nat.mod_eq_of_lt (by omega)
  unfold regionOf; simp only [this]; rw [if_pos (by omega)]

theorem lo_append (a b : Word) : lo (a ++ b) = b := by
  unfold lo; ext k hk
  simp only [BitVec.getElem_extractLsb', Nat.zero_add]
  have := BitVec.getLsbD_append (x := a) (y := b) (i := k)
  exact this.trans (by simp [hk])

theorem hi_append (a b : Word) : hi (a ++ b) = a := by
  unfold hi; ext k hk
  simp only [BitVec.getElem_extractLsb']
  have := BitVec.getLsbD_append (x := a) (y := b) (i := 32 + k)
  exact this.trans (by simp [hk])

theorem lo_setLo (a : DWord) (w : Word) : lo (setLo a w) = w := lo_append _ _

theorem hi_setLo (a : DWord) (w : Word) : hi (setLo a w) = hi a := hi_append _ _

theorem hi_setHi (a : DWord) (w : Word) : hi (setHi a w) = w := hi_append _ _

theorem lo_setHi (a : DWord) (w : Word) : lo (setHi a w) = lo a := lo_append _ _

theorem leNat_lt (bs : List Byte) : leNat bs < 256 ^ bs.length := by
  induction bs with
  | nil => simp [leNat]
  | cons b bs ih =>
    have := b.isLt
    simp only [leNat, List.length_cons, Nat.pow_succ]; omega

/-- Byte i of the number a byte sequence stands for. -/
theorem leNat_byte (bs : List Byte) (i : Nat) : leNat bs / 256 ^ i % 256 = (bs.getD i 0).toNat := by
  induction bs generalizing i with
  | nil => simp [leNat]
  | cons b bs ih =>
    have hb := b.isLt
    cases i with
    | zero => simp only [leNat, Nat.pow_zero, Nat.div_one, List.getD_cons_zero]; omega
    | succ i =>
      simp only [leNat, List.getD_cons_succ]
      rw [Nat.pow_succ, Nat.mul_comm (256 ^ i), ← Nat.div_div_eq_div_mul, show (b.toNat + 256 * leNat bs) / 256 = leNat bs by omega]
      exact ih i

/-- Byte i of a little-endian read (20_memory.md R84). -/
theorem extract_leNat (bs : List Byte) (h : bs.length ≤ 8) (i : Nat) :
    (BitVec.ofNat 64 (leNat bs)).extractLsb' (8 * i) 8 = bs.getD i 0 := by
  apply BitVec.eq_of_toNat_eq
  rw [BitVec.extractLsb'_toNat, BitVec.toNat_ofNat, ← leNat_byte, Nat.shiftRight_eq_div_pow]
  have h1 := leNat_lt bs
  have h2 : (256 : Nat) ^ bs.length ≤ 256 ^ 8 := Nat.pow_le_pow_right (by omega) h
  have h3 : (256 : Nat) ^ 8 = 2 ^ 64 := by norm_num
  rw [show leNat bs % 2 ^ 64 = leNat bs from Nat.mod_eq_of_lt (by omega), Nat.pow_mul]

theorem leNat_append (xs ys : List Byte) : leNat (xs ++ ys) = leNat xs + 256 ^ xs.length * leNat ys := by
  induction xs with
  | nil => simp [leNat]
  | cons x xs ih => simp only [List.cons_append, leNat, ih, List.length_cons, Nat.pow_succ]; ring

theorem byte_asr_word (v : Word) (i : Nat) : BitVec.ofInt 8 (asr (v.toNat : Int) (8 * i)) =
    v.extractLsb' (8 * i) 8 := by
  apply BitVec.eq_of_toNat_eq
  have h1 : asr (v.toNat : Int) (8 * i) = ((v.toNat / 2 ^ (8 * i) : Nat) : Int) := by unfold asr; push_cast; rfl
  rw [h1, BitVec.ofInt_natCast, BitVec.toNat_ofNat, BitVec.extractLsb'_toNat, Nat.shiftRight_eq_div_pow]

/-- A word's bytes read back (20_memory.md R84). -/
theorem leNat_leBytes (v : Word) : leNat (leBytes 4 (v.toNat : Int)) = v.toNat := by
  have h : leBytes 4 (v.toNat : Int) = [v.extractLsb' (8*0) 8, v.extractLsb' (8*1) 8, v.extractLsb' (8*2) 8,
    v.extractLsb' (8*3) 8] := by
    rw [← byte_asr_word v 0, ← byte_asr_word v 1, ← byte_asr_word v 2,
      ← byte_asr_word v 3]
    rfl
  rw [h]
  simp only [leNat, BitVec.extractLsb'_toNat, Nat.shiftRight_eq_div_pow]
  have := v.isLt
  norm_num
  omega

theorem readBytes_append (s : State) (n m : Nat) : ∀ a, readBytes s a (n + m) = readBytes s a n ++ readBytes s (a + n) m := by
  induction n with
  | zero => intro a; simp [readBytes]
  | succ n ih => intro a; rw [Nat.succ_add, readBytes, readBytes, ih, Nat.add_right_comm a 1 n, List.cons_append,
    Nat.add_assoc a n 1]

/-- Bytes that are there are read. -/
theorem readBytes_written (bs : List Byte) : ∀ (t : State) (a : Nat),
    (∀ i, i < bs.length → readByte t (a + i) = bs.getD i 0) → readBytes t a bs.length = bs := by
  induction bs with
  | nil => intros; rfl
  | cons b bs ih =>
    intro t a h
    rw [List.length_cons, readBytes, ih t (a + 1) (fun i hi => ?_)]
    · have := h 0 (by simp); simp at this; rw [this]
    · have := h (i + 1) (by simp; omega)
      rw [show a + (i + 1) = a + 1 + i by omega] at this
      simpa using this

/-- wrap_N lies in the two's-complement range (00_scope.md R10). -/
theorem wrapN_bounds {n : Nat} (h : 1 ≤ n) (v : Int) : -2 ^ (n - 1) ≤ wrapN n v ∧ wrapN n v < 2 ^ (n - 1) := by
  obtain ⟨m, rfl⟩ : ∃ m, n = m + 1 := ⟨n - 1, by omega⟩
  unfold wrapN
  simp only [Nat.add_sub_cancel]
  have hp : (0 : Int) < 2 ^ m := by positivity
  have h2 : (2 : Int) ^ (m + 1) = 2 * 2 ^ m := by ring
  have h3 := Int.emod_nonneg v (b := 2 ^ (m + 1)) (by omega)
  have h4 := Int.emod_lt_of_pos v (b := 2 ^ (m + 1)) (by omega)
  split <;> omega

theorem wrapN_congr {n : Nat} {a b : Int} (h : a % 2 ^ n = b % 2 ^ n) : wrapN n a = wrapN n b := by unfold wrapN; rw [h]

theorem wrapN_emod (n : Nat) (a : Int) : wrapN n a % 2 ^ n = a % 2 ^ n := by
  unfold wrapN
  split
  · exact Int.emod_emod_of_dvd _ (dvd_refl _)
  · rw [Int.sub_emod_right]; exact Int.emod_emod_of_dvd _ (dvd_refl _)

/-- An inner wrap has no effect under an outer one. -/
theorem wrapN_add (n : Nat) (a b : Int) : wrapN n (wrapN n a + b) = wrapN n (a + b) := by
  apply wrapN_congr
  rw [Int.add_emod, wrapN_emod, ← Int.add_emod]

/-- The products of a stage, tap by tap (42_predictor.md R255). -/
theorem zipWith_mul_eq (n : Nat) : ∀ a b : List Int, a.length = n → b.length = n →
    List.zipWith (· * ·) a b = (List.range n).map fun j => a.getD j 0 * b.getD j 0 := by
  intro a b ha hb
  apply List.ext_getElem
  · simp [ha, hb]
  · intro i h1 h2
    simp only [List.getElem_zipWith, List.getElem_map, List.getElem_range]
    simp only [List.length_zipWith] at h1
    rw [List.getD_eq_getElem?_getD, List.getD_eq_getElem?_getD, List.getElem?_eq_getElem (by omega),
      List.getElem?_eq_getElem (by omega)]
    rfl

/-- Accumulating with a wrap at every step (42_predictor.md R256). -/
theorem foldl_mac (l : List (Int × Int)) : ∀ a : Int, wrapN 64 a = a → l.foldl (fun acc p => wrapN 64 (acc + p.1 * p.2)) a =
    wrapN 64 (a + (l.map fun p => p.1 * p.2).sum) := by
  induction l with
  | nil => intro a h; simp [h]
  | cons p l ih =>
    intro a h
    rw [List.foldl_cons, ih _ (by have := wrapN_add 64 (a + p.1 * p.2) 0; simpa using this), wrapN_add, List.map_cons,
      List.sum_cons, Int.add_assoc]

/-- Byte i of a number, as a slice of its two's complement (43_reconstructor.md R293). -/
theorem byte_asr (w : Nat) (v : Int) (i : Nat) (h : 8 * i + 8 ≤ w) : BitVec.ofInt 8 (asr v (8 * i)) =
    (BitVec.ofInt w v).extractLsb' (8 * i) 8 := by
  unfold asr
  apply BitVec.eq_of_toNat_eq
  rw [BitVec.toNat_ofInt, BitVec.extractLsb'_toNat, BitVec.toNat_ofInt, Nat.shiftRight_eq_div_pow]
  obtain ⟨d, rfl⟩ : ∃ d, w = 8 * i + 8 + d := ⟨w - (8 * i + 8), by omega⟩
  have hv := Int.mul_ediv_add_emod v (2 ^ (8 * i + 8 + d))
  have h0 := Int.emod_nonneg v (b := 2 ^ (8 * i + 8 + d)) (by positivity)
  obtain ⟨a, ha⟩ := Int.eq_ofNat_of_zero_le h0
  push_cast
  rw [ha] at hv ⊢
  generalize v / 2 ^ (8 * i + 8 + d) = q at *
  have hv2 : v = (a : Int) + 2 ^ (8 * i) * (256 * (2 ^ d * q)) := by rw [← hv]; ring
  rw [hv2, Int.add_mul_ediv_left _ _ (by positivity), Int.add_mul_emod_self_left]
  have : ((a : Int) / 2 ^ (8 * i)) = ((a / 2 ^ (8 * i) : Nat) : Int) := by push_cast; rfl
  rw [this]
  norm_cast

/-- The loop of U_BR_READBITS from an accumulator v (41_bitreader.md R205). -/
def fieldAcc (bit : Nat → Bool) (v p n : Nat) : Nat := (List.range n).foldl (fun v i => 2 * v + bitNat (bit (p + i))) v

theorem fieldAcc_succ (bit : Nat → Bool) (v p n : Nat) : fieldAcc bit v p (n + 1) =
    fieldAcc bit (2 * v + bitNat (bit p)) (p + 1) n := by
  unfold fieldAcc
  rw [List.range_succ_eq_map, List.foldl_cons, List.foldl_map]
  simp only [Nat.add_zero, Nat.succ_eq_add_one]
  congr 1
  funext v i
  rw [show p + (i + 1) = p + 1 + i by omega]

theorem fieldAcc_lt (bit : Nat → Bool) (n : Nat) : ∀ v p, fieldAcc bit v p n < (v + 1) * 2 ^ n := by
  induction n with
  | zero => intro v p; show v < _; omega
  | succ n ih =>
    intro v p
    rw [fieldAcc_succ]
    refine Nat.lt_of_lt_of_le (ih _ _) ?_
    rw [Nat.pow_succ]
    have : bitNat (bit p) ≤ 1 := by unfold bitNat; split <;> omega
    calc _ ≤ (2 * (v + 1)) * 2 ^ n := Nat.mul_le_mul_right _ (by omega)
      _ = _ := by ring

/-- The loop of U_BR_READBITS in one line: it yields the field, or stops at the end of the window. -/
theorem readBitsAt_eq (bit : Nat → Bool) (limit n : Nat) : ∀ v p, readBitsAt bit limit n v p =
    if n = 0 ∨ p + n ≤ limit then (.ok (fieldAcc bit v p n), p + n) else (.error .prematureEnd, max p limit) := by
  induction n with
  | zero => intro v p; rw [if_pos (.inl rfl)]; rfl
  | succ n ih =>
    intro v p
    rw [readBitsAt]
    split
    · rw [if_neg (by omega)]; congr 1; omega
    · rw [ih, fieldAcc_succ]
      by_cases h : p + (n + 1) ≤ limit
      · rw [if_pos (by omega), if_pos (by omega)]; congr 1; omega
      · by_cases h0 : n = 0
        · omega
        · rw [if_neg (by omega), if_neg (by omega)]; congr 1; omega

theorem readBitsAt_ok {bit : Nat → Bool} {limit n p : Nat} (h : n = 0 ∨ p + n ≤ limit) :
    readBitsAt bit limit n 0 p = (.ok (fieldAt bit p n), p + n) := by rw [readBitsAt_eq, if_pos h]; rfl

theorem readBitsAt_err {bit : Nat → Bool} {limit n p : Nat} (h : n ≠ 0) (h2 : limit < p + n) :
    readBitsAt bit limit n 0 p = (.error .prematureEnd, max p limit) := by rw [readBitsAt_eq, if_neg (by omega)]

end Sys2Proof.Machine
end

