-- ==== Sys2Proof/Laws/Runs.lean ====
section
/-! SUPPORT. How the shared operations run where nothing disturbs them: a micro-operation on its own, a source request, a loop of
predictor resets, a cascade, a delivery, the silencing of slots. -/

namespace Sys2Proof.Machine

theorem Params.fetch_pos {p : Params} (h : p.wf = true) : 1 ≤ p.fetchBytes := by
  simp only [Params.wf, Bool.and_eq_true, decide_eq_true_eq] at h; exact h.1.1.2.2.2.2.2.2.2.1

/-- What a successful completion writes (46_host_commands.md R400). -/
theorem complete_eq {st : Status} (h : st = .success ∨ st = .endOfData) (r0 r1 : DWord) (u : State) :
    complete st r0 r1 u = { u with regs := doneRegs st r0 r1 u.regs } := by
  obtain rfl | rfl := h <;> rfl

/-- A micro-operation run on its own that yields a result. -/
theorem runUop_ok {body : Seq UopResult} {s t : State} {r : UopResult} (h : body s = .ok r t) :
    runUop body s = .next { t with op := { t.op with ret := r } } := by unfold runUop; rw [h]

theorem runUop_then {α : Type} {m : Seq α} {f : α → UopResult} {s t : State} {a : α} (h : m s = .ok a t) :
    runUop (do let x ← m; pure (f x)) s = .next { t with op := { t.op with ret := f a } } :=
  runUop_ok (Seq.bind_ok h)

/-- What a micro-operation run on its own that stops answers. -/
def stopOut (t : State) : Stop → Host.Outcome State Fault Refusal
  | .ioFailure => settle (recoverRunning t) | .halted => .next t | .fault f => .fault f

theorem runUop_stop {m : Seq UopResult} {s t : State} {st : Stop} (h : m s = .error st t) : runUop m s = stopOut t st := by
  unfold runUop; rw [h]; cases st <;> rfl

/-! ## The I/O-failure recovery (60_exceptions.md R454) -/

theorem Undisturbed.ringReset {s : State} (h : Undisturbed s) : Undisturbed (ringReset s) := h

theorem finishWith_ok {s : State} (h : Undisturbed s) (f : State → State) : finishWith f s = .ok () (f s) := by
  unfold finishWith; rw [Seq.bind_ok (interleave_undisturbed h)]; rfl

theorem recoverSession_ok {s : State} (h : Undisturbed s) : recoverSession s = .ok () (recovered (ringReset s)) := by
  unfold recoverSession
  rw [Seq.bind_ok (a := ()) (t := Machine.ringReset s) (by rw [call_undisturbed h]; rfl)]
  exact finishWith_ok h.ringReset _

theorem recoverInit_ok {s : State} (h : Undisturbed s) : recoverInit s = .ok () (initFail .ioFailure s) := finishWith_ok h _

/-- Outside any command an I/O failure is reported in the result (log 16). -/
theorem recoverRunning_idle {s : State} (h : s.regs.busy = false) :
    recoverRunning s = .ok () { s with op.ret := .ioFailure } := by
  unfold recoverRunning
  rw [Seq.bind_ok (Seq.get_run s), if_neg (by simp [h])]
  rfl

/-- A command whose body stops on an I/O failure. -/
theorem runCommand_failed {recover body : Seq Unit} {s t : State} (h : body s = .error .ioFailure t) :
    runCommand recover body s = settle (recover t) := by unfold runCommand; rw [h]

theorem runCommand_ok {recover body : Seq Unit} {s t : State} (h : body s = .ok () t) :
    runCommand recover body s = .next t := by unfold runCommand; rw [h]; rfl

/-- An answered request (20_memory.md R86). -/
theorem request_ok {s : State} (req : SrcReq) (h1 : nextAnswer s.src ≠ .fail) (h2 : nextAnswer s.src ≠ .never) :
    request req s = .ok (nextAnswer s.src) { s with src := s.src.afterRequest req } := by
  unfold request
  rw [Seq.bind_ok (Seq.get_run s)]
  cases h : nextAnswer s.src <;> first | exact absurd h h1 | exact absurd h h2 | rfl

/-- A request that fails (41_bitreader.md R218 to R220). -/
theorem request_fail {s : State} (req : SrcReq) (h : nextAnswer s.src = .fail) :
    request req s = .error .ioFailure { s with src := s.src.afterRequest req } := by
  unfold request
  rw [Seq.bind_ok (Seq.get_run s)]
  simp only [h]; rfl

/-- A request that is never answered (60_exceptions.md R466). -/
theorem request_never {s : State} (req : SrcReq) (h : nextAnswer s.src = .never) :
    request req s = .error .halted { s with src := { s.src.afterRequest req with outstanding := some req } } := by
  unfold request
  rw [Seq.bind_ok (Seq.get_run s)]
  simp only [h]; rfl

theorem readCount_le (a : SrcAnswer) (max pos z : Nat) : readCount a max pos z ≤ max ∧ readCount a max pos z ≤ z - pos := by
  unfold readCount
  cases a with
  | short n =>
    simp only
    split
    · omega
    · have : Nat.max 1 (min n (min max (z - pos))) = if 1 ≤ min n (min max (z - pos)) then min n (min max (z - pos)) else 1 := by
        show Max.max _ _ = _
        split <;> omega
      rw [this]; split <;> omega
  | full => simp only; omega
  | fail => simp only; omega
  | never => simp only; omega

/-- An answered SrcRead gives the next bytes (20_memory.md R86). -/
theorem uSrcRead_ok {s : State} (max : Nat) (h1 : nextAnswer s.src ≠ .fail) (h2 : nextAnswer s.src ≠ .never) :
    uSrcRead max s = .ok ((s.src.bytes.drop s.src.pos).take (readCount (nextAnswer s.src) max s.src.pos s.src.bytes.length))
      { s with src := { s.src.afterRequest (.read max) with
          pos := s.src.pos + readCount (nextAnswer s.src) max s.src.pos s.src.bytes.length } } := by
  unfold uSrcRead
  rw [Seq.bind_ok (request_ok _ h1 h2)]
  rfl

/-- Where all requests succeed, so does the next. -/
theorem Served.answer {s : State} (h : Served s) : nextAnswer s.src ≠ .fail ∧ nextAnswer s.src ≠ .never := by
  constructor
  · have := h.noFail
    simp only [Source.neverFails, Bool.and_eq_true, List.all_eq_true, decide_eq_true_eq] at this
    unfold nextAnswer
    cases ha : s.src.answers with
    | nil => exact this.2
    | cons a l => exact this.1 a (by simp [ha])
  · exact nextAnswer_replies h.replies

theorem served_of_fed {s : State} (h : Env.fed.holds s) : Served s := ⟨h.1 rfl, h.2.1 rfl, h.2.2.1 rfl⟩

/-- U_PRED_RESET of the listed channels, undisturbed. -/
theorem forEach_predReset (l : List Nat) : ∀ (s : State), Undisturbed s →
    forEach uPredReset l s = .ok () { s with pred := l.foldl (fun p k => p.set k (zeroPred s.cfg.stages)) s.pred } := by
  induction l with
  | nil => intro s h; rfl
  | cons c cs ih =>
    intro s h
    rw [forEach, Seq.bind_ok (a := ())
      (t := { s with pred := s.pred.set c (zeroPred s.cfg.stages) }) (by rw [call_undisturbed h]; rfl)]
    exact ih { s with pred := s.pred.set c (zeroPred s.cfg.stages) } (Undisturbed.congr (s := s) h rfl rfl)

theorem uStageStep_ok (c k : Nat) (x : Int) (s : State) : ∃ y p, uStageStep c k x s = .ok y { s with pred := p } := by
  unfold uStageStep
  rw [Seq.bind_ok (Seq.get_run s)]
  cases stageAt s.cfg.stages k <;> cases predStage s c k
  · exact ⟨_, s.pred, rfl⟩
  · exact ⟨_, s.pred, rfl⟩
  · exact ⟨_, s.pred, rfl⟩
  · exact ⟨_, _, rfl⟩

/-- The cascade always yields a sample, and changes the predictors alone (42_predictor.md R260). -/
theorem cascade_ok (c : Nat) (l : List Nat) :
    ∀ (v : Int) (s : State), Undisturbed s → ∃ y p, cascade c l v s = .ok y { s with pred := p } := by
  induction l with
  | nil => intro v s _; exact ⟨v, s.pred, rfl⟩
  | cons k ks ih =>
    intro v s hs
    obtain ⟨y, p, h⟩ := uStageStep_ok c k v s
    have hc : call (uStageStep c k v) s = .ok y { s with pred := p } := by rw [call_undisturbed hs, h]
    unfold cascade
    rw [Seq.bind_ok hc]
    exact ih y { s with pred := p } hs

/-- The slots U_RING_SILENCE_TAIL(n) writes (44_framebuffer.md R326). -/
theorem tailSlot_mem (r : Ring) (n slot : Nat) (hcap : n = 0 ∨ 0 < r.cap) : slot ∈ (List.range' 1 n).map (tailSlot r) ↔
    ∃ i : Nat, 1 ≤ i ∧ i ≤ n ∧ (slot : Int) = ((r.wr : Int) - i) % r.cap := by
  simp only [List.mem_map, List.mem_range'_1]
  constructor
  · rintro ⟨i, ⟨h1, h2⟩, rfl⟩
    refine ⟨i, h1, by omega, ?_⟩
    have : (0 : Int) ≤ ((r.wr : Int) - i) % r.cap := Int.emod_nonneg _ (by omega)
    unfold tailSlot; omega
  · rintro ⟨i, h1, h2, h3⟩
    exact ⟨i, ⟨h1, by omega⟩, by unfold tailSlot; omega⟩

/-- What the slots read after U_RING_SILENCE_TAIL(n). -/
theorem ringSlot_silenceSlots {n : Nat} {s : State} (hBA : (silenceBlock s.cfg).length = s.cfg.BA) (hcap : n = 0 ∨ 0 < s.ring.cap) :
    (∀ slot i : Nat, 1 ≤ i → i ≤ n → (slot : Int) = ((s.ring.wr : Int) - i) % s.ring.cap →
      ringSlot (silenceSlots (List.range' 1 n) s) slot = silenceBlock s.cfg) ∧
    ∀ slot : Nat, (¬ ∃ i : Nat, 1 ≤ i ∧ i ≤ n ∧ (slot : Int) = ((s.ring.wr : Int) - i) % s.ring.cap) →
      ringSlot (silenceSlots (List.range' 1 n) s) slot = ringSlot s slot := by
  have hf := fun k => findKey_silenceSlots (List.range' 1 n) k s
  have he := silenceSlots_eq (List.range' 1 n) s
  have hcfg : (silenceSlots (List.range' 1 n) s).cfg = s.cfg := by rw [he]
  have hep : (silenceSlots (List.range' 1 n) s).epoch = s.epoch := by rw [he]
  constructor
  · intro slot i h1 h2 h3
    have := hf slot
    rw [if_pos ((tailSlot_mem _ _ _ hcap).2 ⟨i, h1, h2, h3⟩)] at this
    exact ringSlot_of_find this (by rw [hcfg]; exact hBA)
  · intro slot hn
    have := hf slot
    rw [if_neg (fun h => hn ((tailSlot_mem _ _ _ hcap).1 h))] at this
    unfold ringSlot
    rw [this, hcfg, hep]

/-- The delivery of a block, undisturbed (45_frame_sequencer.md R354, R357). -/
theorem deliver_ok {m : Mode} {i : Nat} {blk : List Byte} {t : State} (hs : Undisturbed t) :
    deliver m i blk t = if m = .deliver ∧ deliverable t i (t.frm.curFrame * t.cfg.B + i) then
      (if t.ring.count = t.ring.cap then .error (.fault .ringOverflow) t
       else .ok ()
        { t with
          ring := { t.ring with
            data := insertKey t.ring.wr blk t.ring.data, wr := (t.ring.wr + 1) % t.ring.cap, count := t.ring.count + 1 }
          frm := { t.frm with placed := t.frm.placed + 1 } })
      else .ok () t := by
  unfold deliver
  rw [Seq.bind_ok (Seq.get_run t)]
  split
  · by_cases hf : t.ring.count = t.ring.cap
    · rw [if_pos hf]
      have : call (uRingWrite blk) t = .error (.fault .ringOverflow) t := by
        rw [call_undisturbed hs]; unfold uRingWrite; rw [Seq.bind_ok (Seq.get_run t), if_pos hf]; rfl
      exact Seq.bind_error this
    · rw [if_neg hf]
      have : call (uRingWrite blk) t = .ok () { t with ring := { t.ring with
         data := insertKey t.ring.wr blk t.ring.data, wr := (t.ring.wr + 1) % t.ring.cap, count := t.ring.count + 1 } } := by
        rw [call_undisturbed hs]; unfold uRingWrite; rw [Seq.bind_ok (Seq.get_run t), if_neg hf]; rfl
      exact Seq.bind_ok this
  · rfl

/-- Where every request succeeds, a computation that stops only for the source's sake ends. -/
theorem Ends.of_stops {α γ : Type} {f : State → γ} {m : Seq α} {s s0 : State} {Q : α → State → Prop}
    (h : Sat m s Q (StopsFrom .fed False f s0)) : Ends m s Q := by
  refine h.mono (fun _ _ h => h) fun st t h => ?_
  cases st with
  | ioFailure => exact absurd h.1 (by decide)
  | halted => obtain ⟨h, _⟩ | ⟨h, _⟩ := h <;> exact absurd h (by decide)
  | fault => exact h

end Sys2Proof.Machine
end

