-- ==== Sys2Proof/Laws/Widths.lean ====
section
/-! SUPPORT. Counts and offsets stay inside the widths of 00_scope.md R8. `Stays c N k m` says that m keeps `Narrow` wherever it
ends, once per micro-operation and procedure, in the configuration c, whose first N frames have 64-bit windows, and while no more
than k blocks of the current frame have been decoded. -/

namespace Sys2Proof.Machine

variable {α β : Type} {c : SessionCfg} {N k : Nat}

/-- What `Narrow` depends on, and the windows. -/
def counters (s : State) : SessionCfg × Cursor × (Nat × Nat × Nat) × (Nat × Nat × Nat × Nat) × List Byte × Nat × List Host.Cell × Nat ×
    Params × (Nat × Nat × Nat × Nat) :=
  (s.cfg, s.cur, (s.frm.curFrame, s.frm.blkInFrame, s.frm.placed), (s.br.start, s.br.len, s.br.fetched, s.br.p), s.src.bytes, s.src.pos,
    s.mem, s.epoch, s.params, (s.ring.cap, s.ring.rd, s.ring.wr, s.ring.count))

theorem Narrow.congr {s t : State} (h : Narrow s) (ht : counters t = counters s) : Narrow t := by
  simp only [counters, Prod.mk.injEq] at ht
  obtain ⟨h1, h2, ⟨h3, h4, h5⟩, ⟨h6, h7, h8, h9⟩, h10, h11, _, _, h12, h13, h14, h15, h16⟩ := ht
  constructor <;> simp only [h1, h2, h3, h4, h5, h6, h7, h8, h9, h10, h11, h12, h13, h14, h15, h16]
  · exact h.cfg
  · exact h.cur
  · exact h.frm
  · exact h.br
  · exact h.ring
  · exact h.room
  · exact h.src

theorem Narrow.same {s t : State} (h : Narrow s) (ht : SameBlock s t) : Narrow t := h.congr (by rw [ht]; rfl)

theorem clip_narrow (c : SessionCfg) : CfgNarrow c.clip := by
  refine ⟨⟨?_, ?_, ?_, ?_, ?_, ?_, ?_⟩, ⟨?_, ?_, ?_, ?_⟩, ⟨?_, ?_⟩⟩ <;> exact Nat.mod_lt _ (by decide)

theorem unspecifiedCap_lt (d : Nat) : unspecifiedCap d < 2 ^ 64 := Nat.mod_lt _ (by decide)

/-- A reset leaves every count and offset at 0, and the source where it was. -/
theorem Narrow.reset {s : State} (h1 : s.src.bytes.length < 2 ^ 64) (h2 : s.src.pos < 2 ^ 64)
    (h3 : s.params.ringFrames * s.params.maxFrameBlocks < 2 ^ 64) (l : List HostOp) : Narrow (withProg l (hwReset s)) := by
  have h : (0 : Nat) < 2 ^ 64 := by decide
  exact ⟨clip_narrow _, ⟨h, h, h, h⟩, ⟨h, h, Nat.le_refl _⟩, ⟨h, h, Nat.le_refl _, Nat.zero_le _⟩,
    ⟨unspecifiedCap_lt _, h, h, Nat.zero_le _⟩, h3, h1, h2⟩

theorem Narrow.resetOf {s : State} (h : Narrow s) (l : List HostOp) : Narrow (withProg l (hwReset s)) := .reset h.src.1 h.src.2 h.room l

/-- An emptied ring. -/
theorem Narrow.ringReset {s : State} (h : Narrow s) : Narrow (ringReset s) :=
  have h0 : (0 : Nat) < 2 ^ 64 := by decide
  ⟨h.cfg, h.cur, h.frm, h.br, ⟨h.ring.1, h0, h0, Nat.zero_le _⟩, h.room, h.src⟩

/-- Blocks that leave a ring that has them. -/
theorem Narrow.advanceRead {s : State} (h : Narrow s) {n : Nat} (hn : n ≤ s.ring.count) : Narrow (advanceRead n s) := by
  obtain ⟨h1, h2, h3, h4⟩ := h.ring
  refine ⟨h.cfg, h.cur, h.frm, h.br, ⟨h1, ?_, h3, by show s.ring.count - n ≤ s.ring.cap; omega⟩, h.room, h.src⟩
  show (s.ring.rd + n) % s.ring.cap < 2 ^ 64
  obtain h0 | h0 := Nat.eq_zero_or_pos s.ring.cap
  · rw [h0, Nat.mod_zero]; omega
  · have := Nat.mod_lt (s.ring.rd + n) h0; omega

/-- A session's running command: its configuration, the windows of its first N frames, the ring's capacity, and at most k blocks of the
current frame. -/
structure Going (c : SessionCfg) (N k : Nat) (s : State) : Prop where
  narrow : Narrow s
  cfg : s.cfg = c
  windows : ∀ g, g < N → frameStart s g < 2 ^ 64 ∧ frameEnd s g < 2 ^ 64
  capacity : s.params.ringFrames * c.B < 2 ^ 64
  blocks : s.frm.blkInFrame ≤ k

theorem Going.of {s t : State} (h : Going c N k s) (hn : Narrow t) (hc : t.cfg = s.cfg) (hm : t.mem = s.mem) (he : t.epoch = s.epoch)
    (hb : t.frm.blkInFrame = s.frm.blkInFrame) (hp : t.params = s.params) : Going c N k t := by
  refine ⟨hn, hc.trans h.cfg, fun g hg => ?_, by rw [hp]; exact h.capacity, by rw [hb]; exact h.blocks⟩
  have h1 : seektabEntry t = seektabEntry s := funext fun g => seektabEntry_congr hm he hp g
  have := h.windows g hg
  simpa only [frameStart, frameEnd, hc, h1] using this

theorem Going.congr {s t : State} (h : Going c N k s) (ht : counters t = counters s) : Going c N k t := by
  have hn := h.narrow.congr ht
  simp only [counters, Prod.mk.injEq] at ht
  exact h.of hn ht.1 ht.2.2.2.2.2.2.1 ht.2.2.2.2.2.2.2.1 ht.2.2.1.2.1 ht.2.2.2.2.2.2.2.2.1

theorem Going.same {s t : State} (h : Going c N k s) (ht : SameBlock s t) : Going c N k t := h.congr (by rw [ht]; rfl)

theorem Going.mono {s : State} {j : Nat} (h : Going c N k s) (hj : k ≤ j) : Going c N j s :=
  ⟨h.narrow, h.cfg, h.windows, h.capacity, Nat.le_trans h.blocks hj⟩

/-- Any narrow state has decoded fewer than 2^64 blocks of its frame. -/
theorem Narrow.going {s : State} (h : Narrow s) (hw : ∀ g, g < N → frameStart s g < 2 ^ 64 ∧ frameEnd s g < 2 ^ 64)
    (hr : s.params.ringFrames * s.cfg.B < 2 ^ 64) : Going s.cfg N (2 ^ 64) s := ⟨h, rfl, hw, hr, Nat.le_of_lt h.frm.2.1⟩

/-- The windows of a well-formed stream lie in the source. -/
theorem StreamOk.windows {s : State} (hk : StreamOk s) (h : Narrow s) (g : Nat) (hg : g < s.cfg.numFrames) :
    frameStart s g < 2 ^ 64 ∧ frameEnd s g < 2 ^ 64 := by
  have h1 := hk.window hg
  have h2 := h.src.1
  unfold WindowOk at h1
  omega

/-- From s, m keeps the widths and yields a state in Q. -/
def StaysTo (c : SessionCfg) (N k : Nat) (m : Seq α) (s : State) (Q : α → State → Prop) : Prop :=
  Sat m s (fun a t => Going c N k t ∧ Q a t) fun _ t => Narrow t

/-- m keeps the widths, however it ends. -/
def Stays (c : SessionCfg) (N k : Nat) (m : Seq α) : Prop := ∀ s, Going c N k s → StaysTo c N k m s fun _ _ => True

section
variable {m : Seq α} {f : α → Seq β} {s : State} {Q : α → State → Prop}

theorem StaysTo.bind {R : β → State → Prop} (h : StaysTo c N k m s Q) (hk : ∀ a t, Going c N k t → Q a t → StaysTo c N k (f a) t R) :
    StaysTo c N k (m >>= f) s R :=
  Sat.bind (Sat.mono h (fun a t ht => hk a t ht.1 ht.2) fun _ _ h => h)

theorem Stays.bind (hm : Stays c N k m) (hf : ∀ a, Stays c N k (f a)) : Stays c N k (m >>= f) := fun s hs =>
  (hm s hs).bind fun a t ht _ => hf a t ht

theorem StaysTo.get {g : State → Seq α} (h : StaysTo c N k (g s) s Q) : StaysTo c N k (get >>= g) s Q := Sat.bind (Sat.get h)

theorem Stays.get {g : State → Seq α} (h : ∀ s, Going c N k s → StaysTo c N k (g s) s fun _ _ => True) : Stays c N k (get >>= g) :=
  fun s hs => StaysTo.get (h s hs)

theorem StaysTo.pure {a : α} (hs : Going c N k s) (h : Q a s) : StaysTo c N k (Pure.pure a) s Q := Sat.pure ⟨hs, h⟩

theorem Stays.pure (a : α) : Stays c N k (Pure.pure a) := fun _ hs => StaysTo.pure hs trivial

theorem Stays.ite {p : Prop} [Decidable p] {m n : Seq α} (hm : Stays c N k m) (hn : Stays c N k n) : Stays c N k (if p then m else n) := by
  split <;> assumption

/-- An update that moves no count and no offset. -/
theorem Stays.update {g : State → State} (h : ∀ s, counters (g s) = counters s) : Stays c N k (modify g : Seq PUnit) := fun s hs =>
  Sat.modify ⟨hs.congr (h s), trivial⟩

/-- A micro-operation of a running command, from any state the host's accesses may leave. -/
theorem StaysTo.call (hs : Going c N k s) (h : ∀ t, SameBlock s t → Going c N k t → StaysTo c N k m t Q) :
    StaysTo c N k (call m) s Q := by
  refine Sat.bind ?_
  obtain ⟨t, ht, hst⟩ | ⟨u, l, hu, hst⟩ := interleave_cases s
  · simp only [Sat, ht]; exact h t hst (hs.same hst)
  · simp only [Sat, hu]; exact (hs.narrow.same hst).resetOf l

theorem Stays.call (hm : Stays c N k m) : Stays c N k (call m) := fun _ hs => StaysTo.call hs fun t _ ht => hm t ht

theorem StaysTo.mono {R : α → State → Prop} (h : StaysTo c N k m s Q) (hq : ∀ a t, Going c N k t → Q a t → R a t) :
    StaysTo c N k m s R := Sat.mono h (fun a t ht => ⟨ht.1, hq a t ht.1 ht.2⟩) fun _ _ h => h

/-- With what is known of m's values beside the widths. -/
theorem StaysTo.and {R : α → State → Prop} (h : StaysTo c N k m s Q) (y : Yields m s R) : StaysTo c N k m s fun a t => Q a t ∧ R a t := by
  simp only [StaysTo, Yields, Sat] at *
  cases hm : m s with
  | ok a t => simp only [hm] at h y ⊢; exact ⟨h.1, h.2, y⟩
  | error st t => simpa [hm] using h

theorem StaysTo.narrow (h : StaysTo c N k m s Q) : Sat m s (fun _ t => Narrow t) fun _ t => Narrow t :=
  Sat.mono h (fun _ _ h => h.1.narrow) fun _ _ h => h

end

theorem Stays.forEach {m : Nat → Seq Unit} (hm : ∀ i, Stays c N k (m i)) (l : List Nat) : Stays c N k (forEach m l) := by
  induction l with
  | nil => exact Stays.pure _
  | cons i is ih => exact Stays.bind (hm i).call fun _ => ih

/-! ## The byte source and the BitReader -/

theorem staysTo_request (req : SrcReq) {s : State} (hs : Going c N k s) :
    StaysTo c N k (request req) s fun _ t => counters t = counters s ∧ t.br = s.br := by
  unfold request
  refine StaysTo.get ?_
  dsimp only
  split
  · exact Sat.bind (Sat.set (Sat.throw (hs.narrow.congr rfl)))
  · exact Sat.bind (Sat.set (Sat.throw (hs.narrow.congr rfl)))
  · exact Sat.bind (Sat.set (Sat.pure ⟨hs.congr rfl, rfl, rfl⟩))
  · exact Sat.bind (Sat.set (Sat.pure ⟨hs.congr rfl, rfl, rfl⟩))

theorem stays_uSrcSeek {off : Nat} (h : off < 2 ^ 64) : Stays c N k (uSrcSeek off) := fun _ hs =>
  (staysTo_request _ hs).bind fun _ _ ht _ =>
    Sat.modify ⟨ht.of ⟨ht.narrow.cfg, ht.narrow.cur, ht.narrow.frm, ht.narrow.br, ht.narrow.ring, ht.narrow.room, ht.narrow.src.1, h⟩ rfl rfl rfl rfl rfl, trivial⟩

/-- A read moves the position no further than the source's end. -/
theorem staysTo_uSrcRead (max : Nat) {s : State} (hs : Going c N k s) :
    StaysTo c N k (uSrcRead max) s fun bs t => bs.length ≤ max ∧ t.br = s.br := by
  refine (staysTo_request _ hs).bind fun a t ht hq => StaysTo.get ?_
  have h1 := readCount_le a max t.src.pos t.src.bytes.length
  have h2 := ht.narrow.src
  refine Sat.bind (Sat.set (Sat.pure ⟨ht.of ⟨ht.narrow.cfg, ht.narrow.cur, ht.narrow.frm, ht.narrow.br, ht.narrow.ring, ht.narrow.room, h2.1, ?_⟩ rfl rfl rfl rfl rfl, ?_, hq.2⟩))
  · show t.src.pos + readCount a max t.src.pos t.src.bytes.length < 2 ^ 64
    omega
  · rw [List.length_take]; omega

theorem stays_uSrcSize : Stays c N k uSrcSize := fun _ hs =>
  (staysTo_request _ hs).bind fun _ _ ht _ => StaysTo.get (StaysTo.pure ht trivial)

theorem stays_uBrReset {start len : Nat} (h1 : start < 2 ^ 64) (h2 : len < 2 ^ 64) : Stays c N k (uBrReset start len) := fun _ hs =>
  Sat.modify ⟨hs.of ⟨hs.narrow.cfg, hs.narrow.cur, hs.narrow.frm, ⟨h1, h2, Nat.zero_le _, Nat.zero_le _⟩, hs.narrow.ring, hs.narrow.room, hs.narrow.src⟩ rfl rfl rfl rfl rfl, trivial⟩

/-- The reader's place in its window. -/
abbrev place (s : State) : Nat × Nat := (s.br.p, s.br.len)

theorem staysTo_uBrFetch {s : State} (hs : Going c N k s) : StaysTo c N k uBrFetch s fun _ t => place t = place s := by
  refine StaysTo.get ((StaysTo.call hs (Q := fun bs t => bs.length ≤ min s.params.fetchBytes (s.br.len - s.br.fetched) ∧ t.br = s.br)
    fun t hst ht => (staysTo_uSrcRead _ ht).mono fun _ _ _ hq => ⟨hq.1, hq.2.trans (by rw [hst])⟩).bind fun bs t ht hq => ?_)
  split
  · exact StaysTo.pure ht (by rw [place, hq.2])
  · refine Sat.bind (Sat.modify (Sat.pure ⟨ht.of ⟨ht.narrow.cfg, ht.narrow.cur, ht.narrow.frm, ?_, ht.narrow.ring, ht.narrow.room, ht.narrow.src⟩ rfl rfl rfl rfl rfl, ?_⟩))
    · obtain ⟨h1, h2, h3, h4⟩ := ht.narrow.br
      refine ⟨h1, h2, ?_, h4⟩
      show t.br.fetched + bs.length ≤ t.br.len
      have := hq.1
      rw [hq.2] at *
      omega
    · show (t.br.p, t.br.len) = place s
      rw [hq.2]

theorem staysTo_fetchUntil (n : Nat) : ∀ {s : State}, Going c N k s → StaysTo c N k (fetchUntil n) s fun _ t => place t = place s := by
  induction n with
  | zero => intro s hs; exact StaysTo.pure hs rfl
  | succ n ih =>
    intro s hs
    refine StaysTo.get ?_
    split
    · refine (StaysTo.call hs (Q := fun _ t => place t = place s) fun t hst ht => (staysTo_uBrFetch ht).mono fun _ _ _ hq =>
        hq.trans (by rw [hst])).bind fun r t ht hq => ?_
      cases r with
      | error er => exact StaysTo.pure ht hq
      | ok _ => exact (ih ht).mono fun _ _ _ h => h.trans hq
    · exact StaysTo.pure hs rfl

theorem stays_uBrReadbit : Stays c N k uBrReadbit := Stays.get fun s hs => by
  split
  · exact StaysTo.pure hs trivial
  · rename_i hp
    refine (staysTo_fetchUntil _ hs).bind fun r t ht hq => ?_
    cases r with
    | error er => exact StaysTo.pure ht trivial
    | ok _ =>
      refine StaysTo.get ?_
      dsimp only
      split
      · exact StaysTo.pure ht trivial
      · refine Sat.bind (Sat.set (Sat.pure ⟨ht.of ⟨ht.narrow.cfg, ht.narrow.cur, ht.narrow.frm, ?_, ht.narrow.ring, ht.narrow.room, ht.narrow.src⟩ rfl rfl rfl rfl rfl, trivial⟩))
        obtain ⟨h1, h2, h3, h4⟩ := ht.narrow.br
        refine ⟨h1, h2, h3, ?_⟩
        simp only [place, Prod.mk.injEq] at hq
        show t.br.p + 1 ≤ 8 * t.br.len
        omega

theorem stays_readBitsFrom (n v : Nat) : Stays c N k (readBitsFrom n v) := by
  induction n generalizing v with
  | zero => exact Stays.pure _
  | succ n ih =>
    refine Stays.bind stays_uBrReadbit.call fun r => ?_
    cases r with
    | error er => exact Stays.pure _
    | ok b => exact ih _

theorem stays_runWire (w : WireProg α) : Stays c N k (runWire w) := by
  induction w with
  | ret a => exact Stays.pure _
  | fail e => exact Stays.pure _
  | bit g ih => rw [runWire]; exact Stays.bind stays_uBrReadbit.call fun r => ih _
  | bits n g ih => rw [runWire]; exact Stays.bind (Stays.call (m := uBrReadbits n) (stays_readBitsFrom n 0)) fun r => ih _

theorem stays_uBrHeader : Stays c N k uBrHeader := Stays.get fun s hs =>
  Stays.bind (stays_runWire _) (fun h => by cases h <;> exact Stays.update fun _ => rfl) s hs

theorem stays_uBrSymbol : Stays c N k uBrSymbol := Stays.get fun s hs =>
  Stays.bind (stays_runWire _) (fun r => by
    cases r <;> exact Stays.bind (Stays.update fun _ => rfl) fun _ => Stays.pure _) s hs

/-! ## The bytes of a block -/

theorem stays_uPredReset (i : Nat) : Stays c N k (uPredReset i) := Stays.update fun _ => rfl

theorem stays_cascade (i : Nat) (l : List Nat) (v : Int) : Stays c N k (cascade i l v) := by
  induction l generalizing v with
  | nil => exact Stays.pure _
  | cons j js ih =>
    refine Stays.bind (Stays.call (m := uStageStep i j v) (Stays.get fun s hs => ?_)) fun y => ih y
    split
    · exact Sat.bind (Sat.set (Sat.pure ⟨hs.congr rfl, trivial⟩))
    · exact StaysTo.pure hs trivial

theorem stays_predictAll (i : Nat) (es : List Int) : Stays c N k (predictAll i es) := by
  induction es generalizing i with
  | nil => exact Stays.pure _
  | cons e es ih =>
    exact Stays.bind (Stays.call (m := uPredStep i e) (Stays.get fun s hs => stays_cascade _ _ _ s hs)) fun v =>
      Stays.bind (ih (i + 1)) fun vs => Stays.pure _

theorem stays_packAll (vs : List Int) : Stays c N k (packAll vs) := by
  induction vs with
  | nil => exact Stays.pure _
  | cons v vs ih => exact Stays.get fun s hs => Stays.bind (Stays.pure _).call (fun b => Stays.bind ih fun bs => Stays.pure _) s hs

theorem stays_finalize (vals : List Int) : Stays c N k (finalize vals) :=
  Stays.bind (Stays.call (m := uUnprepare vals) (Stays.get fun _ hs => StaysTo.pure hs trivial)) fun out => stays_packAll out

theorem stays_decodeSymbols (n : Nat) : Stays c N k (decodeSymbols n) := by
  induction n with
  | zero => exact Stays.pure _
  | succ n ih =>
    refine Stays.bind stays_uBrSymbol.call fun r => ?_
    cases r with
    | none => exact Stays.pure _
    | some e => exact Stays.bind ih fun es => by cases es <;> exact Stays.pure _

theorem stays_silentBlock : Stays c N k silentBlock :=
  Stays.call (m := uSilence) (Stays.get fun _ hs => StaysTo.pure hs trivial)

theorem stays_checked (blk : List Byte) : Stays c N k (checked blk) :=
  Stays.bind (Stays.call (m := uCkUpdate blk) (Stays.update fun _ => rfl)) fun _ => Stays.pure _

theorem stays_blockBytes : Stays c N k blockBytes := Stays.get fun s hs => by
  refine Stays.ite stays_silentBlock (Stays.ite (Stays.bind stays_silentBlock stays_checked) ?_) s hs
  refine Stays.bind (stays_decodeSymbols _) fun r => ?_
  cases r with
  | none => exact stays_silentBlock
  | some es => exact Stays.bind (stays_predictAll 0 es) fun vals => Stays.bind (stays_finalize vals) stays_checked

/-! ## Frames -/

/-- A frame's start has decoded no block of it. -/
theorem sat_uStartFrame_narrow {g : Nat} {s : State} (hs : Going c N k s) (hg : g < N) (hN : N ≤ 2 ^ 64) :
    Sat (uStartFrame g) s (fun _ t => Going c N 0 t) fun _ t => Narrow t := by
  have hw := hs.windows g hg
  refine Sat.bind (Sat.get (Sat.bind (Sat.mono (Stays.call (stays_uSrcSeek hw.1) s hs) (fun _ t ht => ?_) fun _ _ h => h)))
  refine Sat.bind (Sat.mono (Stays.call (stays_uBrReset hw.1 (by omega)) t ht.1) (fun _ t ht => ?_) fun _ _ h => h)
  have hp : Stays c N k (resetPredictors g) := Stays.get fun s hs => Stays.ite (Stays.forEach stays_uPredReset _) (Stays.pure _) s hs
  refine Sat.bind (Sat.mono (hp t ht.1) (fun _ t ht => Sat.bind (Sat.modify ?_)) fun _ _ h => h)
  have ht := ht.1
  have h0 : (0 : Nat) < 2 ^ 64 := by decide
  have hn : Narrow (enterFrame g t) :=
    ⟨ht.narrow.cfg, ht.narrow.cur, ⟨by show g < 2 ^ 64; omega, h0, Nat.le_refl _⟩, ht.narrow.br, ht.narrow.ring, ht.narrow.room, ht.narrow.src⟩
  exact Sat.mono (Stays.call stays_uBrHeader (enterFrame g t) ⟨hn, ht.cfg, ht.windows, ht.capacity, Nat.le_refl _⟩) (fun _ _ h => h.1) fun _ _ h => h

/-- A block is written where there is room for it. -/
theorem staysTo_uRingWrite (blk : List Byte) {s : State} (hs : Going c N k s) : StaysTo c N k (uRingWrite blk) s fun _ t => t.frm = s.frm := by
  refine StaysTo.get ?_
  split
  · exact Sat.throw hs.narrow
  · rename_i hroom
    obtain ⟨h1, h2, h3, h4⟩ := hs.narrow.ring
    have := Nat.mod_lt (s.ring.wr + 1) (show 0 < s.ring.cap by omega)
    refine Sat.set ⟨hs.of ⟨hs.narrow.cfg, hs.narrow.cur, hs.narrow.frm, hs.narrow.br, ⟨h1, h2, ?_, ?_⟩, hs.narrow.room, hs.narrow.src⟩ rfl rfl rfl rfl
      rfl, rfl⟩
    · show (s.ring.wr + 1) % s.ring.cap < 2 ^ 64; omega
    · show s.ring.count + 1 ≤ s.ring.cap; omega

theorem stays_uRingReset : Stays c N k uRingReset := fun _ hs => Sat.modify ⟨hs.of hs.narrow.ringReset rfl rfl rfl rfl rfl, trivial⟩

/-- A block is counted once, and a delivered one is no more than that. -/
theorem sat_uDecodeBlock_narrow (m : Mode) {s : State} (hs : Going c N k s) (hk : k + 1 < 2 ^ 64) :
    Sat (uDecodeBlock m) s (fun _ t => Going c N (k + 1) t) fun _ t => Narrow t := by
  refine Sat.bind (Sat.get (Sat.bind (Sat.mono ((stays_blockBytes s hs).and ((keeps_blockBytes (e := .free) (φ := True)).yields
    (Env.holds_free s))) (fun blk t ht => ?_) fun _ _ h => h)))
  obtain ⟨ht, _, hv, _⟩ := ht
  have hb : t.frm.blkInFrame = s.frm.blkInFrame := (congrArg (fun s => s.frm.blkInFrame) hv :)
  have hblk := hs.blocks
  have fin : ∀ (u : State) (p : Nat), Going c N k u → u.frm.blkInFrame = s.frm.blkInFrame → p ≤ u.frm.blkInFrame + 1 →
      Going c N (k + 1) { u with frm := { u.frm with placed := p, blkInFrame := s.frm.blkInFrame + 1 } } := fun u p hu h1 hp =>
    ⟨⟨hu.narrow.cfg, hu.narrow.cur, ⟨hu.narrow.frm.1, by show s.frm.blkInFrame + 1 < _; omega, by show p ≤ s.frm.blkInFrame + 1; omega⟩,
      hu.narrow.br, hu.narrow.ring, hu.narrow.room, hu.narrow.src⟩, hu.cfg, hu.windows, hu.capacity, by show s.frm.blkInFrame + 1 ≤ _; omega⟩
  refine Sat.bind (Sat.bind (Sat.get ?_))
  split
  · refine Sat.bind (Sat.mono (StaysTo.call (Q := fun _ u => u.frm = t.frm) ht fun u hu hgu => (staysTo_uRingWrite blk hgu).mono
      fun _ _ _ h => h.trans (by rw [hu])) (fun _ u hu => ?_) fun _ _ h => h)
    · have := hu.1.narrow.frm.2.2
      exact Sat.modify (Sat.modify (fin u (u.frm.placed + 1) hu.1 (by rw [hu.2, hb]) (by omega)))
  · have := ht.narrow.frm.2.2
    exact Sat.pure (Sat.modify (fin t t.frm.placed ht hb (by omega)))

theorem sat_decodeBlocks_narrow (m : Mode) (n : Nat) : ∀ {k : Nat} {s : State}, Going c N k s → k + n < 2 ^ 64 →
    Sat (decodeBlocks m n) s (fun _ t => Going c N (2 ^ 64) t) fun _ t => Narrow t := by
  induction n with
  | zero => intro k s hs hk; exact Sat.pure (hs.mono (by omega))
  | succ n ih =>
    intro k s hs hk
    refine Sat.bind ?_
    refine Sat.bind ?_
    obtain ⟨t, ht, hst⟩ | ⟨u, l, hu, hst⟩ := interleave_cases s
    · simp only [Sat, ht]
      exact (sat_uDecodeBlock_narrow m (hs.same hst) (by omega)).mono (fun _ u hu => ih hu (by omega)) fun _ _ h => h
    · simp only [Sat, hu]; exact (hs.narrow.same hst).resetOf l

theorem stays_uEndFrame (m : Mode) : Stays c N k (uEndFrame m) := by
  refine Stays.bind (Stays.update fun s => by dsimp only; split <;> rfl) fun _ => Stays.get fun s hs => ?_
  split
  · refine Sat.bind (Sat.set ?_)
    exact Stays.ite (Stays.call (m := uRingSilenceTail _) (Stays.update fun s => by rw [silenceSlots_eq]; rfl)) (Stays.pure _) _ (hs.congr rfl)
  · exact StaysTo.pure hs trivial

/-- A frame that is one of the session's. -/
theorem stays_pDecodeFrame {g : Nat} (m : Mode) (hc : CfgOk c) (hcn : CfgNarrow c) (hN : N = c.numFrames) (hg : g < N) :
    Stays c N (2 ^ 64) (pDecodeFrame g m) := fun s hs => by
  have h1 := hcn.counts.2.2.2
  have h2 := frameBlocks_le hc g
  have h3 := hcn.regs.2.2.2.2.1
  refine Sat.bind ?_
  refine Sat.bind ?_
  obtain ⟨t, ht, hst⟩ | ⟨u, l, hu, hst⟩ := interleave_cases s
  · simp only [Sat, ht]
    refine (sat_uStartFrame_narrow (hs.same hst) hg (by omega)).mono (fun _ u hu => Sat.bind (Sat.get ?_)) fun _ _ h => h
    rw [hu.cfg]
    refine Sat.bind ((sat_decodeBlocks_narrow m _ hu (by omega)).mono (fun _ v hv => ?_) fun _ _ h => h)
    refine Sat.bind (Sat.mono (Stays.call (stays_uEndFrame m) v hv) (fun _ w hw => Sat.modify ⟨?_, trivial⟩) fun _ _ h => h)
    obtain ⟨hw, _⟩ := hw
    unfold nextCursor
    split
    · obtain ⟨a1, a2, a3, a4⟩ := hw.narrow.cur
      exact hw.of ⟨hw.narrow.cfg, ⟨a1, by show g + 1 < 2 ^ 64; omega, by show 0 < 2 ^ 64; decide, a4⟩, hw.narrow.frm, hw.narrow.br,
        hw.narrow.ring, hw.narrow.room, hw.narrow.src⟩ rfl rfl rfl rfl rfl
    · exact hw
  · simp only [Sat, hu]; exact (hs.narrow.same hst).resetOf l

theorem stays_replay (n : Nat) (hc : CfgOk c) (hcn : CfgNarrow c) (hN : N = c.numFrames) : ∀ {g : Nat}, g + n ≤ N →
    Stays c N (2 ^ 64) (replay g n) := by
  induction n with
  | zero => intro g _; exact Stays.pure _
  | succ n ih => intro g hg; exact Stays.bind (stays_pDecodeFrame .discard hc hcn hN (by omega)) fun _ => ih (by omega)

/-- Positioning inside the range. -/
theorem stays_pPosition {b : Nat} (hc : CfgOk c) (hcn : CfgNarrow c) (hN : N = c.numFrames) (hb : b ≤ c.F - c.S) :
    Stays c N (2 ^ 64) (pPosition b) := by
  have hB := hc.blocks
  have h1 := hcn.counts.2.2.1
  have h2 := hcn.regs.2.2.2.2.1
  have h3 := hc.range
  have h4 := hc.finish
  have hlt : (c.S + b) / c.B < 2 ^ 64 := Nat.lt_of_le_of_lt (Nat.div_le_self _ _) (by omega)
  have hm := Nat.mod_lt (c.S + b) hB
  have at_ : ∀ p, Stays c N (2 ^ 64) (modify (cursorAt b p) : Seq PUnit) := fun p s hs => by
    refine Sat.modify ⟨hs.of ⟨hs.narrow.cfg, ?_, hs.narrow.frm, hs.narrow.br, hs.narrow.ring, hs.narrow.room, hs.narrow.src⟩ rfl rfl rfl rfl rfl, trivial⟩
    refine ⟨?_, ?_, ?_, hs.narrow.cur.2.2.2⟩
    · show b < 2 ^ 64; omega
    · show (s.cfg.S + b) / s.cfg.B < 2 ^ 64; rw [hs.cfg]; exact hlt
    · show (s.cfg.S + b) % s.cfg.B < 2 ^ 64; rw [hs.cfg]; omega
  refine Stays.bind (Stays.call (m := uRingReset) stays_uRingReset) fun _ => Stays.get fun s hs => ?_
  rw [hs.cfg]
  split
  · exact at_ true s hs
  · have hf : (c.S + b) / c.B < c.numFrames := frame_lt hc (by omega)
    have hr := resyncFrame_le s.params ((c.S + b) / c.B)
    exact Stays.bind (stays_replay _ hc hcn hN (by omega)) (fun _ => at_ false) s hs

/-! ## Commands -/

theorem sat_finishWith_narrow {f : State → State} {s : State} (hs : Narrow s) (hf : ∀ t, SameBlock s t → Narrow t → Narrow (f t)) :
    Sat (finishWith f) s (fun _ t => Narrow t) fun _ t => Narrow t := by
  refine Sat.bind ?_
  obtain ⟨t, ht, hst⟩ | ⟨u, l, hu, hst⟩ := interleave_cases s
  · simp only [Sat, ht]; exact hf t hst (hs.same hst)
  · simp only [Sat, hu]; exact (hs.same hst).resetOf l

theorem Narrow.done {st : Status} {a b : DWord} {f : Fsm} {s : State} (h : Narrow s) : Narrow (complete st a b { s with life.fsm := f }) :=
  h.congr rfl

theorem Narrow.complete {st : Status} {a b : DWord} {s : State} (h : Narrow s) : Narrow (complete st a b s) := h.congr rfl

theorem Narrow.entering {f : Fsm} {s : State} (h : Narrow s) : Narrow (enterCommand f s) :=
  ⟨h.cfg, ⟨h.cur.1, h.cur.2.1, h.cur.2.2.1, h.cur.1⟩, h.frm, h.br, h.ring, h.room, h.src⟩

/-- An open session's capacity. -/
theorem RingOk.capacity {s : State} (h : RingOk s) (hn : Narrow s) : s.params.ringFrames * s.cfg.B < 2 ^ 64 := h.cap ▸ hn.ring.1

/-- An open session's running command. -/
theorem DataOk.going {s : State} (h : DataOk s) (hl : SessionOk s) (hn : Narrow s) : Going s.cfg s.cfg.numFrames (2 ^ 64) s :=
  hn.going (h.stream.windows hn) (hl.ring.capacity hn)

/-- SEEK past its checks. -/
theorem sat_seekRun_narrow {b : Nat} {s : State} (hl : SessionOk s) (hd : DataOk s) (hn : Narrow s) (hb : b ≤ s.cfg.F - s.cfg.S) :
    Sat (seekRun b) s (fun _ t => Narrow t) fun _ t => Narrow t := by
  have hb64 : b < 2 ^ 64 := by have := hn.cfg.counts.2.2.1; omega
  have hgo : Going s.cfg s.cfg.numFrames (2 ^ 64) (enterCommand .seeking s) := (hd.going hl hn).of hn.entering rfl rfl rfl rfl rfl
  have last : ∀ t, Narrow t → Sat (finishWith fun s => complete .success 0 0 { s with life.fsm := .ready }) t (fun _ t => Narrow t) fun _ t => Narrow t :=
    fun t ht => sat_finishWith_narrow ht fun _ _ hu => hu.done
  refine Sat.bind (Sat.modify (Sat.bind (Sat.get ?_)))
  dsimp only
  split
  · rename_i hshort
    simp only [seekShort, Bool.and_eq_true, decide_eq_true_eq] at hshort
    have hcount : b - s.cur.curBlock ≤ s.ring.count := by
      have h1 : s.cur.curBlock ≤ b := hshort.1.2
      have h2 : b ≤ s.cur.curBlock + s.ring.count := hshort.2
      omega
    have hdrop : StaysTo s.cfg s.cfg.numFrames (2 ^ 64) (call (uRingDrop (b - s.cur.curBlock))) (enterCommand .seeking s) fun _ _ => True :=
      StaysTo.call hgo fun t hst ht => by
        have hc : b - s.cur.curBlock ≤ t.ring.count := by rw [hst.alike.ring]; exact hcount
        refine Sat.modify ?_
        rw [dropBlocks, if_pos hc]
        exact ⟨ht.of (ht.narrow.advanceRead hc) rfl rfl rfl rfl rfl, trivial⟩
    refine Sat.bind (Sat.mono hdrop (fun _ t ht => Sat.bind (Sat.modify (last _ ?_))) fun _ _ h => h)
    have h := ht.1.narrow
    exact ⟨h.cfg, ⟨hb64, h.cur.2⟩, h.frm, h.br, h.ring, h.room, h.src⟩
  · exact Sat.bind (Sat.mono (stays_pPosition hl.cfg hn.cfg rfl hb _ hgo) (fun _ t ht => last t ht.1.narrow) fun _ _ h => h)

/-- The loop of GETDATA. -/
theorem sat_deliverLoop_narrow {want : Nat} (left : Nat) : ∀ {got : Nat} {s : State}, s.params.wf = true →
    SessionOk s → DataOk s → Narrow s → got ≤ want → s.cfg.S + s.cur.curBlock + (want - got) ≤ s.cfg.F →
    (got < want → s.cur.resyncPending = false) → want * s.cfg.BA ≤ s.params.outbufBytes →
    Sat (deliverLoop want left got) s (fun _ t => Narrow t) fun _ t => Narrow t := by
  induction left with
  | zero =>
    intro got s hw hl hd hn h1 h2 h3 hfit
    rw [deliverLoop]
    exact Sat.pure hn
  | succ left ih =>
    intro got s hw hl hd hn h1 h2 h3 hfit
    rw [deliverLoop]
    split
    · rename_i hg
      have hp := h3 hg
      have hf := Params.fetch_pos hw
      have hrefill : StaysTo s.cfg s.cfg.numFrames (2 ^ 64) refill s fun _ _ => True := by
        refine StaysTo.get ?_
        split
        · rename_i h0
          have hnext := hl.cursor.next h0 hp (by omega)
          have hF := hl.cfg.finish
          have hlt : s.cur.nextFrame < s.cfg.numFrames := by
            have := frame_lt hl.cfg (a := s.cur.nextFrame * s.cfg.B) (by omega)
            rwa [Nat.mul_div_cancel _ hl.cfg.blocks] at this
          exact stays_pDecodeFrame .deliver hl.cfg hn.cfg rfl hlt s (hd.going hl hn)
        · exact StaysTo.pure (hd.going hl hn) trivial
      refine Sat.bind (Sat.mono (hrefill.and ((Yields.of_sat (sat_refill (e := .free) (φ := True) (n := 0) (k := 0) (Env.holds_free s) hl hp
        (by omega))).and (yields_refill hf hl hd hp (by omega)))) (fun _ t ht => ?_) fun _ _ h => h)
      obtain ⟨hgt, _, ⟨hv, _, hlt, hpos, hcb, hpt, _, _⟩, hdt, hst, _⟩ := ht
      refine Sat.bind (Sat.get ?_)
      have hdrain : Sat (do
          let m ← call (uRingRead (want - got) (got * t.cfg.BA))
          modify fun s => { s with cur.curBlock := s.cur.curBlock + m }
          pure m : Seq Nat) t (fun _ u => u.cur.curBlock < 2 ^ 64 → Narrow u) fun _ u => Narrow u := by
        refine Sat.bind ?_
        refine Sat.bind ?_
        obtain ⟨u, hu, hsu⟩ | ⟨u, l, hu, hsu⟩ := interleave_cases t
        · rw [Sat, hu]
          have h := hgt.narrow.same hsu
          refine Sat.bind (Sat.get (Sat.bind (Sat.set (Sat.pure (Sat.bind (Sat.modify (Sat.pure fun hc => ?_)))))))
          have ha := h.advanceRead (Nat.min_le_right (want - got) u.ring.count)
          rw [copyBlocks_eq] at hc ⊢
          exact ⟨h.cfg, ⟨hc, h.cur.2⟩, h.frm, h.br, ha.ring, h.room, h.src⟩
        · simp only [Sat, hu]; exact (hgt.narrow.same hsu).resetOf l
      have key := (Yields.of_sat (sat_drain (e := .free) (φ := True) (w := want - got) (got := got)
        (n := (got + (want - got)) * t.cfg.BA) (Env.holds_free t) hlt hpos (Nat.le_refl _))).and
        (yields_drain (w := want - got) (got := got) (by rw [hst.params]; exact hw) hlt hdt
          (by rw [hst.cfg, hst.params, show got + (want - got) = want by omega]; exact hfit))
      have step : Sat (do
          let m ← (do
            let m ← call (uRingRead (want - got) (got * t.cfg.BA))
            modify fun s => { s with cur.curBlock := s.cur.curBlock + m }
            pure m)
          deliverLoop want left (got + m)) t (fun _ u => Narrow u) fun _ u => Narrow u := by
        refine Sat.bind (Sat.mono (Sat.and_yields hdrain key) (fun m u hu => ?_) fun _ _ h => h)
        obtain ⟨hnu, ⟨hmeq, _, _, hlu, hcu, hpu, _⟩, hdu, htu, _⟩ := hu
        have hsu := hst.trans htu
        have hnu := hnu (by
          have := hlu.cursor.inRange
          rw [hsu.cfg] at this
          have := hn.cfg.counts.2.2.1
          omega)
        exact ih (by rw [hsu.params]; exact hw) hlu hdu hnu (by omega)
          (by rw [hsu.cfg, hcu, hcb]; omega) (fun _ => hpu.trans hpt) (by rw [hsu.cfg, hsu.params]; exact hfit)
      simpa only [bind_assoc, pure_bind] using step
    · exact Sat.pure hn

/-- GETDATA past its checks. -/
theorem sat_getdataRun_narrow (n : Nat) {s : State} (hw : s.params.wf = true) (hl : SessionOk s) (hd : DataOk s) (hn : Narrow s)
    (hfit : wantOf n s * s.cfg.BA ≤ s.params.outbufBytes) : Sat (getdataRun n) s (fun _ t => Narrow t) fun _ t => Narrow t := by
  refine Sat.bind (Sat.modify ?_)
  have hl' := hl.enter .decoding
  have hd' : DataOk (enterCommand .decoding s) := hd.congr hl (.of_mem rfl rfl rfl rfl rfl) rfl rfl rfl rfl rfl rfl
  have hf := Params.fetch_pos hw
  have hin := hl.cursor.inRange
  have hSF := hl.cfg.range
  have hrep : StaysTo s.cfg s.cfg.numFrames (2 ^ 64) reposition (enterCommand .decoding s) fun _ _ => True := by
    refine StaysTo.get ?_
    split
    · exact stays_pPosition hl.cfg hn.cfg rfl (by show s.cur.curBlock ≤ _; omega) _ (hd'.going hl' hn.entering)
    · exact StaysTo.pure (hd'.going hl' hn.entering) trivial
  refine Sat.bind (Sat.mono (hrep.and ((Yields.of_sat (sat_reposition (e := .free) (φ := True) (n := 0) (k := 0) (Env.holds_free _) hl')).and
    (yields_reposition hf hl' hd'))) (fun _ t ht => Sat.bind (Sat.get ?_)) fun _ _ h => h)
  obtain ⟨hgt, _, ⟨hv, _, hlt, hcb, hp⟩, hdt, _⟩ := ht
  have hst : SameStream s t := (SameStream.of_mem rfl rfl rfl rfl rfl : SameStream s (enterCommand .decoding s)).trans (sameStream_of_position hv)
  have hcb' : t.cur.curBlock = s.cur.curBlock := hcb
  have hwant : wantOf n t = wantOf n s := by simp only [wantOf, hst.cfg, hcb']
  have hwb : wantOf n s ≤ (s.cfg.F - s.cfg.S) - s.cur.curBlock := by unfold wantOf; omega
  rw [hwant]
  exact Sat.bind (Sat.mono (sat_deliverLoop_narrow (wantOf n s) (by rw [hst.params]; exact hw) hlt hdt hgt.narrow (Nat.zero_le _)
    (by rw [hst.cfg, hcb']; omega) (fun h => hp (by show s.cfg.S + s.cur.curBlock < s.cfg.F; omega))
    (by rw [hst.cfg, hst.params]; exact hfit)) (fun r u hu => sat_finishWith_narrow hu fun _ _ h => h.done) fun _ _ h => h)

/-- INIT's ring: its capacity, then its reset. -/
theorem Stays.sized {f : Unit → Seq β} (hf : ∀ a, Stays c N k (f a)) :
    Stays c N k (do modify (fun s => { s with ring.cap := s.params.ringFrames * s.cfg.B }); let a ← Machine.call uRingReset; f a) := fun s hs => by
  refine Sat.bind (Sat.modify (Sat.bind (Sat.bind ?_)))
  have hcap : s.params.ringFrames * s.cfg.B < 2 ^ 64 := by rw [hs.cfg]; exact hs.capacity
  have h0 : (0 : Nat) < 2 ^ 64 := by decide
  obtain ⟨t, ht, hst⟩ | ⟨u, l, hu, hst⟩ := interleave_cases { s with ring.cap := s.params.ringFrames * s.cfg.B }
  · rw [Sat, ht]
    have hn : Narrow (ringReset { s with ring.cap := s.params.ringFrames * s.cfg.B }) :=
      ⟨hs.narrow.cfg, hs.narrow.cur, hs.narrow.frm, hs.narrow.br, ⟨hcap, h0, h0, Nat.zero_le _⟩, hs.narrow.room, hs.narrow.src⟩
    exact Sat.modify (hf () (ringReset t) ((hs.of hn rfl rfl rfl rfl rfl).congr (by rw [hst]; rfl)))
  · rw [Sat, hu]
    have hsrc : u.src = s.src := hst.alike.src
    have hpar : u.params = s.params := hst.alike.params
    exact Narrow.reset (hsrc ▸ hs.narrow.src.1) (hsrc ▸ hs.narrow.src.2) (hpar ▸ hs.narrow.room) l

theorem unspecifiedCfg_narrow (d : Nat) : CfgNarrow (unspecifiedCfg d) := clip_narrow _

/-- The predictor resets leave the ring as it is. -/
theorem staysTo_predResets (l : List Nat) : ∀ {s : State}, Going c N k s → StaysTo c N k (forEach uPredReset l) s fun _ t => t.ring = s.ring := by
  induction l with
  | nil => intro s hs; exact StaysTo.pure hs rfl
  | cons i is ih =>
    intro s hs
    refine (StaysTo.call (m := uPredReset i) hs (Q := fun _ t => t.ring = s.ring) fun t hst ht =>
      Sat.modify ⟨ht.congr rfl, hst.alike.ring⟩).bind fun _ t ht hq =>
      (ih ht).mono fun _ _ _ h => h.trans hq

/-- RELEASE past its state check. -/
theorem sat_releaseRun_narrow {s : State} (hl : SessionOk s) (hn : Narrow s) : Sat releaseRun s (fun _ t => Narrow t) fun _ t => Narrow t := by
  have hgo : Going s.cfg 0 (2 ^ 64) s := hn.going nofun (hl.ring.capacity hn)
  have hreset : StaysTo s.cfg 0 (2 ^ 64) (call uRingReset) s fun _ t => t.ring.count = 0 := StaysTo.call hgo fun t _ ht =>
    Sat.modify ⟨ht.of ht.narrow.ringReset rfl rfl rfl rfl rfl, rfl⟩
  refine Sat.bind (Sat.mono hreset (fun _ t ht => Sat.bind (Sat.get ?_)) fun _ _ h => h)
  refine Sat.bind (Sat.mono (staysTo_predResets _ ht.1) (fun _ u hu => sat_finishWith_narrow hu.1.narrow fun v hst hv => ?_) fun _ _ h => h)
  have h : (0 : Nat) < 2 ^ 64 := by decide
  have hc : v.ring.count = 0 := by rw [hst.alike.ring, hu.2]; exact ht.2
  exact ⟨unspecifiedCfg_narrow _, ⟨h, h, h, hv.cur.2.2.2⟩, hv.frm, hv.br, ⟨unspecifiedCap_lt _, hv.ring.2.1, hv.ring.2.2.1,
    by show v.ring.count ≤ _; omega⟩, hv.room, hv.src⟩

/-- CFG holds registers and counts of at most SEEKTAB_ENTRIES frames. -/
theorem cfgOf_narrow {p : Params} {d : Desc} {S F : Nat} (hp : p.wf = true) (hd : descValid p d = true) (h1 : S ≤ F) (h2 : F ≤ d.total.toNat) :
    CfgNarrow (cfgOf p d S F) := by
  simp only [Params.wf, Bool.and_eq_true, decide_eq_true_eq] at hp
  have hd := (cfgOf_ok hd h1 h2).2.1
  have ht := d.total.isLt
  refine ⟨⟨BitVec.isLt _, BitVec.isLt _, BitVec.isLt _, BitVec.isLt _, BitVec.isLt _, BitVec.isLt _, BitVec.isLt _⟩,
    ⟨ht, ?_, ?_, ?_⟩, ⟨BitVec.isLt _, BitVec.isLt _⟩⟩
  · show S < 2 ^ 64; omega
  · show F < 2 ^ 64; omega
  · have := hp.1.1.2.2.2.2.2.2.1
    omega

theorem initConfigure_narrow {ranged : Bool} {s : State} {c : SessionCfg} (hp : s.params.wf = true) (h : initConfigure ranged s = .ok c) :
    CfgNarrow c := by
  unfold initConfigure at h
  simp only at h
  split at h
  · cases h
  · rename_i hd
    split at h
    · cases h
    · rename_i hr
      cases h
      exact cfgOf_narrow hp (by simpa using hd) (by omega) (by omega)

/-- The ring that INIT sizes is no larger than the parameters allow. -/
theorem initConfigure_capacity {ranged : Bool} {s : State} {c : SessionCfg} (h : initConfigure ranged s = .ok c)
    (hr : s.params.ringFrames * s.params.maxFrameBlocks < 2 ^ 64) : s.params.ringFrames * c.B < 2 ^ 64 := by
  unfold initConfigure at h
  simp only at h
  split at h
  · cases h
  · rename_i hd
    split at h
    · cases h
    · cases h
      simp only [descValid, Bool.not_eq_true, Bool.not_eq_false', decide_eq_true_eq] at hd
      exact Nat.lt_of_le_of_lt (Nat.mul_le_mul_left _ hd.2.2.2.2.2.1) hr

/-- INIT from its size check to its end. -/
theorem sat_initStream_narrow {s : State} (hc : CfgOk s.cfg) (hn : Narrow s) (hcap : s.params.ringFrames * s.cfg.B < 2 ^ 64)
    (ht : s.cfg.numFrames ≤ s.params.seektabEntries) (hp : s.cfg.C ≤ s.pred.length) :
    Sat initStream s (fun _ t => Narrow t) fun _ t => Narrow t := by
  have bad : ∀ t, Narrow t → Sat (finishWith (initFail .invalidStream)) t (fun _ t => Narrow t) fun _ t => Narrow t := fun t ht =>
    sat_finishWith_narrow ht fun _ _ h => h.congr rfl
  refine Sat.bind (Sat.mono ((Stays.call (m := uSrcSize) stays_uSrcSize s (hn.going (N := 0) nofun hcap)).and (Yields.call fun t hst =>
    yields_uSrcSize.mono fun z u hu => (⟨t, hst, hu⟩ : ∃ t, SameBlock s t ∧ z = t.src.bytes.length ∧
      u = { t with src := t.src.afterRequest .size }))) (fun z u hu => Sat.bind (Sat.get ?_)) fun _ _ h => h)
  obtain ⟨hgu, _, t, hst, rfl, hu⟩ := hu
  have ha := hst.alike
  have hsu : SameStream s u := by rw [hu]; exact .of_mem ha.params ha.cfg (show t.src.bytes = s.src.bytes by rw [ha.src]) ha.mem ha.epoch
  have hpu : u.pred.length = s.pred.length := by rw [hu]; exact congrArg List.length ha.pred
  have hz : t.src.bytes.length = u.src.bytes.length := by rw [hu]; rfl
  have hnu := hgu.narrow
  split
  · rename_i hv
    rw [hz] at hv
    have hk : StreamOk u := streamOk_of_valid hv (by rw [hsu.cfg, hsu.params]; exact ht) (by rw [hsu.cfg, hpu]; exact hp)
    have hw := hk.windows hnu
    have hgo : Going u.cfg u.cfg.numFrames (2 ^ 64) u := hnu.going hw (by rw [hsu.params, hsu.cfg]; exact hcap)
    have hprobe : Stays u.cfg u.cfg.numFrames (2 ^ 64) probeHeader := Stays.get fun x hx => by
      rw [hx.cfg]
      split
      · exact StaysTo.pure hx trivial
      · have h1 := hx.windows 0 (by omega)
        have h2 : frameEnd x 0 - frameStart x 0 < 2 ^ 64 := by omega
        refine Stays.bind (Stays.call (stays_uSrcSeek h1.1)) (fun _ => Stays.bind (Stays.call (stays_uBrReset h1.1 h2)) fun _ => ?_) x hx
        refine Stays.bind (Stays.update fun _ => rfl) fun _ => Stays.bind stays_uBrHeader.call fun _ => Stays.get fun _ hx => ?_
        exact StaysTo.pure hx trivial
    have hopen : Stays u.cfg u.cfg.numFrames (2 ^ 64) openSession := by
      refine Stays.sized fun _ => Stays.get fun x hx => Stays.bind (Stays.forEach stays_uPredReset _) (fun _ => Stays.bind (m := modify _) (fun y hy => ?_) fun _ =>
          stays_pPosition (by rw [hsu.cfg]; exact hc) hnu.cfg rfl (Nat.zero_le _)) x hx
      exact Sat.modify ⟨hy.of ⟨hy.narrow.cfg, hy.narrow.cur, hy.narrow.frm, hy.narrow.br, hy.narrow.ring, hy.narrow.room, hy.narrow.src⟩ rfl rfl rfl rfl rfl, trivial⟩
    refine Sat.bind (Sat.mono (hprobe u hgo) (fun ok x hx => ?_) fun _ _ h => h)
    split
    · exact Sat.bind (Sat.mono (hopen x hx.1) (fun _ y hy => sat_finishWith_narrow hy.1.narrow fun _ _ h => h.done) fun _ _ h => h)
    · exact bad x hx.1.narrow
  · exact bad u hnu

end Sys2Proof.Machine
end

