-- ==== Sys2Proof/Laws/Invariant.lean ====
section
/-! SUPPORT. The invariant of Safety.lean: each command, each host access and each reset leaves it, said command by command. -/

namespace Sys2Proof.Machine

/-- A session in order, with its data in order. -/
structure Opened (s : State) : Prop where
  session : SessionOk s
  data : DataOk s

/-- What it depends on. -/
theorem Opened.congr {s t : State} (h : Opened s) (hp : t.params = s.params) (hc : t.cfg = s.cfg) (hb : t.src.bytes = s.src.bytes)
    (hm : t.mem = s.mem) (he : t.epoch = s.epoch) (hpr : t.pred = s.pred) (hr : t.ring = s.ring)
    (h1 : t.cur.curBlock = s.cur.curBlock) (h2 : t.cur.nextFrame = s.cur.nextFrame)
    (h3 : t.cur.skipBlocks = s.cur.skipBlocks) (h4 : t.cur.resyncPending = s.cur.resyncPending) : Opened t :=
  ⟨h.session.congr hp hc hr h1 h2 h3 h4, h.data.congr h.session (.of_mem hp hc hb hm he) hpr hr he h1 h2 h4⟩

theorem Opened.same {s t : State} (h : Opened s) (ht : SameBlock s t) : Opened t := by
  have ha := ht.alike
  exact h.congr ha.params ha.cfg (congrArg Source.bytes ha.src) ha.mem ha.epoch ha.pred ha.ring (congrArg Cursor.curBlock ha.cur)
    (congrArg Cursor.nextFrame ha.cur) (congrArg Cursor.skipBlocks ha.cur) (congrArg Cursor.resyncPending ha.cur)

/-- The parts of the invariant that no command's progress touches. -/
structure Base (s : State) : Prop where
  params : s.params.wf = true
  noUop : s.uop = none
  mem : Memory.wf s.mem = true
  preds : s.pred.length = s.params.maxChannels

theorem inv_idle {t : State} (hb : Base t) (hn : Narrow t) (hbusy : t.regs.busy = false)
    (h : t.life.fsm = .uninitialized ∨ (t.life.fsm = .ready ∧ t.life.initFailed = false ∧ Opened t)) : Inv t := by
  refine ⟨hb.params, hb.noUop, hb.mem, hn, hb.preds, ?_, ?_, ?_, ?_, ?_⟩
  · intro h; simp [hbusy] at h
  · intro _; exact h.imp id (·.1)
  · intro hf; obtain h | h := h
    · exact h
    · simp [h.2.1] at hf
  · intro _ hr; obtain h | h := h
    · simp [h] at hr
    · exact h.2.2.session
  · intro _ hr; obtain h | h := h
    · simp [h] at hr
    · exact h.2.2.data

theorem inv_reset (u : State) (l : List HostOp) (hp : u.params.wf = true) (hn : Narrow (withProg l (hwReset u))) :
    Inv (withProg l (hwReset u)) := by
  refine inv_idle ⟨hp, rfl, rfl, ?_⟩ hn rfl (.inl rfl)
  simp [withProg, hwReset]

theorem inv_stuck {t : State} (hb : Base t) (hn : Narrow t) (ho : t.src.outstanding.isSome = true) (hbusy : t.regs.busy = true)
    (h : t.life.initFailed = false) : Inv t := by
  refine ⟨hb.params, hb.noUop, hb.mem, hn, hb.preds, fun _ => ho, ?_, ?_, ?_, ?_⟩ <;> simp [hbusy, h]

/-- An accepted command's state. -/
structure Acc (s : State) : Prop where
  base : Base s
  narrow : Narrow s
  busy : s.regs.busy = true
  life : s.life.fsm = .uninitialized ∨ (s.life.fsm = .ready ∧ s.life.initFailed = false ∧ Opened s)

theorem Base.congr {s t : State} (h : Base s) (h1 : t.params = s.params) (h2 : t.uop = s.uop) (h3 : Memory.wf t.mem = true)
    (h4 : t.pred.length = s.pred.length) : Base t :=
  ⟨by rw [h1]; exact h.params, by rw [h2]; exact h.noUop, h3, by rw [h4, h1]; exact h.preds⟩

theorem Acc.complete {s : State} (h : Acc s) (st : Status) (a b : DWord) : Inv (complete st a b s) :=
  inv_idle (h.base.congr rfl rfl h.base.mem rfl) h.narrow.complete rfl (h.life.imp id fun ⟨a, b, c⟩ => ⟨a, b, c.congr rfl rfl rfl rfl rfl rfl rfl rfl rfl rfl rfl⟩)

theorem inv_halted {γ : Type} {e : Env} {f : State → γ} {s t : State} (hb : Base s) (h : HaltedFrom e f s t)
    (hf : ∀ u, f u = f s → u.params = s.params ∧ u.uop = s.uop ∧ u.pred.length = s.pred.length ∧ u.regs.busy = true ∧
      u.life.initFailed = false) (hm : Memory.wf t.mem = true) (hn : Narrow t) : Inv t := by
  obtain ⟨_, u, l, hu, rfl⟩ | ⟨_, hu, ho⟩ := h
  · exact inv_reset u l (by rw [(hf u hu).1]; exact hb.params) hn
  · obtain ⟨h1, h2, h3, h4, h5⟩ := hf t hu
    exact inv_stuck (hb.congr h1 h2 hm h3) hn ho h4 h5

theorem ringFrames_pos {p : Params} (h : p.wf = true) : 1 ≤ p.ringFrames := by
  simp only [Params.wf, Bool.and_eq_true, decide_eq_true_eq] at h
  exact h.1.1.2.1

theorem outView_facts {e : Env} {u s : State} (h : outView e u = outView e s) : u.params = s.params ∧ u.uop = s.uop ∧
    u.pred.length = s.pred.length ∧ u.regs.busy = s.regs.busy ∧ u.life.initFailed = s.life.initFailed ∧
    u.cfg = s.cfg ∧ u.ring.cap = s.ring.cap ∧ u.cur.entryBlock = s.cur.entryBlock ∧ u.life.fsm = s.life.fsm := by
  refine ⟨(congrArg State.params h :), (congrArg State.uop h :), ?_, (congrArg (fun s => s.regs.busy) h :),
    (congrArg (fun s => s.life.initFailed) h :), (congrArg State.cfg h :), (congrArg (fun s => s.ring.cap) h :),
    (congrArg (fun s => s.cur.entryBlock) h :), (congrArg (fun s => s.life.fsm) h :)⟩
  have : (List.replicate u.pred.length ([] : List StageState)) = List.replicate s.pred.length [] := (congrArg State.pred h :)
  simpa using congrArg List.length this

theorem writeBytes_frame (a : Nat) (bs : List Byte) (s : State) : ∃ m, writeBytes a bs s = { s with mem := m } ∧
    (Memory.wf s.mem = true → Memory.wf m = true) :=
  ⟨_, writeBytes_eq a bs s, wf_writeBytes a bs s⟩

/-- Forgetting OUT changes OUT alone. -/
theorem forgetOut_frame (s : State) : ∃ m, forgetOut s = { s with mem := m, draws := s.draws + 1 } ∧
    MemWithin ((s.cur.curBlock - s.cur.entryBlock) * s.cfg.BA) s { s with mem := m } := by
  have h := writeBytes_eq outBase ((List.range ((s.cur.curBlock - s.cur.entryBlock) * s.cfg.BA)).map (Config.freeOutFailed s.draws)) s
  have hr := fun a => readByte_writeBytes outBase a ((List.range ((s.cur.curBlock - s.cur.entryBlock) * s.cfg.BA)).map (Config.freeOutFailed s.draws)) s
  have hw := wf_writeBytes outBase ((List.range ((s.cur.curBlock - s.cur.entryBlock) * s.cfg.BA)).map (Config.freeOutFailed s.draws)) s
  generalize hm : (writeBytes outBase ((List.range ((s.cur.curBlock - s.cur.entryBlock) * s.cfg.BA)).map (Config.freeOutFailed s.draws)) s).mem = m at *
  refine ⟨m, by simp only [forgetOut, h], fun a ha => ?_, hw⟩
  rw [← h, hr, List.length_map, List.length_range, if_neg (by omega)]

/-- A GETDATA or SEEK that has met a FAIL, before its recovery ends. -/
structure Failing (t : State) : Prop where
  base : Base t
  narrow : Narrow t
  initFailed : t.life.initFailed = false
  cfg : CfgOk t.cfg
  cap : t.ring.cap = t.params.ringFrames * t.cfg.B
  room : 0 < t.ring.cap
  stream : StreamOk t
  skip : t.cur.skipBlocks < t.cfg.B
  entry : t.cur.entryBlock ≤ t.cfg.F - t.cfg.S

theorem Failing.same {s t : State} (h : Failing s) (ht : SameBlock s t) : Failing t := by
  have ha := ht.alike
  have hst : SameStream s t := .of_mem ha.params ha.cfg (congrArg Source.bytes ha.src) ha.mem ha.epoch
  refine ⟨h.base.congr ha.params (by rw [ht]) (by rw [ha.mem]; exact h.base.mem) (by rw [ha.pred]), h.narrow.same ht, ?_, ?_, ?_, ?_,
    hst.streamOk (by rw [ha.pred]) h.stream, ?_, ?_⟩
  · rw [ht]; exact h.initFailed
  · rw [ha.cfg]; exact h.cfg
  · rw [ha.ring, ha.params, ha.cfg]; exact h.cap
  · rw [ha.ring]; exact h.room
  · rw [ha.cur, ha.cfg]; exact h.skip
  · rw [ha.cur, ha.cfg]; exact h.entry

/-- A FAIL met by a session's command. -/
theorem failing_of_stop {e : Env} {n k : Nat} {s t : State} {f : Fsm} (ha : Acc s) (hl : Opened s) (hf : s.life.initFailed = false)
    (h : LoopStops e True n k (enterCommand f s) .ioFailure t) (hn : Narrow t) : Failing t := by
  obtain ⟨_, hv, _, hsk, hmw, _⟩ := h
  obtain ⟨h1, h2, h3, h4, h5, h6, h7, h8, h9⟩ := outView_facts hv
  have hbytes : t.src.bytes = s.src.bytes := (congrArg (fun s => s.src.bytes) hv :)
  have hst : SameStream s t := sameStream_of_out ha.base.params hl.data.stream h1 h6 hbytes ⟨hmw.outside, hmw.wf⟩
  have hrd := hl.session.ring.rd
  have hin := hl.session.cursor.inRange
  refine ⟨ha.base.congr h1 h2 (hmw.wf ha.base.mem) h3, hn, h5.trans hf, ?_, ?_, ?_, hst.streamOk h3 hl.data.stream, hsk, ?_⟩
  · rw [h6]; exact hl.session.cfg
  · rw [h7, h1, h6]; exact hl.session.ring.cap
  · rw [h7]; show 0 < s.ring.cap; omega
  · rw [h8, h6]; show s.cur.curBlock ≤ s.cfg.F - s.cfg.S; omega

/-- The rollback leaves the session in order, at the command's first block. -/
theorem Failing.recovered {t : State} (h : Failing t) (hrd : t.ring.rd = 0) (hwr : t.ring.wr = 0) (hc : t.ring.count = 0) :
    Inv (recovered t) := by
  obtain ⟨m, hfo, hmw⟩ := forgetOut_frame t
  have hst : SameStream t { t with mem := m } := sameStream_of_out h.base.params h.stream rfl rfl rfl hmw
  have hn := h.narrow
  rw [Machine.recovered, hfo]
  refine inv_idle (h.base.congr rfl rfl (hmw.wf h.base.mem) rfl)
    ⟨hn.cfg, ⟨hn.cur.2.2.2, hn.cur.2⟩, hn.frm, hn.br, hn.ring, hn.room, hn.src⟩ rfl (.inr ⟨rfl, h.initFailed, ⟨⟨h.cfg, ⟨h.cap, ?_, ?_, ?_⟩, ?_⟩, ?_, ?_, ?_⟩⟩)
  · show t.ring.count ≤ t.ring.cap
    omega
  · show t.ring.wr = (t.ring.rd + t.ring.count) % t.ring.cap
    rw [hrd, hwr, hc]; simp
  · show t.ring.rd < t.ring.cap
    rw [hrd]; exact h.room
  · constructor
    · show t.cur.entryBlock + t.ring.count ≤ t.cfg.F - t.cfg.S
      rw [hc]; exact h.entry
    · exact h.skip
    · intro h; exact absurd h (by show ¬ 0 < t.ring.count; omega)
    · intro _; exact hc
    · intro _ h; cases h
    · intro h; exact absurd h (by show ¬ 0 < t.ring.count; omega)
  · exact SameStream.streamOk (hst.trans (.of_mem rfl rfl rfl rfl rfl)) rfl h.stream
  · show (List.range t.ring.count).map _ = (List.range t.ring.count).map _
    rw [hc]; rfl
  · intro h; cases h

/-- How a command's sequence may end. -/
def EndsInv (st : Stop) (t : State) : Prop :=
  match st with
  | .ioFailure | .halted => Inv t
  | .fault _ => True

theorem sat_recoverSession {t : State} (h : Failing t) : Sat recoverSession t (fun _ t => Inv t) EndsInv := by
  have host : ∀ {α : Type} {s : State} {m : Unit → Seq α} {Q : α → State → Prop}, Failing s →
      (∀ u, SameBlock s u → Failing u → Sat (m ()) u Q EndsInv) → Sat (interleave >>= m) s Q EndsInv := by
    intro α s m Q hs hm
    refine Sat.bind ?_
    obtain ⟨u, hu, hsu⟩ | ⟨u, l, hu, hsu⟩ := interleave_cases s
    · rw [Sat, hu]; exact hm u hsu (hs.same hsu)
    · rw [Sat, hu]; exact inv_reset u l (hs.same hsu).base.params ((hs.same hsu).narrow.resetOf l)
  unfold recoverSession
  refine Sat.bind (host h fun u hu hfu => Sat.modify ?_)
  have hr : Failing (ringReset u) := ⟨hfu.base.congr rfl rfl hfu.base.mem rfl, hfu.narrow.ringReset, hfu.initFailed, hfu.cfg, hfu.cap,
    hfu.room, SameStream.streamOk (s := u) (.of_mem rfl rfl rfl rfl rfl) rfl hfu.stream, hfu.skip, hfu.entry⟩
  refine host hr fun v hv hfv => Sat.modify (hfv.recovered ?_ ?_ ?_) <;> rw [hv.alike.ring] <;> rfl

theorem sat_recoverInit {t : State} (hb : Base t) (hn : Narrow t) (hun : t.life.fsm = .uninitialized) :
    Sat recoverInit t (fun _ t => Inv t) EndsInv := by
  unfold recoverInit finishWith
  refine Sat.bind ?_
  obtain ⟨u, hu, hs⟩ | ⟨u, l, hu, hs⟩ := interleave_cases t
  · rw [Sat, hu]
    have ha := hs.alike
    refine Sat.modify (inv_idle (hb.congr ha.params (by rw [hs]; rfl) (by rw [show (initFail _ u).mem = u.mem from rfl, ha.mem]; exact hb.mem)
      (by rw [show (initFail _ u).pred = u.pred from rfl, ha.pred])) ((hn.same hs).congr rfl) rfl (.inl ?_))
    show u.life.fsm = _
    rw [hs]; exact hun
  · rw [Sat, hu]
    exact inv_reset u l (by rw [hs.alike.params]; exact hb.params) ((hn.same hs).resetOf l)

/-- What a command's body must leave, given the recovery of its I/O failures. -/
def RunInv (recover : Seq Unit) (st : Stop) (t : State) : Prop :=
  match st with
  | .ioFailure => Sat recover t (fun _ t => Inv t) EndsInv
  | .halted => Inv t
  | .fault _ => True

theorem inv_settle {m : Seq Unit} {t u : State} (h : Sat m t (fun _ t => Inv t) EndsInv) (hu : settle (m t) = .next u) : Inv u := by
  simp only [Sat] at h
  cases hm : m t with
  | ok a w => simp only [hm, settle] at h hu; cases hu; exact h
  | error st w =>
    cases st with
    | ioFailure => simp only [hm, settle] at h hu; cases hu; exact h
    | halted => simp only [hm, settle] at h hu; cases hu; exact h
    | fault f => simp only [hm, settle] at hu; cases hu

theorem inv_run {recover body : Seq Unit} {s t : State} (key : Sat body s (fun _ t => Inv t) (RunInv recover))
    (h : runCommand recover body s = .next t) : Inv t := by
  simp only [Sat] at key
  unfold runCommand at h
  cases hb : body s with
  | ok a u => simp only [hb, settle] at h key; cases h; exact key
  | error st u =>
    cases st with
    | ioFailure => simp only [hb] at h key; exact inv_settle key h
    | halted => simp only [hb, settle] at h key; cases h; exact key
    | fault f => simp only [hb, settle] at h; cases h

theorem inv_getdata {s t : State} (ha : Acc s) (h : execGetdata s = .next t) : Inv t := by
  unfold execGetdata at h
  have key : Sat getdataBody s (fun _ t => Inv t) (RunInv recoverSession) := by
    refine Sat.bind (Sat.get ?_)
    split
    · exact Sat.modify (ha.complete _ _ _)
    · rename_i hopen
      split
      · exact Sat.modify (ha.complete _ _ _)
      · rename_i hle
        have hopen := (sessionOpen_iff s).1 (by simpa using hopen)
        have hl : Opened s := by
          obtain h | h := ha.life
          · rw [h] at hopen; exact absurd hopen.2 (by decide)
          · exact h.2.2
        have hfit := wantOf_fits (Nat.le_of_not_lt hle)
        refine (((sat_getdataRun (e := .free) (φ := True) _ (Env.holds_free s) hl.session).and_yields
          (yields_getdataRun _ ha.base.params (Params.fetch_pos ha.base.params) hl.session hl.data hfit)).and_sat
          (sat_getdataRun_narrow _ ha.base.params hl.session hl.data ha.narrow hfit)).mono (fun _ t ht => ?_) fun st t h => ?_
        · obtain ⟨⟨⟨u, rfl, hv, _, hlu, _, hmw⟩, hdt, _⟩, hn⟩ := ht
          obtain ⟨h1, h2, h3, h4, h5, h6, h7, h8, h9⟩ := outView_facts hv
          exact inv_idle (ha.base.congr h1 h2 (hmw.wf ha.base.mem) h3) hn rfl (.inr ⟨rfl, h5.trans hopen.1, hlu.congr rfl rfl rfl rfl rfl rfl rfl, hdt⟩)
        · cases st with
          | ioFailure => exact sat_recoverSession (failing_of_stop ha hl hopen.1 h.1 h.2)
          | halted =>
            refine inv_halted (s := enterCommand .decoding s) (ha.base.congr rfl rfl ha.base.mem rfl) h.1.1 (fun u hu => ?_) (h.1.2 ha.base.mem) h.2
            obtain ⟨h1, h2, h3, h4, h5, _⟩ := outView_facts hu
            exact ⟨h1, h2, h3, h4.trans ha.busy, h5.trans hopen.1⟩
          | fault => trivial
  exact inv_run key h

theorem Acc.session {s : State} (ha : Acc s) (h : s.life.fsm = .ready) : Opened s := by
  obtain h' | h' := ha.life
  · rw [h'] at h; cases h
  · exact h'.2.2

theorem inv_seek {s t : State} (ha : Acc s) (h : execSeek s = .next t) : Inv t := by
  unfold execSeek at h
  have key : Sat seekBody s (fun _ t => Inv t) (RunInv recoverSession) := by
    refine Sat.bind (Sat.get ?_)
    split
    · exact Sat.modify (ha.complete _ _ _)
    · rename_i hopen
      have hopen := (sessionOpen_iff s).1 (by simpa using hopen)
      split
      · exact Sat.modify (ha.complete _ _ _)
      · rename_i hb
        have hl := ha.session hopen.2
        refine (((sat_seekRun (e := .free) (φ := True) _ (Env.holds_free s) hl.session (by omega)).and_yields
          (yields_seekRun _ (Params.fetch_pos ha.base.params) hl.session hl.data (by omega))).and_sat
          (sat_seekRun_narrow hl.session hl.data ha.narrow (by omega))).mono (fun _ t ht => ?_) fun st t h => ?_
        · obtain ⟨⟨⟨u, rfl, hv, _, hlu, _⟩, hdt, _⟩, hn⟩ := ht
          obtain ⟨h1, h2, h3, h4, h5, h6, h7, h8, h9⟩ := outView_facts (congrArg forgetMem hv : outView _ _ = outView _ _)
          have hm : u.mem = s.mem := (congrArg State.mem hv :)
          exact inv_idle (ha.base.congr h1 h2 (by show Memory.wf u.mem = true; rw [hm]; exact ha.base.mem) h3) hn rfl (.inr ⟨rfl, h5.trans hopen.1, hlu.congr rfl rfl rfl rfl rfl rfl rfl, hdt⟩)
        · cases st with
          | ioFailure => exact sat_recoverSession (failing_of_stop ha hl hopen.1 h.1 h.2)
          | halted =>
            refine inv_halted (s := enterCommand .seeking s) (ha.base.congr rfl rfl ha.base.mem rfl) h.1.1 (fun u hu => ?_) (h.1.2 ha.base.mem) h.2
            obtain ⟨h1, h2, h3, h4, h5, _⟩ := outView_facts hu
            exact ⟨h1, h2, h3, h4.trans ha.busy, h5.trans hopen.1⟩
          | fault => trivial
  exact inv_run key h

def NoIo {α : Type} (m : Seq α) : Prop := ∀ s t, m s ≠ .error .ioFailure t

theorem sat_noIo {α : Type} {m : Seq α} {s : State} {Q : α → State → Prop} {E : Stop → State → Prop} (h : Sat m s Q E) (hn : NoIo m) :
    Sat m s Q (fun st t => st ≠ .ioFailure ∧ E st t) := by
  simp only [Sat] at h ⊢
  cases hm : m s with
  | ok => simpa [hm] using h
  | error st t => simp only [hm] at h ⊢; exact ⟨fun hh => hn s t (by rw [hm, hh]), h⟩

theorem NoIo.bind {α β : Type} {m : Seq α} {k : α → Seq β} (h : NoIo m) (hk : ∀ a, NoIo (k a)) : NoIo (m >>= k) := by
  intro s t
  rw [Seq.bind_run]
  cases hm : m s with
  | ok a u => exact hk a u t
  | error st u => intro hh; cases hh; exact h s t hm

theorem noIo_modify (f : State → State) : NoIo (modify f : Seq PUnit) := fun _ _ h => by cases h
theorem noIo_pure {α : Type} (a : α) : NoIo (pure a : Seq α) := fun _ _ h => by cases h
theorem noIo_get : NoIo (get : Seq State) := fun _ _ h => by cases h
theorem noIo_interleave : NoIo interleave := fun s t h => by
  obtain ⟨u, hu, _⟩ | ⟨u, l, hu, _⟩ := interleave_cases s <;> rw [hu] at h <;> cases h
theorem noIo_forEach (l : List Nat) : NoIo (forEach uPredReset l) := by
  induction l with
  | nil => exact noIo_pure _
  | cons c cs ih => exact (noIo_interleave.bind fun _ => noIo_modify _).bind fun _ => ih
theorem noIo_releaseRun : NoIo releaseRun :=
  (noIo_interleave.bind fun _ => noIo_modify _).bind fun _ => noIo_get.bind fun _ => (noIo_forEach _).bind fun _ =>
    noIo_interleave.bind fun _ => noIo_modify _

theorem inv_release {s t : State} (ha : Acc s) (h : execRelease s = .next t) : Inv t := by
  unfold execRelease at h
  have key : Sat releaseBody s (fun _ t => Inv t) (RunInv recoverSession) := by
    refine Sat.bind (Sat.get ?_)
    split
    · rename_i hopen
      have hopen := (sessionOpen_iff s).1 hopen
      have hl := ha.session hopen.2
      refine ((sat_noIo (sat_releaseRun (e := .free) (φ := True) (Env.holds_free s)) noIo_releaseRun).and_sat
        (sat_releaseRun_narrow hl.session ha.narrow)).mono (fun _ t ht => ?_) fun st t h => ?_
      · obtain ⟨⟨u, rfl, hv, _⟩, hn⟩ := ht
        obtain ⟨h1, h2, h3, h4, h5, h6, h7, h8, h9⟩ := outView_facts (congrArg (fun s => forgetMem (forgetCursor s)) hv : outView _ _ = outView _ _)
        have hm : u.mem = s.mem := (congrArg State.mem hv :)
        exact inv_idle (ha.base.congr h1 h2 (by show Memory.wf u.mem = true; rw [hm]; exact ha.base.mem) h3) hn rfl (.inl rfl)
      · cases st with
        | ioFailure => exact absurd rfl h.1.1
        | halted =>
          obtain ⟨h, hn⟩ := h
          have h := LoopStops.of_decode (n := 0) (k := 0) hl.session.cursor.skip h.2
          refine inv_halted (s := s) ha.base h.1 (fun u hu => ?_) (h.2 ha.base.mem) hn
          obtain ⟨h1, h2, h3, h4, h5, _⟩ := outView_facts hu
          exact ⟨h1, h2, h3, h4.trans ha.busy, h5.trans hopen.1⟩
        | fault => trivial
    · exact Sat.modify (ha.complete _ _ _)
  exact inv_run key h

theorem initView_facts {e : Env} {u s : State} (h : initView e u = initView e s) : u.params = s.params ∧ u.uop = s.uop ∧
    u.pred.length = s.pred.length ∧ u.regs.busy = s.regs.busy ∧ u.life.initFailed = s.life.initFailed ∧
    u.mem = s.mem ∧ u.life.fsm = s.life.fsm := by
  refine ⟨(congrArg State.params h :), (congrArg State.uop h :), ?_, (congrArg (fun s => s.regs.busy) h :),
    (congrArg (fun s => s.life.initFailed) h :), (congrArg State.mem h :), (congrArg (fun s => s.life.fsm) h :)⟩
  have : (List.replicate u.pred.length ([] : List StageState)) = List.replicate s.pred.length [] := (congrArg State.pred h :)
  simpa using congrArg List.length this

theorem inv_init {ranged : Bool} {s t : State} (ha : Acc s) (h : runCommand recoverInit (initBody ranged) s = .next t) : Inv t := by
  have key : Sat (initBody ranged) s (fun _ t => Inv t) (RunInv recoverInit) := by
    refine Sat.bind (Sat.get ?_)
    split
    · exact Sat.modify (ha.complete _ _ _)
    · rename_i hnf
      split
      · exact Sat.modify (ha.complete _ _ _)
      · rename_i hun
        have hun : s.life.fsm = .uninitialized := by simpa using hun
        have hnf : s.life.initFailed = false := by simpa using hnf
        refine Sat.bind (Sat.modify (Sat.bind (Sat.get ?_)))
        split
        · exact Sat.modify (inv_idle (ha.base.congr rfl rfl ha.base.mem rfl) (ha.narrow.congr rfl) rfl (.inl hun))
        · rename_i c hc
          refine Sat.bind (Sat.set ?_)
          obtain ⟨hcfg, htab, hch⟩ := initConfigure_ok hc
          generalize hs1 : ({ s with life.hadErrors := false, cfg := c } : State) = s1
          have hb1 : Base s1 := by rw [← hs1]; exact ha.base.congr rfl rfl ha.base.mem rfl
          have hn := ha.narrow
          have hn1 : Narrow s1 := by
            rw [← hs1]; exact ⟨initConfigure_narrow (s := { s with life.hadErrors := false }) ha.base.params hc, hn.cur, hn.frm, hn.br, hn.ring, hn.room, hn.src⟩
          have hbusy1 : s1.regs.busy = true := by rw [← hs1]; exact ha.busy
          have hun1 : s1.life.fsm = .uninitialized := by rw [← hs1]; exact hun
          have hnf1 : s1.life.initFailed = false := by rw [← hs1]; exact hnf
          have hc1 : s1.cfg = c := by rw [← hs1]
          have hp1 : s1.params = s.params := by rw [← hs1]
          have hfail : ∀ u st, initView .free u = initView .free s1 → Narrow (initFail st u) → Inv (initFail st u) := by
            intro u st hv hn
            obtain ⟨h1, h2, h3, h4, h5, h6, h7⟩ := initView_facts hv
            exact inv_idle (hb1.congr h1 h2 (by show Memory.wf u.mem = true; rw [h6]; exact hb1.mem) h3) hn rfl (.inl (h7.trans hun1))
          have hw1 : s1.params.wf = true := by rw [hp1]; exact ha.base.params
          refine (((sat_initStream (e := .free) (φ := True) (Env.holds_free s1) (by rw [hc1]; exact hcfg)
            (ringFrames_pos hw1)).and_yields (yields_initStream (Params.fetch_pos hw1) (ringFrames_pos hw1) (by rw [hc1]; exact hcfg)
            (by rw [hc1, hp1]; exact htab) (by rw [hc1, hb1.preds, hp1]; exact hch))).and_sat (sat_initStream_narrow (by rw [hc1]; exact hcfg) hn1
            (by rw [hc1, hp1]; exact initConfigure_capacity hc ha.narrow.room)
            (by rw [hc1, hp1]; exact htab) (by rw [hc1, hb1.preds, hp1]; exact hch))).mono (fun _ t ht => ?_) fun st t h => ?_
          · obtain ⟨⟨ht, hdata⟩, hnt⟩ := ht
            cases ht with
            | opened u done hv _ hok _ _ =>
              subst done
              have hdt : DataOk (initDone u) := by
                split at hdata
                · obtain ⟨_, _, h, _⟩ := hdata; exact h
                · obtain ⟨w, h, _⟩ := hdata
                  have := congrArg (fun s => s.regs.lastStatus) h
                  cases this
              obtain ⟨h1, h2, h3, h4, h5, h6, h7⟩ := initView_facts hv
              exact inv_idle (hb1.congr h1 h2 (by show Memory.wf u.mem = true; rw [h6]; exact hb1.mem) h3) hnt rfl
                (.inr ⟨rfl, h5.trans hnf1, hok.congr rfl rfl rfl rfl rfl rfl rfl, hdt⟩)
            | failed u done hv _ => subst done; exact hfail u .invalidStream hv hnt
          · cases st with
            | ioFailure =>
              obtain ⟨h1, h2, h3, h4, h5, h6, h7⟩ := initView_facts h.1.2.1
              exact sat_recoverInit (hb1.congr h1 h2 (by rw [h6]; exact hb1.mem) h3) h.2 (h7.trans hun1)
            | halted =>
              obtain ⟨h, hnt⟩ := h
              refine inv_halted hb1 h (fun u hu => ?_) ?_ hnt
              · obtain ⟨h1, h2, h3, h4, h5, h6, h7⟩ := initView_facts hu
                exact ⟨h1, h2, h3, h4.trans hbusy1, h5.trans hnf1⟩
              · obtain ⟨_, u, l, _, rfl⟩ | ⟨_, hu, _⟩ := h
                · rfl
                · obtain ⟨h1, h2, h3, h4, h5, h6, h7⟩ := initView_facts hu
                  rw [h6]; exact hb1.mem
            | fault => trivial
  exact inv_run key h

theorem inv_getinfo {s : State} (ha : Acc s) (v : Nat) : Inv (getinfo v s) := by
  unfold getinfo; split <;> exact ha.complete _ _ _

theorem decodeCmd_isCommand {w : Word} {i : Instr} (h : decodeCmd w = .ok i) : i.isCommand = true := by
  have hplain : ∀ n i j, plainSub n i = .ok j → j = i := by
    intro n i j h; unfold plainSub at h; split at h <;> cases h; rfl
  unfold decodeCmd at h
  simp only at h
  split at h
  · cases h
  · split at h
    · rw [hplain _ _ _ h]; rfl
    · split at h
      · cases h; rfl
      · rw [hplain _ _ _ h]; rfl
    · rw [hplain _ _ _ h]; rfl
    · rw [hplain _ _ _ h]; rfl
    · unfold decodeGetinfo at h
      split at h <;> cases h <;> rfl
    · rw [hplain _ _ _ h]; rfl
    · cases h

theorem inv_runWord {s t : State} (w : Word) (ha : Acc s) (h : runWord w s = .next t) : Inv t := by
  unfold runWord at h
  split at h
  · rename_i i hd
    have hc := decodeCmd_isCommand hd
    cases i <;> simp only [Instr.isCommand, Bool.false_eq_true] at hc
    · cases h; exact ha.complete _ _ _
    · exact inv_init ha h
    · exact inv_init ha h
    · exact inv_getdata ha h
    · exact inv_seek ha h
    all_goals first | (cases h; exact inv_getinfo ha _) | exact inv_release ha h
  · cases h
    unfold reservedGetinfo; split <;> exact ha.complete _ _ _
  · cases h; exact ha.complete _ _ _

theorem Inv.base {s : State} (h : Inv s) : Base s := ⟨h.params, h.noUop, h.mem, h.preds⟩

theorem Inv.reset {s : State} (h : Inv s) (l : List HostOp) : Inv (withProg l (hwReset s)) :=
  inv_reset s l h.params (h.narrow.resetOf l)

theorem Inv.opened {s : State} (h : Inv s) (hb : s.regs.busy = false) (hr : s.life.fsm = .ready) : Opened s :=
  ⟨h.session hb hr, h.data hb hr⟩

/-- What the host changes while a command runs is no part of the invariant. -/
theorem SameBlock.inv {s t : State} (h : Inv s) (hs : SameBlock s t) : Inv t := by
  have ha := hs.alike
  have h1 : t.regs.busy = s.regs.busy := by rw [hs]
  have h3 : t.life = s.life := by rw [hs]
  have h9 : t.uop = s.uop := by rw [hs]
  refine ⟨by rw [ha.params]; exact h.params, by rw [h9]; exact h.noUop, by rw [ha.mem]; exact h.mem,
    h.narrow.same hs, by rw [ha.params, ha.pred]; exact h.preds, ?_, ?_, ?_, ?_, ?_⟩
  · rw [h1, ha.src]; exact h.stuck
  · rw [h1, h3]; exact h.idle
  · rw [h3]; exact h.failed
  · rw [h1, h3]; intro a b; exact ((h.opened a b).same hs).session
  · rw [h1, h3]; intro a b; exact ((h.opened a b).same hs).data

/-- An accepted command starts from the invariant. -/
theorem Inv.acc {s t : State} (h : Inv s) (hb : s.regs.busy = false) (v : Word) (ht : SameBlock (acceptLatch v s) t) : Acc t := by
  have ha := ht.alike
  have h1 : t.regs.busy = true := by rw [ht]; rfl
  have h3 : t.life = s.life := by rw [ht]; rfl
  have h9 : t.uop = s.uop := by rw [ht]; rfl
  refine ⟨h.base.congr ha.params h9 (by rw [ha.mem]; exact h.mem) (by rw [ha.pred]; rfl), (h.narrow.congr (t := acceptLatch v s) rfl).same ht,
    h1, ?_⟩
  rw [h3]
  obtain hi | hi := h.idle hb
  · exact .inl hi
  · refine .inr ⟨hi, ?_, ((h.opened hb hi).congr (t := acceptLatch v s) rfl rfl rfl rfl rfl rfl rfl rfl rfl rfl rfl).same ht⟩
    cases hf : s.life.initFailed with
    | false => rfl
    | true => rw [h.failed hf] at hi; cases hi

theorem inv_acceptCmd {s t : State} {v : Word} (h : Inv s) (hb : s.regs.busy = false) (ha : acceptCmd v s = .next t) : Inv t := by
  unfold acceptCmd at ha
  split at ha
  · obtain ⟨u, hu, hs⟩ | ⟨u, l, hu, hs⟩ := interleave_cases (acceptLatch v s)
    · rw [hu] at ha
      exact inv_runWord v (h.acc hb v hs) ha
    · rw [hu] at ha
      cases ha
      have : u.params = s.params := by rw [hs]; rfl
      exact inv_reset u l (by rw [this]; exact h.params) (((h.narrow.congr (t := acceptLatch v s) rfl).same hs).resetOf l)
  · exact inv_runWord v (h.acc hb v (SameBlock.refl _)) ha

/-- An idle store. -/
theorem inv_of_desc {s : State} (h : Inv s) (d : Desc) : Inv { s with regs := { s.regs with desc := d } } := by
  have key : s.regs.busy = false → s.life.fsm = .ready → Opened { s with regs := { s.regs with desc := d } } := fun a b =>
    (h.opened a b).congr rfl rfl rfl rfl rfl rfl rfl rfl rfl rfl rfl
  exact ⟨h.params, h.noUop, h.mem, h.narrow.congr rfl, h.preds, h.stuck, h.idle, h.failed, fun a b => (key a b).session, fun a b => (key a b).data⟩

theorem inv_hostWrite {s : State} (h : Inv s) (w : Width) (a v : DWord) : Inv (hostWrite w a v s) := by
  unfold hostWrite
  split
  · split
    · unfold writeReg
      split
      · split
        · exact h.reset s.host.prog
        · exact SameBlock.inv h rfl
      all_goals first | exact SameBlock.inv h rfl | skip
      split
      · exact inv_of_desc h _
      · exact h
    · exact h
  · split
    · rename_i hc
      obtain ⟨m, hm, hw⟩ := writeBytes_frame ‹Nat› (leBytes 4 (lo v).toNat) s
      rw [hm]
      simp only [configWritable, Bool.and_eq_true, decide_eq_true_eq, Bool.not_eq_true'] at hc
      have hun := hc.2.1
      refine ⟨h.params, h.noUop, hw h.mem, ⟨h.narrow.cfg, h.narrow.cur, h.narrow.frm, h.narrow.br, h.narrow.ring, h.narrow.room, h.narrow.src⟩, h.preds, h.stuck, h.idle, h.failed, fun _ b => ?_, fun _ b => ?_⟩ <;>
        exact absurd (hun.symm.trans b) (by decide)
    · exact h
  · exact h
  · exact h

end Sys2Proof.Machine
end

