-- ==== Sys2Proof/Laws/PerInstr.lean ====
section
/-! SUPPORT. One lemma per instruction about its encoding: which of the two word spaces of 30_encoding.md its word lies in (R121,
R129; log 21). -/

namespace Sys2Proof.Laws

theorem toNat_word (n : Nat) (h : n < 2 ^ 32) : (BitVec.ofNat 32 n).toNat = n := by
  rw [BitVec.toNat_ofNat]; exact Nat.mod_eq_of_lt h

/-- A micro-operation word as a number. -/
theorem toNat_uopWord {u a b m : Nat} (hu : u < 256) (ha : a < 256) (hb : b < 256) (hm : m < 2) :
    (uopWord u a b m).toNat = u + 256 * a + 65536 * b + 16777216 * m := toNat_word _ (by omega)

theorem low_uopWord {u a b m : Nat} (hu : u < 256) (ha : a < 256) (hb : b < 256) (hm : m < 2) :
    (uopWord u a b m).toNat % 256 = u := by
  rw [toNat_uopWord hu ha hb hm]; omega

/-- The low byte of a well-formed instruction's word is below 0x10 just where the instruction is a host command. -/
def EncodingClass.Statement (i : Instr) : Prop := i.wf = true → ((encode i).toNat % 256 < 16 ↔ i.isCommand = true)

theorem EncodingClass.nop : EncodingClass.Statement .nop := fun _ => by decide
theorem EncodingClass.init : EncodingClass.Statement .init := fun _ => by decide
theorem EncodingClass.initR : EncodingClass.Statement .initR := fun _ => by decide
theorem EncodingClass.getdata : EncodingClass.Statement .getdata := fun _ => by decide
theorem EncodingClass.seek : EncodingClass.Statement .seek := fun _ => by decide
theorem EncodingClass.getinfoChannels : EncodingClass.Statement .getinfoChannels := fun _ => by decide
theorem EncodingClass.getinfoSampleRate : EncodingClass.Statement .getinfoSampleRate := fun _ => by decide
theorem EncodingClass.getinfoBitsPerSample : EncodingClass.Statement .getinfoBitsPerSample := fun _ => by decide
theorem EncodingClass.getinfoBlockAlign : EncodingClass.Statement .getinfoBlockAlign := fun _ => by decide
theorem EncodingClass.getinfoTotalBlocks : EncodingClass.Statement .getinfoTotalBlocks := fun _ => by decide
theorem EncodingClass.getinfoCurrentBlock : EncodingClass.Statement .getinfoCurrentBlock := fun _ => by decide
theorem EncodingClass.getinfoCompressionLevel : EncodingClass.Statement .getinfoCompressionLevel := fun _ => by decide
theorem EncodingClass.getinfoHadErrors : EncodingClass.Statement .getinfoHadErrors := fun _ => by decide
theorem EncodingClass.getinfoFormatVersion : EncodingClass.Statement .getinfoFormatVersion := fun _ => by decide
theorem EncodingClass.getinfoLegacyMode : EncodingClass.Statement .getinfoLegacyMode := fun _ => by decide
theorem EncodingClass.release : EncodingClass.Statement .release := fun _ => by decide
theorem EncodingClass.uSrcSeek : EncodingClass.Statement .uSrcSeek := fun _ => by decide
theorem EncodingClass.uSrcRead : EncodingClass.Statement .uSrcRead := fun _ => by decide
theorem EncodingClass.uSrcSize : EncodingClass.Statement .uSrcSize := fun _ => by decide
theorem EncodingClass.uBrReset : EncodingClass.Statement .uBrReset := fun _ => by decide
theorem EncodingClass.uBrFetch : EncodingClass.Statement .uBrFetch := fun _ => by decide
theorem EncodingClass.uBrReadbit : EncodingClass.Statement .uBrReadbit := fun _ => by decide
theorem EncodingClass.uBrReadbits (n : Nat) : EncodingClass.Statement (.uBrReadbits n) := fun h => by
  simp only [Instr.wf, decide_eq_true_eq] at h
  rw [encode, low_uopWord (by omega) (by omega) (by omega) (by omega)]
  simp [Instr.isCommand]
theorem EncodingClass.uBrHeader : EncodingClass.Statement .uBrHeader := fun _ => by decide
theorem EncodingClass.uBrSymbol : EncodingClass.Statement .uBrSymbol := fun _ => by decide
theorem EncodingClass.uPredReset (c : Nat) : EncodingClass.Statement (.uPredReset c) := fun h => by
  simp only [Instr.wf, decide_eq_true_eq] at h
  rw [encode, low_uopWord (by omega) (by omega) (by omega) (by omega)]
  simp [Instr.isCommand]
theorem EncodingClass.uStageStep (c st : Nat) : EncodingClass.Statement (.uStageStep c st) := fun h => by
  simp only [Instr.wf, decide_eq_true_eq] at h
  rw [encode, low_uopWord (by omega) (by omega) (by omega) (by omega)]
  simp [Instr.isCommand]
theorem EncodingClass.uPredStep (c : Nat) : EncodingClass.Statement (.uPredStep c) := fun h => by
  simp only [Instr.wf, decide_eq_true_eq] at h
  rw [encode, low_uopWord (by omega) (by omega) (by omega) (by omega)]
  simp [Instr.isCommand]
theorem EncodingClass.uUnprepare : EncodingClass.Statement .uUnprepare := fun _ => by decide
theorem EncodingClass.uPack : EncodingClass.Statement .uPack := fun _ => by decide
theorem EncodingClass.uSilence : EncodingClass.Statement .uSilence := fun _ => by decide
theorem EncodingClass.uCkUpdate : EncodingClass.Statement .uCkUpdate := fun _ => by decide
theorem EncodingClass.uRingReset : EncodingClass.Statement .uRingReset := fun _ => by decide
theorem EncodingClass.uRingWrite : EncodingClass.Statement .uRingWrite := fun _ => by decide
theorem EncodingClass.uRingRead : EncodingClass.Statement .uRingRead := fun _ => by decide
theorem EncodingClass.uRingDrop : EncodingClass.Statement .uRingDrop := fun _ => by decide
theorem EncodingClass.uRingSilenceTail : EncodingClass.Statement .uRingSilenceTail := fun _ => by decide
theorem EncodingClass.uStartFrame (m : Mode) : EncodingClass.Statement (.uStartFrame m) := fun _ => by cases m <;> decide
theorem EncodingClass.uDecodeBlock (m : Mode) : EncodingClass.Statement (.uDecodeBlock m) := fun _ => by cases m <;> decide
theorem EncodingClass.uEndFrame (m : Mode) : EncodingClass.Statement (.uEndFrame m) := fun _ => by cases m <;> decide
theorem EncodingClass.pDecodeFrame (m : Mode) : EncodingClass.Statement (.pDecodeFrame m) := fun _ => by cases m <;> decide
theorem EncodingClass.pPosition : EncodingClass.Statement .pPosition := fun _ => by decide

end Sys2Proof.Laws
end

