-- ==== Sys2Proof/Tests/Slice0.lean ====
section
/-! SUPPORT. Tests. The expected values are those of 95_test_vectors.md and of the tables of the rules named; the words are written
out from the tables of 30_encoding.md. The witness theorems show that the hypotheses of the statements can be met. -/

namespace Sys2Proof.Machine.Test

set_option Elab.async false

/-! ## WellFormed and Decode -/

theorem test_wf_refuses : Instr.wf (.uBrReadbits 0) = false ∧ Instr.wf (.uBrReadbits 33) = false ∧
    Instr.wf (.uPredReset 256) = false ∧ Instr.wf (.uStageStep 256 1) = false ∧ Instr.wf (.uStageStep 0 256) = false ∧
    Instr.wf (.uPredStep 256) = false := by decide

theorem test_decode_commands : decodeCmd 0x00000000 = .ok .nop ∧ decodeCmd 0x00000001 = .ok .init ∧
    decodeCmd 0x00000101 = .ok .initR ∧ decodeCmd 0x00000002 = .ok .getdata ∧ decodeCmd 0x00000003 = .ok .seek ∧
    decodeCmd 0x00000005 = .ok .release := by decide

theorem test_decode_getinfo : decodeCmd 0x00000004 = .ok .getinfoChannels ∧ decodeCmd 0x00000104 = .ok .getinfoSampleRate ∧
    decodeCmd 0x00000204 = .ok .getinfoBitsPerSample ∧ decodeCmd 0x00000304 = .ok .getinfoBlockAlign ∧
    decodeCmd 0x00000404 = .ok .getinfoTotalBlocks ∧ decodeCmd 0x00000504 = .ok .getinfoCurrentBlock ∧
    decodeCmd 0x00000604 = .ok .getinfoCompressionLevel ∧ decodeCmd 0x00000704 = .ok .getinfoHadErrors ∧
    decodeCmd 0x00000804 = .ok .getinfoFormatVersion ∧ decodeCmd 0x00000904 = .ok .getinfoLegacyMode := by decide

theorem test_decode_source : decodeUop 0x00000010 = .ok .uSrcSeek ∧ decodeUop 0x00000011 = .ok .uSrcRead ∧
    decodeUop 0x00000012 = .ok .uSrcSize := by decide

theorem test_decode_bitreader : decodeUop 0x00000020 = .ok .uBrReset ∧ decodeUop 0x00000021 = .ok .uBrFetch ∧
    decodeUop 0x00000022 = .ok .uBrReadbit ∧ decodeUop 0x00000123 = .ok (.uBrReadbits 1) ∧
    decodeUop 0x00002023 = .ok (.uBrReadbits 32) ∧ decodeUop 0x00000024 = .ok .uBrHeader ∧
    decodeUop 0x00000025 = .ok .uBrSymbol := by decide

theorem test_decode_predictor : decodeUop 0x0000FF30 = .ok (.uPredReset 255) ∧ decodeUop 0x00020131 = .ok (.uStageStep 1 2) ∧
    decodeUop 0x00000132 = .ok (.uPredStep 1) := by decide

theorem test_decode_reconstructor : decodeUop 0x00000040 = .ok .uUnprepare ∧ decodeUop 0x00000041 = .ok .uPack ∧
    decodeUop 0x00000042 = .ok .uSilence ∧ decodeUop 0x00000043 = .ok .uCkUpdate := by decide

theorem test_decode_ring : decodeUop 0x00000050 = .ok .uRingReset ∧ decodeUop 0x00000051 = .ok .uRingWrite ∧
    decodeUop 0x00000052 = .ok .uRingRead ∧ decodeUop 0x00000053 = .ok .uRingDrop ∧
    decodeUop 0x00000054 = .ok .uRingSilenceTail := by decide

theorem test_decode_sequencer : decodeUop 0x00000060 = .ok (.uStartFrame .discard) ∧
    decodeUop 0x01000060 = .ok (.uStartFrame .deliver) ∧ decodeUop 0x01000061 = .ok (.uDecodeBlock .deliver) ∧
    decodeUop 0x00000062 = .ok (.uEndFrame .discard) ∧ decodeUop 0x01000070 = .ok (.pDecodeFrame .deliver) ∧
    decodeUop 0x00000071 = .ok .pPosition := by decide

/-- 30_encoding.md R123 and R129: each ILLEGAL class, a reserved field, and a word that is no micro-operation. -/
theorem test_decode_rejects : decodeCmd 0x00010002 = .error .rsvdNotZero ∧ decodeCmd 0x00000006 = .error .reservedOpcode ∧
    decodeCmd 0x000000FF = .error .reservedOpcode ∧ decodeCmd 0x00000102 = .error .subNotZero ∧
    decodeCmd 0x00000201 = .error .subNotZero ∧ decodeCmd 0x00000A04 = .error .reservedField ∧
    decodeUop 0x00000013 = .error .unknownUcode ∧ decodeUop 0x02000060 = .error .uopBitsNotZero ∧
    decodeBytes [0x02, 0x00, 0x00] = .error .tooShort := by decide

/-- The bytes of a word come least significant first (20_memory.md R84). -/
theorem test_decode_bytes : decodeBytes [0x04, 0x09, 0x00, 0x00, 0xAA] = .ok (.getinfoLegacyMode, [0xAA]) ∧
    decodeTableWord 32 0x01000061 = some (.uDecodeBlock .deliver) ∧ decodeTableWord 32 0x00000006 = none := by decide

/-! ## A small session: P1 of 95_test_vectors.md §2.1 -/

/-- The bytes of the P1 stream. -/
def p1Bytes : List Byte :=
  [0x1C, 0x6F, 0x4D, 0x7E, 0x00, 0x20, 0x00, 0x60, 0x0A, 0x27, 0x00] ++
  [0x02, 0x0F, 0x04, 0x93, 0x00, 0x10, 0xCD, 0xF0] ++ [0x71, 0x84, 0x0D, 0x00, 0x00, 0x08, 0x20, 0xC0]

/-- The P1 descriptor. -/
def p1Desc : Desc :=
  { channels := 1, sampleRate := 44100, bps := 16, blockAlign := 2, total := 10, blocksPerFrame := 4, level := 2, version := 3,
    payOff := 0, payLen := 27 }

/-- SEEKTAB = [0, 11, 19]. -/
def p1Table : List Host.Cell :=
  (List.range 24).map fun i => (0x100000 + i, if i = 8 then 11 else if i = 16 then 19 else 0)

/-- A closed block with the P1 descriptor, table and source. Its CFG and ring.cap are values of the test's own. -/
def closed : State :=
  { State.reset with
    regs := { State.reset.regs with desc := p1Desc }
    cfg := cfgOf Params.test p1Desc 0 10
    pred := [[], []]
    ring := { cap := 4, rd := 0, wr := 0, count := 0, data := [] }
    mem := p1Table
    src := { State.reset.src with bytes := p1Bytes } }

/-- The stage of level 2 (42_predictor.md R252). -/
def p1Stage : StageCfg := { N := 2, k := 1, mu := 1, Wc := 16, Wh := 16 }

/-- The P1 session after INIT: at block 0, the predictor reset. -/
def opened : State :=
  { closed with life := { closed.life with fsm := .ready }, pred := [[{ coef := [0, 0], hist := [0, 0] }], []] }

/-- The P1 session after GETDATA 2 (blocks 2 and 3 wait in the ring): samples 15 and −25, predictor coef [0, −1],
hist [−25, 15]. -/
def halfway : State :=
  { opened with
    cur := { opened.cur with curBlock := 2, nextFrame := 1 }
    pred := [[{ coef := [0, -1], hist := [-25, 15] }], []]
    ring := { cap := 4, rd := 2, wr := 0, count := 2, data := [(2, [0x0F, 0x00]), (3, [0xE7, 0xFF])] } }

/-- The state inside frame 0 before its first bit: the window of 11 bytes. -/
def inFrame (p : Nat) (ent : Nat) (bytes : List Byte) : State :=
  { opened with src := { opened.src with bytes := bytes },
                br := { start := 0, len := bytes.length, fetched := 0, buf := [], p := p, ent := ent } }

/-- What a next state shows. -/
def shows {α : Type} (f : State → α) : Host.Outcome State Fault Refusal → Option α
  | .next t => some (f t)
  | .fault _ | .refused _ => none

/-- The completion registers: STATUS, RES0, RES1. -/
def report (s : State) : Word × DWord × DWord := (statusWord s, s.regs.res0, s.regs.res1)

/-- Bytes of OUT. -/
def outBytes (n : Nat) (s : State) : List Byte := readBytes s 0x01000000 n

/-! ## Host commands -/

theorem test_nop_status : shows statusWord (exec .nop State.reset) = some 0x00000002 := by decide +kernel

/-- V-HC-1, and the cursor after it. -/
theorem test_init_p1 : shows (fun t => (statusWord t, t.cur.curBlock, t.cur.nextFrame, t.ring.cap)) (exec .init closed) =
    some (0x00010002, 0, 0, 4) := by decide +kernel

/-- V-HC-11: the payload past the source's end. -/
theorem test_init_short_source : shows statusWord (exec .init { closed with regs.desc.payLen := 28 }) = some 0x00000312 := by
  decide +kernel

/-- P4: INIT.R 3, 9 starts in frame 0 with skip 3. -/
theorem test_initR_p4 : shows (fun t => (statusWord t, t.cfg.S, t.cfg.F, t.cur.skipBlocks))
    (exec .initR { closed with latch := { cmd := 0x101, a0 := 3, a1 := 9 } }) = some (0x00010002, 3, 9, 3) := by decide +kernel

/-- P1: GETDATA 6. -/
theorem test_getdata_p1 : shows (fun t => (report t, outBytes 12 t)) (exec .getdata { opened with latch := { cmd := 2, a0 := 6, a1 := 0 } }) =
    some ((0x00010002, 12, 6), [0x64, 0x00, 0x32, 0x00, 0x0F, 0x00, 0xE7, 0xFF, 0x00, 0x00, 0x03, 0x00]) := by decide +kernel

/-- P5: GETDATA 6 whose fifth request fails. -/
theorem test_getdata_io_failure : shows (fun t => (report t, t.cur.curBlock, t.cur.resyncPending, t.ring.count))
    (exec .getdata { opened with latch := { cmd := 2, a0 := 6, a1 := 0 },
                                 src := { opened.src with answers := [.full, .full, .full, .full, .full, .fail] } }) =
    some ((0x00010402, 0, 0), 0, true, 0) := by decide +kernel

/-- P3: SEEK 5 takes the long path. -/
theorem test_seek_p3 : shows (fun t => (statusWord t, t.cur, t.ring.count)) (exec .seek { opened with latch := { cmd := 3, a0 := 5, a1 := 0 } }) =
    some (0x00010002, { curBlock := 5, nextFrame := 1, skipBlocks := 1, resyncPending := false, entryBlock := 0 }, 0) := by
  decide +kernel

/-- V-HC-29: SEEK 11. -/
theorem test_seek_past_range : shows (fun t => (statusWord t, t.cur)) (exec .seek { halfway with latch := { cmd := 3, a0 := 11, a1 := 0 } }) =
    some (0x00010202, halfway.cur) := by decide +kernel

/-- The GETINFO table of 95_test_vectors.md §2.8. -/
theorem test_getinfo_p1 :
    [Instr.getinfoChannels, .getinfoSampleRate, .getinfoBitsPerSample, .getinfoBlockAlign, .getinfoTotalBlocks,
      .getinfoCompressionLevel, .getinfoHadErrors, .getinfoFormatVersion, .getinfoLegacyMode].map (fun i =>
        shows (fun t => t.regs.res0.toNat) (exec i opened)) =
    [1, 44100, 16, 2, 10, 2, 0, 3, 0].map some := by decide +kernel

/-- P3: the position after two blocks. -/
theorem test_getinfo_position : shows report (exec .getinfoCurrentBlock halfway) = some (0x00010002, 2, 0) := by decide +kernel

/-- V-HC-30. -/
theorem test_release_status : shows report (exec .release opened) = some (0x00000002, 0, 0) ∧
    shows report (exec .release closed) = some (0x00000502, 0, 0) := by decide +kernel

/-! ## The byte source and the BitReader -/

theorem test_src_seek : shows (fun t => t.src.pos) (exec .uSrcSeek { opened with op.off := 11 }) = some 11 := by decide +kernel

/-- A short read of two bytes at 11. -/
theorem test_src_read_short : shows (fun t => (t.op.ret, t.src.pos))
    (exec .uSrcRead { opened with op.max := 4, src := { opened.src with pos := 11, answers := [.short 2] } }) =
    some (.bytes [0x02, 0x0F], 13) := by decide +kernel

theorem test_src_size : shows (fun t => t.op.ret) (exec .uSrcSize opened) = some (.num 27) := by decide +kernel

theorem test_br_reset : shows (fun t => t.br) (exec .uBrReset { inFrame 9 3 p1Bytes with op.start := 11, op.len := 8 }) =
    some { start := 11, len := 8, fetched := 0, buf := [], p := 0, ent := 0 } := by decide +kernel

/-- V-BR-5: the second fetch of a window of 7 bytes asks for 3. -/
theorem test_br_fetch_last : shows (fun t => (t.br.fetched, t.src.log))
    (exec .uBrFetch { opened with br := { start := 0, len := 7, fetched := 4, buf := [], p := 32, ent := 0 }, src.pos := 4 }) =
    some (7, [(.read 3, .full)]) := by decide +kernel

/-- V-BR-1: the third bit of 0xA0. -/
theorem test_br_readbit : shows (fun t => (t.op.ret, t.br.p)) (exec .uBrReadbit (inFrame 2 0 [0xA0])) = some (.bit true, 3) := by
  decide +kernel

/-- V-BR-2. -/
theorem test_br_readbits : shows (fun t => (t.op.ret, t.br.p)) (exec (.uBrReadbits 12) (inFrame 0 0 [0x12, 0x34])) =
    some (.num 0x123, 12) := by decide +kernel

/-- V-BR-3. -/
theorem test_br_readbits_cut : shows (fun t => t.op.ret) (exec (.uBrReadbits 12) (inFrame 8 0 [0x12, 0x34])) =
    some .frameError := by decide +kernel

/-- V-BR-9. -/
theorem test_br_header : shows (fun t => (t.frm.storedCk, t.frm.silent, t.br.ent, t.br.p))
    (exec .uBrHeader (inFrame 0 0 [0x00, 0x00, 0x00, 0x2A, 0x00, 0x20])) = some (0x2A, false, 4, 45) := by decide +kernel

/-- V-BR-11. -/
theorem test_br_header_invalid : shows (fun t => (t.frm.frameErr, t.frm.silent))
    (exec .uBrHeader (inFrame 0 0 [0x00, 0x00, 0x00, 0x2A, 0x00, 0xC8])) = some (true, false) := by decide +kernel

/-- V-BR-17: k = 24, 25 one bits. -/
theorem test_br_symbol : shows (fun t => t.op.ret) (exec .uBrSymbol (inFrame 0 24 [0xFF, 0xFF, 0xFF, 0xFF])) =
    some (.sample (-8388608)) := by decide +kernel

/-- V-BR-15: 33 zero bits. -/
theorem test_br_symbol_invalid : shows (fun t => (t.op.ret, t.frm.frameErr)) (exec .uBrSymbol (inFrame 0 0 [0, 0, 0, 0, 0])) =
    some (.frameError, true) := by decide +kernel

/-! ## The Predictor -/

theorem test_pred_reset : shows (fun t => t.pred) (exec (.uPredReset 0) halfway) =
    some [[{ coef := [0, 0], hist := [0, 0] }], []] := by decide +kernel

/-- One step of stage 1 = ⟨1, 0, 1, 16, 16⟩. -/
def oneTap (coef hist x : Int) : State :=
  { opened with cfg := { opened.cfg with stages := [⟨1, 0, 1, 16, 16⟩] }, pred := [[{ coef := [coef], hist := [hist] }], []],
                op.x := x }

/-- V-PR-3: the output is not saturated, the history is. -/
theorem test_stage_saturates : shows (fun t => (t.op.ret, t.pred)) (exec (.uStageStep 0 1) (oneTap 1 30000 10000)) =
    some (.sample 40000, [[{ coef := [2], hist := [32767] }], []]) := by decide +kernel

/-- V-PR-4: the coefficient wraps. -/
theorem test_stage_wraps : shows (fun t => (t.op.ret, t.pred)) (exec (.uStageStep 0 1) (oneTap 32767 1 1)) =
    some (.sample 32768, [[{ coef := [-32768], hist := [32767] }], []]) := by decide +kernel

/-- V-PR-2, step 3. -/
theorem test_pred_step : shows (fun t => (t.op.ret, t.pred)) (exec (.uPredStep 0) (oneTap 1 4 (-6))) =
    some (.sample (-2), [[{ coef := [0], hist := [-2] }], []]) := by decide +kernel

/-! ## The Reconstructor -/

/-- V-RC-2. -/
theorem test_unprepare : shows (fun t => t.op.ret) (exec .uUnprepare { opened with cfg.C := 2, op.vals := [10, -3] }) =
    some (.samples [8, 11]) ∧
    shows (fun t => t.op.ret) (exec .uUnprepare { opened with cfg.C := 2, op.vals := [-2, -1] }) = some (.samples [-3, -2]) := by
  decide +kernel

/-- V-PR-3 and V-RC-3. -/
theorem test_pack : shows (fun t => t.op.ret) (exec .uPack { opened with op.x := 40000, op.bps := 16 }) = some (.bytes [0x40, 0x9C]) ∧
    shows (fun t => t.op.ret) (exec .uPack { opened with op.x := -8388608, op.bps := 24 }) = some (.bytes [0x00, 0x00, 0x80]) := by
  decide +kernel

/-- V-RC-5. -/
theorem test_silence : shows (fun t => t.op.ret) (exec .uSilence { opened with cfg.C := 2, cfg.bps := 8 }) =
    some (.bytes [0x80, 0x80]) := by decide +kernel

/-- V-RC-6: two zero bytes. -/
theorem test_ck_update : shows (fun t => t.frm.runCk ^^^ 0xFFFFFFFF) (exec .uCkUpdate { opened with frm.runCk := 0xFFFFFFFF, op.blk := [0, 0] }) =
    some 0x41D912FF := by decide +kernel

/-! ## The ring -/

theorem test_ring_reset : shows (fun t => (t.ring.rd, t.ring.wr, t.ring.count, t.ring.cap)) (exec .uRingReset halfway) =
    some (0, 0, 0, 4) := by decide +kernel

/-- V-RB-2: the write index wraps. -/
theorem test_ring_write : shows (fun t => (t.ring.wr, t.ring.count, ringSlot t 3))
    (exec .uRingWrite { opened with ring := { cap := 4, rd := 2, wr := 3, count := 1, data := [] }, op.blk := [0x34, 0x12] }) =
    some (0, 2, [0x34, 0x12]) := by decide +kernel

/-- V-RB-3. -/
theorem test_ring_write_full : (match exec .uRingWrite { opened with ring.count := 4 } with
    | .fault f => some f | .next _ | .refused _ => none) = some .ringOverflow := by decide +kernel

theorem test_ring_read : shows (fun t => (t.op.ret, t.ring.rd, t.ring.count, outBytes 4 t)) (exec .uRingRead { halfway with op.n := 5, op.dst := 0 }) =
    some (.num 2, 0, 0, [0x0F, 0x00, 0xE7, 0xFF]) := by decide +kernel

theorem test_ring_drop : shows (fun t => (t.ring.rd, t.ring.count)) (exec .uRingDrop { halfway with op.n := 1 }) = some (3, 1) := by
  decide +kernel

/-- V-RB-6, with the write index at the wrap. -/
theorem test_ring_silence_tail : shows (fun t => (ringSlot t 2, ringSlot t 3)) (exec .uRingSilenceTail { halfway with op.n := 1 }) =
    some ([0x0F, 0x00], [0x00, 0x00]) := by decide +kernel

/-! ## The frame sequencer -/

/-- §2.1: frame 1's header. -/
theorem test_start_frame : shows (fun t => (t.frm.storedCk, t.br.ent, t.br.start, t.br.len, t.br.p)) (exec (.uStartFrame .deliver) { halfway with op.g := 1 }) =
    some (0x020F0493, 2, 11, 8, 45) := by decide +kernel

/-- §2.1: block 0 of frame 0 is the sample 100. -/
theorem test_decode_block : shows (fun t => (ringSlot t 0, t.ring.count, t.frm.placed, t.br.p)) (exec (.uDecodeBlock .deliver) (inFrame 45 4 p1Bytes)) =
    some ([0x64, 0x00], 1, 1, 62) := by decide +kernel

/-- A checksum that differs, with two blocks placed. -/
theorem test_end_frame_bad : shows (fun t => (t.frm.frameErr, t.life.hadErrors, ringSlot t 2, ringSlot t 3))
    (exec (.uEndFrame .deliver) { halfway with frm := { halfway.frm with placed := 1, storedCk := 1 } }) =
    some (true, true, [0x0F, 0x00], [0x00, 0x00]) := by decide +kernel

/-- §2.1: frame 1 after frame 0. -/
theorem test_decode_frame : shows (fun t => (ringBlocks t, t.pred, t.life.hadErrors, t.cur.nextFrame))
    (exec (.pDecodeFrame .deliver) { halfway with ring := { halfway.ring with rd := 0, count := 0 }, op.g := 1 }) =
    some ([[0x00, 0x00], [0x03, 0x00], [0xFD, 0xFF], [0x03, 0x00]], [[{ coef := [-3, 0], hist := [3, -3] }], []], false, 2) := by
  decide +kernel

/-- V-FS-2: b = 10 is the end of the range. -/
theorem test_position_end : shows (fun t => (t.cur.nextFrame, t.cur.skipBlocks, t.cur.resyncPending, t.pred))
    (exec .pPosition { opened with op.b := 10 }) = some (2, 2, true, opened.pred) := by decide +kernel

/-- V-FS-2: b = 5 replays frame 0. -/
theorem test_position : shows (fun t => (t.cur.nextFrame, t.cur.skipBlocks, t.cur.resyncPending, t.pred))
    (exec .pPosition { opened with op.b := 5 }) =
    some (1, 1, false, [[{ coef := [0, -1], hist := [-25, 15] }], []]) := by decide +kernel

/-! ## Steps and host accesses -/

/-- One operation of the outside. -/
def withHost (prog : List HostOp) (s : State) : State := { s with host := { s.host with prog := prog } }

/-- V-IF-12. -/
theorem test_host_read_out : hostReadValue (writeBytes 0x01000000 [0x64, 0x00, 0x32, 0x00, 0x0F, 0x00, 0xE7, 0xFF] opened) .b64 0x01000000 =
    0xFFE7000F00320064 ∧
    hostReadValue (writeBytes 0x01000000 [0x64, 0x00, 0x32, 0x00, 0x0F, 0x00, 0xE7, 0xFF] opened) .b16 0x01000006 = 0xFFE7 := by
  decide +kernel

/-- V-IF-6: a CMD write between two micro-operations of a GETDATA is dropped. -/
theorem test_overrun : shows (fun t => (statusWord t, t.regs.res1))
    (step (withHost [.wr .b32 0x0C 2, .letRun, .wr .b32 0x0C 2, .wait] { opened with regs.arg0 := 6 })) = some (0x00010006, 6) := by
  decide +kernel

/-- V-IF-10: a reset between two micro-operations of a GETDATA. -/
theorem test_reset_abandons : shows (fun t => (statusWord t, ctrlWord t))
    (step (withHost [.wr .b32 0x0C 2, .letRun, .wr .b32 0x04 3] { opened with regs.arg0 := 6 })) = some (0x00000F00, 0) := by
  decide +kernel

/-- 46_host_commands.md R400, 60_exceptions.md R459: a CMD write before the recovery's U_RING_RESET is dropped, and a reset before its
completion abandons it. -/
theorem test_recovery_interleaves :
    (let s := { opened with regs := { opened.regs with arg0 := 6 }, src := { opened.src with answers := [.fail] } }
     (shows (fun t => (statusWord t, t.src.log.length)) (step (withHost [.wr .b32 0x0C 2, .letRun, .letRun, .letRun, .wr .b32 0x0C 2, .wait] s)),
       shows (fun t => (statusWord t, t.src.log.length))
         (step (withHost [.wr .b32 0x0C 2, .letRun, .letRun, .letRun, .letRun, .wr .b32 0x04 3] s)))) =
    (some (0x00010406, 1), some (0x00000F00, 1)) := by decide +kernel

/-- V-HC-22 and the reserved GETINFO field. -/
theorem test_rejected_words : shows statusWord (step (withHost [.wr .b32 0x0C 6, .wait] opened)) = some 0x00010602 ∧
    shows statusWord (step (withHost [.wr .b32 0x0C 0xA04, .wait] opened)) = some 0x00010202 := by decide +kernel

/-! ## Witnesses of the hypotheses of the statements

One theorem per statement that has hypotheses, under the statement's name. -/

/-- A run that shows something has a next state. -/
theorem next_of_shows {α : Type} {f : State → α} {o : Host.Outcome State Fault Refusal} {v : α} (h : shows f o = some v) :
    ∃ t, o = .next t ∧ f t = v := by
  cases o with
  | next t => exact ⟨t, rfl, Option.some.inj h⟩
  | fault _ => cases h
  | refused _ => cases h

theorem served_opened : Served opened := ⟨.inl rfl, rfl, rfl⟩

theorem served_halfway : Served halfway := ⟨.inl rfl, rfl, rfl⟩

theorem p1_cfg : CfgOk opened.cfg where
  channels := by decide
  depth := by decide
  align := by decide
  blocks := by decide
  range := by decide
  finish := by decide
  frames := by decide

theorem p1_stream : StreamOk opened where
  payload := by decide +kernel
  rising := by
    have h : ∀ g < 2, seektabEntry opened g ≤ seektabEntry opened (g + 1) := by decide +kernel
    intro g hg
    have : opened.cfg.numFrames = 3 := by decide
    exact h g (by omega)
  last := by decide +kernel
  table := by decide +kernel
  channels := by decide

theorem session_opened : SessionOk opened where
  cfg := p1_cfg
  ring := ⟨by decide, by decide, by decide, by decide⟩
  cursor := ⟨by decide, by decide, by decide, by decide, by decide, by decide⟩

theorem session_halfway : SessionOk halfway where
  cfg := p1_cfg
  ring := ⟨by decide, by decide, by decide, by decide⟩
  cursor := ⟨by decide, by decide, by decide, by decide, by decide, by decide⟩

theorem data_opened : DataOk opened where
  stream := p1_stream
  ring := rfl
  preds := fun _ _ => .inl rfl

/-- The ring of `halfway` holds blocks 2 and 3, and its predictor is the one after frame 0 (§2.1). -/
theorem data_halfway : DataOk halfway where
  stream := ⟨p1_stream.payload, p1_stream.rising, p1_stream.last, p1_stream.table, p1_stream.channels⟩
  ring := by decide +kernel
  preds := fun _ _ => .inr (by decide +kernel)

theorem inv_halfway : Inv halfway where
  params := by decide +kernel
  noUop := rfl
  mem := by decide +kernel
  narrow := ⟨⟨by decide, by decide, by decide⟩, by decide, by decide, by decide, by decide, by decide, by decide⟩
  preds := rfl
  stuck := nofun
  idle := fun _ => .inr rfl
  failed := nofun
  session := fun _ _ => session_halfway
  data := fun _ _ => data_halfway

/-- A frame's window with nothing fetched yet. -/
theorem br_inFrame (p ent : Nat) (bytes : List Byte) : BrOk (inFrame p ent bytes) where
  window := by simp [inFrame]
  fetched := Nat.zero_le _
  pos := rfl
  size := Nat.le_refl _
  kept := Nat.zero_le _
  buf := rfl

theorem served_inFrame (p ent : Nat) (bytes : List Byte) : Served (inFrame p ent bytes) := ⟨.inl rfl, rfl, rfl⟩

/-! ### Encoding and steps -/

theorem witness_DecodeEncodeRoundTrip : Instr.wf (.uStageStep 255 255) = true ∧ Instr.wf (.uBrReadbits 1) = true ∧
    Instr.wf (.uBrReadbits 32) = true ∧ Instr.wf .getinfoLegacyMode = true := by decide

theorem witness_IllegalCommandWords : illegalWord 0x00000006 = true ∧ illegalWord 0x000000FF = true ∧
    illegalWord 0x00010000 = true ∧ illegalWord 0x00000201 = true ∧ illegalWord 0x00000105 = true ∧
    illegalWord 0x00000101 = false ∧ illegalWord 0x00000005 = false ∧ illegalWord 0x0000FF04 = false := by decide

theorem witness_IllegalCommandWords_store : halfway.regs.busy = false ∧ illegalWord (lo 0x00000006) = true := by decide

/-- 30_encoding.md R123: an ILLEGAL word completes "at once", before the host's next store to CMD, which is therefore no overrun. -/
theorem test_illegal_at_once :
    shows (fun t => (t.regs.lastStatus, t.regs.busy, t.regs.overrun, t.host.prog.length))
      (step { halfway with host.prog := [.wr .b32 0x0C 0x00000006, .wr .b32 0x0C 0] }) = some (.illegalCommand, false, false, 1) := by
  decide

theorem witness_UnknownUopsFault :
    (∃ (s : State) (w : Word), s.uop = some w ∧ w.toNat % 256 ∉ knownUcodes) ∧ (∃ (s : State) (w : Word), s.uop = some w ∧ w.toNat / 2 ^ 25 ≠ 0) ∧
    ∃ w : Word, w.toNat % 256 ∈ knownUcodes ∧ w.toNat / 2 ^ 25 = 0 :=
  ⟨⟨{ opened with uop := some 0x72 }, 0x72, rfl, by decide⟩, ⟨{ opened with uop := some 0x02000071 }, 0x02000071, rfl, by decide⟩,
    0x01FFFF71, by decide, by decide⟩

theorem witness_StepRunsUopWord : ∃ (s : State) (w : Word), s.uop = some w ∧ decodeUop w = .ok .pPosition :=
  ⟨{ opened with uop := some 0x71 }, 0x71, rfl, by decide⟩

theorem witness_StepRunsAcceptedCommand : ∃ (s : State) (v : DWord) (rest : List HostOp), s.uop = none ∧
    s.host.prog = .wr .b32 (regAddr s.params 0x0C) v :: rest ∧ s.regs.busy = false ∧
    ({ s.host with prog := rest } : HostSide).quiet = true ∧ decodeCmd (lo v) = .ok .getdata :=
  ⟨withHost [.wr .b32 0x0C 2, .wait] opened, 2, [.wait], rfl, by decide, rfl, rfl, by decide⟩

theorem witness_PlacedWordRuns : Instr.wf (.pDecodeFrame .deliver) = true ∧ Instr.wf .initR = true := by decide

theorem witness_ResetSourcesAgree :
    (∃ (s : State) (rest : List HostOp), s.uop = none ∧ s.host.prog = .rstN :: rest) ∧
    (∃ (s : State) (v : DWord) (rest : List HostOp), s.uop = none ∧ s.host.prog = .wr .b32 (regAddr s.params 0x04) v :: rest ∧
      (lo v).getLsbD 1 = true) ∧
    (∃ (s : State) (rest : List HostOp), s.regs.busy = true ∧ s.host.prog = .rstN :: rest) :=
  ⟨⟨withHost [.rstN] opened, [], rfl, rfl⟩, ⟨withHost [.wr .b32 0x04 3] opened, 3, [], rfl, by decide, by decide⟩,
    ⟨withHost [.rstN] { opened with regs.busy := true }, [], rfl, rfl⟩⟩

/-! ### Host accesses -/

theorem witness_CompletionInterrupt : (lo 1).getLsbD 1 = false ∧ (lo 2).getLsbD 1 = true := by decide

theorem witness_CommandWhileBusyDropped : ∃ s : State, s.regs.busy = true := ⟨{ opened with regs.busy := true }, rfl⟩

theorem witness_ConfigurationProtected : opened.life.fsm ≠ .uninitialized ∧ ({ closed with regs.busy := true } : State).regs.busy = true ∧
    regionOf opened.params 0x20 = .reg 0x20 ∧ regionOf opened.params 0xFC = .reg 0xFC ∧
    regionOf opened.params 0x100000 = .seektab 0x100000 ∧ regionOf opened.params 0x101FFC = .seektab 0x101FFC := by decide

/-- The first and the last offset of each clause. -/
theorem witness_RegisterReadBack : (0x00 % 4 = 0 ∧ 0xFC < 0x100 ∧ 0xFC % 4 = 0) ∧ opened.regs.busy = false ∧
    (0x10 % 4 = 0 ∧ 0x1C ≤ 0x1C ∧ 0x1C % 4 = 0) ∧
    (0x40 % 4 = 0 ∧ 0x70 ≤ 0x70 ∧ 0x70 % 4 = 0 ∧ closed.life.fsm = .uninitialized ∧ closed.regs.busy = false) ∧
    (0x30 < 0x40 ∧ 0x3C < 0x40 ∧ 0xFC < 0x100) ∧ (0x20 < 0x40 ∧ 0x3F < 0x40 ∧ 0x74 < 0x100 ∧ 0xFF < 0x100) := by decide

/-- V-IF-8: a store to ARG0_LO during BUSY changes the register and not the latch. -/
theorem test_arg_store_while_busy :
    (let t := hostWrite .b32 0x10 7 { opened with regs.busy := true, latch := { cmd := 2, a0 := 6, a1 := 0 } }
     (t.latch.a0, t.regs.arg0, hostReadValue t .b32 0x10, hostReadValue t .b32 0x14)) = (6, 7, 7, 0) := by decide +kernel

theorem witness_HostReadsAreIdempotent : ∃ (s : State) (w : Width) (addr : DWord) (rest : List HostOp), s.uop = none ∧
    s.host.prog = .rd w addr :: rest :=
  ⟨withHost [.rd .b32 0x08] opened, .b32, 0x08, [], rfl, rfl⟩

/-- The first addresses outside the three spaces, and a misaligned and a narrow access. -/
theorem witness_MisplacedAccesses :
    [0x100, 0x0FFFFF, 0x102000, 0xFFFFFF, 0x01010000, 0xFFFFFFFFFFFFFFFF].all (fun addr : DWord =>
      let o := (addr - opened.params.apertureBase).toNat
      decide (¬ o < 0x100 ∧ ¬ (0x00100000 ≤ o ∧ o < 0x00100000 + 8 * opened.params.seektabEntries) ∧
        ¬ (0x01000000 ≤ o ∧ o < 0x01000000 + opened.params.outbufBytes))) = true ∧
    (let o := ((0x09 : DWord) - opened.params.apertureBase).toNat
     o < 0x100 ∧ o % 4 ≠ 0) ∧ Width.b16 ≠ .b32 := by decide +kernel

/-- The first byte of OUT, the last place of a 64-bit read, and the last byte of OUT. -/
theorem witness_OutReadsLittleEndian : opened.params.wf = true ∧ opened.regs.busy = false ∧
    ((0x01000000 : DWord) - opened.params.apertureBase).toNat = 0x01000000 + 0 ∧
    ((0x0100FFF8 : DWord) - opened.params.apertureBase).toNat = 0x01000000 + 65528 ∧
    65528 + Width.b64.bytes ≤ opened.params.outbufBytes ∧
    ((0x0100FFFF : DWord) - opened.params.apertureBase).toNat = 0x01000000 + 65535 ∧ 65535 < opened.params.outbufBytes := by decide +kernel

theorem witness_SeektabEntryStores : closed.params.wf = true ∧ closed.life.fsm = .uninitialized ∧ closed.regs.busy = false ∧
    0 < closed.params.seektabEntries ∧ 1023 < closed.params.seektabEntries := by decide +kernel

/-! ### Host commands -/

/-- A block whose INIT failed. -/
def broken : State := { closed with life := { closed.life with initFailed := true } }

theorem witness_NopSucceeds : ∃ (s t : State) (i : Instr), i.isCommand = true ∧ s.life.initFailed = true ∧ exec i s = .next t ∧
    t.regs.lastStatus = .success := by
  obtain ⟨t, h, ht⟩ := next_of_shows (f := fun t => t.regs.lastStatus) (o := exec .nop broken) (v := .success) (by decide +kernel)
  exact ⟨broken, t, .nop, rfl, rfl, h, ht⟩

theorem witness_StateChecks : (illegalWord 0x101 = false ∧ (0x101 : Word) ≠ 0 ∧ broken.life.initFailed = true) ∧
    (illegalWord 0x2 = false ∧ 2 ≤ (0x2 : Word).toNat % 256 ∧ closed.life.fsm ≠ .ready) ∧ illegalWord 0x6 = true ∧
    (illegalWord 0x1 = false ∧ (0x1 : Word).toNat % 256 = 1 ∧ opened.life.initFailed = false ∧
      opened.life.fsm ≠ .uninitialized) := by decide

theorem witness_GetinfoConfiguration : opened.life.initFailed = false ∧ opened.life.fsm = .ready := by decide

theorem witness_GetinfoPosition : halfway.life.initFailed = false ∧ halfway.life.fsm = .ready := by decide

theorem witness_ReleaseCloses : (Undisturbed halfway ∧ halfway.life.initFailed = false ∧ halfway.life.fsm = .ready) ∧
    closed.life.fsm ≠ .ready ∧ broken.life.initFailed = true := ⟨⟨.inl rfl, rfl, rfl⟩, by decide, rfl⟩

/-- A latch that holds ARG0 and ARG1. -/
def withArgs (a0 a1 : DWord) (s : State) : State := { s with latch := { s.latch with a0 := a0, a1 := a1 } }

theorem witness_BadParameterCases :
    (let s := withArgs 32769 0 opened
     s.life.initFailed = false ∧ s.life.fsm = .ready ∧ s.params.outbufBytes / s.cfg.BA < s.latch.a0.toNat) ∧
    (let s := withArgs 11 0 opened
     s.life.initFailed = false ∧ s.life.fsm = .ready ∧ s.cfg.F - s.cfg.S < s.latch.a0.toNat) ∧
    (let s := withArgs 5 4 closed
     s.life.initFailed = false ∧ s.life.fsm = .uninitialized ∧ descValid s.params s.regs.desc = true ∧
       s.latch.a1.toNat < s.latch.a0.toNat) ∧
    (let s := withArgs 0 11 closed
     descValid s.params s.regs.desc = true ∧ s.regs.desc.total.toNat < s.latch.a1.toNat) := by decide +kernel

theorem witness_InitOutcome : Served (withArgs 3 9 closed) ∧ (withArgs 3 9 closed).params.wf = true ∧
    (withArgs 3 9 closed).pred.length = (withArgs 3 9 closed).params.maxChannels ∧ (withArgs 3 9 closed).life.initFailed = false ∧
    (withArgs 3 9 closed).life.fsm = .uninitialized := ⟨⟨.inl rfl, rfl, rfl⟩, by decide +kernel, rfl, rfl, rfl⟩

/-- Which of INIT.R's checks pass: the descriptor, the range, the size, SEEKTAB rising, its last entry, the header of frame 0. -/
def initChecks (s : State) : List Bool :=
  let c := cfgOf s.params s.regs.desc s.latch.a0.toNat s.latch.a1.toNat
  [descValid s.params s.regs.desc, decide (c.S ≤ c.F ∧ c.F ≤ c.total), decide (c.payOff + c.payLen ≤ s.src.bytes.length),
    (List.range (c.numFrames - 1)).all fun g => decide (seektabEntry s g ≤ seektabEntry s (g + 1)),
    decide (seektabEntry s (c.numFrames - 1) ≤ c.payLen), headerDecodes { s with cfg := c } 0]

/-- The first failing values: one channel too many, F = total + 1, F = S − 1, a payload one byte past the source, a SEEKTAB entry one
above the next, a last entry one past the payload, and k = 25 in the header (46_host_commands.md R403, 41_bitreader.md R212). -/
def badInits : List State :=
  let s := withArgs 3 9 closed
  [{ s with regs.desc.channels := 3, regs.desc.blockAlign := 6 }, withArgs 3 11 closed, withArgs 5 4 closed,
    { s with regs.desc.payLen := 28 }, { s with mem := insertKey 0x100008 20 s.mem }, { s with mem := insertKey 0x100010 28 s.mem },
    { s with src.bytes := s.src.bytes.set 5 0xC8 }]

theorem witness_InitOutcome_checks : initChecks (withArgs 3 9 closed) = [true, true, true, true, true, true] ∧
    badInits.map (fun s => (initChecks s).findIdx? (· = false)) = [0, 1, 1, 2, 3, 4, 5].map some ∧
    initChecks { withArgs 3 9 closed with src.bytes := p1Bytes.set 5 0xC0 } = [true, true, true, true, true, true] := by
  decide +kernel

/-- Each of them is INVALID_STREAM or, for a range (V-HC-8 the second), BAD_PARAMETER. -/
theorem test_init_fails : badInits.map (fun s => shows statusWord (exec .initR s)) =
    [0x312, 0x212, 0x212, 0x312, 0x312, 0x312, 0x312].map some := by decide +kernel

theorem session_withArgs {s : State} (h : SessionOk s) (a0 a1 : DWord) : SessionOk (withArgs a0 a1 s) :=
  h.congr rfl rfl rfl rfl rfl rfl rfl

/-- A session that has had errors. -/
def stained (s : State) : State := { s with life := { s.life with hadErrors := true } }

theorem session_stained {s : State} (h : SessionOk s) : SessionOk (stained s) := h.congr rfl rfl rfl rfl rfl rfl rfl

theorem data_stained {s : State} (hl : SessionOk s) (h : DataOk s) : DataOk (stained s) :=
  h.congr hl (.of_mem rfl rfl rfl rfl rfl) rfl rfl rfl rfl rfl rfl

theorem data_withArgs {s : State} (hl : SessionOk s) (h : DataOk s) (a0 a1 : DWord) : DataOk (withArgs a0 a1 s) :=
  h.congr hl (.of_mem rfl rfl rfl rfl rfl) rfl rfl rfl rfl rfl rfl

/-- The largest GETDATA of two buffered blocks and what follows them, in a session that has had errors. -/
theorem witness_GetdataDelivers : ∃ s : State, Served s ∧ s.params.wf = true ∧ s.life.initFailed = false ∧ s.life.fsm = .ready ∧
    SessionOk s ∧ s.latch.a0.toNat ≤ s.params.outbufBytes / s.cfg.BA ∧ DataOk s ∧ s.life.hadErrors = true :=
  ⟨withArgs 32768 0 (stained halfway), ⟨.inl rfl, rfl, rfl⟩, (by decide +kernel : halfway.params.wf = true), rfl, rfl,
    session_withArgs (session_stained session_halfway) _ _, by decide, data_withArgs (session_stained session_halfway) (data_stained session_halfway data_halfway) _ _, rfl⟩

/-- The end of the range, and a buffered target. -/
theorem witness_SeekResult : ∃ a : Nat → State, (∀ b, (a b).latch.a0 = BitVec.ofNat 64 b) ∧
    (∀ b, Served (a b) ∧ (a b).params.wf = true ∧ (a b).life.initFailed = false ∧ (a b).life.fsm = .ready ∧ SessionOk (a b) ∧
      DataOk (a b) ∧ (a b).life.hadErrors = true) ∧
    (a 10).latch.a0.toNat ≤ (a 10).cfg.F - (a 10).cfg.S ∧
    ((a 4).cur.resyncPending = false ∧ (a 4).cur.curBlock ≤ (a 4).latch.a0.toNat ∧
      (a 4).latch.a0.toNat ≤ (a 4).cur.curBlock + (a 4).ring.count) :=
  ⟨fun b => withArgs (BitVec.ofNat 64 b) 0 (stained halfway), fun _ => rfl, fun _ => ⟨⟨.inl rfl, rfl, rfl⟩,
    (by decide +kernel : halfway.params.wf = true), rfl, rfl,
    session_withArgs (session_stained session_halfway) _ _, data_withArgs (session_stained session_halfway) (data_stained session_halfway data_halfway) _ _, rfl⟩, by decide, by decide⟩

theorem witness_SeekConsistency : Served opened ∧ opened.params.wf = true ∧ opened.life.initFailed = false ∧
    opened.life.fsm = .ready ∧ SessionOk opened ∧ DataOk opened ∧ opened.cur.curBlock = 0 ∧
    (9 : DWord).toNat < opened.cfg.F - opened.cfg.S ∧ (9 : DWord).toNat ≤ opened.params.outbufBytes / opened.cfg.BA ∧
    (32768 : DWord).toNat ≤ opened.params.outbufBytes / opened.cfg.BA :=
  ⟨served_opened, by decide +kernel, rfl, rfl, session_opened, data_opened, rfl, by decide, by decide, by decide⟩

/-- A session whose next request fails. -/
def failing (s : State) : State := { s with src := { s.src with answers := [.fail] } }

theorem session_failing : SessionOk (failing (stained opened)) :=
  ⟨p1_cfg, ⟨by decide, by decide, by decide, by decide⟩, ⟨by decide, by decide, by decide, by decide, by decide, by decide⟩⟩

theorem witness_CommandsReport : ∃ s : State, Replied s ∧ s.params.wf = true ∧ Instr.isCommand .getdata = true ∧
    (s.life.initFailed = false → s.life.fsm = .ready → SessionOk s) ∧ Instr.getdata ≠ .init ∧ Instr.getdata ≠ .initR ∧
    s.life.hadErrors = true :=
  ⟨failing (stained opened), ⟨.inl rfl, rfl⟩, by decide +kernel, rfl, fun _ _ => session_failing, nofun, nofun, rfl⟩

/-- A GETDATA, a SEEK and an INIT whose first request fails, and a GETDATA whose requests all succeed. -/
theorem witness_IoFailureRecovery :
    (∀ i, i = Instr.getdata ∨ i = .seek → ∃ s : State, Replied s ∧ s.life.initFailed = false ∧ s.life.fsm = .ready ∧ SessionOk s ∧
      s.life.hadErrors = true ∧ shows (fun t => (t.regs.lastStatus, t.src.log.map (·.2))) (exec i s) = some (.ioFailure, [.fail])) ∧
    (Replied (failing closed) ∧ (failing closed).params.wf = true ∧ (failing closed).life.initFailed = false ∧
      (failing closed).life.fsm = .uninitialized ∧
      shows (fun t => (t.regs.lastStatus, t.src.log.map (·.2))) (exec .init (failing closed)) = some (.ioFailure, [.fail])) ∧
    (Undisturbed (failing closed) ∧ nextAnswer (failing closed).src = .fail ∧ (failing closed).life.initFailed = false ∧
      (failing closed).life.fsm = .uninitialized ∧ descValid (failing closed).params (failing closed).regs.desc = true) := by
  refine ⟨fun i hi => ⟨withArgs 5 0 (failing (stained opened)), ⟨.inl rfl, rfl⟩, rfl, rfl, session_withArgs session_failing _ _, rfl, ?_⟩,
    ⟨⟨.inl rfl, rfl⟩, by decide +kernel, rfl, rfl, by decide +kernel⟩, .inl rfl, rfl, rfl, rfl, by decide +kernel⟩
  obtain rfl | rfl := hi <;> decide +kernel

theorem witness_StuckUntilReset :
    (∃ s t : State, s.uop = none ∧ s.regs.busy = true ∧ step s = .next t) ∧
    ∃ (s : State) (rest : List HostOp), s.uop = none ∧ s.regs.busy = true ∧ s.host.prog = .wait :: rest := by
  refine ⟨?_, withHost [.wait] { opened with regs.busy := true }, [], rfl, rfl, rfl⟩
  obtain ⟨t, h, -⟩ := next_of_shows (f := fun t => t.regs.overrun)
    (o := step (withHost [.wr .b32 0x0C 2] { opened with regs.busy := true })) (v := true) (by decide +kernel)
  exact ⟨_, t, rfl, rfl, h⟩

/-! ### The byte source and the BitReader -/

theorem witness_SourceRequests : (nextAnswer opened.src ≠ .fail ∧ nextAnswer opened.src ≠ .never ∧ 1 ≤ opened.op.max.toNat ∧
      opened.src.pos < opened.src.bytes.length ∧ nextAnswer opened.src = .full) ∧
    (nextAnswer (failing opened).src = .fail ∧ (failing opened).regs.busy = false) ∧
    nextAnswer { opened.src with answers := [.never] } = .never := by decide +kernel

theorem witness_BrResetClears : (inFrame 0 0 []).br.len = 0 := rfl

theorem witness_BrFetchAdvances : (Served (inFrame 0 0 p1Bytes) ∧ 1 ≤ (inFrame 0 0 p1Bytes).params.fetchBytes ∧
      BrOk (inFrame 0 0 p1Bytes) ∧ (inFrame 0 0 p1Bytes).br.fetched < (inFrame 0 0 p1Bytes).br.len) ∧
    (Served (inFrame 0 0 []) ∧ (inFrame 0 0 []).src.bytes.length ≤ (inFrame 0 0 []).src.pos) :=
  ⟨⟨served_inFrame _ _ _, by decide, br_inFrame _ _ _, by decide⟩, served_inFrame _ _ _, by decide⟩

/-- The first bit of a window, and its end. -/
theorem witness_BitsRead : Served (inFrame 0 0 p1Bytes) ∧ 1 ≤ (inFrame 0 0 p1Bytes).params.fetchBytes ∧
    BrOk (inFrame 0 0 p1Bytes) ∧ (inFrame 0 0 p1Bytes).br.p < 8 * (inFrame 0 0 p1Bytes).br.len ∧
    BrOk (inFrame 216 0 p1Bytes) ∧ ¬ (inFrame 216 0 p1Bytes).br.p < 8 * (inFrame 216 0 p1Bytes).br.len :=
  ⟨served_inFrame _ _ _, by decide, br_inFrame _ _ _, by decide, br_inFrame _ _ _, by decide⟩

theorem witness_RiceHeaderFields : (0 : Nat) ≤ 39 ∧ (0 : Nat) ≤ 40 ∧ (0 : Nat) ≤ 44 ∧ (0 : Nat) ≤ 45 ∧ (45 : Nat) ≤ 45 := by decide

theorem witness_RiceSymbolValue :
    (∃ (bit : Nat → Bool) (limit k p q : Nat), (∀ i, i < q → bit (p + i) = false) ∧ q ≤ 32 ∧ q = 32 ∧ bit (p + q) = true ∧
      p + q + 1 + k ≤ limit ∧ k ≤ 24) ∧
    (∃ (bit : Nat → Bool) (limit p q : Nat), (∀ i, i < q → bit (p + i) = false) ∧ q = 33 ∧ p + 33 ≤ limit) ∧
    (∃ (bit : Nat → Bool) (limit k p q : Nat), (∀ i, i < q → bit (p + i) = false) ∧ q ≤ 32 ∧ bit (p + q) = true ∧
      p + q + 1 ≤ limit ∧ limit < p + q + 1 + k) ∧
    (∃ (bit : Nat → Bool) (limit p q : Nat), (∀ i, i < q → bit (p + i) = false) ∧ q ≤ 32 ∧ limit = p + q) :=
  ⟨⟨fun i => i == 32, 57, 24, 0, 32, by decide, by decide, rfl, rfl, by decide, by decide⟩,
    ⟨fun _ => false, 33, 0, 33, fun _ _ => rfl, rfl, by decide⟩,
    ⟨fun i => i == 3, 6, 3, 0, 3, by decide, by decide, rfl, by decide, by decide⟩,
    ⟨fun _ => false, 32, 0, 32, fun _ _ => rfl, by decide, rfl⟩⟩

theorem witness_HeaderAndSymbol : Served (inFrame 0 0 p1Bytes) ∧ 1 ≤ (inFrame 0 0 p1Bytes).params.fetchBytes ∧
    BrOk (inFrame 0 0 p1Bytes) := ⟨served_inFrame _ _ _, by decide, br_inFrame _ _ _⟩

/-! ### The Predictor and the Reconstructor -/

theorem witness_PredResetZeroes : 0 < halfway.pred.length ∧ 1 < halfway.pred.length := by decide

theorem witness_StageStepResult : ∃ (s : State) (c k : Nat) (g : StageCfg) (sts : List StageState) (st : StageState), 1 ≤ k ∧
    s.cfg.stages[k - 1]? = some g ∧ s.pred[c]? = some sts ∧ sts[k - 1]? = some st ∧ g.wf = true ∧ st.coef.length = g.N ∧
    st.hist.length = g.N :=
  ⟨halfway, 0, 1, p1Stage, [{ coef := [0, -1], hist := [-25, 15] }], { coef := [0, -1], hist := [-25, 15] }, by decide,
    by decide, rfl, rfl, by decide, rfl, rfl⟩

theorem witness_PredStepCascade : (Undisturbed halfway ∧ halfway.pred[0]? = some [{ coef := [0, -1], hist := [-25, 15] }]) ∧
    ({ opened with cfg := { opened.cfg with stages := [] } } : State).cfg.stages = [] := ⟨⟨.inl rfl, rfl⟩, rfl⟩

theorem witness_MacOrderIndependent : [((2 : Int), (4 : Int)), (1, 3)].Perm (([1, 2] : List Int).zip [3, 4]) ∧
    (2 ≤ 2 ∧ 2 ≤ 32 ∧ 32 ≤ 32 ∧ (-2 ^ (2 - 1) : Int) ≤ -2 ∧ (-2 : Int) < 2 ^ (2 - 1) ∧ (-2 ^ (32 - 1) : Int) ≤ 2147483647 ∧
      (2147483647 : Int) < 2 ^ (32 - 1)) := by decide

theorem witness_UnprepareChannels : opened.cfg.C ≠ 2 ∧
    (∃ s : State, s.cfg.C = 2 ∧ s.op.vals = [10, -3] ∧ s.params.unprepare = .msTrunc) ∧
    (∃ (s : State) (l r : Int), s.cfg.C = 2 ∧ s.params.unprepare = .msTrunc ∧ -2 ^ 62 ≤ l ∧ l < 2 ^ 62 ∧ -2 ^ 62 ≤ r ∧
      r < 2 ^ 62 ∧ s.op.vals = [BitVec.ofInt 64 (r + Int.tdiv (l - r) 2), BitVec.ofInt 64 (l - r)]) :=
  ⟨by decide, ⟨{ opened with cfg.C := 2, op.vals := [10, -3] }, rfl, rfl, rfl⟩,
    { opened with cfg.C := 2, op.vals := [BitVec.ofInt 64 (-2 ^ 62 + Int.tdiv (2 ^ 63 - 1) 2), BitVec.ofInt 64 (2 ^ 63 - 1)] }, 2 ^ 62 - 1, -2 ^ 62, rfl, rfl,
    by decide, by decide, by decide, by decide, by decide⟩

theorem witness_PackBytes : (∃ s : State, s.op.bps = 8) ∧ (∃ s : State, s.op.bps = 16) ∧ (∃ s : State, s.op.bps = 24) ∧
    ∃ s : State, s.op.bps = 32 :=
  ⟨⟨{ opened with op.bps := 8 }, rfl⟩, ⟨opened, rfl⟩, ⟨{ opened with op.bps := 24 }, rfl⟩, { opened with op.bps := 32 }, rfl⟩

theorem witness_SilenceBytes : ({ opened with cfg.bps := 8 } : State).cfg.bps = 8 ∧ opened.cfg.bps = 16 := by decide

/-! ### The ring and the frame sequencer -/

theorem witness_RingResetAndDrop : ({ halfway with op.n := 2 } : State).op.n.toNat ≤ halfway.ring.count := by decide

theorem witness_RingWriteAppends : (∃ s : State, s.ring.count = s.ring.cap) ∧
    ∃ s : State, s.ring.count ≠ s.ring.cap ∧ s.op.blk.length = s.cfg.BA :=
  ⟨⟨{ opened with ring.count := 4 }, rfl⟩, { halfway with op.blk := [0x34, 0x12] }, by decide, by decide⟩

/-- A copy of two blocks that starts at the last byte of OUT: that byte is written, and the next would lie past OUT. -/
theorem witness_RingReadCopies : ∃ s : State, 1 < min s.op.n.toNat s.ring.count ∧ 0 < s.cfg.BA ∧
    s.op.dst.toNat + 0 * s.cfg.BA + 0 < s.params.outbufBytes ∧ ¬ s.op.dst.toNat + 0 * s.cfg.BA + 1 < s.params.outbufBytes ∧
    shows (fun t => t.mem) (exec .uRingRead s) = some (insertKey 0x0100FFFF 0x0F s.mem) :=
  ⟨{ halfway with op.n := 2, op.dst := 65535 }, by decide, by decide, by decide, by decide, by decide +kernel⟩

theorem witness_RingSilenceTail : ∃ s : State, 0 < s.ring.cap ∧ (silenceBlock s.cfg).length = s.cfg.BA ∧
    (1 ≤ s.op.n.toNat ∧ ((3 : Nat) : Int) = ((s.ring.wr : Int) - (1 : Nat)) % s.ring.cap) :=
  ⟨{ halfway with op.n := 2 }, by decide, by decide +kernel, by decide, by decide⟩

theorem witness_StartFrameEnters : ∃ s : State, Served s ∧ 1 ≤ s.params.fetchBytes ∧
    frameStart s s.op.g.toNat ≤ frameEnd s s.op.g.toNat ∧ frameEnd s s.op.g.toNat ≤ s.src.bytes.length ∧ s.op.g = 2 :=
  ⟨{ halfway with op.g := 2 }, ⟨.inl rfl, rfl, rfl⟩, by decide, by decide +kernel, by decide +kernel, rfl⟩

/-- A block of frame 0 that is delivered, one that meets a full ring, and two that are not written: the last skipped one, and the first
past the range. -/
theorem witness_DecodeBlockResult :
    (Served (inFrame 45 4 p1Bytes) ∧ 1 ≤ (inFrame 45 4 p1Bytes).params.fetchBytes ∧ BrOk (inFrame 45 4 p1Bytes) ∧
      CfgOk (inFrame 45 4 p1Bytes).cfg) ∧
    (let s := inFrame 45 4 p1Bytes
     s.cur.skipBlocks ≤ s.frm.blkInFrame ∧ s.frm.curFrame * s.cfg.B + s.frm.blkInFrame < s.cfg.F ∧ s.ring.count ≠ s.ring.cap) ∧
    (let s : State := { inFrame 45 4 p1Bytes with ring.count := 4 }
     s.cur.skipBlocks ≤ s.frm.blkInFrame ∧ s.frm.curFrame * s.cfg.B + s.frm.blkInFrame < s.cfg.F ∧ s.ring.count = s.ring.cap) ∧
    (let s : State := { inFrame 45 4 p1Bytes with cur.skipBlocks := 1 }
     ¬ s.cur.skipBlocks ≤ s.frm.blkInFrame) ∧
    (let s : State := { inFrame 45 4 p1Bytes with frm.curFrame := 2, frm.blkInFrame := 2 }
     ¬ s.frm.curFrame * s.cfg.B + s.frm.blkInFrame < s.cfg.F) :=
  ⟨⟨served_inFrame _ _ _, by decide, br_inFrame _ _ _, p1_cfg⟩, by decide, by decide, by decide, by decide⟩

/-- A skipped block is decoded and not written (45_frame_sequencer.md R357). -/
theorem test_decode_block_skipped : shows (fun t => (t.ring.count, t.frm.placed, t.frm.blkInFrame, t.br.p))
    (exec (.uDecodeBlock .deliver) { inFrame 45 4 p1Bytes with cur.skipBlocks := 1 }) = some (0, 0, 1, 62) := by decide +kernel

/-- A bad frame that placed one block. -/
theorem witness_EndFrameVerifies : ∃ s : State, Undisturbed s ∧ 0 < s.ring.cap ∧ (silenceBlock s.cfg).length = s.cfg.BA ∧
    (s.frm.frameErr || decide (ckFinal s.params.checksum s.frm.runCk ≠ s.frm.storedCk)) = true ∧ 1 ≤ s.frm.placed ∧
    ((3 : Nat) : Int) = ((s.ring.wr : Int) - (1 : Nat)) % s.ring.cap :=
  ⟨{ halfway with frm := { halfway.frm with placed := 1, frameErr := true } }, .inl rfl, by decide, by decide +kernel,
    by decide +kernel, by decide, by decide⟩

theorem witness_DecodeFrameResult : Served opened ∧ opened.params.wf = true ∧ CfgOk opened.cfg ∧ StreamOk opened ∧ RingOk opened ∧
    2 < opened.cfg.numFrames ∧ opened.op.g.toNat < opened.cfg.numFrames ∧ opened.ring.count = 0 :=
  ⟨served_opened, by decide +kernel, p1_cfg, p1_stream, session_opened.ring, by decide, by decide, rfl⟩

theorem witness_PositionMovesCursor : Served opened ∧ opened.params.wf = true ∧ CfgOk opened.cfg ∧ StreamOk opened ∧
    opened.op.b.toNat ≤ opened.cfg.F - opened.cfg.S ∧ opened.op.b.toNat ≠ opened.cfg.F - opened.cfg.S :=
  ⟨served_opened, by decide +kernel, p1_cfg, p1_stream, by decide, by decide⟩

/-- The first operand outside each range; the whole of a frame's numbers is met by `halfway` and `opened`. -/
theorem witness_OperandsOutsideRangeRun : halfway.pred.length ≤ 2 ∧ Undisturbed halfway ∧ halfway.cfg.stages.length < 2 ∧
    (7 : DWord).toNat ∉ [8, 16, 24, 32] ∧ halfway.ring.count < (3 : DWord).toNat ∧ halfway.ring.count ≤ halfway.ring.cap ∧
    Served halfway ∧ halfway.cfg.numFrames ≤ (3 : DWord).toNat ∧
    (Served opened ∧ CfgOk opened.cfg ∧ RingOk opened ∧ opened.ring.count = 0) ∧
    opened.cfg.F - opened.cfg.S < (11 : DWord).toNat :=
  ⟨by decide, .inl rfl, by decide, by decide, by decide, by decide, served_halfway, by decide,
    ⟨served_opened, p1_cfg, session_opened.ring, rfl⟩, by decide⟩

/-! ### The invariant -/

theorem witness_ResetInv : halfway.params.wf = true ∧ halfway.src.bytes.length < 2 ^ 64 ∧ halfway.src.pos < 2 ^ 64 ∧
    halfway.params.ringFrames * halfway.params.maxFrameBlocks < 2 ^ 64 := by
  decide +kernel

theorem witness_StepKeepsInv : ∃ s t : State, Inv s ∧ step s = .next t := ⟨halfway, halfway, inv_halfway, rfl⟩

end Sys2Proof.Machine.Test
end

section
/-! SUPPORT. Every step keeps the invariant of Safety.lean: a host access, a reset and an accepted command each do. -/

namespace Sys2Proof.Machine

theorem Inv.withProg {s : State} (h : Inv s) (l : List HostOp) : Inv (withProg l s) := (sameBlock_withProg l s).inv h

theorem Inv.hostRead {s : State} (h : Inv s) (w : Width) (a : DWord) : Inv (hostRead w a s) := (sameBlock_hostRead w a s).inv h

theorem inv_hostStore {s t : State} (h : Inv s) (w : Width) (a v : DWord) (ht : hostStore w a v s = .next t) : Inv t := by
  unfold hostStore at ht
  split at ht
  · rename_i hcmd
    exact inv_acceptCmd h (by simpa using hcmd.2) ht
  · cases ht
    exact inv_hostWrite h w a v

/-- One operation of the outside, in the order of `hostStep`'s cases. -/
theorem inv_hostStep {s t : State} (h : Inv s) (ht : hostStep s = .next t) : Inv t := by
  unfold hostStep at ht
  split at ht
  case h_1 => cases ht; exact h
  case h_2 l _ =>
    split at ht
    · cases ht; exact h
    · cases ht; exact h.withProg l
  case h_3 l _ => cases ht; exact h.withProg l
  case h_4 l _ => cases ht; exact h.reset l
  case h_5 w a l _ => cases ht; exact (h.withProg l).hostRead w a
  case h_6 w a v l _ => exact inv_hostStore (h.withProg l) w a v ht

theorem step_eq_hostStep {s : State} (h : s.uop = none) : step s = hostStep s := by
  rw [step, h]

/-- Settles O60: a machine in order holds no micro-operation word, so its step is one operation of the outside. -/
theorem stepKeepsInv : Obligations.StepKeepsInv := by
  intro s t h ht
  exact inv_hostStep h (step_eq_hostStep h.noUop ▸ ht)

end Sys2Proof.Machine
end

section
/-! SUPPORT. What host loads and stores of REG words do (10_state.md R53, 20_memory.md R81), and the fields of STATUS (10_state.md R34). -/

namespace Sys2Proof.Machine

variable {s : State} {o k : Nat}

/-! ## A 32-bit access at a word offset -/

theorem hostWrite_reg (v : DWord) (h : o < 0x100) (h4 : o % 4 = 0) :
    hostWrite .b32 (regAddr s.params o) v s = writeReg o (lo v) s := by
  simp [hostWrite, regionOf_reg _ _ h, aligned32, h4]

/-- R81: a misaligned store has no effect. -/
theorem hostWrite_reg_misaligned (v : DWord) (h : o < 0x100) (h4 : o % 4 ≠ 0) :
    hostWrite .b32 (regAddr s.params o) v s = s := by
  simp [hostWrite, regionOf_reg _ _ h, aligned32, h4]

theorem hostReadValue_reg (h : o < 0x100) (h4 : o % 4 = 0) :
    hostReadValue s .b32 (regAddr s.params o) = (readReg s o).setWidth 64 := by
  simp [hostReadValue, regionOf_reg _ _ h, aligned32, h4]

/-- Settles O12: a 32-bit store at STATUS is `writeStatus`. -/
theorem statusWriteOneClears : Obligations.StatusWriteOneClears := fun _ v =>
  hostWrite_reg v (by decide) (by decide)

/-! ## The fields of STATUS -/

theorem bitNat_le_one (b : Bool) : bitNat b ≤ 1 := by cases b <;> decide

theorem Status.code_lt (c : Status) : c.code < 16 := by cases c <;> decide

theorem Fsm.code_lt (f : Fsm) : f.code < 4 := by cases f <;> decide

/-- The widths of the fields that STATUS packs. -/
theorem status_bounds (s : State) : bitNat s.regs.busy ≤ 1 ∧ bitNat s.regs.done ≤ 1 ∧ bitNat s.regs.overrun ≤ 1 ∧
    bitNat s.life.hadErrors ≤ 1 ∧ bitNat s.life.initFailed ≤ 1 ∧ s.regs.lastStatus.code < 16 ∧ s.life.fsm.code < 4 :=
  ⟨bitNat_le_one _, bitNat_le_one _, bitNat_le_one _, bitNat_le_one _, bitNat_le_one _, Status.code_lt _, Fsm.code_lt _⟩

theorem statusWord_toNat (s : State) : (statusWord s).toNat =
    bitNat s.regs.busy + 2 * bitNat s.regs.done + 4 * bitNat s.regs.overrun + 8 * bitNat s.life.hadErrors +
      16 * bitNat s.life.initFailed + 256 * s.regs.lastStatus.code + 65536 * s.life.fsm.code := by
  have hb := status_bounds s
  rw [statusWord, BitVec.toNat_ofNat, Nat.mod_eq_of_lt (by omega)]

theorem readReg_status (s : State) : readReg s 0x08 = statusWord s := rfl

theorem getLsbD_of_bitNat {w : Word} {i : Nat} {b : Bool} (h : w.toNat / 2 ^ i % 2 = bitNat b) : w.getLsbD i = b := by
  rw [BitVec.getLsbD, Nat.testBit_eq_decide_div_mod_eq, h]
  cases b <;> rfl

theorem extractLsb'_of_toNat {w : Word} {i n c : Nat} (h : w.toNat / 2 ^ i % 2 ^ n = c) :
    w.extractLsb' i n = BitVec.ofNat n c := by
  apply BitVec.eq_of_toNat_eq
  rw [BitVec.extractLsb'_toNat, Nat.shiftRight_eq_div_pow, BitVec.toNat_ofNat, ← h, Nat.mod_mod]

theorem statusWord_lastStatus (s : State) : (statusWord s).extractLsb' 8 4 = BitVec.ofNat 4 s.regs.lastStatus.code :=
  extractLsb'_of_toNat (by have hb := status_bounds s; rw [statusWord_toNat]; omega)

theorem statusWord_fsm (s : State) : (statusWord s).extractLsb' 16 2 = BitVec.ofNat 2 s.life.fsm.code :=
  extractLsb'_of_toNat (by have hb := status_bounds s; rw [statusWord_toNat]; omega)

/-- Settles O11: each field of STATUS is a quotient and a remainder of the sum that packs them. -/
theorem statusFields : Obligations.StatusFields := by
  intro s
  have hb := status_bounds s
  have hw := statusWord_toNat s
  rw [readReg_status, statusWord_lastStatus, statusWord_fsm]
  refine ⟨getLsbD_of_bitNat ?_, getLsbD_of_bitNat ?_, getLsbD_of_bitNat ?_, getLsbD_of_bitNat ?_, getLsbD_of_bitNat ?_,
    extractLsb'_of_toNat (c := 0) ?_, ?_, extractLsb'_of_toNat (c := 0) ?_, ?_, extractLsb'_of_toNat (c := 0) ?_⟩
  case refine_7 => cases s.regs.lastStatus <;> rfl
  case refine_9 => cases s.life.fsm <;> rfl
  all_goals omega

/-! ## What REG words read -/

theorem hi_append_lo (v : DWord) : hi v ++ lo v = v := by
  unfold hi lo
  exact (BitVec.extractLsb'_append_extractLsb'_eq_extractLsb' rfl).trans BitVec.extractLsb'_eq_self

theorem ctrlWord_eq (s : State) : ctrlWord s = if s.regs.ie then 1 else 0 := by
  unfold ctrlWord bitNat
  split <;> rfl

/-- R53: a reserved offset reads 0. -/
theorem readReg_reserved (h : (0x30 ≤ o ∧ o < 0x40) ∨ 0x74 ≤ o) : readReg s o = 0 := by
  unfold readReg
  split
  case h_26 => rfl
  all_goals omega

theorem readRes_idle (h : s.regs.busy = false) (w : Word) : readRes s w = w := by simp [readRes, h]

/-! ## What stores to REG words change -/

/-- Every offset but those of CTRL, STATUS, CMD and ARG is a store to DESC. -/
theorem writeReg_desc (v : Word) (h : o = 0 ∨ 0x20 ≤ o) :
    writeReg o v s = if configWritable s then { s with regs.desc := writeDesc o v s.regs.desc } else s := by
  unfold writeReg
  split
  case h_8 => rfl
  all_goals omega

theorem writeDesc_outside (v : Word) (d : Desc) (h : o < 0x40 ∨ 0x74 ≤ o) : writeDesc o v d = d := by
  unfold writeDesc
  split
  case h_14 => rfl
  all_goals omega

/-- R53: ID, RES and the reserved offsets ignore writes. -/
theorem writeReg_readOnly (v : Word) (h : o = 0 ∨ (0x20 ≤ o ∧ o < 0x40) ∨ 0x74 ≤ o) : writeReg o v s = s := by
  rw [writeReg_desc v (by omega), writeDesc_outside v _ (by omega)]
  split <;> rfl

theorem configWritable_iff : configWritable s = true ↔ s.life.fsm = .uninitialized ∧ s.regs.busy = false := by
  simp [configWritable]

/-- The ARG words' offsets. -/
theorem argOffset_cases (h1 : 0x10 ≤ o) (h2 : o ≤ 0x1C) (h4 : o % 4 = 0) : o = 0x10 ∨ o = 0x14 ∨ o = 0x18 ∨ o = 0x1C := by omega

theorem writeReg_arg_frame (v : Word) (h1 : 0x10 ≤ o) (h2 : o ≤ 0x1C) (h4 : o % 4 = 0) :
    writeReg o v s = { s with regs := { s.regs with arg0 := (writeReg o v s).regs.arg0, arg1 := (writeReg o v s).regs.arg1 } } := by
  rcases argOffset_cases h1 h2 h4 with rfl | rfl | rfl | rfl <;> rfl

theorem readReg_writeReg_arg_same (v : Word) (h1 : 0x10 ≤ o) (h2 : o ≤ 0x1C) (h4 : o % 4 = 0) : readReg (writeReg o v s) o = v := by
  rcases argOffset_cases h1 h2 h4 with rfl | rfl | rfl | rfl
  · exact lo_setLo _ _
  · exact hi_setHi _ _
  · exact lo_setLo _ _
  · exact hi_setHi _ _

theorem readReg_writeReg_arg_ne (v : Word) (h1 : 0x10 ≤ o) (h2 : o ≤ 0x1C) (h4 : o % 4 = 0) (hk : k ≠ o) :
    readReg (writeReg o v s) k = readReg s k := by
  rcases argOffset_cases h1 h2 h4 with rfl | rfl | rfl | rfl
  all_goals
    unfold readReg
    split
    case h_5 | h_6 | h_7 | h_8 => simp_all [writeReg, lo_setHi, hi_setLo]
    all_goals rfl

theorem readReg_writeReg_arg (v : Word) (h1 : 0x10 ≤ o) (h2 : o ≤ 0x1C) (h4 : o % 4 = 0) (k : Nat) :
    readReg (writeReg o v s) k = if k = o then v else readReg s k := by
  split
  · next hk => rw [hk, readReg_writeReg_arg_same v h1 h2 h4]
  · next hk => exact readReg_writeReg_arg_ne v h1 h2 h4 hk

theorem readReg_writeDesc_same (v : Word) (h1 : 0x40 ≤ o) (h2 : o ≤ 0x70) (h4 : o % 4 = 0) :
    readReg { s with regs := { s.regs with desc := writeDesc o v s.regs.desc } } o = v := by
  obtain ⟨i, hlt, rfl⟩ : ∃ i < 13, o = 0x40 + 4 * i := ⟨(o - 0x40) / 4, by omega, by omega⟩
  interval_cases i <;> simp only [readReg, writeDesc, lo_setLo, hi_setHi]

theorem readReg_writeDesc_ne (v : Word) (hk : k ≠ o) :
    readReg { s with regs := { s.regs with desc := writeDesc o v s.regs.desc } } k = readReg s k := by
  unfold readReg
  split
  case h_13 | h_14 | h_15 | h_16 | h_17 | h_18 | h_19 | h_20 | h_21 | h_22 | h_23 | h_24 | h_25 =>
    unfold writeDesc
    split <;> simp_all [lo_setHi, hi_setLo]
  all_goals rfl

theorem readReg_writeDesc (v : Word) (h1 : 0x40 ≤ o) (h2 : o ≤ 0x70) (h4 : o % 4 = 0) (k : Nat) :
    readReg { s with regs := { s.regs with desc := writeDesc o v s.regs.desc } } k = if k = o then v else readReg s k := by
  split
  · next hk => rw [hk, readReg_writeDesc_same v h1 h2 h4]
  · next hk => exact readReg_writeDesc_ne v hk

/-- Settles O16, clause by clause. -/
theorem registerReadBack : Obligations.RegisterReadBack := by
  refine ⟨fun s o h h4 => hostReadValue_reg h h4, fun s hb => ?_, fun s => ⟨hi_append_lo _, hi_append_lo _⟩,
    fun s => ⟨rfl, ctrlWord_eq s, rfl⟩, fun s o h => readReg_reserved (by omega), fun s o v h1 h2 h4 => ?_,
    fun s o v h1 h2 h4 hf hb => ?_, fun s o v h => ?_⟩
  case refine_1 =>
    simp only [readReg, readRes_idle hb]
    exact ⟨hi_append_lo _, hi_append_lo _⟩
  case refine_2 =>
    intro t
    have ht : t = writeReg o (lo v) s := hostWrite_reg v (by omega) h4
    rw [ht]
    exact ⟨writeReg_arg_frame _ h1 h2 h4, readReg_writeReg_arg _ h1 h2 h4⟩
  case refine_3 =>
    have ht : hostWrite .b32 (regAddr s.params o) v s = { s with regs := { s.regs with desc := writeDesc o (lo v) s.regs.desc } } := by
      rw [hostWrite_reg v (by omega) h4, writeReg_desc _ (by omega), if_pos (configWritable_iff.2 ⟨hf, hb⟩)]
    exact ⟨ht, ht ▸ readReg_writeDesc _ h1 h2 h4⟩
  case refine_4 =>
    by_cases h4 : o % 4 = 0
    · rw [hostWrite_reg v (by omega) h4, writeReg_readOnly _ (by omega)]
    · exact hostWrite_reg_misaligned v (by omega) h4

end Sys2Proof.Machine
end

section
/-! SUPPORT. Where an aperture address falls, and what host accesses to OUT, to SEEKTAB and outside the three spaces do (20_memory.md
R80 to R84, R89). -/

namespace Sys2Proof.Machine

/-! ## The place of an address (R80) -/

section
variable {p : Params} {addr : DWord} {o : Nat}

theorem apertureOffset_regAddr (p : Params) (h : o < 2 ^ 64) : apertureOffset p (regAddr p o) = o := by
  rw [apertureOffset, regAddr, BitVec.add_comm, BitVec.add_sub_cancel, BitVec.toNat_ofNat, Nat.mod_eq_of_lt h]

theorem regAddr_add_four (p : Params) (o : Nat) : regAddr p o + 4 = regAddr p (o + 4) := by
  rw [regAddr, regAddr, BitVec.add_assoc, BitVec.ofNat_add]
  rfl

theorem regionOf_of_lt_reg (h : apertureOffset p addr < 0x100) : regionOf p addr = .reg (apertureOffset p addr) := if_pos h

theorem regionOf_seektab (hl : seektabBase ≤ apertureOffset p addr)
    (hu : apertureOffset p addr < seektabBase + 8 * p.seektabEntries) : regionOf p addr = .seektab (apertureOffset p addr) := by
  have hreg : ¬ apertureOffset p addr < 0x100 := by unfold seektabBase at hl; omega
  exact (if_neg hreg).trans (if_pos ⟨hl, hu⟩)

/-- R80: the spaces are apart, since R7 bounds SEEKTAB_ENTRIES. -/
theorem seektab_end_lt_outBase (hw : p.wf = true) : seektabBase + 8 * p.seektabEntries < outBase := by
  have hn : p.seektabEntries ≤ 2 ^ 17 := by
    simp only [Params.wf, Bool.and_eq_true, decide_eq_true_eq] at hw
    obtain ⟨⟨⟨-, -, -, -, -, -, hn, -⟩, -⟩, -⟩ := hw
    exact hn
  unfold seektabBase outBase
  omega

theorem regionOf_out (hw : p.wf = true) {j : Nat} (ho : apertureOffset p addr = outBase + j) (hj : j < p.outbufBytes) :
    regionOf p addr = .out j := by
  have hend := seektab_end_lt_outBase hw
  have hreg : ¬ apertureOffset p addr < 0x100 := by unfold outBase at ho; omega
  have htab : ¬ (seektabBase ≤ apertureOffset p addr ∧ apertureOffset p addr < seektabBase + 8 * p.seektabEntries) := by omega
  have hout : outBase ≤ apertureOffset p addr ∧ apertureOffset p addr < outBase + p.outbufBytes := by omega
  have hsub : apertureOffset p addr - outBase = j := by omega
  exact hsub ▸ (if_neg hreg).trans ((if_neg htab).trans (if_pos hout))

theorem regionOf_unmapped (hreg : ¬ apertureOffset p addr < 0x100)
    (htab : ¬ (seektabBase ≤ apertureOffset p addr ∧ apertureOffset p addr < seektabBase + 8 * p.seektabEntries))
    (hout : ¬ (outBase ≤ apertureOffset p addr ∧ apertureOffset p addr < outBase + p.outbufBytes)) :
    regionOf p addr = .unmapped :=
  (if_neg hreg).trans ((if_neg htab).trans (if_neg hout))

end

/-! ## Accesses that read 0 and write nothing (R80 to R82) -/

section
variable {s : State} {w : Width} {addr : DWord} {o : Nat}

theorem access_unmapped (v : DWord) (h : regionOf s.params addr = .unmapped) :
    hostReadValue s w addr = 0 ∧ hostWrite w addr v s = s := by
  simp [hostReadValue, hostWrite, h]

theorem access_not_aligned (v : DWord) (h : regionOf s.params addr = .reg o ∨ regionOf s.params addr = .seektab o)
    (ha : aligned32 w o = false) : hostReadValue s w addr = 0 ∧ hostWrite w addr v s = s := by
  rcases h with h | h <;> simp [hostReadValue, hostWrite, h, ha]

theorem aligned32_eq_false (h : w ≠ .b32 ∨ o % 4 ≠ 0) : aligned32 w o = false := by
  simpa [aligned32, ← imp_iff_not_or] using h

end

/-- Settles O18: an address outside the three spaces is unmapped, and in REG and SEEKTAB the access is not aligned. -/
theorem misplacedAccesses : Obligations.MisplacedAccesses := by
  rintro s w addr v (⟨hreg, htab, hout⟩ | ⟨hreg | ⟨hl, hu⟩, hbad⟩)
  · exact access_unmapped v (regionOf_unmapped hreg htab hout)
  · exact access_not_aligned v (.inl (regionOf_of_lt_reg hreg)) (aligned32_eq_false hbad)
  · exact access_not_aligned v (.inr (regionOf_seektab hl hu)) (aligned32_eq_false hbad)

/-! ## OUT (R83, R84) -/

theorem Width.bytes_pos (w : Width) : 0 < w.bytes := by cases w <;> decide

theorem Width.bytes_le (w : Width) : w.bytes ≤ 8 := by cases w <;> decide

theorem hostWrite_out {s : State} {w : Width} {addr : DWord} {j : Nat} (v : DWord) (h : regionOf s.params addr = .out j) :
    hostWrite w addr v s = s := by
  simp [hostWrite, h]

/-- An OUT load inside OUT while BUSY = 0 assembles the memory's bytes. -/
theorem hostReadValue_out {s : State} {w : Width} {addr : DWord} {j : Nat} (h : regionOf s.params addr = .out j)
    (hb : s.regs.busy = false) (hj : j + w.bytes ≤ s.params.outbufBytes) :
    hostReadValue s w addr = BitVec.ofNat 64 (leNat ((List.range w.bytes).map fun i => readByte s (outBase + j + i))) := by
  have hbytes : ∀ i ∈ List.range w.bytes, readOutByte s (j + i) = readByte s (outBase + j + i) := fun i hi => by
    have hlt : j + i < s.params.outbufBytes := by have := List.mem_range.1 hi; omega
    simp [readOutByte, hlt, hb, Nat.add_assoc]
  simp only [hostReadValue, h, List.map_congr_left hbytes]

/-- A little-endian number has no bit above its bytes. -/
theorem getLsbD_leNat_of_ge (bs : List Byte) {i : Nat} (h : 8 * bs.length ≤ i) :
    (BitVec.ofNat 64 (leNat bs)).getLsbD i = false := by
  have hlt : leNat bs < 2 ^ i := calc
    leNat bs < 256 ^ bs.length := leNat_lt bs
    _ = 2 ^ (8 * bs.length) := by rw [Nat.pow_mul]
    _ ≤ 2 ^ i := Nat.pow_le_pow_right (by decide) h
  rw [BitVec.getLsbD_ofNat, Nat.testBit_lt_two_pow hlt, Bool.and_false]

/-- Settles O19: a load assembles the bytes of OUT, and a store to OUT falls in the region that ignores it. -/
theorem outReadsLittleEndian : Obligations.OutReadsLittleEndian := by
  intro s w addr j hw ho
  have hregion : j < s.params.outbufBytes → regionOf s.params addr = .out j := regionOf_out hw ho
  refine ⟨fun hb hj => ?_, fun hj v => hostWrite_out v (hregion hj)⟩
  have hpos := w.bytes_pos
  rw [hostReadValue_out (hregion (by omega)) hb hj]
  refine ⟨fun i hi => ?_, fun i hi => getLsbD_leNat_of_ge _ (by simpa using hi)⟩
  rw [extract_leNat _ (by simpa using w.bytes_le)]
  simp [hi, outBase]

/-! ## SEEKTAB (R82, R84) -/

section
variable {s : State} {addr : DWord} {o : Nat}

theorem regionOf_seektab_regAddr {p : Params} (hw : p.wf = true) (hl : seektabBase ≤ o)
    (hu : o < seektabBase + 8 * p.seektabEntries) : regionOf p (regAddr p o) = .seektab o := by
  have hend := seektab_end_lt_outBase hw
  have ho : apertureOffset p (regAddr p o) = o := apertureOffset_regAddr p (by unfold outBase at hend; omega)
  exact (regionOf_seektab (by rwa [ho]) (by rwa [ho])).trans (by rw [ho])

/-- The four bytes of the word v. -/
def wordBytes (v : Word) : List Byte := leBytes 4 v.toNat

@[simp] theorem length_wordBytes (v : Word) : (wordBytes v).length = 4 := length_leBytes _ _

@[simp] theorem leNat_wordBytes (v : Word) : leNat (wordBytes v) = v.toNat := leNat_leBytes v

theorem hostWrite_seektab (v : DWord) (hr : regionOf s.params addr = .seektab o) (h4 : o % 4 = 0)
    (hc : configWritable s = true) : hostWrite .b32 addr v s = writeBytes o (wordBytes (lo v)) s := by
  simp [hostWrite, hr, aligned32, h4, hc, wordBytes]

theorem hostReadValue_seektab (hr : regionOf s.params addr = .seektab o) (h4 : o % 4 = 0) :
    hostReadValue s .b32 addr = BitVec.ofNat 64 (leNat (readBytes s o 4)) := by
  simp [hostReadValue, hr, aligned32, h4]

theorem readBytes_writeBytes_same (a : Nat) (bs : List Byte) (s : State) : readBytes (writeBytes a bs s) a bs.length = bs :=
  readBytes_written bs _ a fun i hi => by rw [readByte_writeBytes, if_pos (by omega), Nat.add_sub_cancel_left]

theorem readBytes_writeBytes_disjoint {a c n : Nat} {bs : List Byte} (s : State) (h : c + n ≤ a ∨ a + bs.length ≤ c) :
    readBytes (writeBytes a bs s) c n = readBytes s c n :=
  readBytes_congr_range n fun i hi => by rw [readByte_writeBytes, if_neg (by omega)]

/-- The state after both words of a pair are stored at the aperture offset o. -/
def writePair (o : Nat) (l h : Word) (s : State) : State := writeBytes (o + 4) (wordBytes h) (writeBytes o (wordBytes l) s)

theorem writePair_eq (o : Nat) (l h : Word) (s : State) : writePair o l h s = { s with mem := (writePair o l h s).mem } := by
  rw [writePair, writeBytes_eq (o + 4), writeBytes_eq o]

theorem params_writePair (o : Nat) (l h : Word) (s : State) : (writePair o l h s).params = s.params := by
  rw [writePair_eq]

theorem readBytes_writePair_lo (o : Nat) (l h : Word) (s : State) : readBytes (writePair o l h s) o 4 = wordBytes l := by
  rw [writePair, readBytes_writeBytes_disjoint _ (.inl le_rfl)]
  simpa using readBytes_writeBytes_same o (wordBytes l) s

theorem readBytes_writePair_hi (o : Nat) (l h : Word) (s : State) : readBytes (writePair o l h s) (o + 4) 4 = wordBytes h := by
  simpa [writePair] using readBytes_writeBytes_same (o + 4) (wordBytes h) (writeBytes o (wordBytes l) s)

theorem readByte_writePair_outside {x : Nat} (l h : Word) (s : State) (hx : x < o ∨ o + 8 ≤ x) :
    readByte (writePair o l h s) x = readByte s x := by
  rw [writePair, readByte_writeBytes, if_neg (by simp; omega), readByte_writeBytes, if_neg (by simp; omega)]

theorem toNat_append_word (h l : Word) : (h ++ l : BitVec 64).toNat = l.toNat + 256 ^ 4 * h.toNat := by
  rw [BitVec.toNat_append, ← Nat.shiftLeft_add_eq_or_of_lt l.isLt, Nat.shiftLeft_eq]
  omega

theorem seektabEntry_writePair {f : Nat} (l h : Word) (hf : f < s.params.seektabEntries) :
    seektabEntry (writePair (seektabBase + 8 * f) l h s) f = (h ++ l : BitVec 64).toNat := by
  rw [seektabEntry, params_writePair, if_pos hf, readBytes_append _ 4 4, readBytes_writePair_lo, readBytes_writePair_hi, leNat_append]
  simp only [length_wordBytes, leNat_wordBytes, toNat_append_word]

theorem params_writeBytes (a : Nat) (bs : List Byte) (s : State) : (writeBytes a bs s).params = s.params := by
  rw [writeBytes_eq]

theorem configWritable_writeBytes (a : Nat) (bs : List Byte) (s : State) :
    configWritable (writeBytes a bs s) = configWritable s := by
  rw [writeBytes_eq]
  rfl

/-- The stores of the LO and the HI word of a pair in SEEKTAB. -/
theorem hostWrite_pair {addr' : DWord} (l h : DWord) (hlo : regionOf s.params addr = .seektab o)
    (hhi : regionOf s.params addr' = .seektab (o + 4)) (h4 : o % 4 = 0) (hc : configWritable s = true) :
    hostWrite .b32 addr' h (hostWrite .b32 addr l s) = writePair o (lo l) (lo h) s := by
  rw [hostWrite_seektab l hlo h4 hc]
  exact hostWrite_seektab h (by rw [params_writeBytes, hhi]) (by omega) ((configWritable_writeBytes _ _ _).trans hc)

end

/-- Settles O20: the two stores write the entry's eight bytes, the reads give them back, and nothing else is written. -/
theorem seektabEntryStores : Obligations.SeektabEntryStores := by
  intro s f l h hw hfsm hb hf a t
  have h4 : (seektabBase + 8 * f) % 4 = 0 := by unfold seektabBase; omega
  have hregion : ∀ o, seektabBase ≤ o → o < seektabBase + 8 * s.params.seektabEntries →
      regionOf s.params (regAddr s.params o) = .seektab o := fun _ => regionOf_seektab_regAddr hw
  have hlo : regionOf s.params a = .seektab (seektabBase + 8 * f) := hregion (seektabBase + 8 * f) (by omega) (by omega)
  have hhi : regionOf s.params (a + 4) = .seektab (seektabBase + 8 * f + 4) :=
    regAddr_add_four s.params _ ▸ hregion (seektabBase + 8 * f + 4) (by omega) (by omega)
  have ht : t = writePair (seektabBase + 8 * f) (lo l) (lo h) s := hostWrite_pair l h hlo hhi h4 (configWritable_iff.2 ⟨hfsm, hb⟩)
  rw [ht]
  refine ⟨seektabEntry_writePair _ _ hf, ?_, ?_, fun x => readByte_writePair_outside _ _ s, writePair_eq _ _ _ s⟩
  · rw [hostReadValue_seektab (by rw [params_writePair, hlo]) h4, readBytes_writePair_lo, leNat_wordBytes, BitVec.ofNat_toNat]
  · rw [hostReadValue_seektab (by rw [params_writePair, hhi]) (by omega), readBytes_writePair_hi, leNat_wordBytes,
      BitVec.ofNat_toNat]

/-! ## Loads (R89) -/

/-- What a load reads does not depend on the outside's operations still to come. -/
theorem hostRead_withProg (l : List HostOp) (s : State) (w : Width) (addr : DWord) : hostRead w addr (withProg l s) =
    { s with host := { prog := l, log := ⟨w, addr, hostReadValue s w addr⟩ :: s.host.log }, draws := s.draws + 1 } := rfl

/-- Settles O17: a step that meets a load logs what it read and draws once. -/
theorem hostReadsAreIdempotent : Obligations.HostReadsAreIdempotent := by
  intro s w addr hu rest hprog
  rw [step_eq_hostStep hu, hostStep, hprog]
  exact congrArg Host.Outcome.next (hostRead_withProg rest s w addr)

end Sys2Proof.Machine
end

section
/-! SUPPORT. The decoder and the encoder (30_encoding.md R120 to R123, R127, R129): the round trip through each of the two word
spaces, the micro-operation words that decode, and the step that takes a word. -/

namespace Sys2Proof.Machine
open Sys2Proof.Laws

variable {i : Instr} {s : State} {w : Word}

/-! ## A word's bytes and fields -/

theorem decodeBytes_wordBytes (h : decodeWord w = .ok i) (rest : List Byte) :
    decodeBytes (Sys2Proof.wordBytes w ++ rest) = .ok (i, rest) := by
  simp only [Sys2Proof.wordBytes, List.cons_append, List.nil_append, decodeBytes, word_of_bytes, h]

/-- The fields of a micro-operation word with operands A and Bs (R129), as the decoder cuts them out. -/
theorem fields_operandWord {u a b : Nat} (hu : u < 256) (ha : a < 256) (hb : b < 256) :
    (uopWord u a b 0).toNat % 256 = u ∧ (uopWord u a b 0).toNat / 256 % 256 = a ∧ (uopWord u a b 0).toNat / 65536 % 256 = b ∧
      (uopWord u a b 0).toNat / 33554432 = 0 := by
  rw [toNat_uopWord hu ha hb (by decide)]
  omega

theorem decodeUop_uBrReadbits {n : Nat} (h : n < 256) : decodeUop (uopWord 0x23 n 0 0) = .ok (.uBrReadbits n) := by
  obtain ⟨hu, ha, -, hz⟩ := fields_operandWord (u := 0x23) (b := 0) (by decide) h (by decide)
  simp [decodeUop, hu, ha, hz]

theorem decodeUop_uPredReset {c : Nat} (h : c < 256) : decodeUop (uopWord 0x30 c 0 0) = .ok (.uPredReset c) := by
  obtain ⟨hu, ha, -, hz⟩ := fields_operandWord (u := 0x30) (b := 0) (by decide) h (by decide)
  simp [decodeUop, hu, ha, hz]

theorem decodeUop_uStageStep {c st : Nat} (hc : c < 256) (hst : st < 256) :
    decodeUop (uopWord 0x31 c st 0) = .ok (.uStageStep c st) := by
  obtain ⟨hu, ha, hb, hz⟩ := fields_operandWord (u := 0x31) (by decide) hc hst
  simp [decodeUop, hu, ha, hb, hz]

theorem decodeUop_uPredStep {c : Nat} (h : c < 256) : decodeUop (uopWord 0x32 c 0 0) = .ok (.uPredStep c) := by
  obtain ⟨hu, ha, -, hz⟩ := fields_operandWord (u := 0x32) (b := 0) (by decide) h (by decide)
  simp [decodeUop, hu, ha, hz]

/-! ## An instruction decodes in the space of its kind (log 21) -/

theorem decodeCmd_encode (hc : i.isCommand = true) : decodeCmd (encode i) = .ok i := by
  cases i
  case nop | init | initR | getdata | seek | getinfoChannels | getinfoSampleRate | getinfoBitsPerSample | getinfoBlockAlign |
      getinfoTotalBlocks | getinfoCurrentBlock | getinfoCompressionLevel | getinfoHadErrors | getinfoFormatVersion |
      getinfoLegacyMode | release => rfl
  all_goals cases hc

theorem decodeUop_encode (hw : i.wf = true) (hc : i.isCommand = false) : decodeUop (encode i) = .ok i := by
  cases i
  case uBrReadbits n =>
    have hn : 1 ≤ n ∧ n ≤ 32 := of_decide_eq_true hw
    exact decodeUop_uBrReadbits (by omega)
  case uPredReset c => exact decodeUop_uPredReset (of_decide_eq_true hw)
  case uStageStep c st => exact decodeUop_uStageStep (of_decide_eq_true hw).1 (of_decide_eq_true hw).2
  case uPredStep c => exact decodeUop_uPredStep (of_decide_eq_true hw)
  case uStartFrame m | uDecodeBlock m | uEndFrame m | pDecodeFrame m => cases m <;> rfl
  case uSrcSeek | uSrcRead | uSrcSize | uBrReset | uBrFetch | uBrReadbit | uBrHeader | uBrSymbol | uUnprepare | uPack | uSilence |
      uCkUpdate | uRingReset | uRingWrite | uRingRead | uRingDrop | uRingSilenceTail | pPosition => rfl
  all_goals cases hc

/-! ## The words of each space -/

theorem opcode_of_decodeCmd (h : decodeCmd w = .ok i) : w.toNat % 256 < 6 := by
  unfold decodeCmd at h
  simp only at h
  split at h
  · cases h
  · split at h
    case h_7 => cases h
    all_goals omega

/-- The micro-operation words that decode (R129): no field but UCODE and bits 31:25 is looked at (logs 19, 20). -/
theorem decodeUop_ok_iff : (∃ i, decodeUop w = .ok i) ↔ w.toNat % 256 ∈ knownUcodes ∧ w.toNat / 2 ^ 25 = 0 := by
  unfold decodeUop
  simp only
  split
  case isTrue hz => simp [hz]
  case isFalse hz =>
    have hz : w.toNat / 2 ^ 25 = 0 := not_not.1 hz
    rw [and_iff_left hz]
    split
    case h_27 => simp_all [knownUcodes]
    all_goals next hu => simp [hu, knownUcodes]

theorem decodeUop_error (h : w.toNat % 256 ∉ knownUcodes ∨ w.toNat / 2 ^ 25 ≠ 0) : ∃ e, decodeUop w = .error e := by
  cases hd : decodeUop w with
  | error e => exact ⟨e, rfl⟩
  | ok i =>
    obtain ⟨hu, hz⟩ := decodeUop_ok_iff.1 ⟨i, hd⟩
    exact absurd h (not_or.2 ⟨not_not.2 hu, not_not.2 hz⟩)

theorem ucode_of_decodeUop (h : decodeUop w = .ok i) : 16 ≤ w.toNat % 256 := by
  have hall : ∀ u ∈ knownUcodes, 16 ≤ u := by decide
  exact hall _ (decodeUop_ok_iff.1 ⟨i, h⟩).1

/-- A well-formed instruction's word lies in the space of its kind. -/
theorem low_encode_lt_iff (hw : i.wf = true) : (encode i).toNat % 256 < 16 ↔ i.isCommand = true := by
  cases hc : i.isCommand with
  | true =>
    have hop := opcode_of_decodeCmd (decodeCmd_encode hc)
    exact iff_of_true (by omega) rfl
  | false =>
    have hu := ucode_of_decodeUop (decodeUop_encode hw hc)
    exact iff_of_false (by omega) Bool.false_ne_true

theorem decodeWord_encode (hw : i.wf = true) : decodeWord (encode i) = .ok i := by
  unfold decodeWord
  split
  case isTrue hlow => exact decodeCmd_encode ((low_encode_lt_iff hw).1 hlow)
  case isFalse hlow => exact decodeUop_encode hw (eq_false_of_ne_true (mt (low_encode_lt_iff hw).2 hlow))

/-! ## The round trip -/

/-- Settles O1: the four bytes are the word again, and the word decodes in its own space. -/
theorem decodeEncodeRoundTrip : Obligations.DecodeEncodeRoundTrip := fun _ rest hw =>
  decodeBytes_wordBytes (decodeWord_encode hw) rest

/-- Settles O2: each word is, bit for bit, the one the encoder gives. -/
theorem sampleWordsDecode : Obligations.SampleWordsDecode :=
  ⟨decodeCmd_encode (i := .nop) rfl, decodeCmd_encode (i := .initR) rfl, decodeCmd_encode (i := .getinfoCompressionLevel) rfl,
    decodeCmd_encode (i := .release) rfl, decodeUop_encode (i := .uBrReadbits 32) rfl rfl,
    decodeUop_encode (i := .uStageStep 1 255) rfl rfl, decodeUop_encode (i := .uDecodeBlock .deliver) rfl rfl,
    decodeUop_encode (i := .pDecodeFrame .discard) rfl rfl⟩

/-! ## The step that takes a micro-operation word -/

theorem step_eq_uopStep (h : s.uop = some w) : step s = uopStep w s := by
  rw [step, h]

theorem uopStep_ok (h : decodeUop w = .ok i) : uopStep w s = exec i { s with uop := none } := by
  rw [uopStep, h]

theorem uopStep_error {e : Reject} (h : decodeUop w = .error e) : uopStep w s = .fault .unmodelledUop := by
  rw [uopStep, h]

/-- Settles O4: the words that decode are just those of the table. -/
theorem unknownUopsFault : Obligations.UnknownUopsFault := by
  refine ⟨fun s w hu hbad => ?_, fun w hu hz => decodeUop_ok_iff.2 ⟨hu, hz⟩⟩
  obtain ⟨e, he⟩ := decodeUop_error hbad
  rw [step_eq_uopStep hu, uopStep_error he]

/-- Settles O5: a held word is taken before any operation of the outside. -/
theorem stepRunsUopWord : Obligations.StepRunsUopWord := fun s w i hu hd => by
  rw [step_eq_uopStep hu, uopStep_ok hd]

/-! ## The step that takes a command word (46_host_commands.md R400) -/

theorem isCmdWrite_regAddr (p : Params) : isCmdWrite p .b32 (regAddr p 0x0C) = true := by
  simp [isCmdWrite, isRegWrite, regionOf_reg]

theorem step_cmdWrite {v : DWord} {rest : List HostOp} (hu : s.uop = none)
    (hp : s.host.prog = .wr .b32 (regAddr s.params 0x0C) v :: rest) (hb : s.regs.busy = false) :
    step s = acceptCmd (lo v) (withProg rest s) := by
  have hcmd : isCmdWrite (withProg rest s).params .b32 (regAddr s.params 0x0C) ∧ ¬ (withProg rest s).regs.busy :=
    ⟨isCmdWrite_regAddr s.params, by simp [hb]⟩
  rw [step_eq_hostStep hu, hostStep, hp]
  exact if_pos hcmd

/-- With no host access before its first micro-operation, an accepted command runs in the state the latches leave. -/
theorem acceptCmd_quiet (hq : s.host.quiet = true) (hd : decodeCmd w = .ok i) : acceptCmd w s = exec i (acceptLatch w s) := by
  have hlatch : interleave (acceptLatch w s) = .ok () (acceptLatch w s) := interleave_undisturbed (.inr hq)
  simp only [acceptCmd, startsCommand, runWord, hd, hlatch, if_true]

/-! ## Placing a word (log 14) -/

theorem tableWord_toNat (w : Word) : tableWord 32 w.toNat = w := by
  rw [tableWord, Nat.mod_eq_of_lt w.isLt, BitVec.ofNat_toNat, BitVec.setWidth_eq]

theorem lo_setWidth (w : Word) : lo (w.setWidth 64) = w := by
  apply BitVec.eq_of_toNat_eq
  simpa [lo] using w.isLt

theorem step_placeWord_command (hlow : w.toNat % 256 < 16) (hd : decodeCmd w = .ok i) : step (placeWord w s) =
    exec i (acceptLatch w { s with uop := none, host.prog := .wait :: s.host.prog }) := by
  rw [placeWord, if_pos hlow]
  refine (step_cmdWrite rfl rfl rfl).trans ?_
  rw [lo_setWidth, acceptCmd_quiet rfl hd]
  rfl

theorem step_placeWord_uop (hlow : ¬ w.toNat % 256 < 16) (hd : decodeUop w = .ok i) :
    step (placeWord w s) = exec i { s with uop := none } := by
  rw [placeWord, if_neg hlow]
  exact stepRunsUopWord _ w i rfl hd

/-- Settles O7: the low byte says which kind of word is placed, and the decoder gives the instruction back. -/
theorem placedWordRuns : Obligations.PlacedWordRuns := by
  intro s i hw
  have hlow := low_encode_lt_iff hw
  rw [State.withFetchWord, tableWord_toNat]
  split
  case isTrue hc => exact step_placeWord_command (hlow.2 hc) (decodeCmd_encode hc)
  case isFalse hc => exact step_placeWord_uop (mt hlow.1 hc) (decodeUop_encode hw (eq_false_of_ne_true hc))

end Sys2Proof.Machine
end

section
/-! SUPPORT. The three requests of the byte source run on their own (41_bitreader.md R218 to R220, 20_memory.md R86): answered, failed,
and never answered. -/

namespace Sys2Proof.Machine

variable {s : State}

/-! ## An answered request -/

theorem uSrcSeek_ok (off : Nat) (h1 : nextAnswer s.src ≠ .fail) (h2 : nextAnswer s.src ≠ .never) :
    uSrcSeek off s = .ok () { s with src := { s.src.afterRequest (.seek off) with pos := off } } :=
  Seq.bind_ok (request_ok _ h1 h2)

theorem uSrcSize_ok (h1 : nextAnswer s.src ≠ .fail) (h2 : nextAnswer s.src ≠ .never) :
    uSrcSize s = .ok s.src.bytes.length { s with src := s.src.afterRequest .size } :=
  Seq.bind_ok (request_ok _ h1 h2)

theorem exec_uSrcSeek (h1 : nextAnswer s.src ≠ .fail) (h2 : nextAnswer s.src ≠ .never) :
    exec .uSrcSeek s = .next { s with src := { s.src.afterRequest (.seek s.op.off.toNat) with pos := s.op.off.toNat },
                                      op := { s.op with ret := .nothing } } :=
  runUop_then (f := fun _ => .nothing) (uSrcSeek_ok _ h1 h2)

theorem exec_uSrcRead {n : Nat} (h1 : nextAnswer s.src ≠ .fail) (h2 : nextAnswer s.src ≠ .never)
    (hn : readCount (nextAnswer s.src) s.op.max.toNat s.src.pos s.src.bytes.length = n) :
    exec .uSrcRead s = .next { s with src := { s.src.afterRequest (.read s.op.max.toNat) with pos := s.src.pos + n },
                                      op := { s.op with ret := .bytes ((s.src.bytes.drop s.src.pos).take n) } } :=
  hn ▸ runUop_then (uSrcRead_ok _ h1 h2)

theorem exec_uSrcSize (h1 : nextAnswer s.src ≠ .fail) (h2 : nextAnswer s.src ≠ .never) :
    exec .uSrcSize s = .next { s with src := s.src.afterRequest .size, op := { s.op with ret := .num s.src.bytes.length } } :=
  runUop_then (uSrcSize_ok h1 h2)

/-! ## A request that stops the micro-operation -/

/-- Each of the three micro-operations stops where its one request does. -/
theorem exec_source_stop {i : Instr} (hi : i = .uSrcSeek ∨ i = .uSrcRead ∨ i = .uSrcSize) (s : State) :
    ∃ req, ∀ st t, request req s = .error st t → exec i s = stopOut t st := by
  rcases hi with rfl | rfl | rfl
  · exact ⟨.seek s.op.off.toNat, fun _ _ h => runUop_stop (Seq.bind_error (Seq.bind_error h))⟩
  · exact ⟨.read s.op.max.toNat, fun _ _ h => runUop_stop (Seq.bind_error (Seq.bind_error h))⟩
  · exact ⟨.size, fun _ _ h => runUop_stop (Seq.bind_error (Seq.bind_error h))⟩

/-- Outside any command a failed request is reported in the result (log 16). -/
theorem stopOut_ioFailure_idle (h : s.regs.busy = false) : stopOut s .ioFailure = .next { s with op.ret := .ioFailure } := by
  rw [stopOut, recoverRunning_idle h, settle]

/-- Settles O34: each of the three micro-operations makes one request and answers as the request's draw says. -/
theorem sourceRequests : Obligations.SourceRequests := by
  refine ⟨fun s h1 h2 => ⟨⟨_, exec_uSrcSeek h1 h2, rfl, rfl⟩, ?_, ⟨_, exec_uSrcSize h1 h2, rfl, rfl⟩⟩, fun s i hi => ?_⟩
  · obtain ⟨hmax, hleft⟩ := readCount_le (nextAnswer s.src) s.op.max.toNat s.src.pos s.src.bytes.length
    refine ⟨_, _, exec_uSrcRead h1 h2 rfl, rfl, rfl, hmax, hleft, fun hm hp => (readCount_bounds _ hm hp).1, fun hfull => ?_⟩
    rw [hfull, readCount]
  · obtain ⟨req, hstop⟩ := exec_source_stop hi s
    refine ⟨fun hfail hb => ?_, fun hnever => ?_⟩
    · refine ⟨s.src.afterRequest req, rfl, rfl, ?_⟩
      rw [hstop _ _ (request_fail req hfail), stopOut_ioFailure_idle (by exact hb)]
    · exact ⟨{ s.src.afterRequest req with outstanding := some req }, rfl, rfl, rfl, hstop _ _ (request_never req hnever)⟩

end Sys2Proof.Machine
end

section
/-! SUPPORT. The BitReader's micro-operations run on their own where the source answers (41_bitreader.md R201 to R208): the reset, the
fetch, and what reads through them. -/

namespace Sys2Proof.Machine

variable {α : Type} {s : State}

/-! ## The fetch (R203) -/

/-- A fetch goes by the bytes its read gives. -/
theorem uBrFetch_of_read (hs : Undisturbed s) {bs : List Byte} {t : State}
    (h : uSrcRead (min s.params.fetchBytes (s.br.len - s.br.fetched)) s = .ok bs t) :
    uBrFetch s = if bs.length = 0 then .ok (.error .prematureEnd) t
      else .ok (.ok ()) { t with br := { t.br with buf := t.br.unconsumed ++ bs, fetched := t.br.fetched + bs.length } } := by
  unfold uBrFetch
  rw [Seq.bind_ok (Seq.get_run s), Seq.bind_ok ((call_undisturbed hs).trans h)]
  split <;> rfl

/-- Dropping the bytes below byte p/8 leaves as many as were fetched from there on, and not one from below what br.buf held. -/
theorem BrOk.length_unconsumed (h : BrOk s) :
    s.br.unconsumed.length ≤ s.br.buf.length ∧ s.br.fetched - s.br.unconsumed.length ≤ s.br.p / 8 := by
  have hk := h.kept
  rw [BitReader.unconsumed, List.length_drop]
  omega

/-- They are still the window's bytes up to br.fetched. -/
theorem BrOk.unconsumed_eq (h : BrOk s) : s.br.unconsumed =
    (s.src.bytes.drop (s.br.start + (s.br.fetched - s.br.unconsumed.length))).take s.br.unconsumed.length := by
  have hs := h.size
  have hk := h.kept
  rw [BitReader.unconsumed, List.length_drop]
  by_cases hd : s.br.buf.length ≤ s.br.p / 8 - (s.br.fetched - s.br.buf.length)
  · rw [List.drop_eq_nil_of_le hd, Nat.sub_eq_zero_of_le hd, List.take_zero]
  · have hb := congrArg (List.drop (s.br.p / 8 - (s.br.fetched - s.br.buf.length))) h.buf
    rw [List.drop_take, List.drop_drop] at hb
    refine hb.trans ?_
    congr 2
    omega

/-- The state after a fetch of n bytes. -/
def fetchedState (s : State) (n : Nat) : State :=
  { s with br := { s.br with buf := s.br.unconsumed ++ (s.src.bytes.drop s.src.pos).take n, fetched := s.br.fetched + n },
           src := { s.src.afterRequest (.read (min s.params.fetchBytes (s.br.len - s.br.fetched))) with pos := s.src.pos + n } }

/-- Bytes of the window appended to br.buf keep the reader in order. -/
theorem brOk_fetchedState {n : Nat} (h : BrOk s) (hn : n ≤ s.br.len - s.br.fetched) : BrOk (fetchedState s n) := by
  obtain ⟨hw, hf, hp, hsz, hk, -⟩ := id h
  obtain ⟨hle, hdrop⟩ := h.length_unconsumed
  have hlen : (s.br.unconsumed ++ (s.src.bytes.drop s.src.pos).take n).length = s.br.unconsumed.length + n := by
    rw [List.length_append, List.length_take, List.length_drop]
    omega
  have hlow : s.br.fetched + n - (s.br.unconsumed.length + n) = s.br.fetched - s.br.unconsumed.length := by omega
  constructor <;> simp only [fetchedState, hlen, hlow]
  case window => exact hw
  case fetched => omega
  case pos => omega
  case size => omega
  case kept => exact hdrop
  case buf =>
    show _ = (s.src.bytes.drop _).take _
    conv_lhs => rw [h.unconsumed_eq]
    rw [List.take_add, List.drop_drop]
    congr 3
    omega

theorem uBrFetch_ok (hs : Served s) (h : BrOk s) {n : Nat} (h1 : 1 ≤ n) (hn : n ≤ s.br.len - s.br.fetched)
    (hc : readCount (nextAnswer s.src) (min s.params.fetchBytes (s.br.len - s.br.fetched)) s.src.pos s.src.bytes.length = n) :
    uBrFetch s = .ok (.ok ()) (fetchedState s n) := by
  have hlen : ((s.src.bytes.drop s.src.pos).take n).length = n := by
    rw [List.length_take, List.length_drop, h.pos]
    have hw := h.window
    omega
  rw [uBrFetch_of_read hs.calm (uSrcRead_ok _ hs.answer.1 hs.answer.2), hc, hlen, if_neg (by omega)]
  rfl

theorem readCount_ended (a : SrcAnswer) (max : Nat) {pos z : Nat} (h : z ≤ pos) : readCount a max pos z = 0 := by
  have hle := (readCount_le a max pos z).2
  omega

/-- Where the source has ended, a fetch leaves all but the source's draw (log 32). -/
theorem uBrFetch_ended (hs : Served s) (h : s.src.bytes.length ≤ s.src.pos) : uBrFetch s = .ok (.error .prematureEnd)
    { s with src := s.src.afterRequest (.read (min s.params.fetchBytes (s.br.len - s.br.fetched))) } := by
  rw [uBrFetch_of_read hs.calm (uSrcRead_ok _ hs.answer.1 hs.answer.2), readCount_ended _ _ h]
  rfl

/-- Settles O36: the read gives 1 to min(FETCH_BYTES, bytes left) bytes of the window, and none where the source has ended. -/
theorem brFetchAdvances : Obligations.BrFetchAdvances := by
  refine ⟨decodeUop_encode (i := .uBrFetch) rfl rfl, fun s hs hf h hlt => ?_, fun s hs hend => ?_⟩
  · have hw := h.window
    have hp := h.pos
    obtain ⟨h1, hmin, -⟩ := readCount_bounds (nextAnswer s.src) (max := min s.params.fetchBytes (s.br.len - s.br.fetched))
      (pos := s.src.pos) (z := s.src.bytes.length) (by omega) (by omega)
    obtain ⟨hfetch, hleft⟩ := le_min_iff.1 hmin
    exact ⟨_, _, runUop_then (uBrFetch_ok hs h h1 hleft rfl), rfl, (brOk_fetchedState h hleft).congr rfl rfl, rfl, rfl, h1, hfetch,
      hleft⟩
  · exact ⟨_, runUop_then (uBrFetch_ended hs hend), rfl, rfl⟩

/-! ## What reads bits (R204 to R208) -/

/-- At the window's end a bit read fails before it fetches. -/
theorem exec_uBrReadbit_end (h : 8 * s.br.len ≤ s.br.p) :
    exec .uBrReadbit s = .next { s with op := { s.op with ret := .frameError } } := by
  have hend : uBrReadbit s = .ok (.error .prematureEnd) s := by
    unfold uBrReadbit
    rw [Seq.bind_ok (Seq.get_run s), if_pos h]
    rfl
  exact runUop_then hend

theorem ReadTo.br {p : Nat} {t : State} (h : ReadTo p s t) :
    t.br = { s.br with buf := t.br.buf, fetched := t.br.fetched, p := p } := by
  simp only [← h.start, ← h.len, ← h.pos, ← h.ent]

/-- Where the source answers, a reader that can yield nothing but v and leads to p does so, and changes nothing else but the fetched
bytes and the source. -/
theorem reader_ok {m : Seq α} {v : α} {p : Nat} (hs : Served s) (hk : Keeps .fed False (readsView .fed) m)
    (hy : Yields m s fun r t => r = v ∧ ReadTo p s t) :
    ∃ t, m s = .ok v t ∧ BrOk t ∧ t.src.bytes = s.src.bytes ∧
      t = { s with br := { s.br with buf := t.br.buf, fetched := t.br.fetched, p := p }, src := t.src } := by
  obtain ⟨_, t, hm, ⟨hview, -⟩, rfl, hr⟩ := ((hk.ends hs.fed).and hy).exists_ok
  refine ⟨t, hm, hr.ok, hr.bytes, (readsView_frame rfl hview).1.trans ?_⟩
  rw [← hr.br]

/-- The same of a micro-operation that is a reader, run on its own. -/
theorem runUop_reader {m : Seq α} {v : α} {p : Nat} {f : α → UopResult} (hs : Served s) (hk : Keeps .fed False (readsView .fed) m)
    (hy : Yields m s fun r t => r = v ∧ ReadTo p s t) :
    ∃ t, runUop (do let x ← m; pure (f x)) s = .next t ∧ BrOk t ∧ t.src.bytes = s.src.bytes ∧
      t = { s with br := { s.br with buf := t.br.buf, fetched := t.br.fetched, p := p }, src := t.src,
                   op := { s.op with ret := f v } } := by
  obtain ⟨t, hm, hok, hbytes, ht⟩ := reader_ok hs hk hy
  refine ⟨_, runUop_then hm, hok.congr rfl rfl, hbytes, ?_⟩
  rw [ht]

theorem readBitsAt_position (bit : Nat → Bool) (limit n p : Nat) :
    (readBitsAt bit limit n 0 p).2 = if p + n ≤ limit then p + n else max p limit := by
  rw [readBitsAt_eq]
  split_ifs <;> simp only <;> omega

theorem bitResult_readBitsAt (bit : Nat → Bool) (limit n p : Nat) : bitResult .num (readBitsAt bit limit n 0 p).1 =
    if n = 0 ∨ p + n ≤ limit then .num (fieldAt bit p n) else .frameError := by
  rw [readBitsAt_eq]
  split <;> rfl

/-- Settles O37: U_BR_READBIT and U_BR_READBITS are readers of the frame's bit stream. -/
theorem bitsRead : Obligations.BitsRead := by
  refine fun s hs hf h => ⟨?_, fun n => ?_⟩
  · split
    next hp =>
      exact runUop_reader hs keeps_uBrReadbit ((yields_uBrReadbit hf h).mono fun r t ht => by rwa [if_neg (by omega)] at ht)
    next hp => exact exec_uBrReadbit_end (by omega)
  · rw [← readBitsAt_position, ← bitResult_readBitsAt]
    exact runUop_reader hs (keeps_uBrReadbits n) (yields_uBrReadbits n hf h)

/-- The entropy state is no part of where the reader stands. -/
theorem BrOk.withEnt (h : BrOk s) (ent : Nat) : BrOk { s with br := { s.br with ent } } :=
  ⟨h.window, h.fetched, h.pos, h.size, h.kept, h.buf⟩

/-- A member of WIRE_FORMAT is a reader (R206). -/
theorem runWire_ok (w : WireProg α) (hs : Served s) (hf : 1 ≤ s.params.fetchBytes) (h : BrOk s) :
    ∃ t, runWire w s = .ok (evalWire (frameBit s) (8 * s.br.len) w s.br.p).1 t ∧ BrOk t ∧ t.src.bytes = s.src.bytes ∧
      t = { s with br := { s.br with buf := t.br.buf, fetched := t.br.fetched,
                                     p := (evalWire (frameBit s) (8 * s.br.len) w s.br.p).2 }, src := t.src } :=
  reader_ok hs (keeps_runWire w) (yields_runWire w hf h)

/-- What U_BR_HEADER records of the member's result (R207). -/
def recordHeader (t : State) : Except FrameErr HeaderOk → State
  | .ok h => { t with br := { t.br with ent := h.ent }, frm := { t.frm with storedCk := h.storedCk, silent := h.silent } }
  | .error _ => { t with frm := { t.frm with frameErr := true, silent := false } }

/-- What U_BR_SYMBOL records of the member's result (R208). -/
def recordSymbol (t : State) : Except FrameErr SymbolOk → State
  | .ok y => { t with br := { t.br with ent := y.ent } }
  | .error _ => { t with frm := { t.frm with frameErr := true } }

theorem uBrHeader_of_wire {r : Except FrameErr HeaderOk} {t : State}
    (h : runWire (wireHeader s.params.wireFormat (8 * s.br.len) s.br.p) s = .ok r t) :
    uBrHeader s = .ok () (recordHeader t r) := by
  unfold uBrHeader
  rw [Seq.bind_ok (Seq.get_run s), Seq.bind_ok h]
  cases r <;> rfl

theorem uBrSymbol_of_wire {r : Except FrameErr SymbolOk} {t : State}
    (h : runWire (wireSymbol s.params.wireFormat s.br.ent (8 * s.br.len) s.br.p) s = .ok r t) :
    uBrSymbol s = .ok (r.toOption.map fun y => y.e.toInt) (recordSymbol t r) := by
  unfold uBrSymbol
  rw [Seq.bind_ok (Seq.get_run s), Seq.bind_ok h]
  cases r <;> rfl

theorem BrOk.recordHeader {t : State} (h : BrOk t) : ∀ r, BrOk (recordHeader t r)
  | .ok a => (h.withEnt a.ent).congr rfl rfl
  | .error _ => h.congr rfl rfl

theorem BrOk.recordSymbol {t : State} (h : BrOk t) : ∀ r, BrOk (recordSymbol t r)
  | .ok y => h.withEnt y.ent
  | .error _ => h.congr rfl rfl

/-- Settles O40: a member of WIRE_FORMAT is a reader; what follows it records its result, or the frame error. -/
theorem headerAndSymbol : Obligations.HeaderAndSymbol := by
  refine fun s hs hf h => ⟨?_, ?_⟩
  · obtain ⟨t, ht, hok, hbytes, hframe⟩ := runWire_ok (wireHeader s.params.wireFormat (8 * s.br.len) s.br.p) hs hf h
    refine ⟨_, runUop_then (f := fun _ => .nothing) (uBrHeader_of_wire ht), (hok.recordHeader _).congr rfl rfl, ?_⟩
    generalize evalWire _ _ _ _ = x at hframe ⊢
    obtain ⟨er | a, q⟩ := x <;> exact ⟨hbytes, by rw [hframe]; rfl⟩
  · obtain ⟨t, ht, hok, hbytes, hframe⟩ := runWire_ok (wireSymbol s.params.wireFormat s.br.ent (8 * s.br.len) s.br.p) hs hf h
    refine ⟨_, runUop_then (uBrSymbol_of_wire ht), (hok.recordSymbol _).congr rfl rfl, ?_⟩
    generalize evalWire _ _ _ _ = x at hframe ⊢
    obtain ⟨er | y, q⟩ := x <;> exact ⟨hbytes, by rw [hframe]; rfl⟩

/-- Settles O35: a window of no bytes is at its end. -/
theorem brResetClears : Obligations.BrResetClears :=
  ⟨decodeUop_encode (i := .uBrReset) rfl rfl, fun _ => rfl, fun _ h => exec_uBrReadbit_end (by rw [h]; exact Nat.zero_le _)⟩

end Sys2Proof.Machine
end

section
/-! SUPPORT. TEST_RICE on any bit stream (41_bitreader.md R212 to R215): what a read followed by "a PREMATURE_END is returned as
PREMATURE_END" does, the header's three fields, and the zeros, the one and the remainder of a code word. -/

namespace Sys2Proof.Machine

variable {α : Type} {bit : Nat → Bool} {limit p : Nat}

/-! ## Reads of a wire program -/

theorem evalWire_bits (n : Nat) (k : Nat → WireProg α) : evalWire bit limit (.bits n (orPremature k)) p =
    if n = 0 ∨ p + n ≤ limit then evalWire bit limit (k (fieldAt bit p n)) (p + n) else (.error .prematureEnd, max p limit) := by
  rw [evalWire, readBitsAt_eq]
  split <;> rfl

theorem evalWire_bits_ok {n : Nat} (h : p + n ≤ limit) (k : Nat → WireProg α) :
    evalWire bit limit (.bits n (orPremature k)) p = evalWire bit limit (k (fieldAt bit p n)) (p + n) := by
  rw [evalWire_bits, if_pos (.inr h)]

theorem evalWire_bits_cut {n : Nat} (hp : p ≤ limit) (h : limit < p + n) (k : Nat → WireProg α) :
    evalWire bit limit (.bits n (orPremature k)) p = (.error .prematureEnd, limit) := by
  rw [evalWire_bits, if_neg (by omega), max_eq_right hp]

theorem evalWire_bit_ok (h : p < limit) (k : Bool → WireProg α) :
    evalWire bit limit (.bit (orPremature k)) p = evalWire bit limit (k (bit p)) (p + 1) := by
  rw [evalWire, if_neg (by omega), orPremature]

theorem evalWire_bit_cut (k : Bool → WireProg α) :
    evalWire bit p (.bit (orPremature k)) p = (.error .prematureEnd, p) := by
  rw [evalWire, if_pos le_rfl]
  rfl

/-! ## The header (R212) -/

/-- Settles O38: the reads of 32, 8 and 5 bits in turn, each cut off by the stream's end or not. -/
theorem riceHeaderFields : Obligations.RiceHeaderFields := by
  intro bit limit p hp ck sp k
  rw [wireHeader, riceHeader]
  by_cases h32 : p + 32 ≤ limit
  case neg => rw [evalWire_bits_cut hp (by omega), if_pos (by omega)]
  rw [evalWire_bits_ok h32]
  by_cases h40 : p + 32 + 8 ≤ limit
  case neg => rw [evalWire_bits_cut h32 (by omega), if_pos (by omega)]
  rw [evalWire_bits_ok h40, if_neg (show ¬ limit < p + 40 by omega)]
  show evalWire bit limit (if sp / 2 ≠ 0 then _ else _) (p + 40) = _
  split
  · rfl
  split
  · rfl
  by_cases h45 : p + 40 + 5 ≤ limit
  case neg => rw [evalWire_bits_cut h40 (by omega), if_pos (by omega)]
  rw [evalWire_bits_ok h45, if_neg (show ¬ limit < p + 45 by omega)]
  show evalWire bit limit (if 24 < k then _ else _) (p + 45) = _
  split <;> rfl

/-! ## The symbol (R214, R215) -/

/-- j zeros of a code word, where m more are still allowed. -/
theorem evalWire_ricePrefix_zeros (k m : Nat) : ∀ j q {p : Nat}, (∀ i, i < j → bit (p + i) = false) → p + j ≤ limit →
    evalWire bit limit (ricePrefix k (m + j) q) p = evalWire bit limit (ricePrefix k m (q + j)) (p + j) := by
  intro j
  induction j with
  | zero => intro q p _ _; rfl
  | succ j ih =>
    intro q p hz hl
    have hbit : bit p = false := hz 0 (by omega)
    have hrest : ∀ i, i < j → bit (p + 1 + i) = false := fun i hi => by
      rw [Nat.add_assoc, Nat.add_comm 1]
      exact hz (i + 1) (by omega)
    rw [← Nat.add_assoc, ricePrefix, evalWire_bit_ok (by omega), hbit, if_neg Bool.false_ne_true, ih (q + 1) hrest (by omega)]
    rw [Nat.add_right_comm q, Nat.add_right_comm p, Nat.add_assoc q, Nat.add_assoc p]

/-- After q ≤ 32 zeros one bit more is read. -/
theorem evalWire_riceSymbol_zeros {k q : Nat} (hz : ∀ i, i < q → bit (p + i) = false) (hq : q ≤ 32) (hl : p + q ≤ limit) :
    evalWire bit limit (riceSymbol k) p = evalWire bit limit
      (.bit <| orPremature fun b => if b then riceRemainder k q else ricePrefix k (32 - q) (q + 1)) (p + q) := by
  have h33 : 33 = (32 - q) + 1 + q := by omega
  rw [riceSymbol, h33, evalWire_ricePrefix_zeros k _ q 0 hz hl, Nat.zero_add, ricePrefix]

theorem evalWire_riceSymbol_one {k q : Nat} (hz : ∀ i, i < q → bit (p + i) = false) (hq : q ≤ 32) (h1 : bit (p + q) = true)
    (hl : p + q + 1 ≤ limit) :
    evalWire bit limit (riceSymbol k) p = evalWire bit limit (riceRemainder k q) (p + q + 1) := by
  rw [evalWire_riceSymbol_zeros hz hq (by omega), evalWire_bit_ok (by omega), h1, if_pos rfl]

theorem evalWire_riceRemainder {k : Nat} (q : Nat) (h : p + k ≤ limit) :
    evalWire bit limit (riceRemainder k q) p = (.ok (riceValue k q (fieldAt bit p k)), p + k) := by
  rw [riceRemainder]
  split
  next h0 => subst h0; rfl
  next => rw [evalWire_bits_ok h]; rfl

theorem evalWire_riceRemainder_cut {k : Nat} (q : Nat) (hp : p ≤ limit) (h : limit < p + k) :
    evalWire bit limit (riceRemainder k q) p = (.error .prematureEnd, limit) := by
  rw [riceRemainder, if_neg (by omega), evalWire_bits_cut hp h]

theorem fieldAt_lt (bit : Nat → Bool) (p n : Nat) : fieldAt bit p n < 2 ^ n := by
  have h := fieldAcc_lt bit n 0 p
  rwa [Nat.zero_add, Nat.one_mul] at h

/-- unzigzag of a number that fits 64 bits fits 64 signed bits (R215). -/
theorem toInt_unzigzag {u : Nat} (h : u < 2 ^ 64) : (BitVec.ofInt 64 (unzigzag u)).toInt = unzigzag u := by
  have hb : -2 ^ 63 ≤ unzigzag u ∧ unzigzag u < 2 ^ 63 := by
    unfold unzigzag
    split <;> omega
  exact BitVec.toInt_ofInt_eq_self (by decide) hb.1 hb.2

/-- With k ≤ 24 a code word's number is below 33 × 2^24. -/
theorem riceNumber_lt {k q r : Nat} (hk : k ≤ 24) (hq : q ≤ 32) (hr : r < 2 ^ k) : q * 2 ^ k + r < 2 ^ 64 :=
  calc q * 2 ^ k + r < (q + 1) * 2 ^ k := by rw [Nat.add_mul, Nat.one_mul]; omega
    _ ≤ 33 * 2 ^ 24 := Nat.mul_le_mul (by omega) (Nat.pow_le_pow_right (by decide) hk)
    _ < 2 ^ 64 := by decide

/-- Settles O39, clause by clause: where the zeros end, and whether the stream holds the remainder. -/
theorem riceSymbolValue : Obligations.RiceSymbolValue := by
  intro bit limit k p q hz
  refine ⟨fun hq h1 hl => ⟨?_, fun hk => ?_⟩, fun hq hl => ?_, fun hq h1 hl hcut => ?_, fun hq hl => ?_⟩
  · exact (evalWire_riceSymbol_one hz hq h1 (by omega)).trans (evalWire_riceRemainder q hl)
  · exact toInt_unzigzag (riceNumber_lt hk hq (fieldAt_lt bit _ k))
  · subst hq
    exact evalWire_ricePrefix_zeros k 0 33 0 hz hl
  · exact (evalWire_riceSymbol_one hz hq h1 hl).trans (evalWire_riceRemainder_cut q hl hcut)
  · subst hl
    exact (evalWire_riceSymbol_zeros hz hq le_rfl).trans (evalWire_bit_cut _)

end Sys2Proof.Machine
end

section
/-! SUPPORT. The Predictor's micro-operations run on their own (42_predictor.md R254 to R263): the arithmetic of one stage, the step of a
stage the channel has and of one it has not, and the cascade of a channel where nothing disturbs it. -/

namespace Sys2Proof.Machine

variable {s : State} {c k : Nat} {g : StageCfg} {st : StageState} {sts : List StageState}

/-! ## The reset (R254) -/

theorem exec_uPredReset (s : State) (c : Nat) : exec (.uPredReset c) s =
    .next { s with pred := s.pred.set c (zeroPred s.cfg.stages), op := { s.op with ret := .nothing } } :=
  runUop_then (m := uPredReset c) (f := fun _ => .nothing) rfl

/-- Settles O41: the stages that the reset writes are CFG's, with zeros. -/
theorem predResetZeroes : Obligations.PredResetZeroes :=
  ⟨decodeUop_encode (i := .uPredReset 1) rfl rfl, fun s c _ => exec_uPredReset s c⟩

/-! ## The multiply-accumulate (R255, R256) -/

theorem macAcc_eq_zip (coef hist : List Int) : macAcc coef hist = wrapN 64 ((coef.zip hist).map fun p => p.1 * p.2).sum := by
  rw [macAcc, ← List.map_uncurry_zip_eq_zipWith]
  rfl

/-- A value that fits n signed bits is left as it is (00_scope.md R10). -/
theorem wrapN_of_fits {n : Nat} {v : Int} (hn : 1 ≤ n) (hl : -2 ^ (n - 1) ≤ v) (hu : v < 2 ^ (n - 1)) : wrapN n v = v := by
  obtain ⟨m, rfl⟩ : ∃ m, n = m + 1 := ⟨n - 1, by omega⟩
  rw [Nat.add_sub_cancel] at hl hu
  have h2 : (2 : Int) ^ (m + 1) = 2 * 2 ^ m := pow_succ' 2 m
  unfold wrapN
  rw [Nat.add_sub_cancel]
  by_cases h0 : 0 ≤ v
  · rw [Int.emod_eq_of_lt h0 (by omega), if_pos hu]
  · have hmod : v % 2 ^ (m + 1) = v + 2 ^ (m + 1) := by
      rw [← Int.add_emod_right, Int.emod_eq_of_lt (by omega) (by omega)]
    rw [hmod, if_neg (by omega), Int.add_sub_cancel]

/-- The magnitude of a product of an m + 1-bit and an n + 1-bit signed value. -/
theorem abs_mul_le_two_pow {m n : Nat} {a b : Int} (ha : -2 ^ m ≤ a ∧ a < 2 ^ m) (hb : -2 ^ n ≤ b ∧ b < 2 ^ n) : |a * b| ≤ 2 ^ (m + n) := by
  rw [abs_mul, pow_add]
  exact mul_le_mul (abs_le.2 ⟨ha.1, ha.2.le⟩) (abs_le.2 ⟨hb.1, hb.2.le⟩) (abs_nonneg b) (by positivity)

/-- Settles O44: a fold with a wrap at each step is the wrapped sum, which no order changes; a product's magnitude is that of its
factors. -/
theorem macOrderIndependent : Obligations.MacOrderIndependent := by
  refine ⟨fun coef hist l hl => ?_, fun Wc Wh a b hc1 hc2 hh1 hh2 hal hau hbl hbu => ?_⟩
  · rw [foldl_mac l 0 rfl, Int.zero_add, macAcc_eq_zip, (hl.map _).sum_eq]
  · obtain ⟨hlo, hhi⟩ := abs_le.1 (abs_mul_le_two_pow ⟨hal, hau⟩ ⟨hbl, hbu⟩)
    have hbits : (2 : Int) ^ (Wc - 1 + (Wh - 1)) < 2 ^ (Wc + Wh - 1) := pow_lt_pow_right₀ (by decide) (by omega)
    have hroom : (2 : Int) ^ (Wc + Wh - 1) ≤ 2 ^ 63 := pow_le_pow_right₀ (by decide) (by omega)
    exact ⟨by omega, by omega, wrapN_of_fits (by decide) (by omega) (by omega)⟩

/-! ## One stage, tap by tap (R255 to R259) -/

theorem length_adaptCoef (x : Int) {coef hist : List Int} (hc : coef.length = g.N) (hh : hist.length = g.N) :
    (adaptCoef g x coef hist).length = g.N := by
  rw [adaptCoef, List.length_zipWith, hc, hh, min_self]

/-- A coefficient adapts by its own tap of the old history (R258). -/
theorem getD_adaptCoef (x : Int) {coef hist : List Int} {j : Nat} (hc : j < coef.length) (hh : j < hist.length) :
    (adaptCoef g x coef hist).getD j 0 = wrapN g.Wc (coef.getD j 0 + g.mu * sgn x * sgn (hist.getD j 0)) := by
  have hlt : j < (adaptCoef g x coef hist).length := by rw [adaptCoef, List.length_zipWith]; omega
  rw [List.getD_eq_getElem _ _ hc, List.getD_eq_getElem _ _ hh, List.getD_eq_getElem _ _ hlt]
  exact List.getElem_zipWith

theorem length_shiftHist (y : Int) {hist : List Int} (h : 1 ≤ hist.length) : (shiftHist g y hist).length = hist.length := by
  rw [shiftHist, List.length_cons, List.length_dropLast]
  omega

/-- Every sample but the last moves up by one place (R259). -/
theorem getD_shiftHist_succ (y : Int) {hist : List Int} {j : Nat} (h : j + 1 < hist.length) :
    (shiftHist g y hist).getD (j + 1) 0 = hist.getD j 0 := by
  have hlt : j < hist.dropLast.length := by rw [List.length_dropLast]; omega
  rw [shiftHist, List.getD_cons_succ, List.getD_eq_getElem _ _ hlt, List.getD_eq_getElem _ _ (by omega), List.getElem_dropLast]

theorem stageOutput_eq (x : Int) (hc : st.coef.length = g.N) (hh : st.hist.length = g.N) : stageOutput g st x =
    wrapN 64 (x + macPred g.k (wrapN 64 ((List.range g.N).map fun j => st.coef.getD j 0 * st.hist.getD j 0).sum)) := by
  rw [stageOutput, macAcc, zipWith_mul_eq g.N _ _ hc hh]

theorem StageCfg.wf_bounds (h : g.wf = true) : 1 ≤ g.N ∧ 2 ≤ g.Wc := by
  obtain ⟨hN, -, -, hWc, -⟩ := of_decide_eq_true h
  exact ⟨hN, hWc⟩

/-! ## The step of a stage (R255, R260) -/

theorem stageAt_of_pos {α : Type} (l : List α) (h : 1 ≤ k) : stageAt l k = l[k - 1]? := if_neg (by omega)

/-- Stage numbers are 1 to S (log 18). -/
theorem stageAt_outside {α : Type} {l : List α} (h : k = 0 ∨ l.length < k) : stageAt l k = none := by
  rcases h with rfl | h
  · rfl
  · rw [stageAt_of_pos l (by omega), List.getElem?_eq_none (by omega)]

theorem predStage_of_pred (hp : s.pred[c]? = some sts) : predStage s c k = stageAt sts k := by
  rw [predStage, hp]

theorem predStage_no_channel (h : s.pred.length ≤ c) : predStage s c k = none := by
  rw [predStage, List.getElem?_eq_none h]

theorem setPredStage_of_pred (hp : s.pred[c]? = some sts) :
    setPredStage c k st s = { s with pred := s.pred.set c (sts.set (k - 1) st) } := by
  rw [setPredStage, List.modify_eq_set_getElem?, hp]
  rfl

theorem uStageStep_present (x : Int) (hg : stageAt s.cfg.stages k = some g) (hst : predStage s c k = some st) :
    uStageStep c k x s = .ok (stageOutput g st x) (setPredStage c k (stageNext g st x) s) := by
  unfold uStageStep
  rw [Seq.bind_ok (Seq.get_run s), hg, hst]
  rfl

/-- A stage that the channel has not yields a free value, and nothing changes (log 15). -/
theorem uStageStep_absent (x : Int) (h : stageAt s.cfg.stages k = none ∨ predStage s c k = none) :
    uStageStep c k x s = .ok (absentStage c k x) s := by
  unfold uStageStep
  rw [Seq.bind_ok (Seq.get_run s)]
  rcases h with h | h
  · rw [h]; rfl
  · rw [h]; cases stageAt s.cfg.stages k <;> rfl

/-- Settles O42: the channel has the stage, and its next state is read off tap by tap. -/
theorem stageStepResult : Obligations.StageStepResult := by
  intro s c k g sts st hk hg hp hst hwf hc hh x acc pred y
  obtain ⟨hN, hWc⟩ := StageCfg.wf_bounds hwf
  have hstep : uStageStep c k x s = .ok (stageOutput g st x) (setPredStage c k (stageNext g st x) s) :=
    uStageStep_present x ((stageAt_of_pos _ hk).trans hg) ((predStage_of_pred hp).trans ((stageAt_of_pos _ hk).trans hst))
  rw [setPredStage_of_pred hp, stageOutput_eq x hc hh] at hstep
  have hy : (stageNext g st x).hist = shiftHist g y st.hist := congrArg (shiftHist g · st.hist) (stageOutput_eq x hc hh)
  refine ⟨stageNext g st x, runUop_then hstep, length_adaptCoef x hc hh, ?_, fun j hj => ?_, ?_, fun j hj => ?_⟩
  · rw [hy, length_shiftHist y (by omega), hh]
  · have htap := getD_adaptCoef (g := g) x (hc.symm ▸ hj) (hh.symm ▸ hj)
    exact ⟨htap, htap.symm ▸ wrapN_bounds (by omega) _⟩
  · rw [hy]; rfl
  · rw [hy, getD_shiftHist_succ y (by omega)]

/-! ## The cascade of a channel (R260, R261, R263) -/

/-- Undisturbed, U_PRED_STEP always yields a sample, and changes the predictors alone. -/
theorem uPredStep_ok (c : Nat) (e : Int) (hs : Undisturbed s) : ∃ y p, uPredStep c e s = .ok y { s with pred := p } := by
  unfold uPredStep
  rw [Seq.bind_ok (Seq.get_run s)]
  exact cascade_ok c _ e s hs

/-- Where it must yield v and leave the predictors P, it does. -/
theorem uPredStep_of_yields {e v : Int} {P : List (List StageState)} (hs : Undisturbed s)
    (h : Yields (uPredStep c e) s fun y t => y = v ∧ Alike { s with pred := P } t) :
    uPredStep c e s = .ok v { s with pred := P } := by
  obtain ⟨y, p, hrun⟩ := uPredStep_ok c e hs
  obtain ⟨rfl, ht⟩ := Sat.ok h hrun
  have hp : p = P := ht.pred
  rw [hrun, hp]

/-- Settles O43: the cascade of the channel's stages; of no stages it is the identity. -/
theorem predStepCascade : Obligations.PredStepCascade := by
  intro s c sts hs hp
  have hrun := runUop_then (f := .sample) (uPredStep_of_yields hs (yields_uPredStep s.op.x.toInt rfl hp))
  refine ⟨hrun, fun hnone => hrun.trans ?_⟩
  rw [hnone, cascadeOf, set_self hp]

/-- A channel without a predictor keeps none of its stages, and each yields a free value (log 15). -/
theorem uPredStep_no_channel (e : Int) (hs : Undisturbed s) (h : s.pred.length ≤ c) :
    uPredStep c e s = .ok (cascadeOf c 1 s.cfg.stages [] e).1 s :=
  uPredStep_of_yields (P := s.pred) hs (Yields.bind (Sat.get (yields_cascade_none c _ fun _ _ => predStage_no_channel h)))

end Sys2Proof.Machine
end

section
/-! SUPPORT. The micro-operations run on their own with an operand outside their rule's range (log 15): each yields its value or ends,
and the frame lemmas say what it leaves. -/

namespace Sys2Proof.Machine

variable {s : State}

theorem exec_uPredReset_no_channel {c : Nat} (h : s.pred.length ≤ c) :
    exec (.uPredReset c) s = .next { s with op := { s.op with ret := .nothing } } := by
  rw [exec_uPredReset, List.set_eq_of_length_le h]

theorem exec_uStageStep_absent {c k : Nat} (h : k = 0 ∨ s.cfg.stages.length < k ∨ s.pred.length ≤ c) :
    exec (.uStageStep c k) s = .next { s with op := { s.op with ret := .sample (absentStage c k s.op.x.toInt) } } := by
  have hnone : stageAt s.cfg.stages k = none ∨ predStage s c k = none := by
    rcases h with h | h | h
    · exact .inl (stageAt_outside (.inl h))
    · exact .inl (stageAt_outside (.inr h))
    · exact .inr (predStage_no_channel h)
  exact runUop_then (uStageStep_absent _ hnone)

/-- A micro-operation without a value, run on its own, that ends in Q. -/
theorem runUop_ends {m : Seq Unit} {Q : Unit → State → Prop} (h : Ends m s Q) :
    ∃ t, runUop (do m; pure .nothing) s = .next { t with op := { t.op with ret := .nothing } } ∧ Q () t := by
  obtain ⟨_, t, hm, hq⟩ := h.exists_ok
  exact ⟨t, runUop_then (f := fun _ => .nothing) hm, hq⟩

theorem exec_uStartFrame_ends (hs : Served s) (m : Mode) : ∃ t, exec (.uStartFrame m) s = .next t ∧
    t.frm.curFrame = s.op.g.toNat ∧ t.frm.blkInFrame = 0 ∧ t.frm.placed = 0 ∧ t.ring = s.ring ∧ t.cur = s.cur ∧ t.mem = s.mem := by
  obtain ⟨u, hu, hv, -, hg, hb, hp⟩ := runUop_ends (Ends.of_stops (sat_uStartFrame (φ := False) s.op.g.toNat hs.fed))
  have hframe := (frameView_frame rfl hv).1
  exact ⟨_, hu, hg, hb, hp, (congrArg State.ring hframe :), (congrArg State.cur hframe :), (congrArg State.mem hframe :)⟩

theorem exec_pDecodeFrame_discard_ends (hs : Served s) :
    ∃ t, exec (.pDecodeFrame .discard) s = .next t ∧ t.ring = s.ring ∧ t.cur = s.cur ∧ t.mem = s.mem := by
  obtain ⟨u, hu, hv, -⟩ := runUop_ends ((keeps_pDecodeFrame_discard s.op.g.toNat).ends hs.fed)
  exact ⟨_, hu, (congrArg State.ring hv :), (congrArg State.cur hv :), (congrArg State.mem hv :)⟩

/-- An empty ring has room for any frame's blocks. -/
theorem exec_pDecodeFrame_deliver_ends (hs : Served s) (hcfg : CfgOk s.cfg) (hr : RingOk s) (h0 : s.ring.count = 0) :
    ∃ t, exec (.pDecodeFrame .deliver) s = .next t ∧ t.mem = s.mem ∧
      t.cur = { s.cur with nextFrame := s.op.g.toNat + 1, skipBlocks := 0 } ∧
      t.ring.count = min (frameBlocks s.cfg s.op.g.toNat) (s.cfg.F - s.op.g.toNat * s.cfg.B) - s.cur.skipBlocks := by
  have hroom : frameBlocks s.cfg s.op.g.toNat ≤ s.ring.cap := (frameBlocks_le hcfg _).trans hr.room
  obtain ⟨u, hu, hv, -, -, hcur, hcount, -⟩ := runUop_ends (Ends.of_stops (sat_pDecodeFrame (φ := False) hs.fed h0 hr.wr hroom))
  exact ⟨_, hu, (congrArg State.mem (positionView_frame rfl hv).1 :), hcur, hcount⟩

theorem exec_pPosition_ends (hs : Served s) : ∃ t, exec .pPosition s = .next t ∧ t.mem = s.mem ∧ t.ring.count = 0 ∧ t.ring.rd = 0 ∧
    t.ring.wr = 0 ∧ t.cur = positioned s.op.b.toNat s := by
  obtain ⟨u, hu, hv, -, hrd, hwr, hcount, hcur⟩ := runUop_ends (Ends.of_stops (sat_pPosition (φ := False) s.op.b.toNat hs.fed))
  exact ⟨_, hu, (congrArg State.mem (positionView_frame rfl hv).1 :), hcount, hrd, hwr, hcur⟩

/-- Settles O58, micro-operation by micro-operation. -/
theorem operandsOutsideRangeRun : Obligations.OperandsOutsideRangeRun := by
  refine fun s => ⟨fun c hc => ⟨exec_uPredReset_no_channel hc, fun hs => ⟨_, runUop_then (uPredStep_no_channel _ hs hc)⟩⟩,
    fun c k h => ⟨_, exec_uStageStep_absent h⟩, fun _ => ⟨_, runUop_then rfl⟩, fun _ hle => ?_,
    fun hs m => exec_uStartFrame_ends hs m, exec_pDecodeFrame_discard_ends, exec_pDecodeFrame_deliver_ends, exec_pPosition_ends⟩
  obtain ⟨count, hdrop, hcap, -⟩ := dropBlocks_eq s.op.n.toNat s
  have hrun : uRingDrop s.op.n.toNat s = .ok () (dropBlocks s.op.n.toNat s) := rfl
  rw [hdrop] at hrun
  exact ⟨count, hcap hle, runUop_then (f := fun _ => .nothing) hrun⟩

end Sys2Proof.Machine
end

section
/-! SUPPORT. The Reconstructor's and the checksum's micro-operations run on their own (43_reconstructor.md R291 to R299): each completes,
and the facts of R10's arithmetic that R291, R293 and R295 use. -/

namespace Sys2Proof.Machine

/-! ## The runs: each is its function's value, and nothing more -/

theorem exec_uUnprepare (s : State) : exec .uUnprepare s = .next { s with op := { s.op with
    ret := .samples (unprepare s.params.unprepare s.cfg.C (s.op.vals.map BitVec.toInt)) } } :=
  runUop_then rfl

theorem exec_uPack (s : State) : exec .uPack s = .next { s with op := { s.op with
    ret := .bytes (packSample s.op.bps.toNat s.op.x.toInt) } } :=
  runUop_then rfl

theorem exec_uSilence (s : State) : exec .uSilence s = .next { s with op := { s.op with ret := .bytes (silenceBlock s.cfg) } } :=
  runUop_then rfl

theorem exec_uCkUpdate (s : State) : exec .uCkUpdate s = .next { s with
    frm := { s.frm with runCk := s.op.blk.foldl (ckUpdate s.params.checksum) s.frm.runCk }, op := { s.op with ret := .nothing } } :=
  runUop_then (m := uCkUpdate s.op.blk) (f := fun _ => .nothing) rfl

/-! ## The transform of two channels (R291, R292) -/

theorem unprepare_of_ne_two (u : Unprepare) {C : Nat} (h : C ≠ 2) (vals : List Int) : unprepare u C vals = vals := if_neg h

theorem exec_uUnprepare_msTrunc {s : State} {x y : DWord} (hC : s.cfg.C = 2) (hv : s.op.vals = [x, y]) (hu : s.params.unprepare = .msTrunc) :
    exec .uUnprepare s = .next { s with op := { s.op with ret := .samples (msTrunc x.toInt y.toInt) } } := by
  rw [exec_uUnprepare, hC, hv, hu]
  rfl

/-- The encoder's X of two 63-bit values lies between them. -/
theorem msTrunc_mid_bounds {l r lo hi : Int} (hl : lo ≤ l ∧ l < hi) (hr : lo ≤ r ∧ r < hi) :
    lo ≤ r + (l - r).tdiv 2 ∧ r + (l - r).tdiv 2 < hi := by
  rcases Int.le_total r l with h | h
  · rw [Int.tdiv_eq_ediv_of_nonneg (by omega)]
    omega
  · rw [show l - r = -(r - l) by omega, Int.neg_tdiv, Int.tdiv_eq_ediv_of_nonneg (by omega)]
    omega

/-- MS_TRUNC undoes the encoder's transform where its results fit 64 bits. -/
theorem msTrunc_encoded {l r : Int} (hl : -2 ^ 63 ≤ l ∧ l < 2 ^ 63) (hr : -2 ^ 63 ≤ r ∧ r < 2 ^ 63) :
    msTrunc (r + Int.tdiv (l - r) 2) (l - r) = [l, r] := by
  have hR : wrapN 64 (r + Int.tdiv (l - r) 2 - tdiv (l - r) 2) = r := by
    rw [tdiv, Int.add_sub_cancel, wrapN_of_fits (by decide) hr.1 hr.2]
  simp only [msTrunc, hR]
  rw [add_sub_cancel, wrapN_of_fits (by decide) hl.1 hl.2]

/-- Settles O45: MS_TRUNC of what the encoder's transform gives, which fits 64 bits; and no form changes the number of samples. -/
theorem unprepareChannels : Obligations.UnprepareChannels := by
  refine ⟨fun s hC => ?_, fun s x y hC hv hu => exec_uUnprepare_msTrunc hC hv hu, fun s l r hC hu hl1 hl2 hr1 hr2 hv => ?_,
    fun s => ⟨_, exec_uUnprepare s, by rw [length_unprepare, List.length_map]⟩⟩
  · rw [exec_uUnprepare, unprepare_of_ne_two _ hC]
  · obtain ⟨hX1, hX2⟩ := msTrunc_mid_bounds ⟨hl1, hl2⟩ ⟨hr1, hr2⟩
    have hX : (BitVec.ofInt 64 (r + Int.tdiv (l - r) 2)).toInt = r + Int.tdiv (l - r) 2 :=
      BitVec.toInt_ofInt_eq_self (by decide) (by omega) (by omega)
    have hY : (BitVec.ofInt 64 (l - r)).toInt = l - r := BitVec.toInt_ofInt_eq_self (by decide) (by omega) (by omega)
    rw [exec_uUnprepare_msTrunc hC hv hu, hX, hY, msTrunc_encoded ⟨by omega, by omega⟩ ⟨by omega, by omega⟩]

/-! ## The bytes of a sample (R293, R295) -/

/-- Bits of a value below w are those of its remainder at w (00_scope.md R10). -/
theorem asr_emod_two_pow (v : Int) {w k n : Nat} (h : k + n ≤ w) : asr (v % 2 ^ w) k % 2 ^ n = asr v k % 2 ^ n := by
  obtain ⟨m, rfl⟩ := Nat.exists_eq_add_of_le h
  have hv : v = v % 2 ^ (k + n + m) + 2 ^ k * (2 ^ n * (2 ^ m * (v / 2 ^ (k + n + m)))) := by
    rw [← mul_assoc, ← mul_assoc, ← pow_add, ← pow_add, Int.emod_add_mul_ediv]
  conv_rhs => rw [hv, asr, Int.add_mul_ediv_left _ _ (by positivity), Int.add_mul_emod_self_left]
  rfl

/-- A byte of v is that byte of any word which holds v's low bits up to it: the wrap at w bits changes none of them (R10, R84). -/
theorem byte_asr_ofInt (v : Int) {w k : Nat} (h : k + 8 ≤ w) : BitVec.ofInt 8 (asr v k) = (BitVec.ofInt w v).extractLsb' k 8 := by
  have hw : ((BitVec.ofInt w v).toNat : Int) = v % 2 ^ w := by
    rw [BitVec.toNat_ofInt, Int.toNat_of_nonneg (Int.emod_nonneg _ (by positivity)), Nat.cast_pow, Nat.cast_ofNat]
  apply BitVec.eq_of_toNat_eq
  rw [BitVec.toNat_ofInt, BitVec.extractLsb'_toNat, Nat.shiftRight_eq_div_pow, Nat.cast_pow, Nat.cast_ofNat,
    ← asr_emod_two_pow v h, asr, ← hw]
  rfl

theorem packSample_8 (v : Int) : packSample 8 v = [BitVec.ofInt 8 (v + 128)] := by
  simp [packSample, leBytes, asr]

theorem packSample_le {bps : Nat} (h : bps = 16 ∨ bps = 24 ∨ bps = 32) (v : Int) : packSample bps v = leBytes (bps / 8) v := by
  rw [packSample, if_neg (by omega), if_pos h]

theorem packSample_wrapped {bps : Nat} (h : bps = 16 ∨ bps = 24 ∨ bps = 32) (v : Int) :
    packSample bps v = (List.range (bps / 8)).map fun i => (BitVec.ofInt bps v).extractLsb' (8 * i) 8 := by
  rw [packSample_le h]
  exact List.map_congr_left fun i hi => byte_asr_ofInt v (by have := List.mem_range.1 hi; omega)

/-- Settles O46: the bytes of a value are those of its wrap at the sample's depth. -/
theorem packBytes : Obligations.PackBytes := by
  refine ⟨decodeUop_encode (i := .uPack) rfl rfl, fun s => ⟨fun h => ?_, fun h => ?_, fun h => ?_, fun h => ?_⟩⟩
  · rw [exec_uPack, h, ← packSample_8]
    rfl
  · rw [exec_uPack, h, packSample_wrapped (by decide)]
    rfl
  · rw [exec_uPack, h, packSample_wrapped (by decide)]
    rfl
  · rw [exec_uPack, h, packSample_wrapped (by decide)]
    rfl

theorem leBytes_zero (n : Nat) : leBytes n 0 = List.replicate n 0 := by
  simp [leBytes, asr, List.map_const']

/-- Settles O47: the sample value 0 is one byte 0x80 at 8 bits and bytes 0x00 at the other depths, and C samples are C times that. -/
theorem silenceBytes : Obligations.SilenceBytes := by
  refine ⟨decodeUop_encode (i := .uSilence) rfl rfl, exec_uSilence, fun s h => ?_, fun s h => ?_⟩
  · have hblk : silenceBlock s.cfg = List.replicate s.cfg.C 0x80 := by
      rw [silenceBlock, h, packSample_8]
      exact List.flatten_replicate_singleton
    rw [exec_uSilence, hblk]
  · have hblk : silenceBlock s.cfg = List.replicate (s.cfg.C * (s.cfg.bps / 8)) 0x00 := by
      rw [silenceBlock, packSample_le h, leBytes_zero, List.flatten_replicate_replicate]
    rw [exec_uSilence, hblk]

/-! ## The checksum (R298, R299) -/

theorem crcShift_eq (c : Word) : crcShift c = (c >>> 1) ^^^ (if c.getLsbD 0 then 0xEDB88320 else 0) := by
  unfold crcShift
  split
  · rfl
  · exact (BitVec.xor_zero).symm

/-- The check value that R299 gives: the CRC32 of the ASCII digits 1 to 9. -/
theorem crc32_check_value : ckFinal .crc32
    ([0x31, 0x32, 0x33, 0x34, 0x35, 0x36, 0x37, 0x38, 0x39].foldl (ckUpdate .crc32) (ckInit .crc32)) = 0xCBF43926 := by
  decide +kernel

/-- Settles O48: the fold is the run's, and a shift of CRC32 is R299's. -/
theorem checksumUpdate : Obligations.ChecksumUpdate := by
  refine ⟨decodeUop_encode (i := .uCkUpdate) rfl rfl, exec_uCkUpdate, rfl, fun _ => rfl, fun c b => ?_, crc32_check_value⟩
  rw [← funext crcShift_eq]
  rfl

end Sys2Proof.Machine
end

section
/-! SUPPORT. The ring's micro-operations run on their own (44_framebuffer.md R321 to R326): the reset, the write, the read, the drop and the
silencing of the newest slots. -/

namespace Sys2Proof.Machine

variable {s : State}

/-! ## U_RING_RESET (R321) and U_RING_DROP (R325) -/

theorem exec_uRingReset (s : State) : exec .uRingReset s = .next { ringReset s with op.ret := .nothing } :=
  runUop_then (m := uRingReset) (f := fun _ => .nothing) rfl

theorem exec_uRingDrop (s : State) : exec .uRingDrop s = .next { dropBlocks s.op.n.toNat s with op.ret := .nothing } :=
  runUop_then (m := uRingDrop s.op.n.toNat) (f := fun _ => .nothing) rfl

/-- Settles O49: the reset writes four fields of the ring, and a drop of blocks that the ring has is `advanceRead`. -/
theorem ringResetAndDrop : Obligations.RingResetAndDrop := by
  refine ⟨decodeUop_encode (i := .uRingReset) rfl rfl, decodeUop_encode (i := .uRingDrop) rfl rfl, fun s => ⟨_, exec_uRingReset s⟩,
    fun s h => ?_⟩
  rw [exec_uRingDrop, dropBlocks_of_le h]
  rfl

/-! ## U_RING_WRITE (R322, R323) -/

/-- A block of BA bytes that is stored in a slot is what this slot reads, and no other slot changes. -/
theorem ringSlot_setSlot {blk : List Byte} (k : Nat) (hl : blk.length = s.cfg.BA) (slot : Nat) :
    ringSlot (setSlot k blk s) slot = if slot = k then blk else ringSlot s slot := by
  have hfind := findKey_insertKey k slot blk s.ring.data
  split
  case isTrue h => exact ringSlot_of_find (hfind.trans (if_pos h.symm)) hl
  case isFalse h =>
    rw [if_neg (Ne.symm h)] at hfind
    simp only [ringSlot, setSlot_ring_data, setSlot_cfg, setSlot_epoch, hfind]

theorem uRingWrite_full (blk : List Byte) (h : s.ring.count = s.ring.cap) :
    uRingWrite blk s = .error (.fault .ringOverflow) s := by
  unfold uRingWrite
  rw [Seq.bind_ok (Seq.get_run s), if_pos h]
  rfl

theorem uRingWrite_room (blk : List Byte) (h : s.ring.count ≠ s.ring.cap) : uRingWrite blk s = .ok ()
    { setSlot s.ring.wr blk s with ring.wr := (s.ring.wr + 1) % s.ring.cap, ring.count := s.ring.count + 1 } := by
  unfold uRingWrite
  rw [Seq.bind_ok (Seq.get_run s), if_neg h]
  rfl

/-- Settles O50: a full ring stops the write before it changes anything, and a ring with room has slot wr set. -/
theorem ringWriteAppends : Obligations.RingWriteAppends := by
  refine ⟨decodeUop_encode (i := .uRingWrite) rfl rfl, fun s hfull => ?_, fun s hroom hl => ?_⟩
  · exact runUop_stop (Seq.bind_error (uRingWrite_full s.op.blk hfull))
  · refine ⟨_, runUop_then (f := fun _ => .nothing) (uRingWrite_room s.op.blk hroom), rfl, fun slot => ?_⟩
    exact (ringSlot_congr rfl rfl rfl slot).trans (ringSlot_setSlot s.ring.wr hl slot)

/-! ## U_RING_READ (R324) -/

theorem exec_uRingRead (s : State) : exec .uRingRead s =
    let m := min s.op.n.toNat s.ring.count
    .next { advanceRead m (copyBlocks s.op.dst.toNat (List.range m) s) with op.ret := .num m } :=
  runUop_then (m := uRingRead s.op.n.toNat s.op.dst.toNat) (f := .num) rfl

/-- Byte j of the i-th copied block, where it lies in OUT. -/
theorem readByte_copyBlocks_block {dst m i j : Nat} (hi : i < m) (hj : j < s.cfg.BA) (ho : dst + i * s.cfg.BA + j < s.params.outbufBytes) :
    readByte (copyBlocks dst (List.range m) s) (outBase + dst + i * s.cfg.BA + j) = (ringSlot s (readSlot s.ring i)).getD j 0 := by
  have hend : i * s.cfg.BA + s.cfg.BA ≤ m * s.cfg.BA := Nat.succ_mul i _ ▸ Nat.mul_le_mul_right _ hi
  have hoff : outBase + dst + i * s.cfg.BA + j - (outBase + dst) = j + s.cfg.BA * i := by rw [Nat.mul_comm i]; omega
  rw [readByte_copyBlocks, if_pos (by omega), hoff, Nat.add_mul_div_left _ _ (by omega), Nat.add_mul_mod_self_left,
    Nat.div_eq_of_lt hj, Nat.mod_eq_of_lt hj, Nat.zero_add]

/-- Settles O51: the copies change memory alone, byte by byte as `readByte_copyBlocks` says, and the read index moves past them. -/
theorem ringReadCopies : Obligations.RingReadCopies := by
  refine ⟨decodeUop_encode (i := .uRingRead) rfl rfl, fun s => ⟨_, exec_uRingRead s, ?_, fun i j hi hj ho => ?_, fun a ha => ?_⟩⟩
  · rw [copyBlocks_eq]
    rfl
  · exact (readByte_congr rfl rfl _).trans (readByte_copyBlocks_block hi hj ho)
  · exact (readByte_congr rfl rfl a).trans ((readByte_copyBlocks _ _ a s).trans (if_neg (by unfold outBase; omega)))

/-! ## U_RING_SILENCE_TAIL (R326) -/

theorem exec_uRingSilenceTail (s : State) : exec .uRingSilenceTail s =
    .next { silenceSlots (List.range' 1 s.op.n.toNat) s with op.ret := .nothing } :=
  runUop_then (m := uRingSilenceTail s.op.n.toNat) (f := fun _ => .nothing) rfl

/-- Settles O52: the silencing changes ring.data alone, slot by slot as `ringSlot_silenceSlots` says. -/
theorem ringSilenceTail : Obligations.RingSilenceTail := by
  refine ⟨decodeUop_encode (i := .uRingSilenceTail) rfl rfl, fun s hcap hBA => ?_⟩
  obtain ⟨hsilent, hkept⟩ := ringSlot_silenceSlots (n := s.op.n.toNat) hBA (.inr hcap)
  refine ⟨_, exec_uRingSilenceTail s, ?_, fun slot i h1 h2 hi => ?_, fun slot hn => ?_⟩
  · rw [silenceSlots_eq]
  · exact (ringSlot_congr rfl rfl rfl slot).trans (hsilent slot i h1 h2 hi)
  · exact (ringSlot_congr rfl rfl rfl slot).trans (hkept slot hn)

end Sys2Proof.Machine
end

section
/-! SUPPORT. A frame's start, one block and a frame's end run on their own (45_frame_sequencer.md R353 to R355): what each leaves, from what
its parts yield and leave alone. -/

namespace Sys2Proof.Machine

variable {s t : State}

theorem Ends.mono {α : Type} {m : Seq α} {Q Q' : α → State → Prop} (h : Ends m s Q) (hq : ∀ a t, Q a t → Q' a t) : Ends m s Q' :=
  Sat.mono h hq fun _ _ h => h

/-- A micro-operation without a result that ends, run on its own. -/
theorem Ends.runUop {m : Seq Unit} {Q : Unit → State → Prop} (h : Ends m s Q) :
    ∃ t, Machine.runUop (do m; pure .nothing) s = .next { t with op.ret := .nothing } ∧ Q () t := by
  obtain ⟨_, t, hm, hq⟩ := h.exists_ok
  exact ⟨t, runUop_then (f := fun _ => .nothing) hm, hq⟩

/-! ## A frame's start (R353) -/

theorem frameBegin_of_ok {g q : Nat} {h : HeaderOk} (P : List (List StageState)) (hx : headerOf s g = (.ok h, q)) :
    frameBegin s g P = ⟨startPreds s g P, q, h.ent, false, ckInit s.params.checksum⟩ := by
  unfold frameBegin
  rw [hx]
  rfl

theorem frameBegin_of_error {g q : Nat} {er : FrameErr} (P : List (List StageState)) (hx : headerOf s g = (.error er, q)) :
    frameBegin s g P = ⟨startPreds s g P, q, wireReset s.params.wireFormat, true, ckInit s.params.checksum⟩ := by
  unfold frameBegin
  rw [hx]
  rfl

/-- Where frame g's blocks begin, the state's fields are those of its window, its decoder and its header. -/
theorem FrameStarted.fields {g : Nat} {d : Decoder} (h : FrameStarted g s t) (hd : frameBegin s g s.pred = d) :
    t.pred = d.pred ∧
    t.br = { start := frameStart s g, len := frameEnd s g - frameStart s g, fetched := t.br.fetched, buf := t.br.buf, p := d.p,
             ent := d.ent } ∧
    t.frm = { curFrame := g, blkInFrame := 0, placed := 0, frameErr := d.err, storedCk := t.frm.storedCk,
              silent := frameSilent s g, runCk := d.ck } := by
  subst hd
  rw [← h.here, ← h.len, ← h.start]
  refine ⟨rfl, rfl, ?_⟩
  change Frame.mk t.frm.curFrame t.frm.blkInFrame t.frm.placed t.frm.frameErr t.frm.storedCk t.frm.silent t.frm.runCk = _
  rw [h.frame, h.blk, h.placed, h.silent]
  rfl

/-- Settles O53: the frame is U_START_FRAME's view, and the fields outside it are those of `FrameStarted`, header by header. -/
theorem startFrameEnters : Obligations.StartFrameEnters := by
  intro s m hs hf g hstart hend
  obtain ⟨t, hrun, ⟨hview, -⟩, hst⟩ :=
    (((keeps_uStartFrame g).ends hs.fed).and (yields_uStartFrame g hf ⟨hstart, hend⟩)).runUop
  obtain ⟨hframe, hbytes, -⟩ := frameView_frame rfl hview
  refine ⟨_, hrun, hst.ok.congr rfl rfl, hbytes, ?_⟩
  unfold headerDecodes
  rcases hx : headerOf s g with ⟨er | a, q⟩
  · obtain ⟨hpred, hbr, hfrm⟩ := hst.fields (frameBegin_of_error s.pred hx)
    rw [hst.kept er q hx] at hfrm
    rw [hpred, hbr, hfrm] at hframe
    exact congrArg (fun u : State => { u with op.ret := .nothing }) hframe
  · obtain ⟨hpred, hbr, hfrm⟩ := hst.fields (frameBegin_of_ok s.pred hx)
    rw [hst.stored a q hx] at hfrm
    rw [hpred, hbr, hfrm] at hframe
    exact congrArg (fun u : State => { u with op.ret := .nothing }) hframe

/-! ## One block (R354, R357) -/

/-- After a block's bytes, the state's fields are those of the decoder. -/
theorem DecodeTo.fields {d : Decoder} (h : DecodeTo d s t) :
    t.pred = d.pred ∧ t.br = { s.br with fetched := t.br.fetched, buf := t.br.buf, p := d.p, ent := d.ent } ∧
      t.frm = { s.frm with frameErr := d.err, runCk := d.ck } := by
  simp only [← h.here, ← h.start, ← h.len, ← h.silent, ← h.stored, ← h.frame, ← h.blk, ← h.placed]
  exact ⟨rfl, rfl, rfl⟩

theorem deliverable_iff {i a : Nat} : deliverable s i a = true ↔ s.cur.skipBlocks ≤ i ∧ a < s.cfg.F := by
  rw [deliverable, Bool.and_eq_true, decide_eq_true_eq, decide_eq_true_eq]

/-- The state after the bytes of a block: the decoder d, the bytes fetched so far, and the source. -/
def decodedState (s : State) (d : Decoder) (fetched : Nat) (buf : List Byte) (src : Source) : State :=
  { s with pred := d.pred, br := { s.br with fetched, buf, p := d.p, ent := d.ent },
           frm := { s.frm with frameErr := d.err, runCk := d.ck }, src }

/-- Where the source answers, a block's bytes are those of `blockOf`, and what they change is its decoder. -/
theorem blockBytes_ok (hs : Served s) (hf : 1 ≤ s.params.fetchBytes) (hok : BrOk s) :
    let x := blockOf s.params s.cfg (frameBit s) (8 * s.br.len) s.frm.silent (decoderOf s)
    ∃ fetched buf src, blockBytes s = .ok x.1 (decodedState s x.2 fetched buf src) ∧ BrOk (decodedState s x.2 fetched buf src) ∧
      src.bytes = s.src.bytes := by
  obtain ⟨_, t, hrun, ⟨hview, -⟩, rfl, hto⟩ := ((keeps_blockBytes.toFrame.ends hs.fed).and (yields_blockBytes hf hok)).exists_ok
  obtain ⟨hframe, hbytes, -⟩ := frameView_frame rfl hview
  obtain ⟨hpred, hbr, hfrm⟩ := hto.fields
  rw [hpred, hbr, hfrm] at hframe
  exact ⟨t.br.fetched, t.br.buf, t.src, hrun.trans (congrArg _ hframe), hframe ▸ hto.ok, hbytes⟩

/-- A block whose bytes are known goes to the ring, or not, as `deliver` says; then the block number moves by 1. -/
theorem uDecodeBlock_of_bytes {m : Mode} {blk : List Byte} (h : blockBytes s = .ok blk t) : uDecodeBlock m s =
    (do deliver m s.frm.blkInFrame blk; modify fun t => { t with frm.blkInFrame := s.frm.blkInFrame + 1 } : Seq Unit) t := by
  unfold uDecodeBlock
  rw [Seq.bind_ok (Seq.get_run s), Seq.bind_ok h]

/-- Settles O54: the block's bytes are `blockOf`'s, and their delivery is the one of an undisturbed micro-operation. -/
theorem decodeBlockResult : Obligations.DecodeBlockResult := by
  intro s m hs hf hok hc x write
  obtain ⟨fetched, buf, src, hbytes, hbr, hsrc⟩ := blockBytes_ok hs hf hok
  have hlen : x.1.length = s.cfg.BA := length_blockOf hc _ _ _ _
  have hblock := uDecodeBlock_of_bytes (m := m) hbytes
  have hdel := deliver_ok (m := m) (i := s.frm.blkInFrame) (blk := x.1) (t := decodedState s x.2 fetched buf src) hs.calm
  have hwrite : (m = .deliver ∧ deliverable s s.frm.blkInFrame (s.frm.curFrame * s.cfg.B + s.frm.blkInFrame) = true) ↔ write :=
    and_congr_right fun _ => deliverable_iff
  refine ⟨fun hw hfull => ?_, fun hroom => ?_⟩
  · rw [if_pos (by exact hwrite.2 hw), if_pos (by exact hfull)] at hdel
    exact runUop_stop (Seq.bind_error (hblock.trans (Seq.bind_error hdel)))
  · by_cases hw : write
    · rw [if_pos (by exact hwrite.2 hw), if_neg (by exact hroom hw)] at hdel
      refine ⟨_, runUop_then (f := fun _ => .nothing) (hblock.trans (Seq.bind_ok hdel)), hbr.congr rfl rfl, hsrc, rfl, hlen,
        fun h => absurd hw h, fun _ => ⟨rfl, rfl, fun slot => ?_⟩⟩
      exact (ringSlot_congr rfl rfl rfl slot).trans (ringSlot_setSlot s.ring.wr hlen slot)
    · rw [if_neg (by exact mt hwrite.1 hw)] at hdel
      exact ⟨_, runUop_then (f := fun _ => .nothing) (hblock.trans (Seq.bind_ok hdel)), hbr.congr rfl rfl, hsrc, rfl, hlen,
        fun _ => ⟨rfl, rfl⟩, fun h => absurd h hw⟩

/-! ## A frame's end (R355) -/

/-- The comparison sets the frame error of a bad frame, and changes nothing else. -/
theorem verifyFrame_ok (s : State) : verifyFrame s = .ok () { s with frm.frameErr := badFrame s } := by
  unfold verifyFrame badFrame
  rw [Seq.modify_run]
  congr 1
  cases hfe : s.frm.frameErr
  case true => rw [Bool.not_true, Bool.false_and, if_neg Bool.false_ne_true, Bool.true_or, ← hfe]
  case false =>
    rw [Bool.not_false, Bool.true_and, Bool.false_or]
    split
    case isTrue h => rw [h]
    case isFalse h => rw [Bool.eq_false_iff.2 h, ← hfe]

/-- How many of the newest blocks U_END_FRAME silences. -/
def silencedTail (m : Mode) (s : State) : Nat := if badFrame s = true ∧ m = .deliver then s.frm.placed else 0

/-- The state after U_END_FRAME, undisturbed. -/
def endedFrame (m : Mode) (s : State) : State :=
  silenceSlots (List.range' 1 (silencedTail m s))
    { s with frm.frameErr := badFrame s, life.hadErrors := s.life.hadErrors || badFrame s }

theorem uEndFrame_ok (m : Mode) (hs : Undisturbed s) : uEndFrame m s = .ok () (endedFrame m s) := by
  unfold uEndFrame
  rw [Seq.bind_ok (verifyFrame_ok s)]
  unfold settleFrame endedFrame silencedTail
  rw [Seq.bind_ok (Seq.get_run _)]
  cases hbad : badFrame s
  case false =>
    rw [if_neg Bool.false_ne_true, if_neg (by simp), Bool.or_false]
    rfl
  case true =>
    rw [if_pos rfl, Seq.bind_ok (Seq.set_run _ _), Bool.or_true]
    cases m
    case discard => rfl
    case deliver => exact call_undisturbed hs

/-- Settles O55: a bad frame sets hadErrors, and the slots silenced are the newest `silencedTail` ones, none but in DELIVER mode. -/
theorem endFrameVerifies : Obligations.EndFrameVerifies := by
  intro s m hs hcap hBA bad
  obtain ⟨hsilent, hkept⟩ := ringSlot_silenceSlots (n := silencedTail m s)
    (s := { s with frm.frameErr := badFrame s, life.hadErrors := s.life.hadErrors || badFrame s }) hBA (.inr hcap)
  refine ⟨_, runUop_then (f := fun _ => .nothing) (uEndFrame_ok m hs), ?_, fun hbad hm slot i h1 h2 hi => ?_, fun slot hn => ?_⟩
  · rw [endedFrame, silenceSlots_eq]
    rfl
  · refine (ringSlot_congr rfl rfl rfl slot).trans (hsilent slot i h1 ?_ hi)
    rwa [silencedTail, if_pos ⟨hbad, hm⟩]
  · refine (ringSlot_congr rfl rfl rfl slot).trans ((hkept slot fun h => hn ?_).trans (ringSlot_congr rfl rfl rfl slot))
    obtain ⟨i, h1, h2, hi⟩ := h
    unfold silencedTail at h2
    split at h2
    case isTrue h => exact ⟨h.1, h.2, i, h1, h2, hi⟩
    case isFalse => omega

end Sys2Proof.Machine
end

section
/-! SUPPORT. The two procedures run on their own in a well-formed stream whose source answers (45_frame_sequencer.md R356 to R358): a whole
frame in either mode, and a positioning. -/

namespace Sys2Proof.Machine

variable {s : State}

/-! ## A whole frame (R356, R357) -/

/-- The view that replaying frames keeps shows the ring and the cursor. -/
theorem replayView_ring_cur {e : Env} (he : e.calm = true) {u : State} (h : replayView e u = replayView e s) :
    u.ring = s.ring ∧ u.cur = s.cur := by
  simp only [replayView, forgetErrors, frameView, forgetFrame, blockView, forgetBlock, readsView, hostBlank_calm he,
    State.mk.injEq] at h
  obtain ⟨-, -, -, -, -, hcur, -, -, -, hring, -⟩ := h
  exact ⟨hring, hcur⟩

/-- Where the source answers, a frame ends in either mode: DISCARD leaves the ring and the cursor, and DELIVER finds room in an empty
ring and moves the cursor. -/
theorem ends_pDecodeFrame (g : Nat) (m : Mode) (hs : Served s) (hc : CfgOk s.cfg) (hr : RingOk s)
    (hempty : m = .deliver → s.ring.count = 0) :
    Ends (pDecodeFrame g m) s fun _ t => positionView .fed t = positionView .fed s ∧ (m = .discard → t.ring = s.ring) ∧
      t.cur = if m = .deliver then { s.cur with nextFrame := g + 1, skipBlocks := 0 } else s.cur := by
  cases m
  case discard =>
    refine ((keeps_pDecodeFrame_discard g).ends hs.fed).mono fun _ t ⟨hview, _⟩ => ?_
    obtain ⟨hring, hcur⟩ := replayView_ring_cur rfl hview
    exact ⟨congrArg (fun s => forgetCursor (forgetRing (forgetData s))) hview, fun _ => hring, hcur⟩
  case deliver =>
    have hroom := Nat.le_trans (frameBlocks_le hc g) hr.room
    exact (Ends.of_stops (sat_pDecodeFrame hs.fed (hempty rfl) hr.wr hroom)).mono
      fun _ _ ⟨hview, _, _, hcur, _⟩ => ⟨hview, nofun, hcur⟩

/-- Settles O56: the frame ends, `yields_pDecodeFrame` says what it decodes to, and the view of a positioning says what it keeps. -/
theorem decodeFrameResult : Obligations.DecodeFrameResult := by
  intro s m hs hw hc hk hr hg hempty g x
  obtain ⟨t, hrun, ⟨hview, hdiscard, hcur⟩, hpred, hlife, hdeliver⟩ := ((ends_pDecodeFrame g m hs hc hr hempty).and
    (yields_pDecodeFrame g m (Params.fetch_pos hw) hc (hk.window hg))).runUop
  obtain ⟨hframe, hbytes, -⟩ := positionView_frame rfl hview
  refine ⟨_, hrun, hbytes, ?_, hdiscard, fun hm => (ringBlocks_congr rfl rfl rfl).trans
    (hdeliver hm (hempty hm) hr.wr (Nat.le_trans (frameBlocks_le hc g) hr.room))⟩
  rw [hpred, hlife, hcur] at hframe
  cases m <;> exact congrArg (fun u : State => { u with op.ret := .nothing }) hframe

/-! ## Positioning (R358) -/

/-- Settles O57: P_POSITION meets no fault, `yields_pPosition` says where the predictors stand and which replayed frames were in error, and
the view of a positioning says what it keeps. -/
theorem positionMovesCursor : Obligations.PositionMovesCursor := by
  intro s hs hw hc hk hb b
  obtain ⟨t, hrun, ⟨hview, -, hrd, hwr, hcount, hcur⟩, hpreds, herrors⟩ :=
    ((Ends.of_stops (sat_pPosition b hs.fed)).and (yields_pPosition b (Params.fetch_pos hw) hc hk hb)).runUop
  obtain ⟨hframe, hbytes, hlen⟩ := positionView_frame rfl hview
  refine ⟨_, hrun, hbytes, hlen, ?_, fun hne => ?_⟩
  · dsimp only at hframe
    rw [herrors, hrd, hwr, hcount, hcur] at hframe
    exact congrArg (fun u : State => { u with op.ret := .nothing }) hframe
  · have hlt : (s.cfg.S + b) / s.cfg.B < s.cfg.numFrames := frame_lt hc (by have := hc.finish; omega)
    have hcfg : t.cfg = s.cfg := (congrArg State.cfg hframe :)
    exact (hpreds hne).congr (by rw [hcfg]; exact hlt.le) (.of_mem rfl rfl rfl rfl rfl) rfl

end Sys2Proof.Machine
end

section
/-! SUPPORT. GETDATA and SEEK in a session in order whose requests all succeed: each completes and leaves such a session on the same stream
(46_host_commands.md R404, R405), so that their sequences can be compared (45_frame_sequencer.md R360). -/

namespace Sys2Proof.Machine

variable {s t : State}

/-- An open session in order, between two commands whose requests all succeed. -/
structure OpenSession (s : State) : Prop where
  served : Served s
  params : s.params.wf = true
  alive : s.life.initFailed = false
  ready : s.life.fsm = .ready
  session : SessionOk s
  data : DataOk s

/-- The argument latch is no part of the session. -/
theorem OpenSession.withArg (h : OpenSession s) (v : DWord) : OpenSession { s with latch := { s.latch with a0 := v } } :=
  ⟨⟨h.served.calm, h.served.replies, h.served.noFail⟩, h.params, h.alive, h.ready, h.session.congr rfl rfl rfl rfl rfl rfl rfl,
    h.data.congr h.session (.of_mem rfl rfl rfl rfl rfl) rfl rfl rfl rfl rfl rfl⟩

theorem OpenSession.isOpen (h : OpenSession s) : sessionOpen s = true := (sessionOpen_iff s).2 ⟨h.alive, h.ready⟩

/-- Where every request succeeds, a command's body that stops only for the source's sake ends. -/
theorem Ends.of_loopStops {m : Seq Unit} {n k : Nat} {s0 : State} {Q : Unit → State → Prop}
    (h : Sat m s Q (LoopStops .fed False n k s0)) : Ends m s Q := by
  refine h.mono (fun _ _ h => h) fun st t h => ?_
  cases st with
  | ioFailure => exact absurd h.1 (by decide)
  | halted => obtain ⟨⟨h, _⟩ | ⟨h, _⟩, -⟩ := h <;> exact absurd h (by decide)
  | fault => exact h

/-- A completed command leaves the session open. -/
theorem OpenSession.of_end (h : OpenSession s) {u : State} {st : Status} {r0 r1 : DWord} (hfed : Env.fed.holds u)
    (hparams : u.params = s.params) (hlife : u.life.initFailed = s.life.initFailed) (hsession : SessionOk u)
    (hdata : DataOk (complete st r0 r1 { u with life.fsm := .ready })) :
    OpenSession (complete st r0 r1 { u with life.fsm := .ready }) :=
  ⟨⟨.inl rfl, hfed.2.1 rfl, hfed.2.2.1 rfl⟩, (congrArg Params.wf hparams).trans h.params, hlife.trans h.alive, rfl,
    hsession.congr rfl rfl rfl rfl rfl rfl rfl, hdata⟩

/-! ## SEEK (R405) -/

theorem seekBody_run (h : sessionOpen s = true) (hb : s.latch.a0.toNat ≤ s.cfg.F - s.cfg.S) :
    seekBody s = seekRun s.latch.a0.toNat s := by
  unfold seekBody
  rw [Seq.bind_ok (Seq.get_run s), if_neg (by simp [h]), if_neg (Nat.not_lt.2 hb)]

/-- SEEK completes, and moves the session to its target. -/
theorem OpenSession.seek (h : OpenSession s) (hb : s.latch.a0.toNat ≤ s.cfg.F - s.cfg.S) :
    ∃ t, exec .seek s = .next t ∧ OpenSession t ∧ SameStream s t ∧ t.cur.curBlock = s.latch.a0.toNat := by
  have hends := ((Ends.of_loopStops (sat_seekRun s.latch.a0.toNat h.served.fed h.session hb)).and
    (yields_seekRun s.latch.a0.toNat (Params.fetch_pos h.params) h.session h.data hb))
  obtain ⟨_, t, hrun, ⟨u, rfl, hview, hfed, hsession, hcur⟩, hdata, -⟩ := hends.exists_ok
  obtain ⟨hframe, hbytes, -⟩ := positionView_frame rfl hview
  refine ⟨_, runCommand_ok ((seekBody_run h.isOpen hb).trans hrun), h.of_end hfed (congrArg State.params hframe :)
    (congrArg (fun s => s.life.initFailed) hframe :) hsession hdata, ?_, hcur⟩
  exact .of_mem (congrArg State.params hframe :) (congrArg State.cfg hframe :) hbytes (congrArg State.mem hframe :)
    (congrArg State.epoch hframe :)

/-! ## GETDATA (R404) -/

theorem getdataBody_run (h : sessionOpen s = true) (hn : s.latch.a0.toNat ≤ s.params.outbufBytes / s.cfg.BA) :
    getdataBody s = getdataRun s.latch.a0.toNat s := by
  unfold getdataBody
  rw [Seq.bind_ok (Seq.get_run s), if_neg (by simp [h]), if_neg (Nat.not_lt.2 hn)]

/-- GETDATA completes, delivers the stream's next blocks, and moves the session past them. -/
theorem OpenSession.getdata (h : OpenSession s) (hn : s.latch.a0.toNat ≤ s.params.outbufBytes / s.cfg.BA) :
    let n := s.latch.a0.toNat
    let got := wantOf n s
    ∃ t, exec .getdata s = .next t ∧ OpenSession t ∧ SameStream s t ∧ t.cur.curBlock = s.cur.curBlock + got ∧
      t.regs = doneRegs (if got < n then .endOfData else .success) (BitVec.ofNat 64 (got * s.cfg.BA)) (BitVec.ofNat 64 got) s.regs ∧
      outHolds s (s.cfg.S + s.cur.curBlock) 0 got t := by
  intro n got
  have hends := (Ends.of_loopStops (sat_getdataRun n h.served.fed h.session)).and
    (yields_getdataRun n h.params (Params.fetch_pos h.params) h.session h.data (wantOf_fits hn))
  obtain ⟨_, t, hrun, ⟨u, rfl, hview, hfed, hsession, hcur, hmem⟩, hdata, hout, -⟩ := hends.exists_ok
  obtain ⟨hframe, hbytes, -⟩ := outView_frame rfl hview
  have hparams : u.params = s.params := (congrArg State.params hframe :)
  have hcfg : u.cfg = s.cfg := (congrArg State.cfg hframe :)
  have hregs : u.regs = s.regs := (congrArg State.regs hframe :)
  refine ⟨_, runCommand_ok ((getdataBody_run h.isOpen hn).trans hrun),
    h.of_end hfed hparams (congrArg (fun s => s.life.initFailed) hframe :) hsession hdata,
    sameStream_of_out h.params h.data.stream hparams hcfg hbytes (hmem.trans (.of_eq rfl rfl)), hcur, ?_, hout⟩
  unfold getdataDone
  rw [complete_eq (by split <;> simp), hcfg, hregs]

/-- What GETDATA puts into its results and into OUT is the stream's, whichever state of the stream s it starts from. -/
theorem OpenSession.getdata_stream {u : State} (h : OpenSession u) (hs : SameStream s u) (hc : CfgOk s.cfg)
    (hn : u.latch.a0.toNat ≤ s.params.outbufBytes / s.cfg.BA) :
    let n := u.latch.a0.toNat
    let got := min n ((s.cfg.F - s.cfg.S) - u.cur.curBlock)
    ∃ t, exec .getdata u = .next t ∧ OpenSession t ∧ SameStream s t ∧ t.cur.curBlock = u.cur.curBlock + got ∧
      t.regs.res0 = BitVec.ofNat 64 (got * s.cfg.BA) ∧ t.regs.res1 = BitVec.ofNat 64 got ∧
      t.regs.lastStatus = (if got < n then .endOfData else .success) ∧
      ∀ j, j < got * s.cfg.BA → readByte t (outBase + j) =
        (streamBlock s (s.cfg.S + u.cur.curBlock + j / s.cfg.BA)).getD (j % s.cfg.BA) 0 := by
  intro n got
  obtain ⟨t, hrun, ht, hst, hcur, hregs, hout⟩ := h.getdata (by rw [hs.params, hs.cfg]; exact hn)
  have hgot : wantOf n u = got := by simp only [wantOf, hs.cfg, got]
  rw [hgot, hs.cfg] at hregs hout
  refine ⟨t, hrun, ht, hs.trans hst, hgot ▸ hcur, by rw [hregs]; rfl, by rw [hregs]; rfl, by rw [hregs]; rfl, fun j hj => ?_⟩
  have hblock : j / s.cfg.BA < got := Nat.div_lt_of_lt_mul (by rwa [Nat.mul_comm])
  have hin : s.cfg.S + u.cur.curBlock + j / s.cfg.BA < s.cfg.total := by
    have hfinish := hc.finish
    generalize j / s.cfg.BA = i at hblock ⊢
    omega
  have hbyte := hout (outBase + j)
  rwa [hs.cfg, Nat.zero_mul, Nat.add_zero, if_pos (by omega), Nat.add_sub_cancel_left, hs.streamBlock hc hin] at hbyte

/-- Settles O30: after SEEK(b) and after GETDATA(b) the session stands at block b of one stream, and what GETDATA(k) does from there is a
function of the stream and of b. -/
theorem seekConsistency : Obligations.SeekConsistency := by
  intro s b k hs hw hi hr hl hd h0 hb hbn hkn
  have h : OpenSession s := ⟨hs, hw, hi, hr, hl, hd⟩
  obtain ⟨s1, hseek, hopen1, hstream1, hcur1⟩ := (h.withArg b).seek hb.le
  obtain ⟨s2, hskip, hopen2, hstream2, hcur2, -⟩ := (h.withArg b).getdata_stream (.of_mem rfl rfl rfl rfl rfl) hl.cfg hbn
  have hat1 : s1.cur.curBlock = b.toNat := hcur1
  have hat2 : s2.cur.curBlock = b.toNat := by dsimp only at hcur2; omega
  obtain ⟨t1, hget1, -, -, -, hbytes1, hblocks1, hstatus1, hout1⟩ := (hopen1.withArg k).getdata_stream
    (SameStream.trans (.of_mem rfl rfl rfl rfl rfl) (hstream1.trans (.of_mem rfl rfl rfl rfl rfl))) hl.cfg hkn
  obtain ⟨t2, hget2, -, -, -, hbytes2, hblocks2, hstatus2, hout2⟩ :=
    (hopen2.withArg k).getdata_stream (hstream2.trans (.of_mem rfl rfl rfl rfl rfl)) hl.cfg hkn
  rw [hat1] at hbytes1 hblocks1 hstatus1 hout1
  rw [hat2] at hbytes2 hblocks2 hstatus2 hout2
  refine ⟨s1, t1, s2, t2, hseek, hget1, hskip, hget2, hbytes1.trans hbytes2.symm, hblocks1.trans hblocks2.symm,
    hstatus1.trans hstatus2.symm, fun j hj => ?_⟩
  rw [hbytes1, BitVec.toNat_ofNat] at hj
  have hlt := Nat.lt_of_lt_of_le hj (Nat.mod_le _ _)
  exact (hout1 j hlt).trans (hout2 j hlt).symm

end Sys2Proof.Machine
end

section
/-! SUPPORT. The words that a CMD store carries (30_encoding.md R120 to R123): which of them are ILLEGAL, and what a store of an ILLEGAL
word, of an instruction, and of any word while BUSY = 1 does (46_host_commands.md R400, R418, R419). -/

namespace Sys2Proof.Machine

variable {s : State} {w : Word}

/-! ## ILLEGAL words (R123) -/

theorem startsCommand_iff : startsCommand w = true ↔ (∃ i, decodeCmd w = .ok i) ∨ decodeCmd w = .error .reservedField := by
  unfold startsCommand
  cases decodeCmd w with
  | ok i => simp
  | error e => cases e <;> simp

/-- A command whose SUB must be 0 (R122). -/
theorem plainSub_legal_iff (sub : Nat) (i : Instr) :
    ((∃ j, plainSub sub i = .ok j) ∨ plainSub sub i = .error .reservedField) ↔ sub = 0 := by
  unfold plainSub
  split <;> simp [*]

theorem decodeGetinfo_legal (sub : Nat) : (∃ i, decodeGetinfo sub = .ok i) ∨ decodeGetinfo sub = .error .reservedField := by
  unfold decodeGetinfo
  split
  case h_11 => exact .inr rfl
  all_goals exact .inl ⟨_, rfl⟩

theorem illegalWord_eq_false_iff : illegalWord w = false ↔ w.toNat / 65536 = 0 ∧ w.toNat % 256 < 6 ∧
    (w.toNat % 256 = 1 → w.toNat / 256 % 256 < 2) ∧
    (w.toNat % 256 ≠ 1 → w.toNat % 256 ≠ 4 → w.toNat / 256 % 256 = 0) := by
  simp only [illegalWord, Bool.or_eq_false_iff, Bool.and_eq_false_iff, decide_eq_false_iff_not]
  omega

/-- The words that start a command are just those that are not ILLEGAL by their fields. -/
theorem startsCommand_eq (w : Word) : startsCommand w = !illegalWord w := by
  rw [Bool.eq_iff_iff, startsCommand_iff, Bool.not_eq_true', illegalWord_eq_false_iff]
  unfold decodeCmd
  simp only
  split
  case isTrue h => simp [h]
  case isFalse h =>
    split
    case h_1 ho | h_3 ho | h_4 ho | h_6 ho => rw [plainSub_legal_iff, ho]; omega
    case h_2 ho =>
      split
      case isTrue hs => exact iff_of_true (.inl ⟨_, rfl⟩) (by omega)
      case isFalse hs => rw [plainSub_legal_iff]; omega
    case h_5 ho => exact iff_of_true (decodeGetinfo_legal _) (by omega)
    case h_7 =>
      simp only [imp_false] at *
      exact iff_of_false (by simp) (by omega)

theorem runWord_illegal (h : illegalWord w = true) (s : State) : runWord w s = .next (illegalCommand s) := by
  have hstart : startsCommand w = false := by rw [startsCommand_eq, h]; rfl
  unfold startsCommand at hstart
  unfold runWord
  cases hd : decodeCmd w with
  | ok i => simp [hd] at hstart
  | error e => cases e <;> simp [hd] at hstart ⊢

/-! ## Stores to CMD (R400, R418, R419) -/

/-- An idle block accepts the word. -/
theorem hostStore_cmd_idle (v : DWord) (h : s.regs.busy = false) : hostStore .b32 (regAddr s.params 0x0C) v s = acceptCmd (lo v) s :=
  if_pos ⟨isCmdWrite_regAddr s.params, by simp [h]⟩

/-- An ILLEGAL word completes in the step that accepts it: no host access comes first. -/
theorem acceptCmd_illegal (h : illegalWord w = true) (s : State) : acceptCmd w s = .next (illegalCommand (acceptLatch w s)) := by
  rw [acceptCmd, startsCommand_eq, h, Bool.not_true, if_neg Bool.false_ne_true, runWord_illegal h]

/-- Settles O3: a word starts a command just where it is not ILLEGAL, and any other is completed at its acceptance. -/
theorem illegalCommandWords : Obligations.IllegalCommandWords := by
  refine ⟨fun s w h => runWord_illegal h s, fun s v hb h => ?_, fun w h => startsCommand_iff.1 ?_⟩
  · rw [hostStore_cmd_idle v hb, acceptCmd_illegal h]
    rfl
  · rw [startsCommand_eq, h, Bool.not_false]

/-- Settles O6: the step is the acceptance of the word, which runs at once where the host is quiet. -/
theorem stepRunsAcceptedCommand : Obligations.StepRunsAcceptedCommand := by
  intro s v rest i hu hp hb hq hd
  rw [step_cmdWrite hu hp hb, acceptCmd_quiet hq hd]
  rfl

theorem hostWrite_cmd (v : DWord) (s : State) : hostWrite .b32 (regAddr s.params 0x0C) v s = setOverrun s :=
  hostWrite_reg v (by decide) (by decide)

theorem hostStore_cmd_busy (v : DWord) (h : s.regs.busy = true) : hostStore .b32 (regAddr s.params 0x0C) v s = .next (setOverrun s) := by
  rw [hostStore, if_neg (by simp [h]), hostWrite_cmd]

theorem isSoftReset_cmd (p : Params) (v : DWord) : isSoftReset p .b32 (regAddr p 0x0C) v = false := by
  simp [isSoftReset, isRegWrite, regionOf_reg]

/-- Between two micro-operations too, a store to CMD is one of the accesses that go on. -/
theorem drain_cmd (v : DWord) (rest : List HostOp) (s : State) :
    drain (.wr .b32 (regAddr s.params 0x0C) v :: rest) s = drain rest (setOverrun s) := by
  rw [drain, isSoftReset_cmd, if_neg Bool.false_ne_true, hostWrite_cmd]

/-- Settles O14: the store is a host write to CMD, at the host's step and between two micro-operations. -/
theorem commandWhileBusyDropped : Obligations.CommandWhileBusyDropped := fun s v hb =>
  ⟨hostStore_cmd_busy v hb, fun rest => drain_cmd v rest s⟩

end Sys2Proof.Machine
end

section
/-! SUPPORT. The completions of 46_host_commands.md R400 and the commands that end in one: NOP, GETINFO (R401, R406 to R416), and every
command that its state check refuses (60_exceptions.md R453). -/

namespace Sys2Proof.Machine

variable {s : State} {i : Instr}

/-! ## The state checks (R402 to R406, R417, 60_exceptions.md R453) -/

theorem sessionOpen_eq_false_iff : sessionOpen s = false ↔ s.life.initFailed = true ∨ s.life.fsm ≠ .ready := by
  simp [sessionOpen, imp_iff_not_or]

theorem sessionOpen_of_failed (h : s.life.initFailed = true) : sessionOpen s = false := sessionOpen_eq_false_iff.2 (.inl h)

/-- What a refused command leaves. -/
def refused (s : State) : State := { s with regs := doneRegs .uninitialized 0 0 s.regs }

theorem completeWith_refused (s : State) : completeWith .uninitialized s = .ok () (refused s) := rfl

theorem getinfo_open (h : sessionOpen s = true) (v : Nat) :
    getinfo v s = { s with regs := doneRegs .success (BitVec.ofNat 64 v) 0 s.regs } := by
  rw [getinfo, if_pos h, complete_eq (.inl rfl)]

theorem getinfo_closed (h : sessionOpen s = false) (v : Nat) : getinfo v s = refused s := by
  rw [getinfo, h, if_neg Bool.false_ne_true]
  rfl

theorem getdataBody_closed (h : sessionOpen s = false) : getdataBody s = .ok () (refused s) := by
  rw [getdataBody, Seq.bind_ok (Seq.get_run s), if_pos (by simp [h]), completeWith_refused]

theorem seekBody_closed (h : sessionOpen s = false) : seekBody s = .ok () (refused s) := by
  rw [seekBody, Seq.bind_ok (Seq.get_run s), if_pos (by simp [h]), completeWith_refused]

theorem releaseBody_closed (h : sessionOpen s = false) : releaseBody s = .ok () (refused s) := by
  rw [releaseBody, Seq.bind_ok (Seq.get_run s), if_neg (by simp [h]), completeWith_refused]

theorem initBody_failed (ranged : Bool) (h : s.life.initFailed = true) : initBody ranged s = .ok () (refused s) := by
  rw [initBody, Seq.bind_ok (Seq.get_run s), if_pos h, completeWith_refused]

theorem exec_release_closed (h : sessionOpen s = false) : exec .release s = .next (refused s) := runCommand_ok (releaseBody_closed h)

/-- After a failed INIT every command but NOP is refused (R401). -/
theorem exec_of_failed (hi : i.isCommand = true) (hn : i ≠ .nop) (h : s.life.initFailed = true) : exec i s = .next (refused s) := by
  have hclosed := sessionOpen_of_failed h
  cases i
  case nop => exact absurd rfl hn
  case init | initR => exact runCommand_ok (initBody_failed _ h)
  case getdata => exact runCommand_ok (getdataBody_closed hclosed)
  case seek => exact runCommand_ok (seekBody_closed hclosed)
  case release => exact exec_release_closed hclosed
  case getinfoChannels | getinfoSampleRate | getinfoBitsPerSample | getinfoBlockAlign | getinfoTotalBlocks | getinfoCurrentBlock |
      getinfoCompressionLevel | getinfoHadErrors | getinfoFormatVersion | getinfoLegacyMode =>
    exact congrArg Host.Outcome.next (getinfo_closed hclosed _)
  all_goals cases hi

/-! ## NOP (R401) -/

theorem exec_nop (s : State) : exec .nop s = .next { s with regs := doneRegs .success 0 0 s.regs } :=
  congrArg Host.Outcome.next (complete_eq (.inl rfl) 0 0 s)

/-- Settles O21: NOP has no state check, and every other command has one. -/
theorem nopSucceeds : Obligations.NopSucceeds := by
  refine ⟨decodeCmd_encode (i := .nop) rfl, exec_nop, fun s t i hi hfail hrun hst => ?_, fun s => ⟨_, exec_nop _, rfl⟩⟩
  by_contra hn
  rw [exec_of_failed hi hn hfail] at hrun
  cases hrun
  cases hst

/-! ## GETINFO (R406 to R416) -/

/-- GETINFO in an open session shows its value, and changes nothing but the completion registers. -/
theorem next_getinfo_open (hi : s.life.initFailed = false) (hr : s.life.fsm = .ready) (v : Nat) :
    (.next (getinfo v s) : Host.Outcome State Fault Refusal) =
      .next { s with regs := doneRegs .success (BitVec.ofNat 64 v) 0 s.regs } :=
  congrArg Host.Outcome.next (getinfo_open ((sessionOpen_iff s).2 ⟨hi, hr⟩) v)

/-- Settles O23: each word is its instruction's, and each instruction shows its field of CFG. -/
theorem getinfoConfiguration : Obligations.GetinfoConfiguration := fun _ hi hr =>
  ⟨decodeCmd_encode (i := .getinfoChannels) rfl, next_getinfo_open hi hr _,
    decodeCmd_encode (i := .getinfoSampleRate) rfl, next_getinfo_open hi hr _,
    decodeCmd_encode (i := .getinfoBitsPerSample) rfl, next_getinfo_open hi hr _,
    decodeCmd_encode (i := .getinfoBlockAlign) rfl, next_getinfo_open hi hr _,
    decodeCmd_encode (i := .getinfoCompressionLevel) rfl, next_getinfo_open hi hr _,
    decodeCmd_encode (i := .getinfoFormatVersion) rfl, next_getinfo_open hi hr _,
    decodeCmd_encode (i := .getinfoLegacyMode) rfl, next_getinfo_open hi hr _⟩

/-- Settles O24: the three words, and what their instructions show of the range, the cursor and hadErrors. -/
theorem getinfoPosition : Obligations.GetinfoPosition := fun _ hi hr =>
  ⟨decodeCmd_encode (i := .getinfoTotalBlocks) rfl, next_getinfo_open hi hr _,
    decodeCmd_encode (i := .getinfoCurrentBlock) rfl, next_getinfo_open hi hr _,
    decodeCmd_encode (i := .getinfoHadErrors) rfl, next_getinfo_open hi hr _⟩

/-! ## RELEASE (R417) -/

theorem releaseBody_run (h : sessionOpen s = true) : releaseBody s = releaseRun s := by
  rw [releaseBody, Seq.bind_ok (Seq.get_run s), if_pos h]

/-- RELEASE undisturbed: the ring is emptied and the predictors of CFG's channels reset, then the session closed. -/
theorem releaseRun_ok (h : Undisturbed s) :
    releaseRun s = .ok () (releaseDone { ringReset s with pred := resetPreds s.cfg s.pred }) := by
  have hring : call uRingReset s = .ok () (ringReset s) := by rw [call_undisturbed h]; rfl
  rw [releaseRun, Seq.bind_ok hring, Seq.bind_ok (Seq.get_run _), Seq.bind_ok (forEach_predReset _ _ h.ringReset),
    finishWith_ok (by exact h)]
  rfl

/-- Settles O25: the undisturbed run of RELEASE, and its refusal. -/
theorem releaseCloses : Obligations.ReleaseCloses := by
  refine ⟨fun s hs hi hr => ?_, fun s h => exec_release_closed (sessionOpen_eq_false_iff.2 h)⟩
  refine ⟨_, runCommand_ok ((releaseBody_run ((sessionOpen_iff s).2 ⟨hi, hr⟩)).trans (releaseRun_ok hs)), ?_,
    configWritable_iff.2 ⟨rfl, rfl⟩⟩
  rw [releaseDone, complete_eq (.inl rfl)]
  rfl

end Sys2Proof.Machine
end

section
/-! SUPPORT. GETDATA and SEEK in a session whose requests all succeed (46_host_commands.md R404, R405): that each completes, what it leaves,
and, where the ring held the stream's blocks, that it still does. -/

namespace Sys2Proof.Machine

variable {s : State}

/-- What holds of a value under a premise about something else. -/
theorem Yields.imp {α : Type} {m : Seq α} {p : Prop} {Q : α → State → Prop} (h : p → Yields m s Q) :
    Yields m s fun a t => p → Q a t := by
  by_cases hp : p
  · exact (h hp).mono fun _ _ hq _ => hq
  · cases hm : m s <;> simp [Yields, Sat, hm, hp]

theorem life_of_ready (h : s.life.fsm = .ready) : ({ s.life with fsm := .ready } : Life) = s.life := by
  rw [← h]

/-- What a GETDATA or SEEK of an open session may have changed when it goes back to READY. -/
theorem backToReady_frame {f : Fsm} {u : State} (hr : s.life.fsm = .ready) (h : outView .fed u = outView .fed (enterCommand f s)) :
    { u with life.fsm := .ready } =
      { s with life := { s.life with hadErrors := u.life.hadErrors }, cur := { u.cur with entryBlock := s.cur.curBlock },
               frm := u.frm, br := u.br, pred := u.pred, ring := { u.ring with cap := s.ring.cap }, mem := u.mem, src := u.src } := by
  refine (congrArg (fun v : State => { v with life.fsm := .ready }) (outView_frame rfl h).1).trans ?_
  rw [← hr]
  rfl

/-! ## SEEK (R405) -/

theorem seekShort_iff {b : Nat} : seekShort b s = true ↔
    s.cur.resyncPending = false ∧ s.cur.curBlock ≤ b ∧ b ≤ s.cur.curBlock + s.ring.count := by
  simp [seekShort, and_assoc]

/-- A SEEK to a buffered block only advances the ring. -/
theorem seekRun_short {b : Nat} (hs : Undisturbed s) (hb : seekShort b s = true) :
    seekRun b s = .ok () { s with
      regs := doneRegs .success 0 0 s.regs, life := { s.life with fsm := .ready },
      cur := { s.cur with curBlock := b, entryBlock := s.cur.curBlock },
      ring := { s.ring with rd := (s.ring.rd + (b - s.cur.curBlock)) % s.ring.cap, count := s.ring.count - (b - s.cur.curBlock) } } := by
  obtain ⟨-, -, hle⟩ := seekShort_iff.1 hb
  have hdrop : call (uRingDrop (b - s.cur.curBlock)) (enterCommand .seeking s) =
      .ok () (advanceRead (b - s.cur.curBlock) (enterCommand .seeking s)) := by
    rw [call_undisturbed (by exact hs)]
    exact congrArg (EStateM.Result.ok ()) (dropBlocks_of_le (by show _ ≤ s.ring.count; omega))
  unfold seekRun
  rw [Seq.bind_ok (Seq.modify_run _ _), Seq.bind_ok (Seq.get_run _), if_pos (by exact hb)]
  exact (Seq.bind_ok hdrop).trans ((Seq.bind_ok (Seq.modify_run _ _)).trans (finishWith_ok (by exact hs) _))

/-- A SEEK to any other block leaves the cursor there, and an empty ring. -/
theorem yields_seekRun_long {b : Nat} (hb : seekShort b s = false) :
    Yields (seekRun b) s fun _ t => t.ring.count = 0 ∧ t.cur = positioned b (enterCommand .seeking s) := by
  unfold seekRun
  refine Sat.bind (Sat.modify (Sat.bind (Sat.get ?_)))
  rw [if_neg (by exact Bool.eq_false_iff.1 hb)]
  refine Yields.bind ((Yields.of_sat (sat_pPosition (e := .free) (φ := True) b (Env.holds_free _))).mono
    fun _ t ⟨_, _, _, _, hcount, hcur⟩ => Yields.bind (yields_interleave.mono fun _ u hu => Sat.modify ?_))
  have ha := hu.alike
  exact ⟨(congrArg Ring.count ha.ring).trans hcount, ha.cur.trans hcur⟩

/-- hadErrors stays set (10_state.md R41). -/
theorem yields_seekRun_errors {b : Nat} (hl : SessionOk s) (hb : b ≤ s.cfg.F - s.cfg.S) :
    Yields (seekRun b) s fun _ t => s.life.hadErrors = true → t.life.hadErrors = true :=
  .imp fun herr => (Yields.of_sat (sat_seekRun (e := .stained .free) (φ := True) b ((Env.holds_free s).stained herr) hl hb)).mono
    fun _ _ ⟨_, ht, _, hfed, _⟩ => by
      rw [ht]
      exact hfed.2.2.2.1 rfl

/-- Settles O29: SEEK's run ends in a session in order; the short path's state is known whole, and the long path is a positioning. -/
theorem seekResult : Obligations.SeekResult := by
  intro s hs hw hi hr hl hb b
  have hopen : sessionOpen s = true := (sessionOpen_iff s).2 ⟨hi, hr⟩
  obtain ⟨_, t, hrun, ⟨⟨⟨u, ht, hview, -, hsession, hcur⟩, hdata⟩, herrors⟩, hlong⟩ :=
    ((((Ends.of_loopStops (sat_seekRun b hs.fed hl hb)).and
      (.imp fun hd : DataOk s => yields_seekRun b (Params.fetch_pos hw) hl hd hb)).and (yields_seekRun_errors hl hb)).and
      (.imp yields_seekRun_long)).exists_ok
  obtain ⟨hframe, hbytes, hlen⟩ := positionView_frame rfl hview
  have hmem : u.mem = s.mem := (congrArg State.mem hframe :)
  have hshort : s.cur.resyncPending = false ∧ s.cur.curBlock ≤ b ∧ b ≤ s.cur.curBlock + s.ring.count ↔ seekShort b s = true :=
    seekShort_iff.symm
  refine ⟨t, runCommand_ok ((seekBody_run hopen hb).trans hrun), ?_, ?_, ?_, ?_, ?_, ?_, fun hd => (hdata hd).1, herrors, ?_⟩
  · rw [ht, complete_eq (.inl rfl), backToReady_frame hr (congrArg forgetMem hview :), hmem]
  · rw [ht]; exact hcur
  · rw [ht]; exact (congrArg (fun s => s.cur.entryBlock) hframe :)
  · rw [ht]; exact hbytes
  · rw [ht]; exact hlen
  · rw [ht]; exact hsession.congr rfl rfl rfl rfl rfl rfl rfl
  · simp only [hshort]
    split
    case isTrue hsh =>
      rw [seekRun_short hs.calm hsh, life_of_ready hr] at hrun
      cases hrun
      rfl
    case isFalse hsh =>
      have hsh := Bool.eq_false_iff.2 hsh
      obtain ⟨hcount, hcur⟩ := hlong hsh
      refine ⟨hcount, fun hd => ?_, hcur⟩
      have := (hdata hd).2
      rwa [hsh, Bool.not_false, Bool.true_and] at this

/-! ## GETDATA (R404) -/

/-- hadErrors stays set (10_state.md R41). -/
theorem yields_getdataRun_errors {n : Nat} (hl : SessionOk s) :
    Yields (getdataRun n) s fun _ t => s.life.hadErrors = true → t.life.hadErrors = true :=
  .imp fun herr => (Yields.of_sat (sat_getdataRun (e := .stained .free) (φ := True) n ((Env.holds_free s).stained herr) hl)).mono
    fun _ _ ⟨_, ht, _, hfed, _⟩ => by
      rw [ht]
      exact hfed.2.2.2.1 rfl

/-- Blocks that lie in OUT from its start, byte by byte. -/
theorem readByte_of_outHolds {a got j : Nat} {t : State} (h : outHolds s a 0 got t) (hj : j < got * s.cfg.BA) :
    readByte t (outBase + j) = (streamBlock s (a + j / s.cfg.BA)).getD (j % s.cfg.BA) 0 := by
  have hbyte := h (outBase + j)
  rwa [Nat.zero_mul, Nat.add_zero, if_pos (by omega), Nat.add_sub_cancel_left] at hbyte

/-- Settles O28: GETDATA's run ends in a session in order, and puts the stream's blocks into OUT where the ring and the predictors were
those of the stream. -/
theorem getdataDelivers : Obligations.GetdataDelivers := by
  intro s hs hw hi hr hl hn n got
  have hopen : sessionOpen s = true := (sessionOpen_iff s).2 ⟨hi, hr⟩
  obtain ⟨_, t, hrun, ⟨⟨u, ht, hview, -, hsession, hcur, hmem⟩, hdata⟩, herrors⟩ :=
    (((Ends.of_loopStops (sat_getdataRun n hs.fed hl)).and (.imp fun hd : DataOk s =>
      yields_getdataRun n hw (Params.fetch_pos hw) hl hd (wantOf_fits hn))).and (yields_getdataRun_errors hl)).exists_ok
  obtain ⟨hframe, hbytes, hlen⟩ := outView_frame rfl hview
  have hcfg : u.cfg = s.cfg := (congrArg State.cfg hframe :)
  refine ⟨t, runCommand_ok ((getdataBody_run hopen hn).trans hrun), ?_, ?_, ?_, ?_, ?_, herrors, fun hd => ?_⟩
  · rw [ht, getdataDone, complete_eq (by split <;> simp), backToReady_frame hr hview]
    change u.cur.curBlock = s.cur.curBlock + got at hcur
    rw [← hcur, hcfg]
    rfl
  · rw [ht]; exact hbytes
  · rw [ht]; exact hlen
  · rw [ht]; exact hsession.congr rfl rfl rfl rfl rfl rfl rfl
  · rw [ht]; exact fun a ha => (readByte_congr rfl rfl a).trans (hmem.outside a ha)
  · obtain ⟨hd', hout, herr⟩ := hdata hd
    exact ⟨hd', herr, fun j hj => readByte_of_outHolds hout hj⟩

end Sys2Proof.Machine
end

section
/-! SUPPORT. INIT and INIT.R where every request succeeds (46_host_commands.md R402, R403): the status of the first check that fails, and
what a rejected INIT, one that finds the stream invalid and one that opens the session leave. -/

namespace Sys2Proof.Machine

variable {s : State} {ranged : Bool}

/-- A completion without results (46_host_commands.md R400). -/
theorem complete_zero (st : Status) (u : State) : complete st 0 0 u = { u with regs := doneRegs st 0 0 u.regs } := by
  simp only [complete, doneRegs, ite_self]

/-! ## The checks (R403) -/

/-- The status of INIT's first failing check, or SUCCESS. -/
def initStatus (ranged : Bool) (s : State) : Status :=
  match initConfigure ranged s with
  | .error st => st
  | .ok c => if streamValid s.src.bytes.length { s with cfg := c } && headerProbe { s with cfg := c } then .success else .invalidStream

theorem initStatus_of_error {st : Status} (h : initConfigure ranged s = .error st) : initStatus ranged s = st := by
  rw [initStatus, h]

theorem initStatus_of_ok {c : SessionCfg} (h : initConfigure ranged s = .ok c) : initStatus ranged s =
    if streamValid s.src.bytes.length { s with cfg := c } && headerProbe { s with cfg := c } then .success else .invalidStream := by
  rw [initStatus, h]

theorem seektabValid_iff : seektabValid s = true ↔
    ¬ ((∃ g ∈ List.range s.cfg.numFrames, g + 1 < s.cfg.numFrames ∧ seektabEntry s (g + 1) < seektabEntry s g) ∨
      (0 < s.cfg.numFrames ∧ s.cfg.payLen < seektabEntry s (s.cfg.numFrames - 1))) := by
  simp only [seektabValid, Bool.and_eq_true, Bool.or_eq_true, List.all_eq_true, List.mem_range, decide_eq_true_eq, not_or, not_exists,
    not_and, Nat.not_lt]
  refine and_congr ⟨fun h g _ hg => h g (by omega), fun h g hg => h g (by omega) (by omega)⟩ ⟨fun h hn => ?_, fun h => ?_⟩
  · exact h.resolve_left (by omega)
  · by_cases hn : s.cfg.numFrames = 0
    · exact .inl hn
    · exact .inr (h (by omega))

theorem headerProbe_eq_false_iff : headerProbe s = false ↔ 0 < s.cfg.numFrames ∧ headerDecodes s 0 = false := by
  unfold headerProbe
  split <;> simp [*, Nat.pos_iff_ne_zero]

/-- The checks in the order of R403. -/
theorem initStatus_eq {S F : Nat} (hrange : initRange ranged s = (S, F)) :
    let d := s.regs.desc
    let c := cfgOf s.params d S F
    initStatus ranged s =
    if descValid s.params d = false then .invalidStream
    else if F < S ∨ d.total.toNat < F then .badParameter
    else if s.src.bytes.length < d.payOff.toNat + d.payLen.toNat then .invalidStream
    else if (∃ g ∈ List.range c.numFrames, g + 1 < c.numFrames ∧ seektabEntry s (g + 1) < seektabEntry s g) ∨
        (0 < c.numFrames ∧ c.payLen < seektabEntry s (c.numFrames - 1)) then .invalidStream
    else if 0 < c.numFrames ∧ headerDecodes { s with cfg := c } 0 = false then .invalidStream
    else .success := by
  intro d c
  let u : State := { s with cfg := c }
  have hconf : initConfigure ranged s = if !descValid s.params d then .error .invalidStream
      else if F < S ∨ d.total.toNat < F then .error .badParameter else .ok c := by
    rw [initConfigure, hrange]
  have hentry : ∀ g, seektabEntry u g = seektabEntry s g := seektabEntry_congr rfl rfl rfl
  by_cases hd : descValid s.params d = false
  · rw [initStatus_of_error (st := .invalidStream) (by rw [hconf, if_pos (by rw [hd]; rfl)]), if_pos hd]
  by_cases hr : F < S ∨ d.total.toNat < F
  · rw [initStatus_of_error (st := .badParameter) (by rw [hconf, if_neg (by simpa using hd), if_pos hr]), if_neg hd, if_pos hr]
  rw [initStatus_of_ok (c := c) (by rw [hconf, if_neg (by simpa using hd), if_neg hr]), if_neg hd, if_neg hr]
  by_cases hz : s.src.bytes.length < d.payOff.toNat + d.payLen.toNat
  · have hvalid : streamValid s.src.bytes.length u = false := by
      rw [streamValid, decide_eq_false (by exact Nat.not_le.2 hz), Bool.false_and]
    rw [hvalid, if_pos hz]
    rfl
  have hvalid : streamValid s.src.bytes.length u = seektabValid u := by
    rw [streamValid, decide_eq_true (by exact Nat.not_lt.1 hz), Bool.true_and]
  have htable := seektabValid_iff (s := u)
  simp only [hentry] at htable
  rw [hvalid, if_neg hz]
  split
  case isTrue hgood =>
    obtain ⟨ht, hp⟩ := Bool.and_eq_true_iff.1 hgood
    rw [if_neg (htable.1 ht), if_neg (fun h => by rw [headerProbe_eq_false_iff.2 h] at hp; cases hp)]
  case isFalse hbad =>
    split
    case isTrue => rfl
    case isFalse ht =>
      rw [htable.2 ht, Bool.true_and, Bool.not_eq_true] at hbad
      rw [if_pos (headerProbe_eq_false_iff.1 hbad)]

/-! ## The runs (R402) -/

theorem exec_initCommand (ranged : Bool) (s : State) :
    exec (if ranged then .initR else .init) s = runCommand recoverInit (initBody ranged) s := by
  cases ranged <;> rfl

theorem initBody_validate (ranged : Bool) (hi : s.life.initFailed = false) (hf : s.life.fsm = .uninitialized) :
    initBody ranged s = initValidate ranged s := by
  rw [initBody, Seq.bind_ok (Seq.get_run s), if_neg (by simp [hi]), if_neg (by simp [hf])]

/-- A descriptor or a range that INIT rejects. -/
theorem initValidate_rejected {st : Status} (h : initConfigure ranged s = .error st) :
    initValidate ranged s = .ok () (initFail st { s with life.hadErrors := false }) := by
  have h' : initConfigure ranged { s with life.hadErrors := false } = .error st := h
  rw [initValidate, Seq.bind_ok (Seq.modify_run _ _), Seq.bind_ok (Seq.get_run _), h']
  rfl

/-- INIT past its descriptor and range: CFG set and hadErrors cleared. -/
def configured (c : SessionCfg) (s : State) : State := { s with life.hadErrors := false, cfg := c }

theorem initValidate_accepted {c : SessionCfg} (h : initConfigure ranged s = .ok c) :
    initValidate ranged s = initStream (configured c s) := by
  have h' : initConfigure ranged { s with life.hadErrors := false } = .ok c := h
  rw [initValidate, Seq.bind_ok (Seq.modify_run _ _), Seq.bind_ok (Seq.get_run _), h']
  rfl

/-- What every INIT leaves as it was, whatever its status. -/
structure InitLeaves (st : Status) (s t : State) : Prop where
  frame : t = { s with regs := doneRegs st 0 0 s.regs, cfg := t.cfg, life := t.life, cur := t.cur, frm := t.frm, br := t.br,
                       pred := t.pred, ring := t.ring, src := t.src }
  bytes : t.src.bytes = s.src.bytes
  preds : t.pred.length = s.pred.length

/-- The view that INIT keeps from the configuration on says what it leaves. -/
theorem initLeaves_of_view {c : SessionCfg} {u : State} (st : Status) (l : Life)
    (h : initView .fed u = initView .fed (configured c s)) :
    InitLeaves st s (complete st 0 0 { u with life := l }) := by
  obtain ⟨hframe, hbytes, hpreds⟩ := initView_frame rfl h
  have hu : u = { s with cfg := u.cfg, life := u.life, cur := u.cur, frm := u.frm, br := u.br, pred := u.pred, ring := u.ring,
                         src := u.src } := by
    cases u
    simp only [configured, State.mk.injEq] at hframe ⊢
    simp [hframe]
  rw [complete_zero]
  exact ⟨congrArg (fun v : State => { v with life := l, regs := doneRegs st 0 0 v.regs }) hu, hbytes, hpreds⟩

theorem initConfigure_error {st : Status} (h : initConfigure ranged s = .error st) : st = .invalidStream ∨ st = .badParameter := by
  unfold initConfigure at h
  simp only at h
  split at h
  · cases h; exact .inl rfl
  · split at h
    · cases h; exact .inr rfl
    · cases h

theorem initConfigure_cfg {c : SessionCfg} (h : initConfigure ranged s = .ok c) :
    c = cfgOf s.params s.regs.desc (initRange ranged s).1 (initRange ranged s).2 := by
  unfold initConfigure at h
  simp only at h
  split at h
  · cases h
  · split at h
    · cases h
    · cases h; rfl

theorem sameStream_configured (c : SessionCfg) (s : State) : SameStream { s with cfg := c } (configured c s) :=
  .of_mem rfl rfl rfl rfl rfl

theorem initStatus_eq_success_iff {c : SessionCfg} (h : initConfigure ranged s = .ok c) : initStatus ranged s = .success ↔
    (streamValid (configured c s).src.bytes.length (configured c s) && headerProbe (configured c s)) = true := by
  rw [initStatus_of_ok h, headerProbe_congr (sameStream_configured c s),
    streamValid_congr (s := { s with cfg := c }) (t := configured c s) rfl rfl rfl rfl]
  change (if (streamValid s.src.bytes.length _ && _) = true then _ else _) = _ ↔ (streamValid s.src.bytes.length _ && _) = true
  split <;> simp [*]

/-- INIT past its descriptor and range ends: it opens the session where its status is SUCCESS, and fails in any other case. -/
theorem initStream_ends {c : SessionCfg} (hs : Served s) (hw : s.params.wf = true) (hp : s.pred.length = s.params.maxChannels)
    (h : initConfigure ranged s = .ok c) : ∃ t, initStream (configured c s) = .ok () t ∧ InitEnd .fed (configured c s) t ∧
      if initStatus ranged s = .success then
        ∃ u, t = initDone u ∧ DataOk t ∧ u.life.initFailed = s.life.initFailed ∧ u.life.hadErrors = replayBad { s with cfg := c } 0
      else ∃ u, t = initFail .invalidStream u ∧ u.life = (configured c s).life := by
  obtain ⟨hc, htable, hchannels⟩ := initConfigure_ok h
  have hfed : Env.fed.holds (configured c s) := Served.fed ⟨hs.calm, hs.replies, hs.noFail⟩
  obtain ⟨_, t, hrun, hend, hyield⟩ := ((Ends.of_stops (sat_initStream hfed hc (ringFrames_pos hw))).and
    (yields_initStream (s := configured c s) (Params.fetch_pos hw) (ringFrames_pos hw) hc htable (hchannels.trans hp.ge))).exists_ok
  simp only [← initStatus_eq_success_iff h, (sameStream_configured c s).replayBad hc (Nat.zero_le _)] at hyield
  exact ⟨t, hrun, hend, hyield⟩

theorem initDone_ne_initFail (u v : State) : initDone u ≠ initFail .invalidStream v := fun h => by
  have hstatus : Status.success = .invalidStream := (congrArg (fun t => t.regs.lastStatus) h :)
  cases hstatus

/-- An INIT whose first failing check is not SUCCESS fails with its status. -/
theorem init_fails (hs : Served s) (hw : s.params.wf = true) (hp : s.pred.length = s.params.maxChannels)
    (hi : s.life.initFailed = false) (hf : s.life.fsm = .uninitialized) (hst : initStatus ranged s ≠ .success) :
    ∃ t, exec (if ranged then .initR else .init) s = .next t ∧ InitLeaves (initStatus ranged s) s t ∧
      t.life = { fsm := .uninitialized, initFailed := true, hadErrors := false } := by
  rw [exec_initCommand]
  have hlife : { fsm := s.life.fsm, initFailed := true, hadErrors := false : Life } =
      { fsm := .uninitialized, initFailed := true, hadErrors := false } := by rw [hf]
  cases h : initConfigure ranged s with
  | error st =>
    rw [initStatus_of_error h]
    refine ⟨_, runCommand_ok ((initBody_validate ranged hi hf).trans (initValidate_rejected h)), ?_, hlife⟩
    rw [initFail, complete_zero]
    exact ⟨rfl, rfl, rfl⟩
  | ok c =>
    obtain ⟨t, hrun, hend, hyield⟩ := initStream_ends hs hw hp h
    rw [if_neg hst] at hyield
    obtain ⟨u, rfl, hu⟩ := hyield
    have hinvalid : initStatus ranged s = .invalidStream := by
      rw [initStatus_of_ok h] at hst ⊢
      exact if_neg fun hgood => hst (if_pos hgood)
    rw [hinvalid]
    refine ⟨_, runCommand_ok (((initBody_validate ranged hi hf).trans (initValidate_accepted h)).trans hrun), ?_, ?_⟩
    · cases hend with
      | opened v done => exact absurd done.symm (initDone_ne_initFail v u)
      | failed v done view =>
        rw [done]
        exact initLeaves_of_view .invalidStream _ view
    · exact (congrArg (fun l : Life => { l with initFailed := true }) hu).trans hlife

/-- An INIT that passes every check opens the session. -/
theorem init_opens {c : SessionCfg} (hs : Served s) (hw : s.params.wf = true) (hp : s.pred.length = s.params.maxChannels)
    (hi : s.life.initFailed = false) (hf : s.life.fsm = .uninitialized) (h : initConfigure ranged s = .ok c)
    (hst : initStatus ranged s = .success) :
    ∃ t, exec (if ranged then .initR else .init) s = .next t ∧ InitLeaves .success s t ∧
      t.life = { fsm := .ready, initFailed := false, hadErrors := replayBad { s with cfg := c } 0 } ∧ t.cfg = c ∧
      t.cur = positioned 0 (configured c s) ∧ t.ring.cap = s.params.ringFrames * c.B ∧ t.ring.count = 0 ∧ SessionOk t ∧
      DataOk t := by
  rw [exec_initCommand]
  obtain ⟨t, hrun, hend, hyield⟩ := initStream_ends hs hw hp h
  rw [if_pos hst] at hyield
  obtain ⟨u, rfl, hdata, hfailed, herrors⟩ := hyield
  have hlife : (initDone u).life = { fsm := .ready, initFailed := false, hadErrors := replayBad { s with cfg := c } 0 } := by
    rw [← herrors, ← hi, ← hfailed]
    rfl
  refine ⟨_, runCommand_ok (((initBody_validate ranged hi hf).trans (initValidate_accepted h)).trans hrun), ?_⟩
  cases hend with
  | failed v done => exact absurd done (initDone_ne_initFail u v)
  | opened v done view _ ok empty cur =>
    rw [done] at hlife hdata ⊢
    obtain ⟨hframe, -⟩ := initView_frame rfl view
    have hcfg : v.cfg = c := (congrArg State.cfg hframe :)
    have hparams : v.params = s.params := (congrArg State.params hframe :)
    have hcap : v.ring.cap = s.params.ringFrames * c.B := by rw [ok.ring.cap, hcfg, hparams]
    exact ⟨initLeaves_of_view .success _ view, hlife, hcfg, cur, hcap, empty, ok.congr rfl rfl rfl rfl rfl rfl rfl, hdata⟩

/-- Settles O27: the checks are those of `initStatus`, and an INIT either fails with it or opens the session. -/
theorem initOutcome : Obligations.InitOutcome := by
  intro s ranged hs hw hp hi hf d S F c u st
  have hrange : initRange ranged s = (S, F) := by cases ranged <;> rfl
  have hst : st = initStatus ranged s := (initStatus_eq hrange).symm
  clear_value st
  subst hst
  by_cases hok : initStatus ranged s = .success
  case neg =>
    obtain ⟨t, hrun, ⟨hframe, hbytes, hpreds⟩, hlife⟩ := init_fails hs hw hp hi hf hok
    exact ⟨t, hrun, hframe, hbytes, hpreds, fun _ => hlife, fun h => absurd h hok⟩
  case pos =>
    cases h : initConfigure ranged s with
    | error st =>
      rw [initStatus_of_error h] at hok
      rcases initConfigure_error h with rfl | rfl <;> cases hok
    | ok c' =>
      have hc : c' = c := by rw [initConfigure_cfg h, hrange]
      subst hc
      obtain ⟨t, hrun, ⟨hframe, hbytes, hpreds⟩, hlife, hcfg, hcur, hopen⟩ := init_opens hs hw hp hi hf h hok
      have hSF : S ≤ F := (initConfigure_ok h).1.range
      have hend : decide (0 = F - S) = decide (F = S) := decide_eq_decide.2 (by omega)
      rw [hok]
      refine ⟨t, hrun, hframe, hbytes, hpreds, fun h => absurd rfl h, fun _ => ⟨hlife, hcfg, hcur.trans ?_, hopen⟩⟩
      rw [← hend]
      rfl

end Sys2Proof.Machine
end

section
/-! SUPPORT. The completion interrupt (60_exceptions.md R462), and what the outside can do to a block that is stuck on an unanswered
request (60_exceptions.md R466). -/

namespace Sys2Proof.Machine

variable {s t : State}

/-! ## IRQ (R462) -/

theorem readReg_ctrl_ie (s : State) : (readReg s 0x04).getLsbD 0 = s.regs.ie := by
  change (ctrlWord s).getLsbD 0 = s.regs.ie
  rw [ctrlWord_eq]
  cases s.regs.ie <;> rfl

theorem irq_of_not_done (h : s.regs.done = false) : s.irq = false := by rw [State.irq, h, Bool.and_false]

/-- Settles O13: IRQ is computed from the two bits that CTRL and STATUS read; the writes, the acceptance, reset and the completion each
change one of them. -/
theorem completionInterrupt : Obligations.CompletionInterrupt := by
  refine ⟨fun s => ?_, fun s v h => ?_, fun s v h => irq_of_not_done ?_,
    fun s w => ⟨irq_of_not_done rfl, irq_of_not_done rfl⟩, fun s st r0 r1 => ⟨rfl, ?_⟩⟩
  · obtain ⟨-, hdone, -⟩ := statusFields s
    rw [hdone, readReg_ctrl_ie]
    rfl
  · rw [hostWrite_reg v (by decide) (by decide)]
    exact if_neg (by rw [h]; exact Bool.false_ne_true)
  · rw [statusWriteOneClears, h, Bool.not_true, Bool.and_false]
  · exact Bool.and_true _

/-! ## A stuck command (R466) -/

/-- A store while BUSY = 1 changes what the host may change of a running command, or resets the block. -/
theorem hostWrite_busy (hb : s.regs.busy = true) (w : Width) (a v : DWord) :
    SameBlock s (hostWrite w a v s) ∨ hostWrite w a v s = hwReset s := by
  cases hr : isSoftReset s.params w a v with
  | false => exact .inl (sameBlock_hostWrite hb hr)
  | true => exact .inr (hostWrite_softReset hr)

/-- One operation of the outside while BUSY = 1, in the order of `hostStep`'s cases: no CMD write is accepted. -/
theorem hostStep_busy (hb : s.regs.busy = true) (h : hostStep s = .next t) : SameBlock s t ∨ ∃ l, t = withProg l (hwReset s) := by
  unfold hostStep at h
  split at h
  case h_1 => cases h; exact .inl (.refl s)
  case h_2 l _ =>
    rw [if_pos hb] at h
    cases h
    exact .inl (.refl s)
  case h_3 l _ => cases h; exact .inl (sameBlock_withProg l s)
  case h_4 l _ => cases h; exact .inr ⟨l, rfl⟩
  case h_5 w a l _ => cases h; exact .inl ((sameBlock_withProg l s).trans (sameBlock_hostRead w a _))
  case h_6 w a v l _ =>
    have hb' : (withProg l s).regs.busy = true := hb
    rw [hostStore, if_neg (fun hcmd => hcmd.2 hb')] at h
    cases h
    rcases hostWrite_busy hb' w a v with hsame | hreset
    · exact .inl ((sameBlock_withProg l s).trans hsame)
    · exact .inr ⟨l, hreset⟩

/-- Settles O33: what the host may change of a running command is none of the state that the statement names. -/
theorem stuckUntilReset : Obligations.StuckUntilReset := by
  refine ⟨fun s t hu hb h => ?_, fun s rest hu hb hp => ?_⟩
  · rw [step_eq_hostStep hu] at h
    obtain hsame | ⟨l, rfl⟩ := hostStep_busy hb h
    · have ha := hsame.alike
      exact .inl ⟨hsame.busy.trans hb, ha.src, (congrArg State.life ha :), ha.cur, ha.ring, ha.mem, ha.cfg⟩
    · exact .inr rfl
  · rw [step_eq_hostStep hu, hostStep, hp]
    exact if_pos hb

end Sys2Proof.Machine
end

section
/-! SUPPORT. The state checks of every command word (60_exceptions.md R453, R457) and the four causes of BAD_PARAMETER (R451). -/

namespace Sys2Proof.Machine

variable {s : State} {w : Word} {i : Instr}

/-! ## The word of a decoded command (30_encoding.md R120 to R122, R127) -/

theorem plainSub_ok {n : Nat} {i j : Instr} (h : plainSub n i = .ok j) : n = 0 ∧ j = i := by
  unfold plainSub at h
  split at h
  · cases h; exact ⟨by assumption, rfl⟩
  · cases h

theorem cmdWord_of_fields {opcode sub : Nat} (hr : w.toNat / 65536 = 0) (ho : w.toNat % 256 = opcode)
    (hs : w.toNat / 256 % 256 = sub) : cmdWord opcode sub = w := by
  apply BitVec.eq_of_toNat_eq
  rw [cmdWord, BitVec.toNat_ofNat]
  omega

/-- A command word is its instruction's: no other word decodes to it. -/
theorem encode_of_decodeCmd (h : decodeCmd w = .ok i) : encode i = w := by
  unfold decodeCmd at h
  simp only at h
  split at h
  case isTrue => cases h
  case isFalse hr =>
    have hr := not_not.1 hr
    split at h
    case h_1 ho | h_3 ho | h_4 ho | h_6 ho =>
      obtain ⟨hs, rfl⟩ := plainSub_ok h
      exact cmdWord_of_fields hr ho hs
    case h_2 ho =>
      split at h
      case isTrue hs =>
        cases h
        exact cmdWord_of_fields hr ho hs
      case isFalse =>
        obtain ⟨hs, rfl⟩ := plainSub_ok h
        exact cmdWord_of_fields hr ho hs
    case h_5 ho =>
      unfold decodeGetinfo at h
      split at h
      case h_11 => cases h
      all_goals
        cases h
        exact cmdWord_of_fields hr ho (by assumption)
    case h_7 => cases h

/-! ## The state checks (R453, R457) -/

/-- Every command from GETDATA on needs an open session. -/
theorem exec_of_closed (hi : i.isCommand = true) (ho : 2 ≤ (encode i).toNat % 256) (h : sessionOpen s = false) :
    exec i s = .next (refused s) := by
  cases i
  case nop | init | initR => exact absurd ho (by decide)
  case getdata => exact runCommand_ok (getdataBody_closed h)
  case seek => exact runCommand_ok (seekBody_closed h)
  case release => exact exec_release_closed h
  case getinfoChannels | getinfoSampleRate | getinfoBitsPerSample | getinfoBlockAlign | getinfoTotalBlocks | getinfoCurrentBlock |
      getinfoCompressionLevel | getinfoHadErrors | getinfoFormatVersion | getinfoLegacyMode =>
    exact congrArg Host.Outcome.next (getinfo_closed h _)
  all_goals cases hi

theorem reservedGetinfo_closed (h : sessionOpen s = false) : reservedGetinfo s = refused s := by
  rw [reservedGetinfo, h, if_neg Bool.false_ne_true]
  rfl

/-- A word that is not ILLEGAL is refused where no session is open and its instruction, if it is one, is refused. -/
theorem runWord_refused (hl : illegalWord w = false) (hc : sessionOpen s = false)
    (hrun : ∀ i, decodeCmd w = .ok i → exec i s = .next (refused s)) : runWord w s = .next (refused s) := by
  have hstart : startsCommand w = true := by rw [startsCommand_eq, hl]; rfl
  obtain ⟨i, hd⟩ | hd := startsCommand_iff.1 hstart
  · rw [runWord, hd]
    exact hrun i hd
  · rw [runWord, hd]
    exact congrArg Host.Outcome.next (reservedGetinfo_closed hc)

/-- INIT in a session, or in the middle of one's command (R457). -/
theorem initBody_illegalState (ranged : Bool) (hi : s.life.initFailed = false) (hf : s.life.fsm ≠ .uninitialized) :
    initBody ranged s = .ok () (complete .illegalState 0 0 s) := by
  rw [initBody, Seq.bind_ok (Seq.get_run s), if_neg (by simp [hi]), if_pos hf]
  rfl

/-- The words with OPCODE 1 are INIT and INIT.R. -/
theorem decodeCmd_opcode_one (hl : illegalWord w = false) (ho : w.toNat % 256 = 1) :
    ∃ ranged : Bool, decodeCmd w = .ok (if ranged then .initR else .init) := by
  obtain ⟨hr, -, hs, -⟩ := illegalWord_eq_false_iff.1 hl
  have hs := hs ho
  refine ⟨decide (w.toNat / 256 % 256 = 1), ?_⟩
  obtain h | h : w.toNat / 256 % 256 = 0 ∨ w.toNat / 256 % 256 = 1 := by omega
  · rw [← cmdWord_of_fields hr ho h]
    rfl
  · rw [← cmdWord_of_fields hr ho h]
    rfl

/-- Settles O22: the instruction of a word that is not ILLEGAL is known by its opcode, and its state check comes
first. -/
theorem stateChecks : Obligations.StateChecks := by
  refine ⟨fun s w hl hw hi => ?_, fun s w hl ho hf => ?_, fun s w hl => ?_, fun s w hl ho hi hf => ?_⟩
  · refine runWord_refused hl (sessionOpen_of_failed hi) fun i hd => exec_of_failed (decodeCmd_isCommand hd) ?_ hi
    rintro rfl
    exact hw (encode_of_decodeCmd hd).symm
  · have hclosed := sessionOpen_eq_false_iff.2 (.inr hf)
    refine runWord_refused hl hclosed fun i hd => exec_of_closed (decodeCmd_isCommand hd) ?_ hclosed
    rw [encode_of_decodeCmd hd]
    exact ho
  · exact runWord_illegal hl s
  · obtain ⟨ranged, hd⟩ := decodeCmd_opcode_one hl ho
    rw [runWord, hd]
    exact (exec_initCommand ranged s).trans (runCommand_ok (initBody_illegalState ranged hi hf))

/-! ## BAD_PARAMETER (R451) -/

theorem completeWith_ok (st : Status) (s : State) : completeWith st s = .ok () (complete st 0 0 s) := rfl

/-- GETDATA of more blocks than OUT holds. -/
theorem getdataBody_badParameter (h : sessionOpen s = true) (hn : s.params.outbufBytes / s.cfg.BA < s.latch.a0.toNat) :
    getdataBody s = .ok () (complete .badParameter 0 0 s) := by
  rw [getdataBody, Seq.bind_ok (Seq.get_run s), if_neg (by simp [h]), if_pos hn, completeWith_ok]

/-- SEEK past the end of the range. -/
theorem seekBody_badParameter (h : sessionOpen s = true) (hb : s.cfg.F - s.cfg.S < s.latch.a0.toNat) :
    seekBody s = .ok () (complete .badParameter 0 0 s) := by
  rw [seekBody, Seq.bind_ok (Seq.get_run s), if_neg (by simp [h]), if_pos hb, completeWith_ok]

/-- GETINFO of a reserved field. -/
theorem decodeCmd_reservedField {sub : Nat} (h1 : 0x0A ≤ sub) (h2 : sub ≤ 0xFF) :
    decodeCmd (BitVec.ofNat 32 (4 + 256 * sub)) = .error .reservedField := by
  have hw : (BitVec.ofNat 32 (4 + 256 * sub)).toNat = 4 + 256 * sub := by rw [BitVec.toNat_ofNat]; omega
  have ho : (4 + 256 * sub) % 256 = 4 := by omega
  have hs : (4 + 256 * sub) / 256 % 256 = sub := by omega
  have hr : (4 + 256 * sub) / 65536 = 0 := by omega
  have hfield : decodeGetinfo sub = .error .reservedField := by
    unfold decodeGetinfo
    split
    case h_11 => rfl
    all_goals omega
  simp [decodeCmd, hw, ho, hs, hr, hfield]

theorem initConfigure_badRange (hd : descValid s.params s.regs.desc = true)
    (h : s.latch.a1.toNat < s.latch.a0.toNat ∨ s.regs.desc.total.toNat < s.latch.a1.toNat) :
    initConfigure true s = .error .badParameter := by
  rw [initConfigure, hd, Bool.not_true, if_neg Bool.false_ne_true]
  exact if_pos h

/-- Settles O26: each cause is the check that the command meets next after its state checks. -/
theorem badParameterCases : Obligations.BadParameterCases := by
  refine ⟨fun s hi hr => ?_, fun s hi hf hd hrange => ?_⟩
  · have hopen := (sessionOpen_iff s).2 ⟨hi, hr⟩
    refine ⟨fun hn => runCommand_ok (getdataBody_badParameter hopen hn), fun hb => runCommand_ok (seekBody_badParameter hopen hb),
      fun sub h1 h2 => ?_⟩
    rw [runWord, decodeCmd_reservedField h1 h2]
    exact congrArg Host.Outcome.next (if_pos hopen)
  · have hrun := (initBody_validate true hi hf).trans (initValidate_rejected (initConfigure_badRange hd hrange))
    refine (runCommand_ok hrun).trans ?_
    rw [initFail, complete_zero, ← hf]

end Sys2Proof.Machine
end

section
/-! SUPPORT. Commands that nothing disturbs and whose requests are all answered, FAIL or not (60_exceptions.md R454, R466): each completes
with a status of its table (46_host_commands.md R420), IO_FAILURE just where a request failed, and what that leaves. -/

namespace Sys2Proof.Machine

variable {s t : State} {i : Instr}

/-! ## Stops where every request is answered -/

/-- What is assumed from s on, and watched: nothing disturbs, every request is answered, hadErrors stays set where it is, and the log tells
the answers. -/
def Env.watching (s : State) : Env :=
  { calm := true, replies := true, noFail := false, errors := s.life.hadErrors, log := some s.src.log }

theorem Replied.watching (h : Replied s) : (Env.watching s).holds s :=
  ⟨fun _ => h.calm, fun _ => h.replies, nofun, id, h.replied.since.2.2.2.2⟩

/-- A computation then stops for a FAIL alone. -/
theorem StopsFrom.replied {γ : Type} {e : Env} {f : State → γ} {st : Stop} (hc : e.calm = true) (hr : e.replies = true)
    (h : StopsFrom e False f s st t) : st = .ioFailure ∧ f t = f s ∧ e.failed t := by
  cases st with
  | ioFailure => exact ⟨rfl, h.2⟩
  | halted =>
    obtain ⟨hc', -⟩ | ⟨hr', -⟩ := h
    · exact absurd (hc'.symm.trans hc) Bool.false_ne_true
    · exact absurd (hr'.symm.trans hr) Bool.false_ne_true
  | fault => exact h.elim

theorem LoopStops.replied {e : Env} {n k : Nat} {st : Stop} (hc : e.calm = true) (hr : e.replies = true)
    (h : LoopStops e False n k s st t) : st = .ioFailure ∧ LoopStops e False n k s .ioFailure t := by
  cases st with
  | ioFailure => exact ⟨rfl, h⟩
  | halted => exact absurd (StopsFrom.replied (st := .halted) hc hr h.1).1 nofun
  | fault => exact h.elim

/-- A command whose body stops for a FAIL alone, and whose recovery completes, completes. -/
theorem runCommand_replied {recover body : Seq Unit} {g : State → State} {Q E : State → Prop}
    (h : Sat body s (fun _ t => Q t) fun st t => st = .ioFailure ∧ E t) (hrec : ∀ t, E t → recover t = .ok () (g t)) :
    ∃ t, runCommand recover body s = .next t ∧ (Q t ∨ ∃ u, E u ∧ t = g u) := by
  cases hb : body s with
  | ok _ t => exact ⟨t, runCommand_ok hb, .inl (h.ok hb)⟩
  | error st u =>
    obtain ⟨rfl, hE⟩ := h.error hb
    refine ⟨g u, ?_, .inr ⟨u, hE, rfl⟩⟩
    rw [runCommand_failed hb, hrec u hE]
    rfl

theorem Source.cleanSince.log_eq {src : Source} {l : List (SrcReq × SrcAnswer)} (h : src.cleanSince l) :
    ∃ new, src.log = new ++ l ∧ ¬ ∃ req, (req, SrcAnswer.fail) ∈ new := by
  obtain ⟨new, hlog, hnew⟩ := h
  exact ⟨new, hlog, fun ⟨_, hreq⟩ => hnew _ hreq rfl⟩

theorem Source.failedSince.log_eq {src : Source} {l : List (SrcReq × SrcAnswer)} (h : src.failedSince l) :
    ∃ new, src.log = new ++ l ∧ ∃ req, (req, SrcAnswer.fail) ∈ new := by
  obtain ⟨new, hlog, ⟨req, _⟩, hreq, rfl⟩ := h
  exact ⟨new, hlog, req, hreq⟩

/-! ## GETDATA and SEEK of a session in order -/

/-- How such a command ends; k bounds the blocks that it had delivered where it met a FAIL. -/
inductive SessionEnd (i : Instr) (k : Nat) (s t : State) : Prop where
  | completed (st : Status) (r0 r1 : DWord) (u : State) (done : t = complete st r0 r1 u) (status : st ∈ statusesOf i)
      (ne : st ≠ .ioFailure) (holds : (Env.watching s).holds u)
  | failed (f : Fsm) (u : State) (done : t = recovered (ringReset u))
      (stop : LoopStops (Env.watching s) False (k * s.cfg.BA) k (enterCommand f s) .ioFailure u)

theorem sessionEnd_of_body {body : Seq Unit} {f : Fsm} {k : Nat}
    (h : Sat body s (fun _ t => ∃ st r0 r1 u, t = complete st r0 r1 u ∧ st ∈ statusesOf i ∧ st ≠ .ioFailure ∧ (Env.watching s).holds u)
      (LoopStops (Env.watching s) False (k * s.cfg.BA) k (enterCommand f s))) :
    ∃ t, runCommand recoverSession body s = .next t ∧ SessionEnd i k s t := by
  have hrec : ∀ u, LoopStops (Env.watching s) False (k * s.cfg.BA) k (enterCommand f s) .ioFailure u →
      recoverSession u = .ok () (recovered (ringReset u)) := fun u ⟨_, _, hfail, _⟩ => recoverSession_ok (hfail.1 rfl)
  obtain ⟨t, hrun, ⟨st, r0, r1, u, done, status, ne, holds⟩ | ⟨u, stop, done⟩⟩ :=
    runCommand_replied (h.mono (fun _ _ h => h) fun _ _ h => h.replied rfl rfl) hrec
  · exact ⟨t, hrun, .completed st r0 r1 u done status ne holds⟩
  · exact ⟨t, hrun, .failed f u done stop⟩

theorem getdata_ends (hs : Replied s) (hopen : sessionOpen s = true) (hl : SessionOk s) :
    ∃ t, exec .getdata s = .next t ∧ SessionEnd .getdata (wantOf s.latch.a0.toNat s) s t := by
  refine sessionEnd_of_body (f := .decoding) ?_
  by_cases hn : s.params.outbufBytes / s.cfg.BA < s.latch.a0.toNat
  · rw [Sat, getdataBody_badParameter hopen hn]
    exact ⟨.badParameter, 0, 0, s, rfl, by decide, by decide, hs.watching⟩
  · rw [Sat, getdataBody_run hopen (Nat.not_lt.1 hn)]
    refine (sat_getdataRun _ hs.watching hl).mono (fun _ t ⟨u, ht, _, hu, _⟩ => ⟨_, _, _, _, ht, ?_, ?_, hu⟩) fun _ _ h => h
    all_goals split <;> decide

/-- An undisturbed SEEK meets a FAIL in its positioning alone, before it has moved the cursor. -/
theorem sat_seekRun_calm {e : Env} {φ : Prop} (hc : e.calm = true) (b : Nat) (hs : e.holds s) (hl : SessionOk s) :
    Sat (seekRun b) s (fun _ _ => True) (LoopStops e φ 0 0 (enterCommand .seeking s)) := by
  cases hb : seekShort b s with
  | true =>
    rw [Sat, seekRun_short (hs.1 hc) hb]
    trivial
  | false =>
    unfold seekRun
    refine Sat.bind (Sat.modify (Sat.bind (Sat.get ?_)))
    rw [if_neg (by exact Bool.eq_false_iff.1 hb)]
    refine Sat.bind ((sat_pPosition (φ := φ) (s := enterCommand .seeking s) b hs).mono (fun _ t ⟨_, ht, _⟩ => ?_)
      fun _ _ h => LoopStops.of_decode hl.cursor.skip h)
    change Sat (finishWith _) t _ _
    rw [Sat, finishWith_ok (ht.1 hc)]
    trivial

theorem seek_ends (hs : Replied s) (hopen : sessionOpen s = true) (hl : SessionOk s) :
    ∃ t, exec .seek s = .next t ∧ SessionEnd .seek 0 s t := by
  refine sessionEnd_of_body (f := .seeking) ?_
  rw [Nat.zero_mul]
  by_cases hb : s.cfg.F - s.cfg.S < s.latch.a0.toNat
  · rw [Sat, seekBody_badParameter hopen hb]
    exact ⟨.badParameter, 0, 0, s, rfl, by decide, by decide, hs.watching⟩
  · have hb := Nat.not_lt.1 hb
    rw [Sat, seekBody_run hopen hb]
    exact ((sat_seekRun (φ := False) _ hs.watching hl hb).and_sat (sat_seekRun_calm rfl _ hs.watching hl)).mono
      (fun _ t ⟨⟨u, ht, _, hu, _⟩, _⟩ => ⟨.success, 0, 0, _, ht, by decide, by decide, hu⟩) fun _ _ h => h.2

/-! ## The recovery of a session (R454) -/

/-- What an I/O failure of GETDATA or SEEK leaves of the session of s; n bounds the bytes of OUT that can differ (log 11). -/
def RolledBack (n : Nat) (s t : State) : Prop :=
  t.life = { fsm := .ready, initFailed := false, hadErrors := t.life.hadErrors } ∧ t.cfg = s.cfg ∧ t.latch = s.latch ∧
    t.cur.curBlock = s.cur.curBlock ∧ t.cur.resyncPending = true ∧ t.ring.count = 0 ∧ t.ring.rd = 0 ∧ t.ring.wr = 0 ∧
    t.ring.cap = s.ring.cap ∧ t.regs = doneRegs .ioFailure 0 0 s.regs ∧
    ∀ a, a < outBase ∨ outBase + n ≤ a → readByte t a = readByte s a

theorem recovered_frame (s : State) : ∃ m, recovered s =
      { s with regs := doneRegs .ioFailure 0 0 s.regs, life := { s.life with fsm := .ready },
               cur := { s.cur with curBlock := s.cur.entryBlock, resyncPending := true }, mem := m, draws := s.draws + 1 } ∧
    MemWithin ((s.cur.curBlock - s.cur.entryBlock) * s.cfg.BA) s { s with mem := m } := by
  obtain ⟨m, hm, hwithin⟩ := forgetOut_frame s
  refine ⟨m, ?_, hwithin⟩
  rw [recovered, hm, complete_zero]

/-- The recovery goes back to the entry position, whatever the command had done. -/
theorem rolledBack_of_stop {e : Env} {f : Fsm} {k : Nat} {u : State} (hc : e.calm = true) (hi : s.life.initFailed = false)
    (h : LoopStops e False (k * s.cfg.BA) k (enterCommand f s) .ioFailure u) :
    RolledBack (k * s.cfg.BA) s (recovered (ringReset u)) := by
  obtain ⟨-, hview, -, -, hmem, hreach⟩ := h
  obtain ⟨-, -, -, -, hinit, hcfg, hcap, hentry, -⟩ := outView_facts hview
  have hframe := (outView_frame hc hview).1
  have hlatch : u.latch = s.latch := (congrArg State.latch hframe :)
  have hregs : u.regs = s.regs := (congrArg State.regs hframe :)
  change u.cur.entryBlock = s.cur.curBlock at hentry
  obtain ⟨m, hrec, hforgot⟩ := recovered_frame (ringReset u)
  have hle : ((ringReset u).cur.curBlock - (ringReset u).cur.entryBlock) * (ringReset u).cfg.BA ≤ k * s.cfg.BA := by
    change (u.cur.curBlock - u.cur.entryBlock) * u.cfg.BA ≤ _
    change u.cur.curBlock ≤ s.cur.curBlock + k at hreach
    rw [hcfg]
    exact Nat.mul_le_mul_right _ (by omega)
  rw [hrec]
  refine ⟨?_, hcfg, hlatch, hentry, rfl, rfl, rfl, rfl, hcap, congrArg (doneRegs .ioFailure 0 0) hregs, fun a ha => ?_⟩
  · exact congrArg (fun b => ({ fsm := .ready, initFailed := b, hadErrors := u.life.hadErrors } : Life)) (hinit.trans hi)
  · calc _ = readByte (ringReset u) a := ((readByte_congr rfl rfl a).trans ((hforgot.mono hle).outside a ha))
      _ = readByte u a := readByte_congr rfl rfl a
      _ = readByte s a := (hmem.outside a ha).trans (readByte_congr rfl rfl a)

/-- IO_FAILURE is reported just where a request failed, and hadErrors stays set (10_state.md R41). -/
theorem SessionEnd.ioFailure {k : Nat} (h : SessionEnd i k s t) (hi : s.life.initFailed = false) :
    ∃ new, t.src.log = new ++ s.src.log ∧ (t.regs.lastStatus = .ioFailure ↔ ∃ req, (req, SrcAnswer.fail) ∈ new) ∧
      (s.life.hadErrors = true → t.life.hadErrors = true) ∧ (t.regs.lastStatus = .ioFailure → RolledBack (k * s.cfg.BA) s t) := by
  cases h with
  | completed st r0 r1 u done status ne holds =>
    subst done
    obtain ⟨-, -, -, herrors, hclean⟩ := holds
    obtain ⟨new, hlog, hnew⟩ := (hclean _ rfl).log_eq
    exact ⟨new, hlog, iff_of_false ne hnew, herrors, fun h => absurd h ne⟩
  | failed f u done stop =>
    have hback := rolledBack_of_stop rfl hi stop
    obtain ⟨-, -, ⟨-, -, herrors, hfailed⟩, -⟩ := stop
    obtain ⟨new, hlog, hnew⟩ := (hfailed _ rfl).log_eq
    obtain ⟨m, hrec, -⟩ := recovered_frame (ringReset u)
    subst done
    refine ⟨new, ?_, iff_of_true rfl hnew, ?_, fun _ => hback⟩
    · rw [hrec]; exact hlog
    · rw [hrec]; exact herrors

theorem RolledBack.mono {n m : Nat} (h : RolledBack n s t) (hle : n ≤ m) : RolledBack m s t := by
  obtain ⟨hlife, hcfg, hlatch, hcur, hpending, hcount, hrd, hwr, hcap, hregs, hmem⟩ := h
  exact ⟨hlife, hcfg, hlatch, hcur, hpending, hcount, hrd, hwr, hcap, hregs, fun a ha => hmem a (by omega)⟩

/-! ## INIT and INIT.R -/

/-- How an INIT past its state checks ends. -/
inductive InitReplied (s t : State) : Prop where
  | completed (st : Status) (u : State) (done : t = complete st 0 0 u) (status : st ∈ [.success, .badParameter, .invalidStream])
      (clean : u.src.cleanSince s.src.log)
  | failed (c : SessionCfg) (u : State) (done : t = initFail .ioFailure u)
      (view : initView .replied u = initView .replied (configured c s)) (failed : u.src.failedSince s.src.log)

theorem initStream_replied {c : SessionCfg} (hs : Replied s) (hc : CfgOk c) (hw : s.params.wf = true) :
    Sat initStream (configured c s) (fun _ t => ∃ st u, t = complete st 0 0 u ∧ st ∈ [.success, .badParameter, .invalidStream] ∧
        u.src.cleanSince s.src.log)
      fun st u => st = .ioFailure ∧ initView .replied u = initView .replied (configured c s) ∧ Undisturbed u ∧
        u.src.failedSince s.src.log := by
  have hholds := (Replied.replied (s := configured c s) ⟨hs.calm, hs.replies⟩).since
  refine (sat_initStream (φ := False) hholds hc (ringFrames_pos hw)).mono (fun _ t ht => ?_) fun st u h => ?_
  · cases ht with
    | opened u done _ holds => exact ⟨.success, _, done, by decide, holds.2.2.2.2 _ rfl⟩
    | failed u done _ holds => exact ⟨.invalidStream, _, done, by decide, holds.2.2.2.2 _ rfl⟩
  · obtain ⟨hst, hview, hcalm, -, -, hfailed⟩ := h.replied rfl rfl
    exact ⟨hst, hview, hcalm rfl, hfailed _ rfl⟩

theorem init_ends (ranged : Bool) (hs : Replied s) (hw : s.params.wf = true) (hi : s.life.initFailed = false)
    (hf : s.life.fsm = .uninitialized) :
    ∃ t, exec (if ranged then .initR else .init) s = .next t ∧ InitReplied s t := by
  rw [exec_initCommand]
  cases hconf : initConfigure ranged s with
  | error st =>
    refine ⟨_, runCommand_ok ((initBody_validate ranged hi hf).trans (initValidate_rejected hconf)),
      .completed st _ rfl ?_ s.src.cleanSince_refl⟩
    rcases initConfigure_error hconf with rfl | rfl <;> decide
  | ok c =>
    have hbody : initBody ranged s = initStream (configured c s) :=
      (initBody_validate ranged hi hf).trans (initValidate_accepted hconf)
    have hsat := initStream_replied hs (initConfigure_ok hconf).1 hw
    rw [Sat, ← hbody] at hsat
    obtain ⟨t, hrun, ⟨st, u, done, status, clean⟩ | ⟨u, ⟨view, -, failed⟩, done⟩⟩ :=
      runCommand_replied (recover := recoverInit) (g := initFail .ioFailure) hsat fun u hu => recoverInit_ok hu.2.1
    · exact ⟨t, hrun, .completed st u done status clean⟩
    · exact ⟨t, hrun, .failed c u done view failed⟩

/-- IO_FAILURE is reported just where a request failed; no session is then open, and memory is as it was. -/
theorem InitReplied.ioFailure (h : InitReplied s t) (hf : s.life.fsm = .uninitialized) :
    ∃ new, t.src.log = new ++ s.src.log ∧ (t.regs.lastStatus = .ioFailure ↔ ∃ req, (req, SrcAnswer.fail) ∈ new) ∧
      (t.regs.lastStatus = .ioFailure → t.life.fsm = .uninitialized ∧ t.life.initFailed = true ∧
        t.regs = doneRegs .ioFailure 0 0 s.regs ∧ t.latch = s.latch ∧ ∀ a, readByte t a = readByte s a) := by
  cases h with
  | completed st u done status clean =>
    subst done
    have hne : st ≠ .ioFailure := by rintro rfl; exact absurd status (by decide)
    obtain ⟨new, hlog, hnew⟩ := clean.log_eq
    exact ⟨new, hlog, iff_of_false hne hnew, fun h => absurd h hne⟩
  | failed c u done view failed =>
    subst done
    obtain ⟨new, hlog, hnew⟩ := failed.log_eq
    have hframe := (initView_frame rfl view).1
    have hregs : u.regs = s.regs := (congrArg State.regs hframe :)
    refine ⟨new, hlog, iff_of_true rfl hnew, fun _ => ⟨?_, rfl, ?_, (congrArg State.latch hframe :), ?_⟩⟩
    · exact (congrArg (fun s => s.life.fsm) hframe :).trans hf
    · rw [initFail, complete_zero, ← hregs]
    · exact readByte_congr (congrArg State.mem hframe :) (congrArg State.epoch hframe :)

/-- The descriptor alone decides whether INIT of the whole stream is configured (46_host_commands.md R403). -/
theorem initConfigure_whole (hd : descValid s.params s.regs.desc = true) :
    initConfigure false s = .ok (cfgOf s.params s.regs.desc 0 s.regs.desc.total.toNat) := by
  rw [initConfigure, hd, Bool.not_true, if_neg Bool.false_ne_true]
  exact if_neg (by simp [initRange])

/-- The size request is INIT's first. -/
theorem initStream_fail (hs : Undisturbed s) (h : nextAnswer s.src = .fail) :
    initStream s = .error .ioFailure { s with src := s.src.afterRequest .size } := by
  have hsize : call uSrcSize s = .error .ioFailure { s with src := s.src.afterRequest .size } := by
    rw [call_undisturbed hs, uSrcSize, Seq.bind_error (request_fail .size h)]
  rw [initStream, Seq.bind_error hsize]

/-- Settles O32: the ends of GETDATA and SEEK, of INIT, and of an INIT whose size request fails. -/
theorem ioFailureRecovery : Obligations.IoFailureRecovery := by
  refine ⟨fun s i hs hcmd hi hr hl => ?_, fun s i hs hw hcmd hi hf => ?_, fun s hs hfail hi hf hd => ?_⟩
  · have hopen := (sessionOpen_iff s).2 ⟨hi, hr⟩
    obtain rfl | rfl := hcmd
    · obtain ⟨t, hrun, hend⟩ := getdata_ends hs hopen hl
      obtain ⟨new, hlog, hiff, herrors, hback⟩ := hend.ioFailure hi
      have hle : wantOf s.latch.a0.toNat s * s.cfg.BA ≤ s.latch.a0.toNat * s.cfg.BA :=
        Nat.mul_le_mul_right _ (Nat.min_le_left _ _)
      exact ⟨t, new, hrun, hlog, hiff, herrors, fun h => (hback h).mono hle⟩
    · obtain ⟨t, hrun, hend⟩ := seek_ends hs hopen hl
      obtain ⟨new, hlog, hiff, herrors, hback⟩ := hend.ioFailure hi
      exact ⟨t, new, hrun, hlog, hiff, herrors, fun h => (hback h).mono (Nat.zero_mul _).le⟩
  · obtain ⟨ranged, rfl⟩ : ∃ ranged : Bool, i = if ranged then .initR else .init :=
      hcmd.elim (fun h => ⟨false, h⟩) fun h => ⟨true, h⟩
    obtain ⟨t, hrun, hend⟩ := init_ends ranged hs hw hi hf
    obtain ⟨new, hrest⟩ := hend.ioFailure hf
    exact ⟨t, new, hrun, hrest⟩
  · have hstop : initBody false s = _ := (initBody_validate false hi hf).trans
      ((initValidate_accepted (initConfigure_whole hd)).trans (initStream_fail (by exact hs) hfail))
    have hrec := recoverInit_ok (s := { configured (cfgOf s.params s.regs.desc 0 s.regs.desc.total.toNat) s with
      src := s.src.afterRequest .size }) hs
    refine ⟨s.src.afterRequest .size, (runCommand_failed hstop).trans ((congrArg settle hrec).trans ?_)⟩
    rw [initFail, complete_zero, ← hf]
    rfl

/-! ## Every command -/

/-- A command's report (46_host_commands.md R400, R420), and hadErrors kept by all but INIT (10_state.md R41). -/
def Reports (i : Instr) (s t : State) : Prop :=
  t.regs.busy = false ∧ t.regs.done = true ∧ t.regs.lastStatus ∈ statusesOf i ∧
    (t.regs.lastStatus ≠ .success → t.regs.lastStatus ≠ .endOfData → t.regs.res0 = 0 ∧ t.regs.res1 = 0) ∧
    (i ≠ .init → i ≠ .initR → s.life.hadErrors = true → t.life.hadErrors = true)

theorem reports_complete {st : Status} {r0 r1 : DWord} {u : State} (hst : st ∈ statusesOf i)
    (herrors : i ≠ .init → i ≠ .initR → s.life.hadErrors = true → u.life.hadErrors = true) :
    Reports i s (complete st r0 r1 u) := by
  refine ⟨rfl, rfl, hst, fun h1 h2 => ?_, herrors⟩
  have hkeep : ¬ (st = .success ∨ st = .endOfData) := not_or.2 ⟨h1, h2⟩
  exact ⟨if_neg hkeep, if_neg hkeep⟩

theorem SessionEnd.reports {k : Nat} (h : SessionEnd i k s t) (hio : .ioFailure ∈ statusesOf i) : Reports i s t := by
  cases h with
  | completed st r0 r1 u done status ne holds =>
    subst done
    exact reports_complete status fun _ _ => holds.2.2.2.1
  | failed f u done stop =>
    subst done
    obtain ⟨-, -, ⟨-, -, herrors, -⟩, -⟩ := stop
    obtain ⟨m, hm, -⟩ := forgetOut_frame (ringReset u)
    rw [recovered, hm]
    exact reports_complete hio fun _ _ => herrors

theorem InitReplied.reports (h : InitReplied s t) (hi : i = .init ∨ i = .initR) : Reports i s t := by
  have herrors : ∀ u : State, i ≠ .init → i ≠ .initR → s.life.hadErrors = true → u.life.hadErrors = true :=
    fun _ h1 h2 => absurd hi (not_or.2 ⟨h1, h2⟩)
  have hst : (∀ st ∈ [Status.success, .badParameter, .invalidStream], st ∈ statusesOf i) ∧ .ioFailure ∈ statusesOf i := by
    obtain rfl | rfl := hi <;> decide
  cases h with
  | completed st u done status clean =>
    subst done
    exact reports_complete (hst.1 st status) (herrors u)
  | failed c u done view failed =>
    subst done
    exact reports_complete hst.2 (herrors _)

/-- INIT and INIT.R: their two state checks, and their run. -/
theorem init_reports (ranged : Bool) (hs : Replied s) (hw : s.params.wf = true) :
    ∃ t, exec (if ranged then .initR else .init) s = .next t ∧ Reports (if ranged then .initR else .init) s t := by
  have hcmd : (if ranged then Instr.initR else .init) = .init ∨ (if ranged then Instr.initR else .init) = .initR := by
    cases ranged <;> simp
  by_cases hi : s.life.initFailed = true
  · refine ⟨_, (exec_initCommand ranged s).trans (runCommand_ok (initBody_failed ranged hi)),
      reports_complete (u := s) (r0 := 0) (r1 := 0) ?_ fun _ _ => id⟩
    cases ranged <;> decide
  have hi := Bool.eq_false_iff.2 hi
  by_cases hf : s.life.fsm = .uninitialized
  · obtain ⟨t, hrun, hend⟩ := init_ends ranged hs hw hi hf
    exact ⟨t, hrun, hend.reports hcmd⟩
  · refine ⟨_, (exec_initCommand ranged s).trans (runCommand_ok (initBody_illegalState ranged hi hf)),
      reports_complete ?_ fun _ _ => id⟩
    cases ranged <;> decide

theorem getinfo_reports (h : sessionOpen s = true) (v : Nat) (hst : .success ∈ statusesOf i) : Reports i s (getinfo v s) := by
  rw [getinfo, if_pos h]
  exact reports_complete hst fun _ _ => id

/-- The commands that need an open session, where one is open. -/
theorem session_reports (hs : Replied s) (hi : i.isCommand = true) (ho : 2 ≤ (encode i).toNat % 256) (h : sessionOpen s = true)
    (hl : SessionOk s) : ∃ t, exec i s = .next t ∧ Reports i s t := by
  cases i
  case nop | init | initR => exact absurd ho (by decide)
  case getdata =>
    obtain ⟨t, hrun, hend⟩ := getdata_ends hs h hl
    exact ⟨t, hrun, hend.reports (by decide)⟩
  case seek =>
    obtain ⟨t, hrun, hend⟩ := seek_ends hs h hl
    exact ⟨t, hrun, hend.reports (by decide)⟩
  case release =>
    exact ⟨_, runCommand_ok ((releaseBody_run h).trans (releaseRun_ok hs.calm)), reports_complete (by decide) fun _ _ => id⟩
  case getinfoChannels | getinfoSampleRate | getinfoBitsPerSample | getinfoBlockAlign | getinfoTotalBlocks | getinfoCurrentBlock |
      getinfoCompressionLevel | getinfoHadErrors | getinfoFormatVersion | getinfoLegacyMode =>
    exact ⟨_, rfl, getinfo_reports h _ (by decide)⟩
  all_goals cases hi

/-- A command is NOP, one of the two INITs, or one that needs an open session. -/
theorem command_kinds (hi : i.isCommand = true) : i = .nop ∨ (∃ ranged : Bool, i = if ranged then .initR else .init) ∨
    (2 ≤ (encode i).toNat % 256 ∧ .uninitialized ∈ statusesOf i) := by
  cases i
  case nop => exact .inl rfl
  case init => exact .inr (.inl ⟨false, rfl⟩)
  case initR => exact .inr (.inl ⟨true, rfl⟩)
  case getdata | seek | getinfoChannels | getinfoSampleRate | getinfoBitsPerSample | getinfoBlockAlign | getinfoTotalBlocks |
      getinfoCurrentBlock | getinfoCompressionLevel | getinfoHadErrors | getinfoFormatVersion | getinfoLegacyMode | release =>
    exact .inr (.inr (by decide))
  all_goals cases hi

/-- Settles O31: a command is refused by its state check, or it runs to one of the ends above. -/
theorem commandsReport : Obligations.CommandsReport := by
  intro s i hs hw hi hl
  obtain rfl | ⟨ranged, rfl⟩ | ⟨hop, hst⟩ := command_kinds hi
  · exact ⟨_, rfl, reports_complete (by decide) fun _ _ => id⟩
  · exact init_reports ranged hs hw
  · cases hopen : sessionOpen s with
    | true =>
      obtain ⟨halive, hready⟩ := (sessionOpen_iff s).1 hopen
      exact session_reports hs hi hop hopen (hl halive hready)
    | false =>
      exact ⟨_, exec_of_closed hi hop hopen, reports_complete (u := s) (r0 := 0) (r1 := 0) hst fun _ _ => id⟩

end Sys2Proof.Machine
end

section
/-! SUPPORT. Reset (70_reset_and_hazards.md R490 to R493): its two sources, what it leaves in the registers and in the internal state, and
the invariant right after it; and the protection of DESC and SEEKTAB (R499). -/

namespace Sys2Proof.Machine

variable {s : State} {rest : List HostOp}

/-! ## The two sources of reset (R490, R493) -/

/-- R35: a store to CTRL is a reset just where it writes 1 to SOFT_RESET. -/
theorem isSoftReset_ctrl (p : Params) (v : DWord) : isSoftReset p .b32 (regAddr p 0x04) v = (lo v).getLsbD 1 := by
  simp [isSoftReset, isRegWrite, regionOf_reg]

theorem isCmdWrite_ctrl (p : Params) : isCmdWrite p .b32 (regAddr p 0x04) = false := by
  simp [isCmdWrite, isRegWrite, regionOf_reg]

theorem hostWrite_ctrl_softReset {v : DWord} (hv : (lo v).getLsbD 1 = true) :
    hostWrite .b32 (regAddr s.params 0x04) v s = hwReset s :=
  hostWrite_softReset ((isSoftReset_ctrl s.params v).trans hv)

/-- A store to CTRL is never taken for a command. -/
theorem hostStore_ctrl_softReset {v : DWord} (hv : (lo v).getLsbD 1 = true) :
    hostStore .b32 (regAddr s.params 0x04) v s = .next (hwReset s) := by
  rw [hostStore, isCmdWrite_ctrl, if_neg (by simp), hostWrite_ctrl_softReset hv]

theorem step_rstN (hu : s.uop = none) (hp : s.host.prog = .rstN :: rest) : step s = .next (withProg rest (hwReset s)) := by
  rw [step_eq_hostStep hu, hostStep, hp]

theorem step_softReset {v : DWord} (hu : s.uop = none) (hp : s.host.prog = .wr .b32 (regAddr s.params 0x04) v :: rest)
    (hv : (lo v).getLsbD 1 = true) : step s = .next (withProg rest (hwReset s)) := by
  rw [step_eq_hostStep hu, hostStep, hp]
  exact hostStore_ctrl_softReset (s := withProg rest s) hv

/-- The outside's next operation is one of the two sources of reset. -/
def ResetNext (s : State) (rest : List HostOp) : Prop :=
  s.host.prog = .rstN :: rest ∨ ∃ v, s.host.prog = .wr .b32 (regAddr s.params 0x04) v :: rest ∧ (lo v).getLsbD 1 = true

theorem interleave_resetNext (hb : s.regs.busy = true) (h : ResetNext s rest) :
    interleave s = .error .halted (withProg rest (hwReset s)) := by
  rw [interleave, if_pos hb]
  obtain hp | ⟨v, hp, hv⟩ := h
  · rw [hp, drain]
  · rw [hp, drain, isSoftReset_ctrl, if_pos hv, hostWrite_ctrl_softReset hv]

/-- A command that reset abandons ends where the reset left the block: its recovery does not run. -/
theorem runCommand_halted {recover body : Seq Unit} {t : State} (h : body s = .error .halted t) :
    runCommand recover body s = .next t := by
  rw [runCommand, h]
  rfl

theorem runCommand_resetNext (recover m : Seq Unit) (hb : s.regs.busy = true) (h : ResetNext s rest) :
    runCommand recover (call m) s = .next (withProg rest (hwReset s)) :=
  runCommand_halted (Seq.bind_error (interleave_resetNext hb h))

/-- Settles O10: each source, as a host step and between two micro-operations, leaves the state of `hwReset` with the outside's other
operations still to come. -/
theorem resetSourcesAgree : Obligations.ResetSourcesAgree :=
  ⟨fun _ _ hu hp => step_rstN hu hp, fun _ _ _ hu hp hv => step_softReset hu hp hv,
    fun _ m _ recover hb h => runCommand_resetNext recover m hb h, fun _ => ⟨rfl, rfl, rfl, rfl⟩⟩

/-! ## What the registers read after reset (R491) -/

theorem hi_zero : hi 0 = 0 := by decide

/-- Every offset but those of ID and STATUS reads a register that reset clears, or is reserved; the cases named are the HI halves. -/
theorem readReg_hwReset_zero {o : Nat} (hid : o ≠ 0x00) (hstatus : o ≠ 0x08) : readReg (hwReset s) o = 0 := by
  unfold readReg
  split
  case h_1 => exact absurd rfl hid
  case h_3 => exact absurd rfl hstatus
  case h_6 | h_8 | h_10 | h_12 | h_18 | h_23 | h_25 => exact hi_zero
  all_goals rfl

/-- DONE, BUSY and the lifecycle are 0, and LAST_STATUS is NONE. -/
theorem statusWord_hwReset (s : State) : statusWord (hwReset s) = 0x00000F00 := by
  apply BitVec.eq_of_toNat_eq
  rw [statusWord_toNat]
  rfl

theorem readReg_hwReset (s : State) (o : Nat) :
    readReg (hwReset s) o = if o = 0x00 then s.params.idValue else if o = 0x08 then 0x00000F00 else 0 := by
  split
  case isTrue hid =>
    rw [hid]
    rfl
  case isFalse hid =>
    split
    case isTrue hstatus => rw [hstatus, readReg_status, statusWord_hwReset]
    case isFalse hstatus => exact readReg_hwReset_zero hid hstatus

/-- Settles O8: the registers one by one; IRQ is 0 because DONE is. -/
theorem resetRegisterValues : Obligations.ResetRegisterValues := fun s o => ⟨readReg_hwReset s o, irq_of_not_done rfl⟩

/-! ## The internal state after reset (R492) -/

/-- R44, R253: the stages a reset predictor is made of hold zeros. -/
theorem zeroPred_zero {stages : List StageCfg} {st : StageState} (h : st ∈ zeroPred stages) :
    (∀ x ∈ st.coef, x = 0) ∧ (∀ x ∈ st.hist, x = 0) := by
  obtain ⟨g, -, rfl⟩ := List.mem_map.1 h
  exact ⟨fun _ => List.eq_of_mem_replicate, fun _ => List.eq_of_mem_replicate⟩

theorem pred_hwReset (s : State) :
    (hwReset s).pred = List.replicate s.params.maxChannels (zeroPred (hwReset s).cfg.stages) := rfl

/-- The BitReader's entropy state is the one WIRE_FORMAT resets to (R206, R213). -/
theorem br_hwReset (s : State) :
    (hwReset s).br = { start := 0, len := 0, fetched := 0, buf := [], p := 0, ent := wireReset s.params.wireFormat } := by
  cases hf : s.params.wireFormat <;> simp [hwReset, State.reset, wireReset, hf]

/-- Settles O9: the predictors and the BitReader by the lemmas above, every other field as `hwReset` writes it. -/
theorem resetInternalState : Obligations.ResetInternalState := by
  intro s
  have hzero : ∀ sts ∈ (hwReset s).pred, ∀ st ∈ sts, (∀ x ∈ st.coef, x = 0) ∧ (∀ x ∈ st.hist, x = 0) := by
    intro sts hsts st hst
    rw [pred_hwReset] at hsts
    rw [List.eq_of_mem_replicate hsts] at hst
    exact zeroPred_zero hst
  exact ⟨rfl, rfl, rfl, rfl, br_hwReset s, List.length_replicate, hzero, rfl, rfl, rfl, rfl, rfl, rfl⟩

/-! ## The invariant after reset -/

/-- The counts and offsets of the first reset are 0. -/
theorem narrow_reset : Narrow State.reset := by
  have h : (0 : Nat) < 2 ^ 64 := by decide
  exact ⟨unspecifiedCfg_narrow 0, ⟨h, h, h, h⟩, ⟨h, h, le_rfl⟩, ⟨h, h, le_rfl, Nat.zero_le _⟩,
    ⟨unspecifiedCap_lt 0, h, h, Nat.zero_le _⟩, by decide, h, h⟩

theorem base_reset : Base State.reset := ⟨by decide, rfl, rfl, List.length_replicate⟩

/-- Settles O59: no session is open after a reset, so only the counts and offsets are left to bound. -/
theorem resetInv : Obligations.ResetInv :=
  ⟨inv_idle base_reset narrow_reset rfl (.inl rfl),
    fun s hw hlen hpos hroom => inv_reset s s.host.prog hw (Narrow.reset hlen hpos hroom s.host.prog)⟩

/-! ## The protection of the configuration (R499) -/

theorem configWritable_eq_false (h : s.life.fsm ≠ .uninitialized ∨ s.regs.busy = true) : configWritable s = false := by
  rw [Bool.eq_false_iff, Ne, configWritable_iff]
  rintro ⟨hfsm, hbusy⟩
  exact h.elim (· hfsm) fun hb => absurd (hb.symm.trans hbusy) (by decide)

/-- From 0x20 on REG holds RES, DESC and reserved words. -/
theorem hostWrite_reg_protected {w : Width} {addr : DWord} {o : Nat} (v : DWord) (hc : configWritable s = false)
    (hr : regionOf s.params addr = .reg o) (ho : 0x20 ≤ o) : hostWrite w addr v s = s := by
  simp [hostWrite, hr, writeReg_desc _ (.inr ho), hc]

theorem hostWrite_seektab_protected {w : Width} {addr : DWord} {o : Nat} (v : DWord) (hc : configWritable s = false)
    (hr : regionOf s.params addr = .seektab o) : hostWrite w addr v s = s := by
  simp [hostWrite, hr, hc]

/-- Settles O15: both spaces are written only where the configuration is writable. -/
theorem configurationProtected : Obligations.ConfigurationProtected := fun _ _ _ v h =>
  have hc := configWritable_eq_false h
  ⟨fun _ hr ho => hostWrite_reg_protected v hc hr ho, fun _ hr => hostWrite_seektab_protected v hc hr⟩

end Sys2Proof.Machine
end
